-- ==== Sys2Proof/Word.lean ====
section
/-! DEFINITION. The word types of the GKV-9200 (spec/00_scope.md R2, R3; spec/02_instruction_words.md R29, R31). -/
namespace Sys2Proof

/-- One byte of memory. -/
abbrev Byte := BitVec 8

/-- A register of one lane, or an instruction word (R29). -/
abbrev Word := BitVec 32

/-- A 64-bit control register, program counter or memory doubleword. -/
abbrev Dword := BitVec 64

/-- An encoded register number, or a tile number (R31). -/
abbrev Reg := BitVec 7

/-- A set of lanes: bit `i` stands for lane `i` (R88). -/
abbrev LaneMask := BitVec 32

end Sys2Proof
end

