-- ==== Sys2Proof/Config.lean ====
section
/-! DEFINITION. What the manual leaves to the implementation, and its free values. A free value is a constant without a body,
so that no proof can see what it is. -/
namespace Sys2Proof.Config

/-- The `n`-th free word: a value of a register or a result that the manual does not state. `State.free` counts the words
drawn. -/
opaque freeWord : Nat → Word

/-- The two signatures over the numbers of an attestation report (R336), the LMS one by its one-time key's index: the identity keys are
fused secrets. -/
opaque ecdsaSign : List Nat → BitVec 768
opaque lmsSign : Nat → List Nat → List Byte

/-- Device memory ends at 512 GiB (R21). -/
def memBytes : Nat := 2 ^ 39

/-- The skew bound of device time, in ticks (R15). -/
def skew : Nat := 4

end Sys2Proof.Config
end

