-- ==== Sys2Proof/Syntax.lean ====
section
/-! DEFINITION. The instructions and events of the GKV-9200, one constructor for each row of spec/opcode_table.json.

The first 182 constructors are instruction words (spec/02_instruction_words.md R30, R34-R36). Their arguments are the
fields that the word's card reads: `d`, `a`, `b` encoded registers or tiles, `m` the modifier, `i` imm10, `j` imm17,
`h` a handle window slot, `o` off5, `c` cond3, `f` off14. A field that a card does not read is no argument; it is 0 in
the word (R36).

The last 64 are the steps of the opcode table that no word encodes (spec/95_what_each_step_holds.md): things that
the device's own agents, its host and its links do. Their arguments say which pending happening takes place, or what
the outside world supplies. -/
namespace Sys2Proof

/-- The data engines of a core (R214). -/
inductive DataEngine where
  | copy | rill | cascade
  deriving DecidableEq, Repr

/-- The requesters of a scratchpad bank, in the order of R146. -/
inductive BankReq where
  | lane | peer | matrix | copy | rill | cascade | sluice
  deriving DecidableEq, Repr

/-- The tag that a row carries on Vrel (R263): source device, context, route id, token and slot. -/
structure VrelTag where
  dev : Nat
  ctx : Nat
  rid : Nat
  t : Nat
  slot : Nat
  deriving DecidableEq, Repr

/-- A row on its way to a receive buffer of this device (R264). -/
structure VrelRow where
  tag : VrelTag
  buf : Nat
  idx : Nat
  words : List (BitVec 32)
  /-- The words, by position, that a poisoned source word feeds (R258). -/
  bad : List Nat
  deriving DecidableEq, Repr

/-- A protected unit of storage, or the row of one that a march test works on (R158, R159, R161). -/
inductive StorageUnit where
  | l1Line (core ctx vline : Nat)
  | sliceClean (pline : Nat)
  | sliceDirty (pline : Nat)
  | hbm (pa : Nat)
  | scratch (core word : Nat)
  | register (g n : Nat)
  | basin (g : Nat)
  | accumulator (g idx : Nat)
  | tlb (cl ctx vpage : Nat)
  | lltlb (chip ctx vpage : Nat)
  | coreUnit (core : Nat)
  | sliceUnit (slice : Nat)
  deriving DecidableEq, Repr

/-- A detected storage error; `dbl` says that it is a double-bit error (R158). -/
structure StorageError where
  unit : StorageUnit
  dbl : Bool
  deriving DecidableEq, Repr

/-- What the five checks of the boot ROM find in a firmware image (R335), its digest, and where its verified firmware starts. -/
structure ImageCheck where
  headerOk : Bool
  bytes : Nat
  keyHashOk : Bool
  version : Nat
  minVersion : Nat
  ecdsaOk : Bool
  lmsOk : Bool
  digest : BitVec 384
  ctx : Nat
  entry : BitVec 64
  deriving DecidableEq, Repr

/-- Host requests that complete with Unsupported Request (R329, R330). -/
inductive HostRequest where
  | atomic (a : Nat)
  | bar0 (a n : Nat) (write : Bool)
  | bar2 (o : Nat) (write : Bool)
  deriving DecidableEq, Repr

/-- The instructions and events of the device, one constructor for each row of the opcode table. -/
inductive Instr where
  /-- ADD (R93), opcode 0x01: Lane add, wrapped or saturating by m, in each active lane. -/
  | add (d a b : Reg) (m : BitVec 3)
  /-- SUB (R93), opcode 0x02: Lane subtract, wrapped or saturating by m. -/
  | sub (d a b : Reg) (m : BitVec 3)
  /-- MUL (R93), opcode 0x03: Lane multiply, low word or signed/unsigned high word by m. -/
  | mul (d a b : Reg) (m : BitVec 3)
  /-- MAD (R93), opcode 0x04: Lane multiply-add reading d, wrapped or saturating. -/
  | mad (d a b : Reg) (m : BitVec 3)
  /-- MIN (R93), opcode 0x05: Lane signed or unsigned minimum. -/
  | min (d a b : Reg) (m : BitVec 3)
  /-- MAX (R93), opcode 0x06: Lane signed or unsigned maximum. -/
  | max (d a b : Reg) (m : BitVec 3)
  /-- AND (R93), opcode 0x07: Lane bitwise AND. -/
  | and (d a b : Reg)
  /-- OR (R93), opcode 0x08: Lane bitwise OR. -/
  | or (d a b : Reg)
  /-- XOR (R93), opcode 0x09: Lane bitwise XOR. -/
  | xor (d a b : Reg)
  /-- ANDN (R93), opcode 0x0A: Lane AND with complement of b. -/
  | andn (d a b : Reg)
  /-- SHL (R93), opcode 0x0B: Lane shift left, zero for amounts of 32 or more. -/
  | shl (d a b : Reg)
  /-- SHR (R93), opcode 0x0C: Lane logical or arithmetic shift right. -/
  | shr (d a b : Reg) (m : BitVec 3)
  /-- ROT (R93), opcode 0x0D: Lane rotate left or right by y[4:0]. -/
  | rot (d a b : Reg) (m : BitVec 3)
  /-- BFE (R93), opcode 0x0E: Lane bit-field extract, zero or sign extended. -/
  | bfe (d a b : Reg) (m : BitVec 3)
  /-- BFI (R93), opcode 0x0F: Lane bit-field insert into d. -/
  | bfi (d a b : Reg)
  /-- BITC (R93), opcode 0x10: Lane population count, leading/trailing zeros or bit reverse. -/
  | bitc (d a : Reg) (m : BitVec 3)
  /-- SEL (R93), opcode 0x11: Lane select of a or b by d. -/
  | sel (d a b : Reg)
  /-- CMP (R93), opcode 0x12: Lane integer compare writing 1 or 0. -/
  | cmp (d a b : Reg) (m : BitVec 3)
  /-- ADDI (R94), opcode 0x13: Lane add of signed immediate. -/
  | addi (d a : Reg) (i : BitVec 10)
  /-- ANDI (R94), opcode 0x14: Lane AND with sign-extended immediate. -/
  | andi (d a : Reg) (i : BitVec 10)
  /-- ORI (R94), opcode 0x15: Lane OR with zero-extended immediate. -/
  | ori (d a : Reg) (i : BitVec 10)
  /-- XORI (R94), opcode 0x16: Lane XOR with sign-extended immediate. -/
  | xori (d a : Reg) (i : BitVec 10)
  /-- SHLI (R94), opcode 0x17: Lane shift left by immediate. -/
  | shli (d a : Reg) (i : BitVec 10)
  /-- SHRI (R94), opcode 0x18: Lane logical or arithmetic shift right by immediate. -/
  | shri (d a : Reg) (i : BitVec 10)
  /-- CMPI (R94), opcode 0x19: Lane three-way signed compare with immediate. -/
  | cmpi (d a : Reg) (i : BitVec 10)
  /-- MOVI (R95), opcode 0x1A: Lane move of sign-extended immediate. -/
  | movi (d : Reg) (i : BitVec 10)
  /-- LID (R95), opcode 0x1B: Lane writes its lane, block-lane or launch-lane index. -/
  | lid (d : Reg) (m : BitVec 3)
  /-- MOV (R95), opcode 0x1E: Lane register move. -/
  | mov (d a : Reg)
  /-- LEA (R96), opcode 0x1F: Lane checked handle offset computation without memory access. -/
  | lea (d : Reg) (h : BitVec 5) (a : Reg) (o : BitVec 5)
  /-- IF (R98-R100), opcode 0x20: Opens a conditional region, updating nesting counters by lane condition. -/
  | laneIf (a : Reg) (m : BitVec 3)
  /-- IFI (R98-R100), opcode 0x21: Opens a conditional region on a masked test of a. -/
  | laneIfi (a : Reg) (i : BitVec 10)
  /-- ELSE (R98-R100), opcode 0x22: Inverts activity within the innermost if region. -/
  | laneElse
  /-- ENDIF (R98-R100), opcode 0x23: Closes an if region, decrementing counters. -/
  | endif
  /-- LBEG (R98-R100), opcode 0x24: Opens a structured loop. -/
  | lbeg
  /-- BRK (R98-R100), opcode 0x25: Breaks lanes out of the loop at depth n. -/
  | brk (a : Reg) (i : BitVec 10)
  /-- CONT (R98-R100), opcode 0x26: Sends lanes to the next loop pass at depth n. -/
  | cont (a : Reg) (i : BitVec 10)
  /-- LNEXT (R98-R100), opcode 0x27: Reactivates continued lanes for the next pass. -/
  | lnext
  /-- LEND (R98-R100), opcode 0x28: Closes a loop, restoring broken and entry lanes. -/
  | lend
  /-- LEXIT (R103), opcode 0x29: Exits active lanes meeting the condition, ending the split if empty. -/
  | lexit (a : Reg) (m : BitVec 3)
  /-- FADD (R106), opcode 0x30: FP32 add rounded by mode. -/
  | fadd (d a b : Reg) (m : BitVec 3)
  /-- FSUB (R106), opcode 0x31: FP32 subtract rounded by mode. -/
  | fsub (d a b : Reg) (m : BitVec 3)
  /-- FMUL (R106), opcode 0x32: FP32 multiply rounded by mode. -/
  | fmul (d a b : Reg) (m : BitVec 3)
  /-- FFMA (R106), opcode 0x33: FP32 fused multiply-add with one rounding. -/
  | ffma (d a b : Reg) (m : BitVec 3)
  /-- FMIN (R107), opcode 0x34: FP32 minimum selecting an operand. -/
  | fmin (d a b : Reg)
  /-- FMAX (R107), opcode 0x35: FP32 maximum selecting an operand. -/
  | fmax (d a b : Reg)
  /-- FCMP (R108), opcode 0x36: FP32 compare writing 1 or 0. -/
  | fcmp (d a b : Reg) (m : BitVec 3)
  /-- FRCP (R112), opcode 0x37: Correctly rounded FP32 reciprocal. -/
  | frcp (d a : Reg) (m : BitVec 3)
  /-- FRSQ (R112), opcode 0x38: Correctly rounded reciprocal square root. -/
  | frsq (d a : Reg)
  /-- FSQRT (R112), opcode 0x39: Correctly rounded square root. -/
  | fsqrt (d a : Reg) (m : BitVec 3)
  /-- FEXP2 (R112), opcode 0x3A: Correctly rounded base-2 exponential. -/
  | fexp2 (d a : Reg)
  /-- FLOG2 (R112), opcode 0x3B: Correctly rounded base-2 logarithm. -/
  | flog2 (d a : Reg)
  /-- FSINPI (R112), opcode 0x3C: Correctly rounded sin(pi x). -/
  | fsinpi (d a : Reg)
  /-- FSGN (R109), opcode 0x3D: Sign-bit copy, negate, absolute or XOR. -/
  | fsgn (d a b : Reg) (m : BitVec 3)
  /-- FCLASS (R110), opcode 0x3E: Classifies an FP32 value as a one-hot mask. -/
  | fclass (d a : Reg)
  /-- FRND (R111), opcode 0x3F: Rounds FP32 to an integral FP32 value. -/
  | frnd (d a : Reg) (m : BitVec 3)
  /-- I2F (R113), opcode 0x40: Converts integer, RES or fixed-point to FP32. -/
  | i2f (d a b : Reg) (m : BitVec 3)
  /-- F2I (R114), opcode 0x41: Converts FP32 to saturated integer, RES or fixed-point. -/
  | f2i (d a b : Reg) (m : BitVec 3)
  /-- PKH (R115), opcode 0x42: Packs two FP32 values into f16 pair. -/
  | pkh (d a b : Reg) (m : BitVec 3)
  /-- PKB (R115), opcode 0x43: Packs two FP32 values into bf16 pair. -/
  | pkb (d a b : Reg) (m : BitVec 3)
  /-- PK8 (R116), opcode 0x44: Packs two FP32 values into FP8 elements. -/
  | pk8 (d a b : Reg) (m : BitVec 3)
  /-- UNPK (R117), opcode 0x45: Widens one packed element to FP32 exactly. -/
  | unpk (d a b : Reg)
  /-- HFMA2 (R118), opcode 0x46: Packed 16-bit fused multiply-add. -/
  | hfma2 (d a b : Reg) (m : BitVec 3)
  /-- HADD2 (R118), opcode 0x47: Packed 16-bit add. -/
  | hadd2 (d a b : Reg) (m : BitVec 3)
  /-- HMUL2 (R118), opcode 0x48: Packed 16-bit multiply. -/
  | hmul2 (d a b : Reg) (m : BitVec 3)
  /-- RND (R120), opcode 0x49: Draws raw or uniform value from the lane generator. -/
  | rnd (d : Reg) (m : BitVec 3)
  /-- HCMP2 (R119), opcode 0x4A: Packed 16-bit compare writing element masks. -/
  | hcmp2 (d a b : Reg) (m : BitVec 3)
  /-- SHFL (R127), opcode 0x50: Reads another lane's register by per-lane selector. -/
  | shfl (d a b : Reg) (m : BitVec 3)
  /-- SHFLI (R128), opcode 0x51: Segmented shuffle with immediate mode, width and distance. -/
  | shfli (d a : Reg) (i : BitVec 10)
  /-- VOTE (R129), opcode 0x52: Combines flags of active lanes into one result. -/
  | vote (d a : Reg) (m : BitVec 3)
  /-- SCAN (R131), opcode 0x53: Inclusive or exclusive prefix over active lanes. -/
  | scan (d a b : Reg) (m : BitVec 3)
  /-- RED (R132), opcode 0x54: Reduction over active lanes to every active lane. -/
  | red (d a b : Reg)
  /-- TOPK (R137), opcode 0x55: Descending rank or top-k selection per lane. -/
  | topk (d a b : Reg) (m : BitVec 3)
  /-- SORT (R136), opcode 0x56: Sorts active lanes' keys or indices by rank. -/
  | sort (d a b : Reg) (m : BitVec 3)
  /-- MATCH (R133), opcode 0x57: Compares values across active lanes. -/
  | matchLanes (d a : Reg) (m : BitVec 3)
  /-- LD_N8 (R149), opcode 0x60: Weak load of a zero-extended byte. -/
  | ldN8 (d : Reg) (h : BitVec 5) (a : Reg) (o : BitVec 5)
  /-- LD_I8 (R149), opcode 0x61: Weak load of a sign-extended byte. -/
  | ldI8 (d : Reg) (h : BitVec 5) (a : Reg) (o : BitVec 5)
  /-- LD_N16 (R149), opcode 0x62: Weak load of a zero-extended halfword. -/
  | ldN16 (d : Reg) (h : BitVec 5) (a : Reg) (o : BitVec 5)
  /-- LD_I16 (R149), opcode 0x63: Weak load of a sign-extended halfword. -/
  | ldI16 (d : Reg) (h : BitVec 5) (a : Reg) (o : BitVec 5)
  /-- LD_B32 (R149), opcode 0x64: Weak load of a word. -/
  | ldB32 (d : Reg) (h : BitVec 5) (a : Reg) (o : BitVec 5)
  /-- LD_B64 (R149), opcode 0x65: Weak load of a doubleword into two registers. -/
  | ldB64 (d : Reg) (h : BitVec 5) (a : Reg) (o : BitVec 5)
  /-- LD_B128 (R149), opcode 0x66: Weak load of 16 bytes into four registers. -/
  | ldB128 (d : Reg) (h : BitVec 5) (a : Reg) (o : BitVec 5)
  /-- LDS_B32 (R149), opcode 0x67: Strong acquiring load of a word. -/
  | ldsB32 (d : Reg) (h : BitVec 5) (a : Reg) (o : BitVec 5)
  /-- LDS_B64 (R149), opcode 0x68: Strong acquiring load of a doubleword. -/
  | ldsB64 (d : Reg) (h : BitVec 5) (a : Reg) (o : BitVec 5)
  /-- ST_B8 (R150), opcode 0x69: Weak store of a byte. -/
  | stB8 (d : Reg) (h : BitVec 5) (a : Reg) (o : BitVec 5)
  /-- ST_B16 (R150), opcode 0x6A: Weak store of a halfword. -/
  | stB16 (d : Reg) (h : BitVec 5) (a : Reg) (o : BitVec 5)
  /-- ST_B32 (R150), opcode 0x6B: Weak store of a word. -/
  | stB32 (d : Reg) (h : BitVec 5) (a : Reg) (o : BitVec 5)
  /-- ST_B64 (R150), opcode 0x6C: Weak store of a doubleword. -/
  | stB64 (d : Reg) (h : BitVec 5) (a : Reg) (o : BitVec 5)
  /-- ST_B128 (R150), opcode 0x6D: Weak store of 16 bytes. -/
  | stB128 (d : Reg) (h : BitVec 5) (a : Reg) (o : BitVec 5)
  /-- STS_B32 (R150), opcode 0x6E: Strong releasing store of a word. -/
  | stsB32 (d : Reg) (h : BitVec 5) (a : Reg) (o : BitVec 5)
  /-- STS_B64 (R150), opcode 0x6F: Strong releasing store of a doubleword. -/
  | stsB64 (d : Reg) (h : BitVec 5) (a : Reg) (o : BitVec 5)
  /-- AADD (R154), opcode 0x70: Atomic 32-bit add returning the old value. -/
  | aadd (d : Reg) (h : BitVec 5) (a : Reg) (o : BitVec 5)
  /-- AFADD (R154), opcode 0x71: Atomic FP32 add. -/
  | afadd (d : Reg) (h : BitVec 5) (a : Reg) (o : BitVec 5)
  /-- AMIN (R154), opcode 0x72: Atomic signed minimum. -/
  | amin (d : Reg) (h : BitVec 5) (a : Reg) (o : BitVec 5)
  /-- AMAX (R154), opcode 0x73: Atomic signed maximum. -/
  | amax (d : Reg) (h : BitVec 5) (a : Reg) (o : BitVec 5)
  /-- AAND (R154), opcode 0x74: Atomic AND. -/
  | aand (d : Reg) (h : BitVec 5) (a : Reg) (o : BitVec 5)
  /-- AOR (R154), opcode 0x75: Atomic OR. -/
  | aor (d : Reg) (h : BitVec 5) (a : Reg) (o : BitVec 5)
  /-- AXOR (R154), opcode 0x76: Atomic XOR. -/
  | axor (d : Reg) (h : BitVec 5) (a : Reg) (o : BitVec 5)
  /-- AXCH (R154), opcode 0x77: Atomic exchange. -/
  | axch (d : Reg) (h : BitVec 5) (a : Reg) (o : BitVec 5)
  /-- ACAS (R154), opcode 0x78: Atomic compare-and-swap. -/
  | acas (d : Reg) (h : BitVec 5) (a : Reg) (o : BitVec 5)
  /-- AADD64 (R154), opcode 0x79: Atomic 64-bit add. -/
  | aadd64 (d : Reg) (h : BitVec 5) (a : Reg) (o : BitVec 5)
  /-- GNOP (R88), opcode 0x80: Group no-operation. -/
  | gnop
  /-- GADD (R83), opcode 0x81: Group add, wrapped or saturating. -/
  | gadd (d a b : Reg) (m : BitVec 3)
  /-- GSUB (R83), opcode 0x82: Group subtract. -/
  | gsub (d a b : Reg) (m : BitVec 3)
  /-- GMUL (R83), opcode 0x83: Group multiply, low or high word. -/
  | gmul (d a b : Reg) (m : BitVec 3)
  /-- GAND (R83), opcode 0x84: Group AND. -/
  | gand (d a b : Reg)
  /-- GOR (R83), opcode 0x85: Group OR. -/
  | gor (d a b : Reg)
  /-- GXOR (R83), opcode 0x86: Group XOR. -/
  | gxor (d a b : Reg)
  /-- GSHL (R83), opcode 0x87: Group shift left. -/
  | gshl (d a b : Reg)
  /-- GSHR (R83), opcode 0x88: Group logical or arithmetic shift right. -/
  | gshr (d a b : Reg) (m : BitVec 3)
  /-- GMIN (R83), opcode 0x89: Group signed or unsigned minimum. -/
  | gmin (d a b : Reg) (m : BitVec 3)
  /-- GMAX (R83), opcode 0x8A: Group signed or unsigned maximum. -/
  | gmax (d a b : Reg) (m : BitVec 3)
  /-- GCMP (R83), opcode 0x8B: Group compare writing 1 or 0. -/
  | gcmp (d a b : Reg) (m : BitVec 3)
  /-- GSEL (R83), opcode 0x8C: Group select by d. -/
  | gsel (d a b : Reg)
  /-- GADDI (R84), opcode 0x8D: Group add of signed immediate. -/
  | gaddi (d a : Reg) (i : BitVec 10)
  /-- GANDI (R84), opcode 0x8E: Group AND with sign-extended immediate. -/
  | gandi (d a : Reg) (i : BitVec 10)
  /-- GORI (R84), opcode 0x8F: Group OR with zero-extended immediate. -/
  | gori (d a : Reg) (i : BitVec 10)
  /-- GCMPI (R84), opcode 0x90: Group three-way signed compare with immediate. -/
  | gcmpi (d a : Reg) (i : BitVec 10)
  /-- GSET (R85), opcode 0x91: Group set of sign-extended 17-bit immediate. -/
  | gset (d : Reg) (j : BitVec 17)
  /-- GSETH (R85), opcode 0x92: Group set of bits 31:17 keeping bits 16:0 of d. -/
  | gseth (d : Reg) (j : BitVec 17)
  /-- GMOV (R83), opcode 0x93: Group register move. -/
  | gmov (d a : Reg)
  /-- GRDC (R86), opcode 0x94: Reads a control register into group registers. -/
  | grdc (d : Reg) (i : BitVec 10)
  /-- GWRC (R86), opcode 0x95: Writes a control register, faulting on supervisor registers in user mode; the row for register writes without a row of their own. -/
  | gwrc (a : Reg) (i : BitVec 10)
  /-- GLEA (R87), opcode 0x96: Checked scaled offset on a group-form memory operand. -/
  | glea (d a b : Reg) (m : BitVec 3)
  /-- GCLOCK (R88), opcode 0x97: Reads low or high word of device time, or retired count in ordered mode. -/
  | gclock (d : Reg) (m : BitVec 3)
  /-- GBITC (R83), opcode 0x98: Group bit count, leading or trailing zeros. -/
  | gbitc (d a : Reg) (m : BitVec 3)
  /-- GID (R88), opcode 0x99: Reads split masks, index, leader or split count. -/
  | gid (d : Reg) (m : BitVec 3)
  /-- GBFE (R83), opcode 0x9A: Group bit-field extract. -/
  | gbfe (d a b : Reg) (m : BitVec 3)
  /-- GMAD (R83), opcode 0x9B: Group multiply-add. -/
  | gmad (d a b : Reg)
  /-- GBR (R77), opcode 0xA0: Unconditional branch of the whole split. -/
  | gbr (f : BitVec 14)
  /-- GBC (R77), opcode 0xA1: Conditional branch of the whole split on leader register or activity. -/
  | gbc (a : Reg) (c : BitVec 3) (f : BitVec 14)
  /-- GBRD (R79), opcode 0xA2: Lane-wise branch dividing the split when lanes disagree. -/
  | gbrd (a : Reg) (c : BitVec 3) (f : BitVec 14)
  /-- GJOIN (R80), opcode 0xA3: Merges splits at a join, waiting or not. -/
  | gjoin (m : BitVec 3)
  /-- GCALL (R77), opcode 0xA4: Writes link register and branches. -/
  | gcall (a : Reg) (f : BitVec 14)
  /-- GRET (R78), opcode 0xA5: Jumps to a register address, predicted as return. -/
  | gret (a : Reg)
  /-- GJR (R78), opcode 0xA6: Jumps to a register address. -/
  | gjr (a : Reg)
  /-- GREGION (R81), opcode 0xA7: Sets the split's region entry to its own PC. -/
  | gregion
  /-- GEXIT (R82), opcode 0xA8: Exits every member lane and ends the split, freeing the group when last. -/
  | gexit
  /-- GTRAP (R280), opcode 0xA9: Raises F_TRAP deliberately. -/
  | gtrap (j : BitVec 17)
  /-- GRESUME (R279), opcode 0xAA: Ends the handler by replaying the region, continuing or exiting. -/
  | gresume (m : BitVec 3)
  /-- GPARK (R283), opcode 0xAB: Registers a wait that parks the group. -/
  | gpark (d a b : Reg) (m : BitVec 3)
  /-- GMAP (R282), opcode 0xAC: Maps a first-touch page from the device-local pool, returning a status. -/
  | gmap (d a b : Reg) (m : BitVec 3)
  /-- GSPLINTER (R302), opcode 0xAD: Replaces a large leaf with a table of smaller leaves. -/
  | gsplinter (d a : Reg) (m : BitVec 3)
  /-- GINVAL_PG (R304), opcode 0xAE: Removes translations over a page range, waiting for bundles. -/
  | ginvalPg (d a b : Reg)
  /-- GINVAL_HND (R304), opcode 0xAE: Removes cached copies of handle entries. -/
  | ginvalHnd (d a b : Reg)
  /-- GINVAL_XON (R304), opcode 0xAE: Freezes, scans and accepts a range as executable. -/
  | ginvalXon (d a b : Reg)
  /-- GINVAL_XOFF (R304), opcode 0xAE: Withdraws executable acceptance and invalidates the range. -/
  | ginvalXoff (d a b : Reg)
  /-- GINVAL_RVK (R304), opcode 0xAE: Invalidates a range revoking covered bundles. -/
  | ginvalRvk (d a b : Reg)
  /-- GFENCE (R166), opcode 0xB0: Orders earlier memory accesses before later ones at a scope. -/
  | gfence (m : BitVec 3)
  /-- GBAR (R208), opcode 0xB1: Arrives and waits at a block barrier. -/
  | gbar (i : BitVec 10)
  /-- GPBAR (R209), opcode 0xB2: Arrives and waits at a party barrier. -/
  | gpbar (i : BitVec 10)
  /-- GARRIVE (R212), opcode 0xB3: Atomic arrival on a barrier object. -/
  | garrive (d a b : Reg)
  /-- GWAITU (R197), opcode 0xB4: Registers a monitor and waits until a word satisfies a condition. -/
  | gwaitu (d a b : Reg) (m : BitVec 3)
  /-- GWAITC (R206), opcode 0xB5: Waits until per-class counters fall to limits. -/
  | gwaitc (j : BitVec 17)
  /-- GYIELD (R207), opcode 0xB6: Gives up issue to other ready splits. -/
  | gyield
  /-- GCOPY (R214), opcode 0xC0: Issues a copy engine command. -/
  | gcopy (d a b : Reg) (m : BitVec 3)
  /-- GGATHER (R214), opcode 0xC1: Issues a Rill gather command. -/
  | ggather (d a b : Reg) (m : BitVec 3)
  /-- GSCADD (R214), opcode 0xC2: Issues a Cascade scatter-add command. -/
  | gscadd (d a b : Reg) (m : BitVec 3)
  /-- GROUTE (R249), opcode 0xC3: Issues a Sluice route command. -/
  | groute (d a b : Reg) (m : BitVec 3)
  /-- GRSEL (R249), opcode 0xC4: Issues a Sluice column selection command. -/
  | grsel (d a b : Reg) (m : BitVec 3)
  /-- GRRETRY (R249), opcode 0xC5: Resends or closes unacknowledged rows of an open route. -/
  | grretry (d a b : Reg) (m : BitVec 3)
  /-- GPREF (R229), opcode 0xC6: Prefetch hint into slices or L1. -/
  | gpref (a b : Reg) (m : BitVec 3)
  /-- GBDECL (R180), opcode 0xD0: Declares a bundle id from a descriptor. -/
  | gbdecl (d a b : Reg)
  /-- GBENTER (R184), opcode 0xD1: Enters named bundles all or none, queueing or filling. -/
  | gbenter (d a : Reg)
  /-- GBLEAVE (R187), opcode 0xD2: Leaves named bundles and retests the bundle queue. -/
  | gbleave (d a : Reg)
  /-- GBQUERY (R188), opcode 0xD3: Reports bundle state. -/
  | gbquery (d a : Reg) (m : BitVec 3)
  /-- GBDROP (R189), opcode 0xD4: Marks bundle ids dropping and evicts resident copies. -/
  | gbdrop (d a : Reg)
  /-- GTILE (R233), opcode 0xE0: Writes one tile descriptor field. -/
  | gtile (d a : Reg) (i : BitVec 10)
  /-- GTILEG (R233), opcode 0xE1: Reads one tile descriptor field. -/
  | gtileg (d a : Reg) (i : BitVec 10)
  /-- MMA (R240), opcode 0xE2: Tile multiply-accumulate into D or the open chain. -/
  | mma (d a b : Reg) (m : BitVec 3)
  /-- MCHAIN (R239), opcode 0xE3: Opens an accumulation chain. -/
  | mchain (d : Reg) (m : BitVec 3)
  /-- MEND (R242), opcode 0xE4: Closes the chain, writing back or discarding. -/
  | mend (d a : Reg) (m : BitVec 3)
  /-- MSACC (R243), opcode 0xE5: Adds row- and column-scaled partial tile into D. -/
  | msacc (d a b : Reg) (m : BitVec 3)
  /-- TCVT (R244), opcode 0xE6: Converts every tile element to another format. -/
  | tcvt (d a : Reg) (m : BitVec 3)
  /-- TFILL (R245), opcode 0xE7: Fills a tile or its diagonal with one value. -/
  | tfill (d a : Reg) (m : BitVec 3)
  /-- GLAUNCH (R310), opcode 0xF0: Checks a launch record and queues the launch. -/
  | glaunch (d a : Reg)
  /-- GQEND (R311), opcode 0xF1: Cancels queued launches with no admitted block. -/
  | gqend (d a : Reg)
  /-- GALLOC (R73), opcode 0xF2: Changes the group's register allocation. -/
  | galloc (d a : Reg) (i : BitVec 10)
  /-- GDRAIN_WAIT (R311), opcode 0xF3: Waits until named queues are empty. -/
  | gdrainWait (d a : Reg)
  /-- GDRAIN_STOP (R311), opcode 0xF3: Stops a context and waits until all its blocks are absent. -/
  | gdrainStop (d a : Reg)
  /-- GDRAIN_RUN (R311), opcode 0xF3: Marks a stopped context's blocks Ready and resumes admission. -/
  | gdrainRun (d a : Reg)
  /-- GSVC (R281), opcode 0xF4: Posts a service record to the control cores. -/
  | gsvc (j : BitVec 17)
  /-- GQCFG (R293), opcode 0xF5: Configures ordered mode for a queue. -/
  | gqcfg (d a b : Reg) (m : BitVec 3)
  /-- K_BCAP_WRITE (R179): context `ctx` receives `K_BCAP` := `v`. -/
  | kBcapWrite (ctx : Nat) (v : BitVec 32)
  /-- LOAD_DATA_RETURN (R149): the data of pending access `id` of group `g` arrives. -/
  | loadDataReturn (g : Nat) (id : Nat)
  /-- STORE_ACK (R157): store `id` of group `g` is acknowledged. -/
  | storeAck (g : Nat) (id : Nat)
  /-- WINDOW_MISS_FILL (R67): register `n` of group `g` arrives in its window. -/
  | windowMissFill (g : Nat) (n : Nat)
  /-- COMPACTOR_STEP (R69): one step of the compactor of `core`. -/
  | compactorStep (core : Nat)
  /-- BANK_STARVE_PROMOTE (R146): `who`, refused `bank` of `core` for 16 cycles, moves to the front. -/
  | bankStarvePromote (core : Nat) (bank : Nat) (who : BankReq)
  /-- ENGINE_COMMAND_START (R223): the head of the queue of data engine `e` of `core` starts. -/
  | engineCommandStart (core : Nat) (e : DataEngine)
  /-- ENGINE_COMMAND_COMPLETE (R222): data-engine command `id` of `core` completes. -/
  | engineCommandComplete (core : Nat) (id : Nat)
  /-- TILE_COMMAND_START (R236): the matrix engine of `core` starts its queue head. -/
  | tileCommandStart (core : Nat)
  /-- TILE_COMMAND_COMPLETE (R234): tile command `id` of `core` completes. -/
  | tileCommandComplete (core : Nat) (id : Nat)
  /-- SLUICE_COMMAND_START (R268): the Sluice of cluster `cl` starts its queue head. -/
  | sluiceCommandStart (cl : Nat)
  /-- ROUTE_ROWS_SENT (R258): command `id` of the Sluice of `cl` ends its pass 2. -/
  | routeRowsSent (cl : Nat) (id : Nat)
  /-- SLUICE_COMMAND_COMPLETE (R261): command `id` of the Sluice of `cl` completes. -/
  | sluiceCommandComplete (cl : Nat) (id : Nat)
  /-- ROW_RETRANSMIT (R263): the retransmission timer of row (`t`, `slot`) of command `id` runs out. -/
  | rowRetransmit (cl : Nat) (id : Nat) (t : Nat) (slot : Nat)
  /-- ROW_ARRIVAL (R264): a row sent by another device arrives. -/
  | rowArrival (row : VrelRow)
  /-- ROW_ACK_ARRIVAL (R267): an acknowledgement arrives. -/
  | rowAckArrival (tag : VrelTag)
  /-- ROUTE_CLOSE_NOTICE (R265): device `dev` tells that its route closed. -/
  | routeCloseNotice (dev : Nat) (ctx : Nat) (rid : Nat)
  /-- FILTER_ENTRY_EXPIRE (R265): the duplicate-filter entries of a closed route run out. -/
  | filterEntryExpire (dev : Nat) (ctx : Nat) (rid : Nat)
  /-- DEVICE_UNREACHABLE (R337): Vrel reports device `dev` as unreachable. -/
  | deviceUnreachable (dev : Nat)
  /-- BUNDLE_FILL_COMPLETE (R194): the last line of bundle request `id` of `core` is present. -/
  | bundleFillComplete (core : Nat) (id : Nat)
  /-- BUNDLE_QUEUE_GRANT (R186): the head of the bundle queue of `core` is retested. -/
  | bundleQueueGrant (core : Nat)
  /-- GBDECL_DONE (R180): declaration `id` of group `g` reaches the bundle table. -/
  | gbdeclDone (g : Nat) (id : Nat)
  /-- WAIT_WAKE (R198): the wake of the ended wait of group `g` reaches its core. -/
  | waitWake (g : Nat)
  /-- WAIT_TIMEOUT (R200): the deadline of the wait of group `g` has passed. -/
  | waitTimeout (g : Nat)
  /-- GBAR_RELEASE (R208): barrier `id` of block `blk` is tested and releases. -/
  | gbarRelease (blk : Nat) (id : Nat)
  /-- GPBAR_RELEASE (R209): barrier `id` of the party of block `blk` is tested and releases. -/
  | gpbarRelease (blk : Nat) (id : Nat)
  /-- YIELD_EXPIRE (R207): split `sp` of group `g` has yielded for 64 cycles. -/
  | yieldExpire (g : Nat) (sp : Nat)
  /-- INVALIDATION_COMPLETE (R305): the drain conditions of the `ginval` of a split are tested. -/
  | invalidationComplete (g : Nat) (sp : Nat)
  /-- GMAP_DONE (R282): mapping `id` of group `g` is decided. -/
  | gmapDone (g : Nat) (id : Nat)
  /-- GSPLINTER_DONE (R302): the splinter of a split is performed. -/
  | gsplinterDone (g : Nat) (sp : Nat)
  /-- GLAUNCH_DONE (R310): the launch record of a split has been checked. -/
  | glaunchDone (g : Nat) (sp : Nat)
  /-- RETIREMENT_DRAIN (R82): the outstanding work of exited group `g` has drained. -/
  | retirementDrain (g : Nat)
  /-- LAUNCH_FINISH (R313): launch `lid` finishes. -/
  | launchFinish (lid : Nat)
  /-- PARK_TRIGGER (R284): the parking triggers of block `blk` are tested. -/
  | parkTrigger (blk : Nat)
  /-- PARK_TIME_EXPIRE (R284): group `g` has been parked for `K_PARKT` ticks. -/
  | parkTimeExpire (g : Nat)
  /-- BLOCK_DRAIN_COMPLETE (R287): the drain conditions of block `blk` are tested. -/
  | blockDrainComplete (blk : Nat)
  /-- BLOCK_SAVE_COMPLETE (R286): the images of block `blk` have been written. -/
  | blockSaveComplete (blk : Nat)
  /-- BLOCK_RESTORE_COMPLETE (R288): the images of block `blk` have been read. -/
  | blockRestoreComplete (blk : Nat)
  /-- PREEMPT_STOP_REQUEST (R289): the stop request of context `ctx` is taken. -/
  | preemptStopRequest (ctx : Nat)
  /-- QUANTUM_END (R325): the quantum of ordered launch `lid` ends. -/
  | quantumEnd (lid : Nat)
  /-- POWER_ALLOWANCE_CYCLE (R317): one cycle of the power allowance of cluster `cl`. -/
  | powerAllowanceCycle (cl : Nat)
  /-- SENSOR_SAMPLE (R318): the sensors read these (core, code) pairs. -/
  | sensorSample (codes : List (Nat × Nat))
  /-- POWER_GATE_BEGIN (R319): cluster `cl` begins power gating. -/
  | powerGateBegin (cl : Nat)
  /-- POWER_GATE_COMMIT (R319): the abortable phase of cluster `cl` ends. -/
  | powerGateCommit (cl : Nat)
  /-- CLUSTER_WAKE_COMPLETE (R319): cluster `cl` has woken. -/
  | clusterWakeComplete (cl : Nat)
  /-- STORAGE_ERROR_DETECTED (R158): an error is detected in storage. -/
  | storageErrorDetected (e : StorageError)
  /-- MARCH_TEST_COMPLETE (R159): the march test of a unit ends. -/
  | marchTestComplete (u : StorageUnit) (ok : Bool)
  /-- IMAGE_VERIFY (R335): the boot ROM verifies a firmware image. -/
  | imageVerify (img : ImageCheck)
  /-- PCIE_LINK_CHANGE (R333): the PCIe link comes up or is lost. -/
  | pcieLinkChange (up : Bool)
  /-- ETH_PORT_CHANGE (R337): Ethernet port `p` goes up or down. -/
  | ethPortChange (p : Nat) (up : Bool)
  /-- HBM_TRAINING_DONE (R333): HBM stack `k` finishes training. -/
  | hbmTrainingDone (k : Nat) (ok : Bool)
  /-- HOST_BAR0_READ (R330): the host reads `n` bytes at BAR0 offset `a`. -/
  | hostBar0Read (a : Nat) (n : Nat)
  /-- HOST_BAR0_WRITE (R176): the host writes bytes at BAR0 offset `a`. -/
  | hostBar0Write (a : Nat) (bs : List (BitVec 8))
  /-- HOST_BAR2_READ (R332): the host reads the 32-bit word at BAR2 offset `o`. -/
  | hostBar2Read (o : Nat)
  /-- HOST_MAILBOX_WRITE (R331): the host writes mailbox word `n`. -/
  | hostMailboxWrite (n : Nat) (v : BitVec 32)
  /-- HOST_UNSUPPORTED_REQUEST (R330): the host makes a request that the port does not support. -/
  | hostUnsupportedRequest (r : HostRequest)
  /-- ATTESTATION_REQUEST (R336): the host asks for an attestation report. -/
  | attestationRequest (nonce : BitVec 256)
  /-- CHECKPOINT_REGION_ACK (R338): the safe tier acknowledges region `r`. -/
  | checkpointRegionAck (r : Nat)
  /-- COMPLETION_TIME_REACHED (R156): device time has passed the completion time that group `g` holds. -/
  | completionTimeReached (g : Nat)
  /-- PCIE_READ_COMPLETION (R153): a zero-length PCIe read of host page `page` completes. -/
  | pcieReadCompletion (page : Nat)
  /-- SLICE_TRAINING_DONE (R333): every slice of cache chiplet `c` has finished training. -/
  | sliceTrainingDone (c : Nat)
  /-- ADMISSION_PASS (R314): the launch unit offers its candidates to the cores. -/
  | admissionPass
  /-- DEVICE_RESET (R335): the device is reset. -/
  | deviceReset
  /-- CHECKPOINT_START (R338): firmware starts the checkpoint engine. -/
  | checkpointStart
  deriving DecidableEq, Repr

end Sys2Proof
end

