-- ==== Sys2Proof/WellFormed.lean ====
section
/-! DEFINITION. Which instructions the code scanner accepts, as far as one word decides it: the legal m and cond3 values
(spec/02_instruction_words.md R46 reasons 5 and 9), the bits that a card leaves unread inside a field it keeps (reason 6) and
the spans of R38 (reason 7). The scan of a whole range, with its headers, patches, allocation and branch targets, is
`scanRange` of Machine/Translation.lean. -/
namespace Sys2Proof

/-- R38: a span of `n` registers from encoded base `r`: a direct base keeps it inside v0-v95, a window base inside 127. -/
def spanOk (r : Reg) (n : Nat) : Bool :=
  if r.toNat < 96 then decide (r.toNat + n ≤ 96) else decide (r.toNat + n ≤ 128)

/-- A tile field holds a tile number 0-15 with its bits 6:4 zero (R31). -/
def tileOk (r : Reg) : Bool := decide (r.toNat < 16)

/-- R214, R249: without `.arr` (m bit 0) field b is 0; under `.nt` (m bit 1) field d is 0. `[vA:vA+1]` and
`[vB:vB+1]` are spans of 2. -/
def engOk (d a b : Reg) (m : BitVec 3) : Bool :=
  spanOk a 2 && (m.getLsbD 0 || decide (b = 0)) && (!m.getLsbD 0 || spanOk b 2) && (!m.getLsbD 1 || decide (d = 0))

/-- R117: the type selectors of `unpk` whose elements are 16 bits wide. -/
def unpkWide (b : Reg) : Bool :=
  let t := (b.extractLsb' 0 3).toNat
  t == 0 || t == 1 || t == 6 || t == 7

/-- R39: the assigned control register numbers that are 32 bits wide. -/
def ctl32 : List Nat :=
  [0x000, 0x001, 0x002, 0x003, 0x004, 0x005, 0x006, 0x010, 0x011, 0x012, 0x021, 0x023, 0x030, 0x031, 0x032, 0x033,
   0x040, 0x041, 0x3F0, 0x3F1]

/-- R39: the assigned control register numbers that are 64 bits wide. -/
def ctl64 : List Nat := [0x020, 0x022, 0x024, 0x042, 0x043]

/-- R39: the control registers that no program writes. -/
def ctlFixed : List Nat :=
  [0x000, 0x001, 0x002, 0x003, 0x004, 0x005, 0x006, 0x021, 0x022, 0x023, 0x024, 0x040, 0x041, 0x042, 0x043, 0x3F1]

/-- R46 reason 9 and R38 for `grdc`: an assigned register; a 64-bit one takes a span of 2. -/
def grdcOk (d : Reg) (i : BitVec 10) : Bool :=
  ctl32.contains i.toNat || (ctl64.contains i.toNat && spanOk d 2)

/-- R46 reason 9 and R38 for `gwrc`: none of the registers that no program writes; `K_FVEC` takes a span of 2. R46 lets an unassigned
number pass (log entry 65). -/
def gwrcOk (a : Reg) (i : BitVec 10) : Bool :=
  !ctlFixed.contains i.toNat && (decide (i.toNat ≠ 0x020) || spanOk a 2)

/-- The checks of one instruction on its own fields. The events have no word and no check. -/
def Instr.wf : Instr → Bool
  | .add _ _ _ m => decide (m.toNat ≤ 2)
  | .sub _ _ _ m => decide (m.toNat ≤ 2)
  | .mul _ _ _ m => decide (m.toNat ≤ 2)
  | .mad _ _ _ m => decide (m.toNat ≤ 2)
  | .min _ _ _ m => decide (m.toNat ≤ 1)
  | .max _ _ _ m => decide (m.toNat ≤ 1)
  | .and _ _ _ => true
  | .or _ _ _ => true
  | .xor _ _ _ => true
  | .andn _ _ _ => true
  | .shl _ _ _ => true
  | .shr _ _ _ m => decide (m.toNat ≤ 1)
  | .rot _ _ _ m => decide (m.toNat ≤ 1)
  | .bfe _ _ _ m => decide (m.toNat ≤ 1)
  | .bfi _ _ _ => true
  | .bitc _ _ m => decide (m.toNat ≤ 3)
  | .sel _ _ _ => true
  | .cmp _ _ _ m => decide (m.toNat ≤ 5)
  | .addi _ _ _ => true
  | .andi _ _ _ => true
  | .ori _ _ _ => true
  | .xori _ _ _ => true
  | .shli _ _ _ => true
  | .shri _ _ _ => true
  | .cmpi _ _ _ => true
  | .movi _ _ => true
  | .lid _ m => decide (m.toNat ≤ 2)
  | .mov _ _ => true
  | .lea _ _ _ _ => true
  | .laneIf _ m => decide (m.toNat ≤ 3)
  | .laneIfi _ _ => true
  | .laneElse => true
  | .endif => true
  | .lbeg => true
  | .brk a i => decide ((2 ≤ (i.extractLsb' 8 2).toNat → a = 0))
  | .cont a i => decide ((2 ≤ (i.extractLsb' 8 2).toNat → a = 0))
  | .lnext => true
  | .lend => true
  | .lexit a m => decide (m.toNat ≤ 2 ∧ (m = 0 → a = 0))
  | .fadd _ _ _ m => decide (m.toNat ≤ 4)
  | .fsub _ _ _ m => decide (m.toNat ≤ 4)
  | .fmul _ _ _ m => decide (m.toNat ≤ 4)
  | .ffma _ _ _ m => decide (m.toNat ≤ 4)
  | .fmin _ _ _ => true
  | .fmax _ _ _ => true
  | .fcmp _ _ _ _ => true
  | .frcp _ _ m => decide (m.toNat ≤ 4)
  | .frsq _ _ => true
  | .fsqrt _ _ m => decide (m.toNat ≤ 4)
  | .fexp2 _ _ => true
  | .flog2 _ _ => true
  | .fsinpi _ _ => true
  | .fsgn _ _ b m => decide (m.toNat ≤ 3 ∧ (m = 1 ∨ m = 2 → b = 0))
  | .fclass _ _ => true
  | .frnd _ _ m => decide (m.toNat ≤ 4)
  | .i2f _ _ b m => decide (m.toNat ≤ 4 ∧ b.extractLsb' 2 5 = 0)
  | .f2i _ _ b m => decide (m.toNat ≤ 4 ∧ b.extractLsb' 3 4 = 0)
  | .pkh _ _ _ m => decide (m.toNat ≤ 4)
  | .pkb _ _ _ m => decide (m.toNat ≤ 4)
  | .pk8 _ _ _ m => decide (m ≠ 4 ∧ m ≠ 5)
  | .unpk _ _ b => decide (b.extractLsb' 5 2 = 0 ∧ (unpkWide b → b.extractLsb' 4 1 = 0))
  | .hfma2 _ _ _ m => decide (m.toNat ≤ 5)
  | .hadd2 _ _ _ m => decide (m.toNat ≤ 5)
  | .hmul2 _ _ _ m => decide (m.toNat ≤ 5)
  | .rnd _ m => decide (m.toNat ≤ 1)
  | .hcmp2 _ _ _ _ => true
  | .shfl _ _ _ m => decide (m ≠ 4 ∧ m ≠ 7)
  | .shfli _ _ _ => true
  | .vote _ _ m => decide (m.toNat ≤ 6)
  | .scan _ _ b m => decide (m.toNat ≤ 1 ∧ b.extractLsb' 3 4 = 0)
  | .red _ _ b => decide (b.extractLsb' 3 4 = 0)
  | .topk _ _ b m => decide (m ≠ 3 ∧ m ≠ 7 ∧ (4 ≤ m.toNat → b = 0))
  | .sort _ _ b m => decide (m.toNat ≤ 3 ∧ b.toNat ≤ 2)
  | .matchLanes _ _ m => decide (m.toNat ≤ 5)
  | .ldN8 _ _ _ _ => true
  | .ldI8 _ _ _ _ => true
  | .ldN16 _ _ _ _ => true
  | .ldI16 _ _ _ _ => true
  | .ldB32 _ _ _ _ => true
  | .ldB64 d _ _ _ => decide (spanOk d 2)
  | .ldB128 d _ _ _ => decide (spanOk d 4)
  | .ldsB32 _ _ _ _ => true
  | .ldsB64 d _ _ _ => decide (spanOk d 2)
  | .stB8 _ _ _ _ => true
  | .stB16 _ _ _ _ => true
  | .stB32 _ _ _ _ => true
  | .stB64 d _ _ _ => decide (spanOk d 2)
  | .stB128 d _ _ _ => decide (spanOk d 4)
  | .stsB32 _ _ _ _ => true
  | .stsB64 d _ _ _ => decide (spanOk d 2)
  | .aadd _ _ _ _ => true
  | .afadd _ _ _ _ => true
  | .amin _ _ _ _ => true
  | .amax _ _ _ _ => true
  | .aand _ _ _ _ => true
  | .aor _ _ _ _ => true
  | .axor _ _ _ _ => true
  | .axch _ _ _ _ => true
  | .acas d _ _ _ => decide (spanOk d 2)
  | .aadd64 d _ _ _ => decide (spanOk d 2)
  | .gnop => true
  | .gadd _ _ _ m => decide (m.toNat ≤ 2)
  | .gsub _ _ _ m => decide (m.toNat ≤ 2)
  | .gmul _ _ _ m => decide (m.toNat ≤ 2)
  | .gand _ _ _ => true
  | .gor _ _ _ => true
  | .gxor _ _ _ => true
  | .gshl _ _ _ => true
  | .gshr _ _ _ m => decide (m.toNat ≤ 1)
  | .gmin _ _ _ m => decide (m.toNat ≤ 1)
  | .gmax _ _ _ m => decide (m.toNat ≤ 1)
  | .gcmp _ _ _ m => decide (m.toNat ≤ 5)
  | .gsel _ _ _ => true
  | .gaddi _ _ _ => true
  | .gandi _ _ _ => true
  | .gori _ _ _ => true
  | .gcmpi _ _ _ => true
  | .gset _ _ => true
  | .gseth _ j => decide (j.extractLsb' 15 2 = 0)
  | .gmov _ _ => true
  | .grdc d i => decide (grdcOk d i)
  | .gwrc a i => decide (gwrcOk a i)
  | .glea _ a _ m => decide (m.toNat ≤ 4 ∧ spanOk a 2)
  | .gclock _ m => decide (m.toNat ≤ 1)
  | .gbitc _ _ m => decide (m.toNat ≤ 2)
  | .gid _ m => decide (m.toNat ≤ 4)
  | .gbfe _ _ _ m => decide (m.toNat ≤ 1)
  | .gmad _ _ _ => true
  | .gbr _ => true
  | .gbc a c _ => decide (1 ≤ c.toNat ∧ c.toNat ≤ 6 ∧ (5 ≤ c.toNat → a = 0))
  | .gbrd _ c _ => decide (1 ≤ c.toNat ∧ c.toNat ≤ 4)
  | .gjoin m => decide (m.toNat ≤ 1)
  | .gcall _ _ => true
  | .gret _ => true
  | .gjr _ => true
  | .gregion => true
  | .gexit => true
  | .gtrap _ => true
  | .gresume m => decide (m.toNat ≤ 2)
  | .gpark d a b _ => decide (spanOk d 2 ∧ spanOk a 2 ∧ spanOk b 2)
  | .gmap _ _ _ m => decide (m.toNat ≤ 2)
  | .gsplinter _ _ m => decide (m.toNat ≤ 1)
  | .ginvalPg _ _ _ => true
  | .ginvalHnd _ _ _ => true
  | .ginvalXon _ _ _ => true
  | .ginvalXoff _ _ _ => true
  | .ginvalRvk _ _ _ => true
  | .gfence m => decide (m.toNat ≤ 4)
  | .gbar i => decide (i.toNat ≤ 15)
  | .gpbar i => decide (i.toNat ≤ 3)
  | .garrive _ a _ => decide (spanOk a 2)
  | .gwaitu d a b _ => decide (spanOk d 2 ∧ spanOk a 2 ∧ spanOk b 2)
  | .gwaitc j => decide (j.extractLsb' 16 1 = 0)
  | .gyield => true
  | .gcopy d a b m => decide (m.toNat ≤ 3 ∧ engOk d a b m)
  | .ggather d a b m => decide (m.toNat ≤ 3 ∧ engOk d a b m)
  | .gscadd d a b m => decide (m.toNat ≤ 3 ∧ engOk d a b m)
  | .groute d a b m => decide (m.toNat ≤ 3 ∧ engOk d a b m)
  | .grsel d a b m => decide (m.toNat ≤ 3 ∧ engOk d a b m)
  | .grretry d a b m => decide (engOk d a b m)
  | .gpref a _ m => decide (m.toNat ≤ 1 ∧ spanOk a 2)
  | .gbdecl _ a _ => decide (spanOk a 2)
  | .gbenter _ _ => true
  | .gbleave _ _ => true
  | .gbquery _ a m => decide (m.toNat ≤ 5 ∧ (m ≠ 2 → a = 0))
  | .gbdrop _ _ => true
  | .gtile d _ _ => decide (tileOk d)
  | .gtileg _ a _ => decide (tileOk a)
  | .mma d a b m => decide (m.toNat ≤ 3 ∧ tileOk d ∧ tileOk a ∧ tileOk b)
  | .mchain d m => decide (m.toNat ≤ 3 ∧ tileOk d)
  | .mend _ a m => decide (m.toNat ≤ 1 ∧ tileOk a)
  | .msacc d a b m => decide (m.toNat ≤ 1 ∧ tileOk d ∧ tileOk a ∧ tileOk b)
  | .tcvt d a _ => decide (tileOk d ∧ tileOk a)
  | .tfill d _ m => decide (m.toNat ≤ 1 ∧ tileOk d)
  | .glaunch _ a => decide (spanOk a 2)
  | .gqend _ _ => true
  | .galloc _ a i => decide ((i ≠ 0 → a = 0))
  | .gdrainWait _ _ => true
  | .gdrainStop _ _ => true
  | .gdrainRun _ _ => true
  | .gsvc _ => true
  | .gqcfg _ _ _ m => decide (m.toNat ≤ 2)
  | .kBcapWrite _ _ => true
  | .loadDataReturn _ _ => true
  | .storeAck _ _ => true
  | .windowMissFill _ _ => true
  | .compactorStep _ => true
  | .bankStarvePromote _ _ _ => true
  | .engineCommandStart _ _ => true
  | .engineCommandComplete _ _ => true
  | .tileCommandStart _ => true
  | .tileCommandComplete _ _ => true
  | .sluiceCommandStart _ => true
  | .routeRowsSent _ _ => true
  | .sluiceCommandComplete _ _ => true
  | .rowRetransmit _ _ _ _ => true
  | .rowArrival _ => true
  | .rowAckArrival _ => true
  | .routeCloseNotice _ _ _ => true
  | .filterEntryExpire _ _ _ => true
  | .deviceUnreachable _ => true
  | .bundleFillComplete _ _ => true
  | .bundleQueueGrant _ => true
  | .gbdeclDone _ _ => true
  | .waitWake _ => true
  | .waitTimeout _ => true
  | .gbarRelease _ _ => true
  | .gpbarRelease _ _ => true
  | .yieldExpire _ _ => true
  | .invalidationComplete _ _ => true
  | .gmapDone _ _ => true
  | .gsplinterDone _ _ => true
  | .glaunchDone _ _ => true
  | .retirementDrain _ => true
  | .launchFinish _ => true
  | .admissionPass => true
  | .parkTrigger _ => true
  | .parkTimeExpire _ => true
  | .blockDrainComplete _ => true
  | .blockSaveComplete _ => true
  | .blockRestoreComplete _ => true
  | .preemptStopRequest _ => true
  | .quantumEnd _ => true
  | .powerAllowanceCycle _ => true
  | .sensorSample _ => true
  | .powerGateBegin _ => true
  | .powerGateCommit _ => true
  | .clusterWakeComplete _ => true
  | .storageErrorDetected _ => true
  | .marchTestComplete _ _ => true
  | .deviceReset => true
  | .imageVerify _ => true
  | .pcieLinkChange _ => true
  | .ethPortChange _ _ => true
  | .hbmTrainingDone _ _ => true
  | .hostBar0Read _ _ => true
  | .hostBar0Write _ _ => true
  | .hostBar2Read _ => true
  | .hostMailboxWrite _ _ => true
  | .hostUnsupportedRequest _ => true
  | .attestationRequest _ => true
  | .checkpointStart => true
  | .checkpointRegionAck _ => true
  | .completionTimeReached _ => true
  | .pcieReadCompletion _ => true
  | .sliceTrainingDone _ => true

/-- The constructors that stand for a step without an instruction word. -/
def Instr.isEvent : Instr → Bool
  | .kBcapWrite .. => true
  | .loadDataReturn .. => true
  | .storeAck .. => true
  | .windowMissFill .. => true
  | .compactorStep .. => true
  | .bankStarvePromote .. => true
  | .engineCommandStart .. => true
  | .engineCommandComplete .. => true
  | .tileCommandStart .. => true
  | .tileCommandComplete .. => true
  | .sluiceCommandStart .. => true
  | .routeRowsSent .. => true
  | .sluiceCommandComplete .. => true
  | .rowRetransmit .. => true
  | .rowArrival .. => true
  | .rowAckArrival .. => true
  | .routeCloseNotice .. => true
  | .filterEntryExpire .. => true
  | .deviceUnreachable .. => true
  | .bundleFillComplete .. => true
  | .bundleQueueGrant .. => true
  | .gbdeclDone .. => true
  | .waitWake .. => true
  | .waitTimeout .. => true
  | .gbarRelease .. => true
  | .gpbarRelease .. => true
  | .yieldExpire .. => true
  | .invalidationComplete .. => true
  | .gmapDone .. => true
  | .gsplinterDone .. => true
  | .glaunchDone .. => true
  | .retirementDrain .. => true
  | .launchFinish .. => true
  | .admissionPass => true
  | .parkTrigger .. => true
  | .parkTimeExpire .. => true
  | .blockDrainComplete .. => true
  | .blockSaveComplete .. => true
  | .blockRestoreComplete .. => true
  | .preemptStopRequest .. => true
  | .quantumEnd .. => true
  | .powerAllowanceCycle .. => true
  | .sensorSample .. => true
  | .powerGateBegin .. => true
  | .powerGateCommit .. => true
  | .clusterWakeComplete .. => true
  | .storageErrorDetected .. => true
  | .marchTestComplete .. => true
  | .deviceReset => true
  | .imageVerify .. => true
  | .pcieLinkChange .. => true
  | .ethPortChange .. => true
  | .hbmTrainingDone .. => true
  | .hostBar0Read .. => true
  | .hostBar0Write .. => true
  | .hostBar2Read .. => true
  | .hostMailboxWrite .. => true
  | .hostUnsupportedRequest .. => true
  | .attestationRequest .. => true
  | .checkpointStart => true
  | .checkpointRegionAck .. => true
  | .completionTimeReached .. => true
  | .pcieReadCompletion .. => true
  | .sliceTrainingDone .. => true
  | _ => false

end Sys2Proof
end

