-- ==== Sys2Proof/Decode.lean ====
section
/-! DEFINITION. Decoding and encoding of instruction words, from the formats of spec/02_instruction_words.md R30 and the
opcode maps R34 and R35. -/
namespace Sys2Proof

/-- Why a word is no instruction: the names of `decode`'s refusals. -/
inductive DecodeError where
  /-- Bits 31:24 are 0, a marker or header word (R48). -/
  | marker
  /-- A reserved opcode, modifier, condition, field or span: the scanner accepts no such word (R46). -/
  | reserved
  deriving DecidableEq, Repr

/-! ### The formats of R30 -/

/-- LR and GR: op, d, a, b, m. -/
def packR (op : BitVec 8) (d a b : Reg) (m : BitVec 3) : Word := op ++ d ++ a ++ b ++ m
/-- LI and GI: op, d, a, imm10. -/
def packI (op : BitVec 8) (d a : Reg) (i : BitVec 10) : Word := op ++ d ++ a ++ i
/-- LM: op, d, h, a, off5. -/
def packM (op : BitVec 8) (d : Reg) (h : BitVec 5) (a : Reg) (o : BitVec 5) : Word := op ++ d ++ h ++ a ++ o
/-- GW: op, d, imm17. -/
def packW (op : BitVec 8) (d : Reg) (j : BitVec 17) : Word := op ++ d ++ j
/-- GJ: op, a, cond3, off14. -/
def packJ (op : BitVec 8) (a : Reg) (c : BitVec 3) (f : BitVec 14) : Word := op ++ a ++ c ++ f

/-- Bits 31:24, the full opcode (R29). -/
def wOp (w : Word) : BitVec 8 := w.extractLsb' 24 8
/-- Bits 23:17. -/
def wD (w : Word) : Reg := w.extractLsb' 17 7
/-- Bits 16:10. -/
def wA (w : Word) : Reg := w.extractLsb' 10 7
/-- Bits 9:3. -/
def wB (w : Word) : Reg := w.extractLsb' 3 7
/-- Bits 2:0. -/
def wM (w : Word) : BitVec 3 := w.extractLsb' 0 3
/-- Bits 9:0. -/
def wI (w : Word) : BitVec 10 := w.extractLsb' 0 10
/-- Bits 16:0. -/
def wJ (w : Word) : BitVec 17 := w.extractLsb' 0 17
/-- LM: bits 16:12. -/
def wH (w : Word) : BitVec 5 := w.extractLsb' 12 5
/-- LM: bits 11:5. -/
def wMA (w : Word) : Reg := w.extractLsb' 5 7
/-- LM: bits 4:0. -/
def wO (w : Word) : BitVec 5 := w.extractLsb' 0 5
/-- GJ: bits 16:14. -/
def wC (w : Word) : BitVec 3 := w.extractLsb' 14 3
/-- GJ: bits 13:0. -/
def wF (w : Word) : BitVec 14 := w.extractLsb' 0 14

/-- The word of an instruction; none for an event, which has no word. -/
def encode : Instr → Option Word
  | .add d a b m => some (packR 0x01 d a b m)
  | .sub d a b m => some (packR 0x02 d a b m)
  | .mul d a b m => some (packR 0x03 d a b m)
  | .mad d a b m => some (packR 0x04 d a b m)
  | .min d a b m => some (packR 0x05 d a b m)
  | .max d a b m => some (packR 0x06 d a b m)
  | .and d a b => some (packR 0x07 d a b 0)
  | .or d a b => some (packR 0x08 d a b 0)
  | .xor d a b => some (packR 0x09 d a b 0)
  | .andn d a b => some (packR 0x0A d a b 0)
  | .shl d a b => some (packR 0x0B d a b 0)
  | .shr d a b m => some (packR 0x0C d a b m)
  | .rot d a b m => some (packR 0x0D d a b m)
  | .bfe d a b m => some (packR 0x0E d a b m)
  | .bfi d a b => some (packR 0x0F d a b 0)
  | .bitc d a m => some (packR 0x10 d a 0 m)
  | .sel d a b => some (packR 0x11 d a b 0)
  | .cmp d a b m => some (packR 0x12 d a b m)
  | .addi d a i => some (packI 0x13 d a i)
  | .andi d a i => some (packI 0x14 d a i)
  | .ori d a i => some (packI 0x15 d a i)
  | .xori d a i => some (packI 0x16 d a i)
  | .shli d a i => some (packI 0x17 d a i)
  | .shri d a i => some (packI 0x18 d a i)
  | .cmpi d a i => some (packI 0x19 d a i)
  | .movi d i => some (packI 0x1A d 0 i)
  | .lid d m => some (packR 0x1B d 0 0 m)
  | .mov d a => some (packR 0x1E d a 0 0)
  | .lea d h a o => some (packM 0x1F d h a o)
  | .laneIf a m => some (packR 0x20 0 a 0 m)
  | .laneIfi a i => some (packI 0x21 0 a i)
  | .laneElse => some (packR 0x22 0 0 0 0)
  | .endif => some (packR 0x23 0 0 0 0)
  | .lbeg => some (packR 0x24 0 0 0 0)
  | .brk a i => some (packI 0x25 0 a i)
  | .cont a i => some (packI 0x26 0 a i)
  | .lnext => some (packR 0x27 0 0 0 0)
  | .lend => some (packR 0x28 0 0 0 0)
  | .lexit a m => some (packR 0x29 0 a 0 m)
  | .fadd d a b m => some (packR 0x30 d a b m)
  | .fsub d a b m => some (packR 0x31 d a b m)
  | .fmul d a b m => some (packR 0x32 d a b m)
  | .ffma d a b m => some (packR 0x33 d a b m)
  | .fmin d a b => some (packR 0x34 d a b 0)
  | .fmax d a b => some (packR 0x35 d a b 0)
  | .fcmp d a b m => some (packR 0x36 d a b m)
  | .frcp d a m => some (packR 0x37 d a 0 m)
  | .frsq d a => some (packR 0x38 d a 0 0)
  | .fsqrt d a m => some (packR 0x39 d a 0 m)
  | .fexp2 d a => some (packR 0x3A d a 0 0)
  | .flog2 d a => some (packR 0x3B d a 0 0)
  | .fsinpi d a => some (packR 0x3C d a 0 0)
  | .fsgn d a b m => some (packR 0x3D d a b m)
  | .fclass d a => some (packR 0x3E d a 0 0)
  | .frnd d a m => some (packR 0x3F d a 0 m)
  | .i2f d a b m => some (packR 0x40 d a b m)
  | .f2i d a b m => some (packR 0x41 d a b m)
  | .pkh d a b m => some (packR 0x42 d a b m)
  | .pkb d a b m => some (packR 0x43 d a b m)
  | .pk8 d a b m => some (packR 0x44 d a b m)
  | .unpk d a b => some (packR 0x45 d a b 0)
  | .hfma2 d a b m => some (packR 0x46 d a b m)
  | .hadd2 d a b m => some (packR 0x47 d a b m)
  | .hmul2 d a b m => some (packR 0x48 d a b m)
  | .rnd d m => some (packR 0x49 d 0 0 m)
  | .hcmp2 d a b m => some (packR 0x4A d a b m)
  | .shfl d a b m => some (packR 0x50 d a b m)
  | .shfli d a i => some (packI 0x51 d a i)
  | .vote d a m => some (packR 0x52 d a 0 m)
  | .scan d a b m => some (packR 0x53 d a b m)
  | .red d a b => some (packR 0x54 d a b 0)
  | .topk d a b m => some (packR 0x55 d a b m)
  | .sort d a b m => some (packR 0x56 d a b m)
  | .matchLanes d a m => some (packR 0x57 d a 0 m)
  | .ldN8 d h a o => some (packM 0x60 d h a o)
  | .ldI8 d h a o => some (packM 0x61 d h a o)
  | .ldN16 d h a o => some (packM 0x62 d h a o)
  | .ldI16 d h a o => some (packM 0x63 d h a o)
  | .ldB32 d h a o => some (packM 0x64 d h a o)
  | .ldB64 d h a o => some (packM 0x65 d h a o)
  | .ldB128 d h a o => some (packM 0x66 d h a o)
  | .ldsB32 d h a o => some (packM 0x67 d h a o)
  | .ldsB64 d h a o => some (packM 0x68 d h a o)
  | .stB8 d h a o => some (packM 0x69 d h a o)
  | .stB16 d h a o => some (packM 0x6A d h a o)
  | .stB32 d h a o => some (packM 0x6B d h a o)
  | .stB64 d h a o => some (packM 0x6C d h a o)
  | .stB128 d h a o => some (packM 0x6D d h a o)
  | .stsB32 d h a o => some (packM 0x6E d h a o)
  | .stsB64 d h a o => some (packM 0x6F d h a o)
  | .aadd d h a o => some (packM 0x70 d h a o)
  | .afadd d h a o => some (packM 0x71 d h a o)
  | .amin d h a o => some (packM 0x72 d h a o)
  | .amax d h a o => some (packM 0x73 d h a o)
  | .aand d h a o => some (packM 0x74 d h a o)
  | .aor d h a o => some (packM 0x75 d h a o)
  | .axor d h a o => some (packM 0x76 d h a o)
  | .axch d h a o => some (packM 0x77 d h a o)
  | .acas d h a o => some (packM 0x78 d h a o)
  | .aadd64 d h a o => some (packM 0x79 d h a o)
  | .gnop => some (packR 0x80 0 0 0 0)
  | .gadd d a b m => some (packR 0x81 d a b m)
  | .gsub d a b m => some (packR 0x82 d a b m)
  | .gmul d a b m => some (packR 0x83 d a b m)
  | .gand d a b => some (packR 0x84 d a b 0)
  | .gor d a b => some (packR 0x85 d a b 0)
  | .gxor d a b => some (packR 0x86 d a b 0)
  | .gshl d a b => some (packR 0x87 d a b 0)
  | .gshr d a b m => some (packR 0x88 d a b m)
  | .gmin d a b m => some (packR 0x89 d a b m)
  | .gmax d a b m => some (packR 0x8A d a b m)
  | .gcmp d a b m => some (packR 0x8B d a b m)
  | .gsel d a b => some (packR 0x8C d a b 0)
  | .gaddi d a i => some (packI 0x8D d a i)
  | .gandi d a i => some (packI 0x8E d a i)
  | .gori d a i => some (packI 0x8F d a i)
  | .gcmpi d a i => some (packI 0x90 d a i)
  | .gset d j => some (packW 0x91 d j)
  | .gseth d j => some (packW 0x92 d j)
  | .gmov d a => some (packR 0x93 d a 0 0)
  | .grdc d i => some (packI 0x94 d 0 i)
  | .gwrc a i => some (packI 0x95 0 a i)
  | .glea d a b m => some (packR 0x96 d a b m)
  | .gclock d m => some (packR 0x97 d 0 0 m)
  | .gbitc d a m => some (packR 0x98 d a 0 m)
  | .gid d m => some (packR 0x99 d 0 0 m)
  | .gbfe d a b m => some (packR 0x9A d a b m)
  | .gmad d a b => some (packR 0x9B d a b 0)
  | .gbr f => some (packJ 0xA0 0 0 f)
  | .gbc a c f => some (packJ 0xA1 a c f)
  | .gbrd a c f => some (packJ 0xA2 a c f)
  | .gjoin m => some (packR 0xA3 0 0 0 m)
  | .gcall a f => some (packJ 0xA4 a 0 f)
  | .gret a => some (packR 0xA5 0 a 0 0)
  | .gjr a => some (packR 0xA6 0 a 0 0)
  | .gregion => some (packR 0xA7 0 0 0 0)
  | .gexit => some (packR 0xA8 0 0 0 0)
  | .gtrap j => some (packW 0xA9 0 j)
  | .gresume m => some (packR 0xAA 0 0 0 m)
  | .gpark d a b m => some (packR 0xAB d a b m)
  | .gmap d a b m => some (packR 0xAC d a b m)
  | .gsplinter d a m => some (packR 0xAD d a 0 m)
  | .ginvalPg d a b => some (packR 0xAE d a b 0)
  | .ginvalHnd d a b => some (packR 0xAE d a b 1)
  | .ginvalXon d a b => some (packR 0xAE d a b 2)
  | .ginvalXoff d a b => some (packR 0xAE d a b 3)
  | .ginvalRvk d a b => some (packR 0xAE d a b 4)
  | .gfence m => some (packR 0xB0 0 0 0 m)
  | .gbar i => some (packI 0xB1 0 0 i)
  | .gpbar i => some (packI 0xB2 0 0 i)
  | .garrive d a b => some (packR 0xB3 d a b 0)
  | .gwaitu d a b m => some (packR 0xB4 d a b m)
  | .gwaitc j => some (packW 0xB5 0 j)
  | .gyield => some (packR 0xB6 0 0 0 0)
  | .gcopy d a b m => some (packR 0xC0 d a b m)
  | .ggather d a b m => some (packR 0xC1 d a b m)
  | .gscadd d a b m => some (packR 0xC2 d a b m)
  | .groute d a b m => some (packR 0xC3 d a b m)
  | .grsel d a b m => some (packR 0xC4 d a b m)
  | .grretry d a b m => some (packR 0xC5 d a b m)
  | .gpref a b m => some (packR 0xC6 0 a b m)
  | .gbdecl d a b => some (packR 0xD0 d a b 0)
  | .gbenter d a => some (packR 0xD1 d a 0 0)
  | .gbleave d a => some (packR 0xD2 d a 0 0)
  | .gbquery d a m => some (packR 0xD3 d a 0 m)
  | .gbdrop d a => some (packR 0xD4 d a 0 0)
  | .gtile d a i => some (packI 0xE0 d a i)
  | .gtileg d a i => some (packI 0xE1 d a i)
  | .mma d a b m => some (packR 0xE2 d a b m)
  | .mchain d m => some (packR 0xE3 d 0 0 m)
  | .mend d a m => some (packR 0xE4 d a 0 m)
  | .msacc d a b m => some (packR 0xE5 d a b m)
  | .tcvt d a m => some (packR 0xE6 d a 0 m)
  | .tfill d a m => some (packR 0xE7 d a 0 m)
  | .glaunch d a => some (packR 0xF0 d a 0 0)
  | .gqend d a => some (packR 0xF1 d a 0 0)
  | .galloc d a i => some (packI 0xF2 d a i)
  | .gdrainWait d a => some (packR 0xF3 d a 0 0)
  | .gdrainStop d a => some (packR 0xF3 d a 0 1)
  | .gdrainRun d a => some (packR 0xF3 d a 0 2)
  | .gsvc j => some (packW 0xF4 0 j)
  | .gqcfg d a b m => some (packR 0xF5 d a b m)
  | .kBcapWrite .. => none
  | .loadDataReturn .. => none
  | .storeAck .. => none
  | .windowMissFill .. => none
  | .compactorStep .. => none
  | .bankStarvePromote .. => none
  | .engineCommandStart .. => none
  | .engineCommandComplete .. => none
  | .tileCommandStart .. => none
  | .tileCommandComplete .. => none
  | .sluiceCommandStart .. => none
  | .routeRowsSent .. => none
  | .sluiceCommandComplete .. => none
  | .rowRetransmit .. => none
  | .rowArrival .. => none
  | .rowAckArrival .. => none
  | .routeCloseNotice .. => none
  | .filterEntryExpire .. => none
  | .deviceUnreachable .. => none
  | .bundleFillComplete .. => none
  | .bundleQueueGrant .. => none
  | .gbdeclDone .. => none
  | .waitWake .. => none
  | .waitTimeout .. => none
  | .gbarRelease .. => none
  | .gpbarRelease .. => none
  | .yieldExpire .. => none
  | .invalidationComplete .. => none
  | .gmapDone .. => none
  | .gsplinterDone .. => none
  | .glaunchDone .. => none
  | .retirementDrain .. => none
  | .launchFinish .. => none
  | .admissionPass => none
  | .parkTrigger .. => none
  | .parkTimeExpire .. => none
  | .blockDrainComplete .. => none
  | .blockSaveComplete .. => none
  | .blockRestoreComplete .. => none
  | .preemptStopRequest .. => none
  | .quantumEnd .. => none
  | .powerAllowanceCycle .. => none
  | .sensorSample .. => none
  | .powerGateBegin .. => none
  | .powerGateCommit .. => none
  | .clusterWakeComplete .. => none
  | .storageErrorDetected .. => none
  | .marchTestComplete .. => none
  | .deviceReset => none
  | .imageVerify .. => none
  | .pcieLinkChange .. => none
  | .ethPortChange .. => none
  | .hbmTrainingDone .. => none
  | .hostBar0Read .. => none
  | .hostBar0Write .. => none
  | .hostBar2Read .. => none
  | .hostMailboxWrite .. => none
  | .hostUnsupportedRequest .. => none
  | .attestationRequest .. => none
  | .checkpointStart => none
  | .checkpointRegionAck .. => none
  | .completionTimeReached .. => none
  | .pcieReadCompletion .. => none
  | .sliceTrainingDone .. => none

/-- The kinds of `ginval`, which m tells apart (R304). -/
def ginvalOf (m : BitVec 3) (d a b : Reg) : Option Instr :=
  match m.toNat with
  | 0 => some (.ginvalPg d a b)
  | 1 => some (.ginvalHnd d a b)
  | 2 => some (.ginvalXon d a b)
  | 3 => some (.ginvalXoff d a b)
  | 4 => some (.ginvalRvk d a b)
  | _ => none

/-- The kinds of `gdrain`, which m tells apart (R311). -/
def gdrainOf (m : BitVec 3) (d a : Reg) : Option Instr :=
  match m.toNat with
  | 0 => some (.gdrainWait d a)
  | 1 => some (.gdrainStop d a)
  | 2 => some (.gdrainRun d a)
  | _ => none

/-- The instruction that an opcode and the fields of a word name (R34, R35), before the checks of `decode`; none for a reserved
opcode. -/
def decodeOp (op : Nat) (w : Word) : Option Instr :=
  match op with
  | 0x01 => some (.add (wD w) (wA w) (wB w) (wM w))
  | 0x02 => some (.sub (wD w) (wA w) (wB w) (wM w))
  | 0x03 => some (.mul (wD w) (wA w) (wB w) (wM w))
  | 0x04 => some (.mad (wD w) (wA w) (wB w) (wM w))
  | 0x05 => some (.min (wD w) (wA w) (wB w) (wM w))
  | 0x06 => some (.max (wD w) (wA w) (wB w) (wM w))
  | 0x07 => some (.and (wD w) (wA w) (wB w))
  | 0x08 => some (.or (wD w) (wA w) (wB w))
  | 0x09 => some (.xor (wD w) (wA w) (wB w))
  | 0x0A => some (.andn (wD w) (wA w) (wB w))
  | 0x0B => some (.shl (wD w) (wA w) (wB w))
  | 0x0C => some (.shr (wD w) (wA w) (wB w) (wM w))
  | 0x0D => some (.rot (wD w) (wA w) (wB w) (wM w))
  | 0x0E => some (.bfe (wD w) (wA w) (wB w) (wM w))
  | 0x0F => some (.bfi (wD w) (wA w) (wB w))
  | 0x10 => some (.bitc (wD w) (wA w) (wM w))
  | 0x11 => some (.sel (wD w) (wA w) (wB w))
  | 0x12 => some (.cmp (wD w) (wA w) (wB w) (wM w))
  | 0x13 => some (.addi (wD w) (wA w) (wI w))
  | 0x14 => some (.andi (wD w) (wA w) (wI w))
  | 0x15 => some (.ori (wD w) (wA w) (wI w))
  | 0x16 => some (.xori (wD w) (wA w) (wI w))
  | 0x17 => some (.shli (wD w) (wA w) (wI w))
  | 0x18 => some (.shri (wD w) (wA w) (wI w))
  | 0x19 => some (.cmpi (wD w) (wA w) (wI w))
  | 0x1A => some (.movi (wD w) (wI w))
  | 0x1B => some (.lid (wD w) (wM w))
  | 0x1E => some (.mov (wD w) (wA w))
  | 0x1F => some (.lea (wD w) (wH w) (wMA w) (wO w))
  | 0x20 => some (.laneIf (wA w) (wM w))
  | 0x21 => some (.laneIfi (wA w) (wI w))
  | 0x22 => some (.laneElse)
  | 0x23 => some (.endif)
  | 0x24 => some (.lbeg)
  | 0x25 => some (.brk (wA w) (wI w))
  | 0x26 => some (.cont (wA w) (wI w))
  | 0x27 => some (.lnext)
  | 0x28 => some (.lend)
  | 0x29 => some (.lexit (wA w) (wM w))
  | 0x30 => some (.fadd (wD w) (wA w) (wB w) (wM w))
  | 0x31 => some (.fsub (wD w) (wA w) (wB w) (wM w))
  | 0x32 => some (.fmul (wD w) (wA w) (wB w) (wM w))
  | 0x33 => some (.ffma (wD w) (wA w) (wB w) (wM w))
  | 0x34 => some (.fmin (wD w) (wA w) (wB w))
  | 0x35 => some (.fmax (wD w) (wA w) (wB w))
  | 0x36 => some (.fcmp (wD w) (wA w) (wB w) (wM w))
  | 0x37 => some (.frcp (wD w) (wA w) (wM w))
  | 0x38 => some (.frsq (wD w) (wA w))
  | 0x39 => some (.fsqrt (wD w) (wA w) (wM w))
  | 0x3A => some (.fexp2 (wD w) (wA w))
  | 0x3B => some (.flog2 (wD w) (wA w))
  | 0x3C => some (.fsinpi (wD w) (wA w))
  | 0x3D => some (.fsgn (wD w) (wA w) (wB w) (wM w))
  | 0x3E => some (.fclass (wD w) (wA w))
  | 0x3F => some (.frnd (wD w) (wA w) (wM w))
  | 0x40 => some (.i2f (wD w) (wA w) (wB w) (wM w))
  | 0x41 => some (.f2i (wD w) (wA w) (wB w) (wM w))
  | 0x42 => some (.pkh (wD w) (wA w) (wB w) (wM w))
  | 0x43 => some (.pkb (wD w) (wA w) (wB w) (wM w))
  | 0x44 => some (.pk8 (wD w) (wA w) (wB w) (wM w))
  | 0x45 => some (.unpk (wD w) (wA w) (wB w))
  | 0x46 => some (.hfma2 (wD w) (wA w) (wB w) (wM w))
  | 0x47 => some (.hadd2 (wD w) (wA w) (wB w) (wM w))
  | 0x48 => some (.hmul2 (wD w) (wA w) (wB w) (wM w))
  | 0x49 => some (.rnd (wD w) (wM w))
  | 0x4A => some (.hcmp2 (wD w) (wA w) (wB w) (wM w))
  | 0x50 => some (.shfl (wD w) (wA w) (wB w) (wM w))
  | 0x51 => some (.shfli (wD w) (wA w) (wI w))
  | 0x52 => some (.vote (wD w) (wA w) (wM w))
  | 0x53 => some (.scan (wD w) (wA w) (wB w) (wM w))
  | 0x54 => some (.red (wD w) (wA w) (wB w))
  | 0x55 => some (.topk (wD w) (wA w) (wB w) (wM w))
  | 0x56 => some (.sort (wD w) (wA w) (wB w) (wM w))
  | 0x57 => some (.matchLanes (wD w) (wA w) (wM w))
  | 0x60 => some (.ldN8 (wD w) (wH w) (wMA w) (wO w))
  | 0x61 => some (.ldI8 (wD w) (wH w) (wMA w) (wO w))
  | 0x62 => some (.ldN16 (wD w) (wH w) (wMA w) (wO w))
  | 0x63 => some (.ldI16 (wD w) (wH w) (wMA w) (wO w))
  | 0x64 => some (.ldB32 (wD w) (wH w) (wMA w) (wO w))
  | 0x65 => some (.ldB64 (wD w) (wH w) (wMA w) (wO w))
  | 0x66 => some (.ldB128 (wD w) (wH w) (wMA w) (wO w))
  | 0x67 => some (.ldsB32 (wD w) (wH w) (wMA w) (wO w))
  | 0x68 => some (.ldsB64 (wD w) (wH w) (wMA w) (wO w))
  | 0x69 => some (.stB8 (wD w) (wH w) (wMA w) (wO w))
  | 0x6A => some (.stB16 (wD w) (wH w) (wMA w) (wO w))
  | 0x6B => some (.stB32 (wD w) (wH w) (wMA w) (wO w))
  | 0x6C => some (.stB64 (wD w) (wH w) (wMA w) (wO w))
  | 0x6D => some (.stB128 (wD w) (wH w) (wMA w) (wO w))
  | 0x6E => some (.stsB32 (wD w) (wH w) (wMA w) (wO w))
  | 0x6F => some (.stsB64 (wD w) (wH w) (wMA w) (wO w))
  | 0x70 => some (.aadd (wD w) (wH w) (wMA w) (wO w))
  | 0x71 => some (.afadd (wD w) (wH w) (wMA w) (wO w))
  | 0x72 => some (.amin (wD w) (wH w) (wMA w) (wO w))
  | 0x73 => some (.amax (wD w) (wH w) (wMA w) (wO w))
  | 0x74 => some (.aand (wD w) (wH w) (wMA w) (wO w))
  | 0x75 => some (.aor (wD w) (wH w) (wMA w) (wO w))
  | 0x76 => some (.axor (wD w) (wH w) (wMA w) (wO w))
  | 0x77 => some (.axch (wD w) (wH w) (wMA w) (wO w))
  | 0x78 => some (.acas (wD w) (wH w) (wMA w) (wO w))
  | 0x79 => some (.aadd64 (wD w) (wH w) (wMA w) (wO w))
  | 0x80 => some (.gnop)
  | 0x81 => some (.gadd (wD w) (wA w) (wB w) (wM w))
  | 0x82 => some (.gsub (wD w) (wA w) (wB w) (wM w))
  | 0x83 => some (.gmul (wD w) (wA w) (wB w) (wM w))
  | 0x84 => some (.gand (wD w) (wA w) (wB w))
  | 0x85 => some (.gor (wD w) (wA w) (wB w))
  | 0x86 => some (.gxor (wD w) (wA w) (wB w))
  | 0x87 => some (.gshl (wD w) (wA w) (wB w))
  | 0x88 => some (.gshr (wD w) (wA w) (wB w) (wM w))
  | 0x89 => some (.gmin (wD w) (wA w) (wB w) (wM w))
  | 0x8A => some (.gmax (wD w) (wA w) (wB w) (wM w))
  | 0x8B => some (.gcmp (wD w) (wA w) (wB w) (wM w))
  | 0x8C => some (.gsel (wD w) (wA w) (wB w))
  | 0x8D => some (.gaddi (wD w) (wA w) (wI w))
  | 0x8E => some (.gandi (wD w) (wA w) (wI w))
  | 0x8F => some (.gori (wD w) (wA w) (wI w))
  | 0x90 => some (.gcmpi (wD w) (wA w) (wI w))
  | 0x91 => some (.gset (wD w) (wJ w))
  | 0x92 => some (.gseth (wD w) (wJ w))
  | 0x93 => some (.gmov (wD w) (wA w))
  | 0x94 => some (.grdc (wD w) (wI w))
  | 0x95 => some (.gwrc (wA w) (wI w))
  | 0x96 => some (.glea (wD w) (wA w) (wB w) (wM w))
  | 0x97 => some (.gclock (wD w) (wM w))
  | 0x98 => some (.gbitc (wD w) (wA w) (wM w))
  | 0x99 => some (.gid (wD w) (wM w))
  | 0x9A => some (.gbfe (wD w) (wA w) (wB w) (wM w))
  | 0x9B => some (.gmad (wD w) (wA w) (wB w))
  | 0xA0 => some (.gbr (wF w))
  | 0xA1 => some (.gbc (wD w) (wC w) (wF w))
  | 0xA2 => some (.gbrd (wD w) (wC w) (wF w))
  | 0xA3 => some (.gjoin (wM w))
  | 0xA4 => some (.gcall (wD w) (wF w))
  | 0xA5 => some (.gret (wA w))
  | 0xA6 => some (.gjr (wA w))
  | 0xA7 => some (.gregion)
  | 0xA8 => some (.gexit)
  | 0xA9 => some (.gtrap (wJ w))
  | 0xAA => some (.gresume (wM w))
  | 0xAB => some (.gpark (wD w) (wA w) (wB w) (wM w))
  | 0xAC => some (.gmap (wD w) (wA w) (wB w) (wM w))
  | 0xAD => some (.gsplinter (wD w) (wA w) (wM w))
  | 0xAE => ginvalOf (wM w) (wD w) (wA w) (wB w)
  | 0xB0 => some (.gfence (wM w))
  | 0xB1 => some (.gbar (wI w))
  | 0xB2 => some (.gpbar (wI w))
  | 0xB3 => some (.garrive (wD w) (wA w) (wB w))
  | 0xB4 => some (.gwaitu (wD w) (wA w) (wB w) (wM w))
  | 0xB5 => some (.gwaitc (wJ w))
  | 0xB6 => some (.gyield)
  | 0xC0 => some (.gcopy (wD w) (wA w) (wB w) (wM w))
  | 0xC1 => some (.ggather (wD w) (wA w) (wB w) (wM w))
  | 0xC2 => some (.gscadd (wD w) (wA w) (wB w) (wM w))
  | 0xC3 => some (.groute (wD w) (wA w) (wB w) (wM w))
  | 0xC4 => some (.grsel (wD w) (wA w) (wB w) (wM w))
  | 0xC5 => some (.grretry (wD w) (wA w) (wB w) (wM w))
  | 0xC6 => some (.gpref (wA w) (wB w) (wM w))
  | 0xD0 => some (.gbdecl (wD w) (wA w) (wB w))
  | 0xD1 => some (.gbenter (wD w) (wA w))
  | 0xD2 => some (.gbleave (wD w) (wA w))
  | 0xD3 => some (.gbquery (wD w) (wA w) (wM w))
  | 0xD4 => some (.gbdrop (wD w) (wA w))
  | 0xE0 => some (.gtile (wD w) (wA w) (wI w))
  | 0xE1 => some (.gtileg (wD w) (wA w) (wI w))
  | 0xE2 => some (.mma (wD w) (wA w) (wB w) (wM w))
  | 0xE3 => some (.mchain (wD w) (wM w))
  | 0xE4 => some (.mend (wD w) (wA w) (wM w))
  | 0xE5 => some (.msacc (wD w) (wA w) (wB w) (wM w))
  | 0xE6 => some (.tcvt (wD w) (wA w) (wM w))
  | 0xE7 => some (.tfill (wD w) (wA w) (wM w))
  | 0xF0 => some (.glaunch (wD w) (wA w))
  | 0xF1 => some (.gqend (wD w) (wA w))
  | 0xF2 => some (.galloc (wD w) (wA w) (wI w))
  | 0xF3 => gdrainOf (wM w) (wD w) (wA w)
  | 0xF4 => some (.gsvc (wJ w))
  | 0xF5 => some (.gqcfg (wD w) (wA w) (wB w) (wM w))
  | _ => none

/-- The instruction that a word's own opcode and fields name. -/
def decodeFields (w : Word) : Option Instr := decodeOp (wOp w).toNat w

/-- The decoder, total on any word. It accepts a word exactly when an opcode is assigned, the fields pass the checks of
WellFormed.lean, and every field the card does not read is 0 (R36, R46 reasons 4-6): the last because the word must be the
one that the instruction encodes to. -/
def decode (w : Word) : Except DecodeError Instr :=
  if wOp w = 0 then .error .marker
  else
    match decodeFields w with
    | none => .error .reserved
    | some i => if encode i = some w ∧ i.wf = true then .ok i else .error .reserved

/-- R29, R3: an instruction word of four bytes, lowest address first. -/
def wordOfBytes (b0 b1 b2 b3 : Byte) : Word := b3 ++ b2 ++ b1 ++ b0

/-- The instruction at the head of a byte string and the bytes after it; every instruction is one word. -/
def decodeBytes : List Byte → Except DecodeError (Instr × List Byte)
  | b0 :: b1 :: b2 :: b3 :: rest =>
    match decode (wordOfBytes b0 b1 b2 b3) with
    | .ok i => .ok (i, rest)
    | .error e => .error e
  | _ => .error .reserved

/-- The host's question about one row of the opcode table: the instruction this decoder reads from a word whose bits are
`w`. Every row is one 32-bit word, so bits from `nbits` up are 0 and the word is stored in its four bytes, lowest first. -/
def decodeTableWord (nbits w : Nat) : Option Instr :=
  let v : Word := BitVec.ofNat 32 (w % 2 ^ nbits)
  match decodeBytes [v.extractLsb' 0 8, v.extractLsb' 8 8, v.extractLsb' 16 8, v.extractLsb' 24 8] with
  | .ok (i, _) => some i
  | .error _ => none

end Sys2Proof
end

