-- ==== Sys2Proof/Machine/Map.lean ====
section
/-! DEFINITION. Sparse maps over natural keys, the one representation of memory, of registers and of the device's tables: a list
of (key, value) pairs with strictly rising keys. `mapGet`/`mapSet` add a value that unlisted keys read as and never list
it, so that equal contents are equal lists; memory (Host.Cell pairs) and the register files use these two. `mapFind`,
`mapPut` and `mapDel` are for tables of records. -/
namespace Sys2Proof.Machine

/-- A sparse map: (key, value) pairs with strictly rising keys. -/
abbrev SMap (α : Type) := List (Nat × α)

/-- The value listed at `k`, if any. -/
def mapFind {α : Type} (m : SMap α) (k : Nat) : Option α :=
  match m with
  | [] => none
  | (j, v) :: r => if j = k then some v else mapFind r k

/-- The value at `k`; `d` where none is listed. -/
def mapGet {α : Type} (d : α) (m : SMap α) (k : Nat) : α := (mapFind m k).getD d

/-- List `v` at `k`. -/
def mapPut {α : Type} (m : SMap α) (k : Nat) (v : α) : SMap α :=
  match m with
  | [] => [(k, v)]
  | (j, w) :: r => if k < j then (k, v) :: (j, w) :: r else if k = j then (k, v) :: r else (j, w) :: mapPut r k v

/-- List nothing at `k`. -/
def mapDel {α : Type} (m : SMap α) (k : Nat) : SMap α :=
  match m with
  | [] => []
  | (j, w) :: r => if k = j then mapDel r k else (j, w) :: mapDel r k

/-- The value at `k` becomes `v`, where unlisted keys read as `d`. -/
def mapSet {α : Type} [DecidableEq α] (d : α) (m : SMap α) (k : Nat) (v : α) : SMap α :=
  if v = d then mapDel m k else mapPut m k v

/-- The keys rise strictly from a bound on. -/
def mapSortedFrom {α : Type} (lo : Nat) (m : SMap α) : Bool :=
  match m with
  | [] => true
  | (j, _) :: r => decide (lo ≤ j) && mapSortedFrom (j + 1) r

/-- No entry equals what an unlisted key reads as. -/
def mapNoDefault {α : Type} [DecidableEq α] (d : α) (m : SMap α) : Bool := m.all fun e => decide (e.2 ≠ d)

/-- The canonical form: strictly rising keys and no default entry. -/
def mapWf {α : Type} [DecidableEq α] (d : α) (m : SMap α) : Bool := mapSortedFrom 0 m && mapNoDefault d m

/-- The `n` natural numbers from `a` on. -/
def seqFrom (a : Nat) : Nat → List Nat
  | 0 => []
  | n + 1 => a :: seqFrom (a + 1) n

/-- The lanes of a mask, in ascending order (R7, `for each lane L in S`). -/
def lanesOf (m : LaneMask) : List Nat := (seqFrom 0 32).filter fun i => m.getLsbD i

/-- The mask of a list of lanes. -/
def maskOf (l : List Nat) : LaneMask := l.foldl (fun acc i => acc ||| BitVec.ofNat 32 (2 ^ i)) 0

/-- The elements of a list in a rising order of `key`, equal keys in their old order. -/
def insertBy {α : Type} (key : α → Nat) (x : α) : List α → List α
  | [] => [x]
  | y :: r => if key x < key y then x :: y :: r else y :: insertBy key x r

/-- Stable insertion sort by a natural key. -/
def sortBy {α : Type} (key : α → Nat) : List α → List α
  | [] => []
  | x :: r => insertByRev key x (sortBy key r)
where
  insertByRev (key : α → Nat) (x : α) : List α → List α
    | [] => [x]
    | y :: r => if key x ≤ key y then x :: y :: r else y :: insertByRev key x r

/-- The little-endian number of a list of bytes (R3). -/
def leNat : List Byte → Nat
  | [] => 0
  | b :: r => b.toNat + 256 * leNat r

/-- The `n` bytes of a number, least significant first (R3). -/
def leBytes : Nat → Nat → List Byte
  | 0, _ => []
  | n + 1, v => BitVec.ofNat 8 v :: leBytes n (v / 256)

/-- Bits hi..lo of a number. -/
def bitsOf (v hi lo : Nat) : Nat := v / 2 ^ lo % 2 ^ (hi + 1 - lo)

/-- ⌈a / b⌉. -/
def ceilDiv (a b : Nat) : Nat := (a + b - 1) / b

end Sys2Proof.Machine
end

