-- ==== Sys2Proof/Machine/State.lean ====
section
/-! DEFINITION. The state of the GKV-9200, as plain data, its faults and refusals, and the state after reset.

The records follow the chapters of spec/: a split and a group (04, 05, 17), a block, a launch and a context (01, 18, 19),
a core with its L1, scratchpad, engines and bundle state (01, 08, 10, 13, 14), a cluster with its TLB and Sluice (15, 18),
and the package: device memory, host memory, links, boot, power and storage protection (08, 19, 23). INVENTORY.md lists
every item with its rule. -/
namespace Sys2Proof.Machine

/-- Where a register operand lies: the group's register file, the group's handler registers (R270), or nowhere (a direct
register beyond the allocation in supervisor mode, which reads 0 and discards writes, R270). -/
inductive RegLoc where
  | reg (n : Nat)
  | hreg (n : Nat)
  | off
  deriving DecidableEq, Repr

/-- The location of a byte after the checks of R147: device memory (with the virtual address it was named by), the
scratchpad of a core, or host memory. -/
inductive Place where
  | glob (pa va : Nat)
  | scr (core addr : Nat)
  | host (addr : Nat)
  deriving DecidableEq, Repr

/-- A fault of one split (R271): code, detail, `K_FADDR`, `K_FMASK` and the part bit (R272). -/
structure Trap where
  code : Nat
  detail : Nat
  addr : Dword
  mask : LaneMask
  part : Bool
  deriving DecidableEq, Repr

/-- A peer access that has passed the checks of R147 and is performed from there (R323): the scope of its handle, and each lane with its
offset and its place. -/
structure HeldAcc where
  scope : Nat
  lanes : List (Nat × Nat × Place)
  deriving DecidableEq, Repr

/-- Why a split is held at its instruction without having performed it. -/
inductive StallWhy where
  /-- A register of the instruction is scoreboarded (R149, R222). -/
  | scoreboard
  /-- A fork waits for the accesses whose ids are below `upto`, or for a completion time (R153, R168). -/
  | order (upto : Nat)
  /-- An atomic or arrival that has passed the checks of R147 waits for the accesses whose ids are below `upto`, or for a completion time
  (R153), or for a resource; `acc` is what an access to a peer's scratchpad has passed with (R323). -/
  | passed (upto : Nat) (acc : Option HeldAcc)
  /-- An acquire of the split has not returned its value (R153), or a held store is on its line (R163). -/
  | acquire
  /-- A counter of R157 is full, or a row under test is in the way (R159). -/
  | full
  /-- The request tracker has not enough free entries, or an older split waits for entries of it (R144). -/
  | tracker
  /-- `gfence` waits for the accesses whose ids are below `upto` (R166). -/
  | fence (upto : Nat)
  /-- `gsplinter` or `ginval` waits for the stores whose ids are below `upto`, those of the quantum buffer among them (R302, R304). -/
  | drained (upto : Nat)
  /-- `gwaitc` with this operand waits (R206). -/
  | counters (j : BitVec 17)
  /-- An engine, Sluice or matrix queue, or the scoreboard of R223, is full. -/
  | queue
  /-- Another split of the group has a wait outstanding, or a request in the bundle queue (R126, R199). -/
  | oneWait
  /-- A `gbenter` of the group is still Filling (R184, R187). -/
  | filling
  /-- The service queue is full (R281). -/
  | service
  /-- All 16 retirement-tracker entries are in use (R82). -/
  | retirement
  /-- The group has ended its quantum (R173). -/
  | quantum
  deriving DecidableEq, Repr

/-- What a live split is doing (R74, R291). -/
inductive SplitState where
  | running
  | stalled (w : StallWhy)
  | atJoin
  | atBar (id : Nat)
  | atPbar (id : Nat)
  | waiting
  | bundleQueue
  | heldFault
  /-- Descheduled until an event writes the status register of its instruction (R302, R304, R310, R311). -/
  | awaiting
  /-- Stopped by a double fault (R275, R354). -/
  | halted
  deriving DecidableEq, Repr

/-- The region snapshot of a split (R277). -/
structure Snapshot where
  cnt : SMap (BitVec 8)
  kix : Word
  gen : SMap Word
  retired : Dword
  quantum : Nat
  fill : Nat
  deriving DecidableEq, Repr

/-- A split: live, or recorded on the split stack (R74). `sup` is its mode (R270); on a control core `sup` says that it
is in its handler (R354). `notBefore` holds back a yielded split (R207). -/
structure Split where
  pc : Dword
  members : LaneMask
  kix : Word
  region : Dword
  st : SplitState
  sup : Bool
  snap : Snapshot
  age : Nat
  notBefore : Nat
  /-- The time of its last issue (R207). -/
  issued : Nat
  /-- The tile descriptors that its tile command captured when it issued, while it waits to fork (R234). -/
  caps : List Dword
  deriving DecidableEq, Repr

/-- A record on the split stack: pending, or a barrier record (R74, R208). -/
structure SplitRec where
  barrier : Bool
  sp : Split
  deriving DecidableEq, Repr

/-- One register write of one lane that a later event performs. -/
structure LaneWrite where
  lane : Nat
  loc : RegLoc
  val : Word
  deriving DecidableEq, Repr

/-- The request of an access for one line (R22, R144): its request-tracker entry, whether it goes beyond the core and counts against an HBM
bank, and its time: the latency of its class (R142), and once it has been sent the time of its response. -/
structure LineReq where
  line : Nat
  far : Bool
  time : Nat
  deriving DecidableEq, Repr

/-- A load, strong load or atomic that has been performed and whose data has not yet arrived (R149). `counted` says that
it counts in the load counter (R157), `strong` that it is an acquire (R153); `unsent` are its requests that a full HBM bank still holds back
and `flying` those that have been sent (R22, R144), and `pages` the virtual 64 KiB pages that it was translated through (R305). `due` is the
time at which everything that has been sent is there. -/
structure PendLoad where
  id : Nat
  lanes : LaneMask
  locs : List RegLoc
  writes : List LaneWrite
  counted : Bool
  strong : Bool
  unsent : List LineReq
  flying : List LineReq
  pages : List Nat
  due : Nat
  deriving DecidableEq, Repr

/-- A store that has been performed and is not yet acknowledged (R157); `buffered` says that it lies in the quantum buffer
until its group's commit (R173, R206). `lanes`, `unsent`, `flying` and `due` are as in a `PendLoad`. -/
structure PendStore where
  id : Nat
  lanes : LaneMask
  unsent : List LineReq
  flying : List LineReq
  pages : List Nat
  buffered : Bool
  due : Nat
  deriving DecidableEq, Repr

/-- One lane's bytes on their way to memory. -/
structure ByteWrite where
  place : Place
  bytes : List Byte
  deriving DecidableEq, Repr

/-- A strong store that its release still holds in the core (R153), and the lanes of its split. -/
structure HeldStore where
  id : Nat
  lanes : LaneMask
  after : List Nat
  scope : Nat
  writes : List ByteWrite
  deriving DecidableEq, Repr

/-- A 4 KiB host page that a store of the group wrote (R153), until a read of the page has completed that the port sent after the store's
acknowledgement; `due` is the earliest time of that completion, once the read has been sent. -/
structure HostPage where
  page : Nat
  store : Nat
  due : Option Nat
  deriving DecidableEq, Repr

/-- What a command has written under a completion time that is not yet past: the command's number, that time, and the writes (R168). -/
structure Joined where
  cmd : Nat
  ct : Nat
  writes : List ByteWrite
  deriving DecidableEq, Repr

/-- A write of the status or token register that a later event makes (R222): the scoreboarded location and its lanes. -/
structure Token where
  /-- A `gbenter` of the group, or the device-wide number of a command (`cmd`). -/
  id : Nat
  cmd : Bool
  loc : RegLoc
  lanes : LaneMask
  deriving DecidableEq, Repr

/-- The wait record of a group (R291): a `gwaitu` or `gpark` with its operands, where it watches, and its end. -/
structure WaitRec where
  sp : Nat
  park : Bool
  hnum : Nat
  off : Nat
  place : Place
  m : Nat
  y : Word
  mask : Word
  deadline : Option Nat
  dl : RegLoc
  dh : RegLoc
  spilled : Bool
  /-- The final word and status, once the entry has ended (R198, R200, R203). -/
  ended : Option (Word × Word)
  since : Nat
  deriving DecidableEq, Repr

/-- The fault frame (R273). -/
structure Frame where
  pc : Dword
  kix : Word
  cnt : SMap (BitVec 8)
  /-- When the fault was raised (R274). -/
  since : Nat
  deriving DecidableEq, Repr

/-- A fault held while another split of the group is in its handler, and when it was raised (R273, R274). -/
structure HeldFault where
  sp : Nat
  trap : Trap
  since : Nat
  deriving DecidableEq, Repr

/-- A chain from its `mchain` to its `mend` (R238), by the number of its `mchain`. `acc` holds accumulator i·N + j, `bad` the poisoned
ones (R246), and `sums` the block sums of an unordered chain whose order of addition has not been seen yet (R241). -/
structure Chain where
  num : Nat
  td : Dword
  tile : Nat
  ordered : Bool
  acc : SMap Word
  sums : SMap (List Word)
  bad : List Nat
  lastUse : Nat
  resident : Bool
  deriving DecidableEq, Repr

/-- What an invalidation of a range found under way through the old mapping (R305), or through mappings of pages that it freezes (R45):
accesses by group and id, commands, and bundle requests by group and id; and whether the covered bundles have been revoked (R192). -/
structure Drain where
  accs : List (Nat × Nat)
  cmds : List Nat
  fills : List (Nat × Nat)
  revoked : Bool
  deriving DecidableEq, Repr

/-- An operation of a group whose decision a later event makes. -/
inductive PendOp where
  /-- `gbdecl`: the status that the table gave (R180). -/
  | decl (r : Word)
  /-- `gmap`: virtual address and level of the leaf, 2, 3 or 4 (R282). -/
  | map (va : Nat) (level : Nat)
  /-- `gsplinter`: virtual address and level of the leaf (R302). -/
  | splinter (va : Nat) (level : Nat)
  /-- `ginval`: kind, U(a), U(b) (R304), the physical pages that it freezes, and what it waits for, once that is known. -/
  | inval (kind a n : Nat) (pages : List Nat) (old : Option Drain)
  /-- `glaunch`: the status that the checks gave (R310). -/
  | launch (r : Word)
  /-- `gdrain.wait` (R311): context and queue. -/
  | drainWait (ctx q : Nat)
  /-- `gdrain.stop` (R311): context and the time of the request. -/
  | drainStop (ctx at' : Nat)
  deriving DecidableEq, Repr

/-- A `PendOp` with the register that receives its status. `sp` is the issuing split. -/
structure Pend where
  id : Nat
  sp : Nat
  op : PendOp
  loc : RegLoc
  lanes : LaneMask
  due : Nat
  deriving DecidableEq, Repr

/-- One lane of the closing atomic of a quantum (R173). -/
structure AtomLane where
  lane : Nat
  pa : Nat
  va : Nat
  x : Word
  x2 : Word
  deriving DecidableEq, Repr

/-- The closing atomic of a quantum: its opcode, the scope of its handle, its lanes and its destination (R173). -/
structure Closing where
  id : Nat
  op : Nat
  scope : Nat
  sp : Nat
  pc : Dword
  lanes : List AtomLane
  d : RegLoc
  d2 : RegLoc
  deriving DecidableEq, Repr

/-- What the closing atomic of a group leaves for step 2 of R325: the old values, and its fault. -/
structure Closed where
  g : Nat
  sp : Nat
  writes : List LaneWrite
  trap : Option Trap
  deriving DecidableEq, Repr

/-- How far the end of a quantum has come (R325): the groups that have still to commit, the first of them perhaps in part; what the
closing atomics have left for step 2; and whether steps 1 to 3 are over. -/
structure Ending where
  rest : List Nat
  closed : List Closed
  bars : Bool
  deriving DecidableEq, Repr

/-- The register window of a group in the register store (R67): its block, log2 of its size, and the register that each line holds. -/
structure Window where
  base : Nat
  log2 : Nat
  lines : SMap Nat
  deriving DecidableEq, Repr

/-- A group: everything its context image holds (R70, R291) and what its core holds for it. Lane `L` of register `n` has
the key `32 n + L` in `regs` and `hregs`; unlisted registers, counters and tiles read 0 (R72, R97, R230). -/
structure Group where
  blk : Nat
  gid : Nat
  /-- The group holds its slot: it has a live split or a pending record (R82). -/
  live : Bool
  /-- The group has exited with work outstanding and holds a retirement-tracker entry (R82). -/
  draining : Bool
  launched : LaneMask
  exited : LaneMask
  alloc : Nat
  regs : SMap Word
  hregs : SMap Word
  /-- For each poisoned register line the lanes not written since (R160). -/
  rpoison : SMap LaneMask
  cnt : SMap (BitVec 8)
  gen : SMap Word
  kwto : Word
  khwin : Word
  retired : Dword
  /-- CT(g), the largest completion time held (R156). -/
  ct : Nat
  /-- The ids of the bundles the group is inside (R184), and those it is marked for after a revocation (R192). -/
  entered : Word
  revoked : Word
  /-- The extents that a revoked id had when the group was marked for it (R192). -/
  marks : SMap (List (Nat × Nat))
  nld : Nat
  nst : Nat
  neng : Nat
  ntile : Nat
  ploads : List PendLoad
  pstores : List PendStore
  hsts : List HeldStore
  /-- Host pages of stores that have not been shown to have reached the host (R153). -/
  hpages : List HostPage
  tokens : List Token
  pends : List Pend
  wait : Option WaitRec
  fcode : Word
  faddr : Dword
  fmask : Word
  fregion : Dword
  frame : Option Frame
  held : List HeldFault
  splits : SMap Split
  stack : List SplitRec
  tiles : SMap Dword
  /-- The open chain, and every chain that has not been freed. -/
  chain : Option Nat
  chains : List Chain
  win : Window
  /-- The written map (R70): the registers with a line in the image. Those whose line on chip differs from it, and those that are in the image
  alone and are fetched by the next access (R67, R72). -/
  written : List Nat
  dirty : List Nat
  cold : List Nat
  /-- The quantum buffer (R173), its stores in program order; for each of them its first write there and the scope
  of its release, 0 without one (R153); the instructions retired in this quantum, and those retired behind its end, which count in the next one
  (R327); whether the group has ended the quantum, and its closing atomic. -/
  qbuf : List ByteWrite
  qrel : List (Nat × Nat)
  qcount : Nat
  qcarry : Nat
  qended : Bool
  closing : Option Closing
  /-- The index of the split that issued last (R126). -/
  turn : Nat
  nextId : Nat
  deriving DecidableEq, Repr

/-- The states of a block (R286). -/
inductive BlockState where
  | resident | stopping | saving | absent | ready | restoring
  deriving DecidableEq, Repr

/-- A block, from its first admission to its end. Its key is its admission number (R316). -/
structure Block where
  lid : Nat
  bid : Nat
  pid : Nat
  ctx : Nat
  core : Nat
  origin : Nat
  ngroups : Nat
  scratch : Nat
  party : Nat
  demand : Nat
  regsLog2 : Nat
  /-- A program of a control core, which is no block of a launch (R20). -/
  control : Bool
  st : BlockState
  reason : Nat
  /-- A migration of R318, which is placed by sensor codes. -/
  thermal : Bool
  readmitted : Option Nat
  slot : Nat
  /-- Every group has exited (R323), and every tracker entry has drained too (R82). -/
  exited : Bool
  finished : Bool
  /-- The scratchpad while the block is not on a core (R292), and its poisoned words with the bytes not written since (log entry 55). -/
  saved : SMap Byte
  spois : SMap Nat
  stopAt : Nat
  readyAt : Nat
  deriving DecidableEq, Repr

/-- A declared bundle of a launch (R177): its extents as first virtual line and length. -/
structure Bundle where
  ext : List (Nat × Nat)
  dropping : Bool
  deriving DecidableEq, Repr

/-- A launch dependence (R312). -/
structure Dep where
  place : Place
  m : Nat
  y : Word
  mask : Word
  registered : Bool
  satisfied : Bool
  /-- Its entry lies in the overflow area (R201), and the time of its registration. -/
  spilled : Bool
  since : Nat
  /-- An invalidation has found no page under the word (R305). -/
  lost : Bool
  deriving DecidableEq, Repr

/-- The life of a launch (R312, R313). -/
inductive LaunchState where
  | queued | running | finishing | finished | cancelled
  deriving DecidableEq, Repr

/-- A launch, as `glaunch` captured it (R309, R310). -/
structure Launch where
  /-- How many launches were accepted before this one: the order of `glaunch` (R310, R312). -/
  seq : Nat
  ctx : Nat
  kernel : Nat
  codeWords : Nat
  patches : List (Nat × Nat × Nat)
  entry : Nat
  regsLog2 : Nat
  party : Nat
  blockLanes : Nat
  scratch : Nat
  demand : Nat
  gx : Nat
  gy : Nat
  gz : Nat
  prio : Nat
  queue : Nat
  live : Nat
  width : Nat
  dep : Option Dep
  /-- The physical and the virtual address of the completion word; an invalidation has found no page under it (R305). -/
  comp : Nat
  compVa : Nat
  compLost : Bool
  params : List Word
  image : Nat
  seed : Word
  /-- Q of the captured ordered configuration, 0 outside ordered mode (R293). -/
  q : Nat
  st : LaunchState
  /-- The index of the next block to start, and the number of finished blocks. -/
  next : Nat
  done : Nat
  bundles : SMap Bundle
  /-- Ordered mode (R328): the quantum number, the block in each place, whether the launch stands at the boundary before that
  quantum (R320), and the end of a quantum that is not over yet (R325). -/
  quantum : Nat
  places : SMap Nat
  boundary : Bool
  ending : Option Ending
  /-- For each core the position of the group that issued last there, plus 1 (R320). -/
  rounds : SMap Nat
  /-- CT of finished groups and commands (R313). -/
  ct : Nat
  deriving DecidableEq, Repr

/-- A context (R307). Pools hold the physical addresses of their stacks: 64 KiB, 2 MiB and 512 MiB pages, 256-byte and
2 KiB tables. `partition` is the mask of compute cores. -/
structure Context where
  live : Bool
  failed : Bool
  stopped : Bool
  root : Nat
  htBase : Nat
  htLen : Nat
  shtBase : Nat
  shtLen : Nat
  bcap : Word
  parkn : Word
  parkt : Word
  drain : Word
  fvec : Dword
  qcfg : SMap Nat
  pools : SMap Nat
  part : Nat
  /-- Excess of earlier drains over `K_DRAIN`, to be taken from the next slices (R289); a stop request whose drain has not ended, and
  its time. -/
  debt : Nat
  stopPending : Bool
  stopAt : Nat
  deriving DecidableEq, Repr

/-- A poisoned unit of device memory (R160): its first byte, its size, and the bytes not written since, as a mask. -/
structure PoisonUnit where
  base : Nat
  size : Nat
  left : Nat
  deriving DecidableEq, Repr

/-- A line of an L1 (R155, R300): context and virtual line, physical line, lease expiry and contents; `bad` are the poisoned units that
the copy was read with (R160). -/
structure L1Line where
  ctx : Nat
  vl : Nat
  pl : Nat
  expiry : Nat
  data : SMap Byte
  bad : List PoisonUnit
  deriving DecidableEq, Repr

/-- A pinned copy (R171, R181), with the tag it was pinned under; `bad` are the poisoned units that it was read with (R160). -/
structure Pin where
  ctx : Nat
  vl : Nat
  /-- The line still lies where its tag says; an invalidation that finds it elsewhere ends that (R305). -/
  tagged : Bool
  pl : Nat
  data : SMap Byte
  bad : List PoisonUnit
  deriving DecidableEq, Repr

/-- The states of a bundle on a core other than Absent (R181). -/
inductive BundleState where
  | filling | entered | resident
  deriving DecidableEq, Repr

/-- A bundle with a copy on a core; `leave` is the time it was last left (R183). `pls` are its physical lines. -/
structure BundleAt where
  lid : Nat
  id : Nat
  ctx : Nat
  st : BundleState
  leave : Nat
  pls : List Nat
  deriving DecidableEq, Repr

/-- A `gbenter` that has reserved its lines and waits for its fill (R184). `fills` are the ids that this request fills, and `lines` the
virtual and physical lines that it reads, as its issue translated them (R301). From `start` on it sends its reads: `unsent` are the lines that
it has still to read and `flying` those under way, with the times of their responses (R194); `due` is the earliest time of its token. -/
structure FillReq where
  id : Nat
  g : Nat
  mask : Word
  fills : List Nat
  lines : List (Nat × Nat)
  loc : RegLoc
  lanes : LaneMask
  start : Nat
  unsent : List Nat
  flying : List (Nat × Nat)
  due : Nat
  deriving DecidableEq, Repr

/-- A request in the bundle queue of a core (R186). -/
structure QueueReq where
  g : Nat
  sp : Nat
  mask : Word
  loc : RegLoc
  lanes : LaneMask
  deriving DecidableEq, Repr

/-- One side or array of a command after its handle was captured (R216): where its byte 0 lies. -/
inductive SideBase where
  | glob (ctx va : Nat)
  | scr (core addr : Nat)
  | host (addr : Nat)
  deriving DecidableEq, Repr

/-- A half-open range of a core's scratchpad, for the scoreboard of R223. -/
structure ScrRange where
  core : Nat
  lo : Nat
  hi : Nat
  deriving DecidableEq, Repr

/-- A copy, gather or scatter-add after issue: the descriptor fields of R215 with every handle resolved. -/
structure DataCmd where
  kind : Nat
  etype : Nat
  a : SideBase
  b : SideBase
  idx : Option SideBase
  sidx : Option SideBase
  wgt : Option SideBase
  astride : Nat
  bstride : Nat
  rwords : Nat
  rows : Nat
  bound : Nat
  sbound : Nat
  deriving DecidableEq, Repr

/-- A destination of a route after its table entry was resolved (R254). -/
structure RouteDest where
  remote : Bool
  dev : Nat
  hnd : Nat
  base : SideBase
  cap : Nat
  stride : Nat
  row0 : Nat
  deriving DecidableEq, Repr

/-- A `groute` after issue (R252). -/
structure RouteCmd where
  k : Nat
  wt : Bool
  inv : Nat
  pk : Bool
  rec' : Bool
  ntok : Nat
  nexp : Nat
  rwords : Nat
  choices : SideBase
  weights : SideBase
  src : SideBase
  sstride : Nat
  dests : List RouteDest
  packed : SideBase
  pstride : Nat
  outs : SideBase
  inverse : SideBase
  recs : SideBase
  rcap : Nat
  tags : SideBase
  acap : Nat
  rid : Nat
  /-- The number of the `groute` that opened the route (R265). -/
  inst : Nat
  deriving DecidableEq, Repr

/-- A `grsel` after issue (R262). -/
structure SelCmd where
  kc : Nat
  wo : Bool
  scores : SideBase
  xstride : Nat
  ntok : Nat
  nexp : Nat
  c : Nat
  lists : SideBase
  choices : SideBase
  weights : SideBase
  deriving DecidableEq, Repr

/-- What a command does. -/
inductive CmdOp where
  | data (c : DataCmd)
  | mma (z tb : Bool) (chain : Option Nat) (a b d : Dword)
  | mchain (z : Bool)
  | mend (disc : Bool) (chain : Nat)
  | msacc (z : Bool) (d p s : Dword)
  | tcvt (m : Nat) (d a : Dword)
  | tfill (diag : Bool) (d : Dword) (x : Word) (bad : Bool)
  | route (c : RouteCmd)
  | sel (c : SelCmd)
  | retry (cls : Bool) (c : RouteCmd)
  deriving DecidableEq, Repr

/-- A row that a route sent to another device and that is not yet acknowledged (R263): its choice, its slot's row, the
receive buffer and buffer row, the number of sends, and the time of the last one. -/
structure SentRow where
  t : Nat
  slot : Nat
  e : Nat
  row : Nat
  dev : Nat
  buf : Nat
  idx : Nat
  sends : Nat
  at' : Nat
  deriving DecidableEq, Repr

/-- Bytes of one word that a command writes; `bad` says that poison feeds them (R225). -/
structure CmdWrite where
  place : Place
  bytes : List Byte
  bad : Bool
  deriving DecidableEq, Repr

/-- An engine, tile or Sluice command from its fork to its completion (R214, R222, R234, R250). -/
structure Cmd where
  id : Nat
  g : Nat
  core : Nat
  lanes : LaneMask
  tok : Option RegLoc
  op : CmdOp
  rd : List ScrRange
  wr : List ScrRange
  /-- The virtual pages that the command was translated through at issue (R305). -/
  pages : List Nat
  /-- The physical page of each (R217). -/
  xl : List (Nat × Nat)
  /-- The barrier object of `.arr`, and the scope of its handle (R213). -/
  arr : Option (Place × Nat)
  started : Bool
  /-- The rows have been sent and the outputs written (R258). -/
  sent : Bool
  /-- The token without its noarr bit, once known; the largest completion time of its writes; poison met (R225). -/
  token : Word
  ct : Nat
  poison : Bool
  /-- Further bits of a Sluice token (R261), and the outputs of a route that its last row precedes (R258). -/
  flags : Nat
  outs : List CmdWrite
  /-- The local rows of a route that pass 2 has still to write: choice, expert, and row of the destination or of the packed buffer; the rows
  on their way; and the tags that count as unacknowledged (R263, R266). -/
  slots : List (Nat × Nat × Nat)
  rows : List SentRow
  lost : List SentRow
  due : Nat
  /-- The global line requests of a running data command that it has still to send, and those under way with the times of their responses
  (R224). -/
  unsent : List Nat
  flying : List (Nat × Nat)
  /-- In ordered mode the command waits for its group's commit (R174). -/
  waitCommit : Bool
  deriving DecidableEq, Repr

/-- A route with unacknowledged tags (R265), and the number of the `groute` that opened it. -/
structure OpenRoute where
  ctx : Nat
  rid : Nat
  inst : Nat
  ntok : Nat
  k : Nat
  nexp : Nat
  rows : List SentRow
  /-- The devices of its remote entries, and the cluster whose `grretry` uses it. -/
  devs : List Nat
  busy : Option Nat
  deriving DecidableEq, Repr

/-- A handle entry in the cache of a core (R139). -/
structure HandleEnt where
  sup : Bool
  ctx : Nat
  idx : Nat
  val : BitVec 128
  deriving DecidableEq, Repr

/-- A core: 0-191 compute, 192-195 control (R16, R20). A compute core comes into service when its march test passes (R341). -/
structure Core where
  inService : Bool
  l1 : List L1Line
  hcache : List HandleEnt
  scratch : SMap Byte
  /-- For each poisoned scratchpad word the bytes not written since, as a mask (R160). -/
  spoison : SMap Nat
  pins : List Pin
  bundles : List BundleAt
  fills : List FillReq
  bqueue : List QueueReq
  copyq : List Cmd
  rillq : List Cmd
  cascq : List Cmd
  matq : List Cmd
  /-- The line requests of commits (R173) that are under way, each with the time of its response (R144). -/
  commits : List (Nat × Nat)
  /-- Requesters that a bank has refused for 16 cycles, and those that stand at the front of a bank's order in this cycle (R146). -/
  starved : List (Nat × BankReq)
  front : List (Nat × BankReq)
  /-- The groups of the active set (R91), each with the time since which none of its splits has been able to issue. -/
  active : SMap Nat
  /-- `K_FVEC` of a control core (R270). -/
  fvec : Dword
  deriving DecidableEq, Repr

/-- A cached leaf (R298): context, first virtual 64 KiB page, number of 64 KiB pages, and the leaf. -/
structure TlbEnt where
  ctx : Nat
  vpn : Nat
  pages : Nat
  leaf : Dword
  deriving DecidableEq, Repr

/-- Power gating of a cluster (R319). -/
inductive Gate where
  | on
  | gating (since : Nat)
  | gated
  | waking (since : Nat)
  deriving DecidableEq, Repr

/-- A cluster: 0-47 of compute cores, 48 the control cluster. -/
structure Cluster where
  tlb : List TlbEnt
  sluice : List Cmd
  /-- The power allowance counter, its refill and marks, the draw of the cycle (R317), and the withheld groups in the order in
  which they were withheld. -/
  allow : Nat
  refill : Nat
  low : Nat
  high : Nat
  draw : Nat
  withheld : List Nat
  gate : Gate
  idleSince : Nat
  domain : Nat
  deriving DecidableEq, Repr

/-- A receive buffer that the control cores have registered (R264): base and counter word as physical addresses. -/
structure RxBuf where
  base : Nat
  stride : Nat
  count : Nat
  ctr : Nat
  deriving DecidableEq, Repr

/-- A row that has been written and waits for its completion times before it is counted and acknowledged (R264). -/
structure RxWait where
  tag : VrelTag
  ctr : Nat
  ct : Nat
  deriving DecidableEq, Repr

/-- A message that leaves on Vrel (R263-R265). -/
inductive VrelOut where
  | row (dev : Nat) (r : VrelRow)
  | ack (t : VrelTag)
  | closed (dev ctx rid : Nat)
  deriving DecidableEq, Repr

/-- What the host receives for a request (R329-R332). -/
inductive HostReply where
  | data (bs : List Byte) (ep : Bool)
  | word (w : Word) (ep : Bool)
  | unsupported
  | refusedWrite
  deriving DecidableEq, Repr

/-- A host request that waits: a BAR0 read or write to a row under test (R159), or a mailbox write, which waits for the earlier host writes and
their completion time too (R331). -/
inductive HostWait where
  | read (a n : Nat)
  | write (a : Nat) (bs : List Byte)
  | mail (n : Nat) (v : Word) (ct : Nat)
  deriving DecidableEq, Repr

/-- A record of the fault log (R334). -/
structure LogRec where
  kind : Nat
  detail : Nat
  unit : Nat
  time : Nat
  pa : Nat
  deriving DecidableEq, Repr

/-- A running march test (R159): the unit whose row it tests, when it began, and the unit number of its records (R334). -/
structure MarchTest where
  unit : StorageUnit
  since : Nat
  no : Nat
  deriving DecidableEq, Repr

/-- A running checkpoint (R338): for each region sent, the port it went out on; the regions acknowledged; the next region. -/
structure Checkpoint where
  sent : List (Nat × Nat)
  acked : List Nat
  next : Nat
  since : Nat
  deriving DecidableEq, Repr

/-- What an attestation report binds (R336): the nonce, the digests of the verified images, the fused security version and the counters of
the status block. -/
structure Report where
  nonce : BitVec 256
  images : List (BitVec 384)
  version : Nat
  counters : List Word
  deriving DecidableEq, Repr

/-- What an attestation request yields (R336): a report with the LMS one-time key index that it used and its two signatures, or status 3. -/
inductive AttestReply where
  | report (r : Report) (key : Nat) (ecdsa : BitVec 768) (lms : List Byte)
  | refused (status : Nat)
  deriving DecidableEq, Repr

/-- A service record that waits for room in the queue (R281): the group that posts it, the bound of its earlier stores, and its words. -/
structure SvcRec where
  g : Nat
  upto : Nat
  words : List Word
  deriving DecidableEq, Repr

/-- A service record that has been written and waits for its tail increment, a release at `.sys` (R153, R281): its group, the bound of the
group's earlier stores, the time of its acknowledgement and its completion time. -/
structure SvcPost where
  g : Nat
  upto : Nat
  due : Nat
  ct : Nat
  deriving DecidableEq, Repr

/-- The next happening of the device, in the order in which `step` takes them. -/
inductive Move where
  /-- Split `sp` of group `g` issues its next instruction. -/
  | issue (g sp : Nat)
  /-- Split `sp` of group `g` reaches its next instruction, which stalls: it takes no issue slot (R185, R316). -/
  | probe (g sp : Nat)
  /-- The heads of a core's bundle queue that come before this key in the order of R186 are tested. -/
  | grants (core key : Nat)
  /-- The cores pick the splits that issue in this cycle (R316). -/
  | picks
  /-- An event of the opcode table takes place. -/
  | event (i : Instr)
  /-- Device time advances by one tick (R15). -/
  | tick
  deriving DecidableEq, Repr

/-- The whole device. Groups have the key block key · 32 + `K_GID`. -/
structure State where
  /-- What happens next, first things first: the model's own field, standing for the order that the manual leaves open. -/
  agenda : List Move
  /-- The split whose instruction is being executed: group key and split index. -/
  cg : Nat
  cs : Nat
  now : Nat
  groups : SMap Group
  blocks : SMap Block
  launches : SMap Launch
  contexts : SMap Context
  cores : SMap Core
  clusters : SMap Cluster
  /-- The last-level TLBs of the compute chiplets 0-3 (R298); 4 serves the control cluster. -/
  lltlb : SMap (List TlbEnt)
  mem : SMap Byte
  hmem : SMap Byte
  poison : List PoisonUnit
  /-- The latest lease expiry granted on each physical line (R155). -/
  lease : SMap Nat
  /-- What commands have written under completion times that are not yet past (R168). -/
  joins : List Joined
  /-- Executable counts of physical 64 KiB pages, and the frozen pages (R303, R45). -/
  xcount : SMap Nat
  frozen : List Nat
  nextLid : Nat
  /-- The number of launches accepted since reset. -/
  nextSeq : Nat
  nextBlk : Nat
  /-- The number of the next command: commands are numbered in the order of their forks. -/
  nextCmd : Nat
  dseed : Word
  /-- `D_READY` (R333), and its `compute`, `cache`, `hbm` and `eth` bits as the functions themselves are up, whether or not a failed image keeps
  them at 0 (R335). -/
  dready : Word
  hwready : Word
  bootcode : Nat
  fw : Bool
  /-- The digests of the verified images, and the fused minimum of the security version (R335, R336). -/
  images : List (BitVec 384)
  fused : Nat
  mbase : Nat
  corrected : Nat
  uncorrected : Nat
  lasting : Nat
  hostRefused : Nat
  logtail : Nat
  log : SMap LogRec
  /-- The compute cores and the slices that a lasting fault has taken out of service since reset (R161, R341). -/
  coresOut : List Nat
  sliceOut : List Nat
  march : List MarchTest
  /-- The compute cores and the slices whose march tests at reset still run, and the slices that have passed theirs (R341). -/
  coreTests : BitVec 192
  sliceTests : BitVec 128
  slicesIn : BitVec 128
  hottest : Word
  /-- The last code of each core's sensor (R318). -/
  codes : SMap Nat
  trip : Nat
  critical : Nat
  shutdown : Nat
  halved : Bool
  shut : Bool
  vrelnum : Word
  /-- When a port last heard from each device (R337). -/
  heard : SMap Nat
  openRoutes : List OpenRoute
  rx : SMap RxBuf
  rxWait : List RxWait
  /-- The duplicate filter (R264): tags, and the time at which a closed route's entry runs out. -/
  filter : List (VrelTag × Option Nat)
  vout : List VrelOut
  hostOut : Option HostReply
  /-- The largest completion time of the host's writes (R331), and the host requests that wait, oldest first. -/
  hostCt : Nat
  hostq : List HostWait
  /-- The service queue (R281): addresses of the records, the tail word and the head word. -/
  svcBase : Nat
  svcTail : Nat
  svcHead : Nat
  /-- Records of double faults that wait for room in the service queue (R275, R281), and the records that the tail word does not count yet,
  both oldest first. -/
  svcWait : List SvcRec
  svcPosts : List SvcPost
  ckpt : Option Checkpoint
  lms : Nat
  attest : Option AttestReply
  /-- The model's own counter of free values drawn. -/
  free : Nat
  deriving DecidableEq, Repr

/-- The reasons for which the machine stops. The device takes every fault that the manual describes as a next state
(R273); what remains is an access to storage that the part does not have. -/
inductive Fault where
  /-- A physical address at or beyond 512 GiB, where the device has no memory (R21). Raised by any access that a page table
  or a pool led there. Safe: the manual gives no effect, and the model goes no further. -/
  | noSuchAddress (pa : Nat)
  deriving DecidableEq, Repr

/-- The reasons for which the model has no meaning for what it met. -/
inductive Refusal where
  /-- An instruction that the model does not describe yet, by its mnemonic. Raised in `exec` only. Safe. -/
  | notModelled (mnemonic : String)
  /-- A word that the code scanner accepts in no page (R46) stands at the fetched address, which R48 rules out: the decoder
  checks no such word, so the manual gives it no effect. Raised by `step`. Safe. -/
  | unacceptedWord (w : Word)
  deriving DecidableEq, Repr

/-! ### Values at reset and at creation -/

def Snapshot.zero : Snapshot := { cnt := [], kix := 0, gen := [], retired := 0, quantum := 0, fill := 0 }

def Split.none : Split :=
  { pc := 0, members := 0, kix := 0, region := 0, st := .running, sup := false, snap := Snapshot.zero, age := 0,
    notBefore := 0, issued := 0, caps := [] }

/-- A group before creation (R72): no register written, every counter 0. -/
def Group.empty : Group :=
  { blk := 0, gid := 0, live := false, draining := false, launched := 0, exited := 0, alloc := 8, regs := [], hregs := [],
    rpoison := [], cnt := [], gen := [], kwto := 0, khwin := 0, retired := 0, ct := 0, entered := 0, revoked := 0, marks := [], nld := 0,
    nst := 0, neng := 0, ntile := 0, ploads := [], pstores := [], hsts := [], hpages := [], tokens := [], pends := [],
    wait := none, fcode := 0, faddr := 0, fmask := 0, fregion := 0, frame := none, held := [], splits := [], stack := [],
    tiles := [], chain := none, chains := [], win := { base := 0, log2 := 3, lines := [] }, written := [], dirty := [], cold := [], qbuf := [], qrel := [], qcount := 0, qcarry := 0,
    qended := false, closing := none, turn := 3, nextId := 0 }

def Block.empty : Block :=
  { lid := 0, bid := 0, pid := 0, ctx := 0, core := 0, origin := 0, ngroups := 0, scratch := 0, party := 1, demand := 0,
    regsLog2 := 3, control := false, st := .resident, reason := 0, thermal := false, readmitted := none, slot := 0, exited := false,
    finished := false, saved := [], spois := [], stopAt := 0, readyAt := 0 }

def Launch.empty : Launch :=
  { seq := 0, ctx := 0, kernel := 0, codeWords := 0, patches := [], entry := 0, regsLog2 := 3, party := 1, blockLanes := 32,
    scratch := 0, demand := 0, gx := 0, gy := 0, gz := 0, prio := 0, queue := 0, live := 0, width := 0, dep := none,
    comp := 0, compVa := 0, compLost := false, params := [], image := 0, seed := 0, q := 0, st := .finished, next := 0, done := 0, bundles := [],
    quantum := 0, places := [], boundary := true, ending := none, rounds := [], ct := 0 }

/-- A context as the supervisor creates it: `K_BCAP` 1536 (R179), `K_PARKN` 0 and `K_PARKT` 60,000 (R284). -/
def Context.empty : Context :=
  { live := false, failed := false, stopped := false, root := 0, htBase := 0, htLen := 0, shtBase := 0, shtLen := 0,
    bcap := 1536, parkn := 0, parkt := 60000, drain := 0, fvec := 0, qcfg := [], pools := [], part := 0, debt := 0,
    stopPending := false, stopAt := 0 }

def Core.empty : Core :=
  { inService := false, l1 := [], hcache := [], scratch := [], spoison := [], pins := [], bundles := [], fills := [],
    bqueue := [], copyq := [], rillq := [], cascq := [], matq := [], commits := [], starved := [], front := [], active := [], fvec := 0 }

def Cluster.empty : Cluster :=
  { tlb := [], sluice := [], allow := 65535, refill := 65535, low := 0, high := 0, draw := 0, withheld := [], gate := .on,
    idleSince := 0, domain := 0 }

/-- The device right after reset (R15, R332, R333, R335): device time 0, no context, launch or group, `D_READY` 0, and no
firmware. The boot ROM of control core 0 runs; its one step that the manual describes is IMAGE_VERIFY. The march tests of R341 run on every
compute core and slice. Registers for which
the manual gives no reset value are 0 (log entry 2). -/
def State.reset : State :=
  { agenda := [], cg := 0, cs := 0, now := 0, groups := [], blocks := [], launches := [], contexts := [], cores := [],
    clusters := [], lltlb := [], mem := [], hmem := [], poison := [], lease := [], joins := [], xcount := [], frozen := [],
    nextLid := 1, nextSeq := 0, nextBlk := 1, nextCmd := 1, dseed := 0, dready := 0, hwready := 0, bootcode := 0, fw := false,
    images := [], fused := 0, mbase := 0, corrected := 0, uncorrected := 0, lasting := 0, hostRefused := 0, logtail := 0, log := [], coresOut := [], sliceOut := [], march := [],
    coreTests := BitVec.allOnes 192, sliceTests := BitVec.allOnes 128, slicesIn := 0, hottest := 0, codes := [],
    trip := 1024, critical := 1024, shutdown := 1024, halved := false, shut := false, vrelnum := 0, heard := [], openRoutes := [],
    rx := [], rxWait := [], filter := [], vout := [], hostOut := none, hostCt := 0, hostq := [],
    svcBase := 0, svcTail := 0, svcHead := 0, svcWait := [], svcPosts := [], ckpt := none, lms := 0, attest := none, free := 0 }

end Sys2Proof.Machine
end

