-- ==== Sys2Proof/Machine/Ops.lean ====
section
/-! DEFINITION. The named operations over the state: groups, splits and their registers (R65, R74), retirement and regions
(R86, R277), taking a fault and leaving its handler (R270-R279, R353, R354), memory bytes, poison and monitors (R150,
R156, R160, R196-R205), handles (R138-R140) and translation (R296-R300). -/
namespace Sys2Proof.Machine
open Sys2Proof

/-- What a meaning answers. -/
abbrev Out := Host.Outcome State Fault Refusal

/-- Why an instruction does not complete: it raises a fault (R271), it waits at its PC, or it reaches storage that the part
does not have. -/
inductive Stop where
  | trap (t : Trap)
  | stall (w : StallWhy)
  | absent (f : Fault)
  deriving DecidableEq, Repr

/-! ### Fault codes (R271) -/

def fRegindex : Nat := 0x02
def fNest : Nat := 0x03
def fHandle : Nat := 0x04
def fAlign : Nat := 0x05
def fPage : Nat := 0x06
def fProt : Nat := 0x07
def fPeergone : Nat := 0x08
def fBundle : Nat := 0x09
def fBrevoke : Nat := 0x0A
def fTrap : Nat := 0x0B
def fMemerr : Nat := 0x0C
def fEngine : Nat := 0x0D
def fRoute : Nat := 0x0E
def fExecreject : Nat := 0x0F

/-- A fault that was not performed in part. -/
def mkTrap (code detail addr : Nat) (mask : LaneMask) : Trap :=
  { code := code, detail := detail, addr := BitVec.ofNat 64 addr, mask := mask, part := false }

/-! ### Finding and replacing records -/

def State.group (s : State) (k : Nat) : Group := (mapFind s.groups k).getD Group.empty
def State.putGroup (s : State) (k : Nat) (g : Group) : State := { s with groups := mapPut s.groups k g }
def State.block (s : State) (k : Nat) : Block := (mapFind s.blocks k).getD Block.empty
def State.putBlock (s : State) (k : Nat) (b : Block) : State := { s with blocks := mapPut s.blocks k b }
def State.launch (s : State) (k : Nat) : Launch := (mapFind s.launches k).getD Launch.empty
def State.putLaunch (s : State) (k : Nat) (l : Launch) : State := { s with launches := mapPut s.launches k l }
def State.context (s : State) (k : Nat) : Context := (mapFind s.contexts k).getD Context.empty
def State.putContext (s : State) (k : Nat) (c : Context) : State := { s with contexts := mapPut s.contexts k c }
def State.core (s : State) (k : Nat) : Core := (mapFind s.cores k).getD Core.empty
def State.putCore (s : State) (k : Nat) (c : Core) : State := { s with cores := mapPut s.cores k c }
def State.cluster (s : State) (k : Nat) : Cluster := (mapFind s.clusters k).getD Cluster.empty
def State.putCluster (s : State) (k : Nat) (c : Cluster) : State := { s with clusters := mapPut s.clusters k c }
def Group.split (g : Group) (i : Nat) : Split := (mapFind g.splits i).getD Split.none
def Group.putSplit (g : Group) (i : Nat) (sp : Split) : Group := { g with splits := mapPut g.splits i sp }

/-- The group whose instruction executes. -/
def State.cur (s : State) : Group := s.group s.cg
/-- The split whose instruction executes. -/
def State.csp (s : State) : Split := s.cur.split s.cs
def State.putCur (s : State) (g : Group) : State := s.putGroup s.cg g
def State.putCsp (s : State) (sp : Split) : State := s.putCur (s.cur.putSplit s.cs sp)
def State.curBlock (s : State) : Block := s.block s.cur.blk
def State.curLaunch (s : State) : Launch := s.launch s.curBlock.lid
def State.curCtx (s : State) : Nat := s.curBlock.ctx
def State.curCore (s : State) : Nat := s.curBlock.core

/-- Control cores have the numbers 192-195 in this model (R20). -/
def isControl (core : Nat) : Bool := decide (192 ≤ core)
/-- The global cluster of a core (R16); 48 stands for the control cluster. -/
def clusterOf (core : Nat) : Nat := if isControl core then 48 else core / 4
/-- The chiplet of a core (R16), whose last-level TLB serves it; 4 stands for the control cluster. -/
def chipletOf (core : Nat) : Nat := if isControl core then 4 else core / 48

/-- R270: the split has supervisor rights, in its handler or on a control core (R354). -/
def State.privileged (s : State) : Bool := s.csp.sup || isControl s.curCore

/-- Q of the launch of a group, 0 outside ordered mode (R293). -/
def State.ordQ (s : State) (k : Nat) : Nat := (s.launch (s.block (s.group k).blk).lid).q

/-! ### Lanes -/

/-- ACTIVE(s) (R7, R97): the members whose nesting counter is 0. -/
def Group.active (g : Group) (sp : Split) : LaneMask :=
  maskOf ((lanesOf sp.members).filter fun l => decide (mapGet 0 g.cnt l = 0))

/-- The lowest lane of a mask. -/
def lowestLane (m : LaneMask) : Nat := (lanesOf m).headD 0

/-- LEADER(s) (R7). -/
def Group.leader (g : Group) (sp : Split) : Nat :=
  if g.active sp = 0 then lowestLane sp.members else lowestLane (g.active sp)

def oneLane (l : Nat) : LaneMask := BitVec.ofNat 32 (2 ^ l)

def State.active (s : State) : LaneMask := s.cur.active s.csp
def State.leader (s : State) : Nat := s.cur.leader s.csp
/-- The fault mask of a group-form instruction (R271). -/
def State.leaderMask (s : State) : LaneMask := oneLane s.leader

/-! ### Registers -/

/-- `eff` of R65, with the window of R37 and the supervisor's naming of R270; on a window register beyond the allocation,
its effective number. -/
def effReg (g : Group) (sp : Split) (n : Reg) : Except Nat RegLoc :=
  if sp.sup then
    if 96 ≤ n.toNat then .ok (.hreg (n.toNat - 96))
    else if n.toNat < g.alloc then .ok (.reg n.toNat) else .ok .off
  else if n.toNat < 96 then .ok (.reg n.toNat)
  else
    let e := n.toNat + sp.kix.toNat
    if e < g.alloc then .ok (.reg e) else .error e

/-- The location of a register whose number has been checked. -/
def Group.loc (g : Group) (sp : Split) (n : Reg) : RegLoc :=
  match effReg g sp n with
  | .ok l => l
  | .error _ => .off

/-- The value at a location in one lane. -/
def Group.rd (g : Group) (loc : RegLoc) (lane : Nat) : Word :=
  match loc with
  | .reg n => mapGet 0 g.regs (32 * n + lane)
  | .hreg n => mapGet 0 g.hregs (32 * n + lane)
  | .off => 0

/-- Write (lane, value) pairs at a location; a written lane is no longer missing from a poisoned line (R160). -/
def Group.wr (g : Group) (loc : RegLoc) (vs : List (Nat × Word)) : Group :=
  match loc with
  | .reg n =>
    { g with
      regs := vs.foldl (fun m v => mapSet 0 m (32 * n + v.1) v.2) g.regs
      rpoison := match mapFind g.rpoison n with
        | none => g.rpoison
        | some left => mapSet 0 g.rpoison n (left &&& ~~~ maskOf (vs.map (·.1)))
      dirty := if vs.isEmpty || g.dirty.contains n then g.dirty else insertBy id n g.dirty }
  | .hreg n => { g with hregs := vs.foldl (fun m v => mapSet 0 m (32 * n + v.1) v.2) g.hregs }
  | .off => g

/-- X(L, n) of R89 and, at the leader, U(n) of R65. -/
def State.x (s : State) (lane : Nat) (n : Reg) : Word := s.cur.rd (s.cur.loc s.csp n) lane
def State.u (s : State) (n : Reg) : Word := s.x s.leader n

/-- PUT(n, x) of R65: every member lane. -/
def State.put (s : State) (n : Reg) (v : Word) : State :=
  s.putCur (s.cur.wr (s.cur.loc s.csp n) ((lanesOf s.csp.members).map fun l => (l, v)))

/-- Each lane of ACTIVE(s) writes its own value (R89). -/
def State.putLanes (s : State) (n : Reg) (f : Nat → Word) : State :=
  s.putCur (s.cur.wr (s.cur.loc s.csp n) ((lanesOf s.active).map fun l => (l, f l)))

/-- A location waits for a pending write in some of these lanes (R149). -/
def Group.busy (g : Group) (lanes : LaneMask) (loc : RegLoc) : Bool :=
  decide (loc ≠ .off) &&
    (g.ploads.any (fun p => p.locs.contains loc && decide (p.lanes &&& lanes ≠ 0)) ||
      g.tokens.any (fun t => decide (t.loc = loc) && decide (t.lanes &&& lanes ≠ 0)) ||
      g.pends.any (fun p => decide (p.loc = loc) && decide (p.lanes &&& lanes ≠ 0)))

/-- R65, R89: the first of the registers whose number traps. -/
def badReg (g : Group) (sp : Split) : List Reg → Option Nat
  | [] => none
  | r :: rest =>
    match effReg g sp r with
    | .error e => some e
    | .ok _ => badReg g sp rest

/-- The first source whose register line is poisoned (R160, R276). -/
def poisonedReg (g : Group) (sp : Split) : List Reg → Option Nat
  | [] => none
  | r :: rest =>
    match g.loc sp r with
    | .reg n => if mapGet 0 g.rpoison n = 0 then poisonedReg g sp rest else some n
    | _ => poisonedReg g sp rest

/-- R159: the register line is under a march test, and accesses to it wait. -/
def State.rowTested (s : State) (loc : RegLoc) : Bool :=
  match loc with
  | .reg n => s.march.any fun t => decide (t.unit = .register s.cg n)
  | _ => false

/-- What every instruction tests of the registers it names, in this order: their numbers (R65, R89), the scoreboard (R149), with rows
under test (R159), and poisoned sources (R276). `mask` holds the lanes that read. -/
def State.operands (s : State) (mask : LaneMask) (writes reads : List Reg) : Except Stop Unit :=
  match badReg s.cur s.csp (writes ++ reads) with
  | some e => .error (.trap (mkTrap fRegindex 0 e mask))
  | none =>
    if (writes ++ reads).any fun r => s.cur.busy s.csp.members (s.cur.loc s.csp r) || s.rowTested (s.cur.loc s.csp r) then
      .error (.stall .scoreboard)
    else
      match poisonedReg s.cur s.csp reads with
      | some n => if mask = 0 then .ok () else .error (.trap (mkTrap fMemerr 4 n mask))
      | none => .ok ()

/-- `operands` for a group-form instruction: the leader reads (R271). -/
def State.groupRegs (s : State) (writes reads : List Reg) : Except Stop Unit := s.operands s.leaderMask writes reads
/-- `operands` for a lane-form instruction: the active lanes read. -/
def State.laneRegs (s : State) (writes reads : List Reg) : Except Stop Unit := s.operands s.active writes reads

/-! ### Retirement, the PC and regions -/

/-- R86, R173, R270: one user-mode instruction retires. -/
def Group.retire (g : Group) (sp : Split) (q : Nat) : Group :=
  if sp.sup then g
  else if q = 0 then { g with retired := g.retired + 1 }
  else { g with retired := g.retired + 1, qcount := g.qcount + 1, qended := g.qended || decide (q ≤ g.qcount + 1) }

/-- An instruction that has counted as retired at its issue and did not complete counts again when it issues again (R9, R327). -/
def Group.unretire (g : Group) (sp : Split) (q : Nat) : Group :=
  if sp.sup then g
  else if q = 0 then { g with retired := g.retired - 1 }
  else { g with retired := g.retired - 1, qcount := g.qcount - 1 }

/-- The instruction counts as retired, and its split stays at it in a state `st` until an event completes it (R327). -/
def State.issueWait (s : State) (st : SplitState) : State :=
  let g := s.cur.retire s.csp (s.ordQ s.cg)
  s.putCur (g.putSplit s.cs { s.csp with st := st })

/-- The instruction of the current split retires and the split goes on at `pc`. -/
def State.jump (s : State) (pc : Dword) : State :=
  let g := s.cur.retire s.csp (s.ordQ s.cg)
  s.putCur (g.putSplit s.cs { s.csp with pc := pc, st := .running })

/-- The instruction retires and its split goes on behind it. -/
def State.advance (s : State) : State := s.jump (s.csp.pc + 4)

/-- The snapshot that R277 takes when a region entry is set. -/
def snapshotOf (g : Group) (sp : Split) (quantum : Nat) : Snapshot :=
  { cnt := g.cnt.filter (fun e => sp.members.getLsbD e.1), kix := sp.kix,
    gen := g.gen.filter (fun e => sp.members.getLsbD e.1), retired := g.retired, quantum := quantum,
    fill := g.qbuf.length }

/-- region-entry := pc, with its snapshot (R277); nothing in a handler (R270). -/
def setRegionOf (g : Group) (i : Nat) (quantum : Nat) (pc : Dword) : Group :=
  let sp := g.split i
  if sp.sup then g else g.putSplit i { sp with region := pc, snap := snapshotOf g sp quantum }

def State.setRegion (s : State) (pc : Dword) : State :=
  s.putCur (setRegionOf s.cur s.cs s.curLaunch.quantum pc)

/-- The region entry becomes the instruction's own PC, as it is while a region-closing instruction waits or faults (R277). -/
def State.openRegion (s : State) : State := s.setRegion s.csp.pc

/-- The instruction retires, and the region entry becomes PC + 4 (R277). -/
def State.advanceClose (s : State) : State :=
  let s := s.advance
  s.setRegion s.csp.pc

/-- R294: the group's stores behind the first `n` writes of its quantum buffer are discarded: they are never performed, and count as outstanding
no more. -/
def Group.cutBuffer (g : Group) (n : Nat) : Group :=
  let keep := (g.qrel.filter fun r => decide (r.1 < n)).length
  let out := ((g.pstores.filter (·.buffered)).drop keep).map (·.id)
  { g with
    qbuf := g.qbuf.take n, qrel := g.qrel.take keep, nst := g.nst - out.length
    pstores := g.pstores.filter fun p => !out.contains p.id }

/-- R278, R294: the snapshot of a split that replays its region is restored: its lanes' counters and generators, and in ordered mode the
group's counts and buffer. A quantum that has ended for the group stays ended, which R294 leaves open (log entry 75). -/
def replayState (g : Group) (sp : Split) (q quantum : Nat) : Group :=
  let ls := lanesOf sp.members
  let cnt := ls.foldl (fun m l => mapSet 0 m l (mapGet 0 sp.snap.cnt l)) g.cnt
  let gen := ls.foldl (fun m l => mapSet 0 m l (mapGet 0 sp.snap.gen l)) g.gen
  let g1 : Group := { g with cnt := cnt, gen := gen }
  if q = 0 then g1
  else if sp.snap.quantum = quantum then
    { g1.cutBuffer sp.snap.fill with
      retired := sp.snap.retired, qcount := g.qcount + sp.snap.retired.toNat - g.retired.toNat }
  else { g1.cutBuffer 0 with retired := sp.snap.retired, qcount := 0 }

/-- R278, R294: the split replays its region. -/
def replaySplit (g : Group) (i : Nat) (q quantum : Nat) : Group :=
  let sp := g.split i
  (replayState g sp q quantum).putSplit i { sp with pc := sp.region, kix := sp.snap.kix, st := .running, caps := [] }

/-! ### Taking a fault and leaving the handler -/

/-- `K_FCODE` (R272). -/
def fcodeWord (i : Nat) (t : Trap) : Word :=
  BitVec.ofNat 32 (i % 4 * 2 ^ 18 + (if t.part then 2 ^ 16 else 0) + t.detail % 256 * 256 + t.code % 256)

/-- `K_FVEC` of a group: its context's, or on a control core that core's own (R270). -/
def State.fvecOf (s : State) (gk : Nat) : Dword :=
  let b := s.block (s.group gk).blk
  if isControl b.core then (s.core b.core).fvec else (s.context b.ctx).fvec

/-- Another split of the group, live or recorded, is in its handler (R273, R353). -/
def Group.otherSup (g : Group) (i : Nat) : Bool :=
  g.splits.any (fun e => decide (e.1 ≠ i) && e.2.sup) || g.stack.any fun r => r.sp.sup

/-- The split whose fault the frame holds while its handler has not begun (R287). -/
def Group.framed (g : Group) : Option Nat :=
  let i := g.fcode.toNat / 2 ^ 18 % 4
  if g.frame.isSome && decide ((g.split i).st = .heldFault) && !g.held.any (fun h => decide (h.sp = i)) then some i else none

/-- The first part of R273: the split records its fault, raised at the time `since`, in the frame and the fault registers. -/
def recordFault (s : State) (gk i : Nat) (t : Trap) (since : Nat) : State :=
  let g := s.group gk
  let sp0 := g.split i
  let quantum := (s.launch (s.block g.blk).lid).quantum
  let sp := if t.part || decide (t.code = fTrap) then { sp0 with region := sp0.pc + 4, snap := snapshotOf g sp0 quantum }
    else sp0
  s.putGroup gk
    (({ g with
       fcode := fcodeWord i t, faddr := t.addr, fmask := t.mask, fregion := sp.region
       frame := some { pc := sp.pc, kix := sp.kix, cnt := g.cnt.filter fun e => sp.members.getLsbD e.1, since := since } } : Group).putSplit i
      { sp with st := .heldFault })

/-- The second part of R273: the split of the frame enters its handler. -/
def beginHandler (s : State) (gk i : Nat) : State :=
  let g := s.group gk
  let sp := g.split i
  let cnt := (lanesOf sp.members).foldl (fun m l => mapSet 0 m l 0) g.cnt
  s.putGroup gk (({ g with cnt := cnt } : Group).putSplit i { sp with pc := s.fvecOf gk, sup := true, st := .running })

/-- The body of R273: the split records its fault and enters its handler. -/
def enterHandler (s : State) (gk i : Nat) (t : Trap) (since : Nat) : State := beginHandler (recordFault s gk i t since) gk i

/-- A record of the fault log (R334). -/
def State.logRecord (s : State) (kind detail unit pa : Nat) : State :=
  { s with
    logtail := s.logtail + 1
    log := mapPut s.log (s.logtail % 256) { kind := kind, detail := detail, unit := unit, time := s.now, pa := pa } }

/-- R275, R354: the group stops, and with it its wait and its requests in the bundle queue; a service record of kind 2 is posted, and on a compute core
the context fails. -/
def doubleFault (s : State) (gk i : Nat) : State :=
  let g := s.group gk
  let b := s.block g.blk
  let ctl := isControl b.core
  let rec2 : List Word :=
    [BitVec.ofNat 32 (2 * 2 ^ 24), if ctl then BitVec.ofNat 32 (2 ^ 32 - 1) else BitVec.ofNat 32 b.ctx,
     BitVec.ofNat 32 b.lid, BitVec.ofNat 32 b.bid, BitVec.ofNat 32 (i % 4 * 256 + g.gid % 32), g.fcode,
     g.faddr.extractLsb' 0 32, g.faddr.extractLsb' 32 32]
  let s := s.putGroup gk { g with splits := g.splits.map (fun e => (e.1, { e.2 with st := SplitState.halted })), wait := none }
  let co := s.core b.core
  let s := if co.bqueue.isEmpty then s
    else s.putCore b.core { co with bqueue := co.bqueue.filter fun r => decide (r.g ≠ gk) }
  let r : SvcRec := { g := gk, upto := g.nextId, words := rec2 }
  let s : State := { s with svcWait := s.svcWait ++ [r] }
  if ctl then s.logRecord 7 (b.core - 192) 0xFFFF 0 else s.putContext b.ctx { s.context b.ctx with failed := true }

/-- A fault that was raised earlier, or in the same cycle by a lower split, comes first (R274). -/
def HeldFault.before (a b : HeldFault) : Bool := decide (a.since < b.since) || (decide (a.since = b.since) && decide (a.sp ≤ b.sp))

/-- The held faults with one more, in the order in which they enter. -/
def addHeld (h : HeldFault) : List HeldFault → List HeldFault
  | [] => [h]
  | x :: rest => if x.before h then x :: addHeld h rest else h :: x :: rest

/-- The fault of a split is held, and the split descheduled (R273, R274, R287). -/
def holdFault (s : State) (gk i : Nat) (t : Trap) : State :=
  let g := s.group gk
  s.putGroup gk (({ g with held := addHeld { sp := i, trap := t, since := s.now } g.held } : Group).putSplit i
    { g.split i with st := .heldFault })

/-- R274: the split above `i` whose fault the frame has taken in this same cycle. -/
def Group.youngFrame (g : Group) (i now : Nat) : Option Nat :=
  let j := g.fcode.toNat / 2 ^ 18 % 4
  match g.frame with
  | some f => if f.since = now ∧ i < j ∧ ((g.split j).sup = true ∨ g.framed = some j) then some j else none
  | none => none

/-- The fault in the frame becomes a held one, and its split stands at its instruction again. -/
def Group.postpone (g : Group) (j : Nat) : Group :=
  match g.frame with
  | none => g
  | some f =>
    let c := g.fcode.toNat
    let t : Trap := { code := c % 256, detail := c / 256 % 256, addr := g.faddr, mask := g.fmask, part := g.fcode.getLsbD 16 }
    let sp := g.split j
    let cnt := (lanesOf sp.members).foldl (fun m l => mapSet 0 m l (mapGet 0 f.cnt l)) g.cnt
    ({ g with cnt := cnt, frame := none, held := addHeld { sp := j, trap := t, since := f.since } g.held } : Group).putSplit j
      { sp with pc := f.pc, kix := f.kix, sup := false, st := .heldFault }

/-- A fault that finds the frame free is recorded there and, on a core, enters its handler (R273, R287). -/
def takeFrame (s : State) (gk i : Nat) (t : Trap) : State :=
  if (s.block (s.group gk).blk).st = .resident then enterHandler s gk i t s.now else recordFault s gk i t s.now

/-- TAKING A FAULT: what happens when an instruction of split `i` of group `gk` raises one (R273-R275, R287, R354). Of two faults of one
cycle the lower split's enters first (R274). -/
def takeFault (s : State) (gk i : Nat) (t : Trap) : State :=
  let g := s.group gk
  if (g.split i).sup then doubleFault s gk i
  else
    match g.youngFrame i s.now with
    | some j => takeFrame (s.putGroup gk (g.postpone j)) gk i t
    | none => if g.otherSup i || g.framed.isSome then holdFault s gk i t else takeFrame s gk i t

/-- R273, R279, R287, R353: on a core, once no split of the group, if it still has any lane, is in its handler, a fault that the frame holds
enters; without one the frame is freed and the oldest held fault enters. -/
def releaseHeld (s : State) (gk : Nat) : State :=
  let g := s.group gk
  if (mapFind s.groups gk).isNone || g.splits.any (fun e => e.2.sup) || g.stack.any (fun r => r.sp.sup) then s
  else
    let here := decide ((s.block g.blk).st = .resident)
    match g.framed, g.held with
    | some i, _ => if here then beginHandler s gk i else s
    | none, h :: rest =>
      if here then enterHandler (s.putGroup gk { g with frame := none, held := rest }) gk h.sp h.trap h.since
      else s.putGroup gk { g with frame := none }
    | none, [] => s.putGroup gk { g with frame := none }

/-! ### Bytes of memory -/

/-- What a byte of memory reads as before anything has written it (log entry 3). -/
def zeroByte : Byte := 0

/-- Byte `i` of a place. -/
def State.byteAt (s : State) (p : Place) (i : Nat) : Byte :=
  match p with
  | .glob pa _ => mapGet zeroByte s.mem (pa + i)
  | .scr c a => mapGet zeroByte (s.core c).scratch (a + i)
  | .host a => mapGet zeroByte s.hmem (a + i)

/-- The `n` bytes from a place on. -/
def State.bytesAt (s : State) (p : Place) (n : Nat) : List Byte := (seqFrom 0 n).map (s.byteAt p)
/-- The little-endian number in `n` bytes from a place on. -/
def State.numAt (s : State) (p : Place) (n : Nat) : Nat := leNat (s.bytesAt p n)
/-- The number in `n` bytes of device memory at a physical address. -/
def State.physNum (s : State) (pa n : Nat) : Nat := s.numAt (.glob pa 0) n

/-- Two byte ranges of one space meet. -/
def placesMeet (p : Place) (n : Nat) (q : Place) (m : Nat) : Bool :=
  match p, q with
  | .glob a _, .glob b _ => decide (a < b + m) && decide (b < a + n)
  | .scr c a, .scr d b => decide (c = d) && decide (a < b + m) && decide (b < a + n)
  | .host a, .host b => decide (a < b + m) && decide (b < a + n)
  | _, _ => false

/-- Some byte of the range lies in a poisoned unit (R160). -/
def State.poisoned (s : State) (p : Place) (n : Nat) : Bool :=
  match p with
  | .glob pa _ => s.poison.any fun u => decide (pa < u.base + u.size) && decide (u.base < pa + n)
  | .scr c a => (seqFrom (a / 4) ((a + n + 3) / 4 - a / 4)).any fun w => decide (mapGet 0 (s.core c).spoison w ≠ 0)
  | .host _ => false

/-- Bit `i` of `m` is cleared. -/
def clearBit (m i : Nat) : Nat := if m.testBit i then m - 2 ^ i else m

/-- R160: a unit loses its poison once every byte has been written. -/
def unpoison (us : List PoisonUnit) (pa n : Nat) : List PoisonUnit :=
  (us.map fun u => { u with left := (seqFrom 0 n).foldl (fun m i =>
    if u.base ≤ pa + i ∧ pa + i < u.base + u.size then clearBit m (pa + i - u.base) else m) u.left }).filter
      fun u => decide (u.left ≠ 0)

/-- List bytes from a key on. -/
def putBytes (m : SMap Byte) (a : Nat) : List Byte → SMap Byte
  | [] => m
  | b :: r => putBytes (mapSet zeroByte m a b) (a + 1) r

/-- The bytes reach their ordering point, and the poison of the units they complete ends. -/
def State.pokeBytes (s : State) (p : Place) (bs : List Byte) : State :=
  match p with
  | .glob pa _ => { s with mem := putBytes s.mem pa bs, poison := unpoison s.poison pa bs.length }
  | .scr c a =>
    let co := s.core c
    s.putCore c { co with
      scratch := putBytes co.scratch a bs
      spoison := (seqFrom a bs.length).foldl (fun m x => mapSet 0 m (x / 4) (clearBit (mapGet 0 m (x / 4)) (x % 4)))
        co.spoison }
  | .host a => { s with hmem := putBytes s.hmem a bs }

/-- The writing core's own copies of a global line: its L1 lines (R150, R168), and its pinned copies for stores and atomics of its
groups (R171, R172). -/
def State.updateCopies (s : State) (core : Nat) (pins : Bool) (pa : Nat) (bs : List Byte) : State :=
  let co := s.core core
  if co.l1.isEmpty && co.pins.isEmpty then s
  else
    s.putCore core { co with
      l1 := co.l1.map fun l =>
        if l.pl = pa / 128 then { l with data := putBytes l.data (pa % 128) bs, bad := unpoison l.bad pa bs.length } else l
      pins := if pins then
          co.pins.map fun p =>
            if p.pl = pa / 128 then { p with data := putBytes p.data (pa % 128) bs, bad := unpoison p.bad pa bs.length } else p
        else co.pins }

/-- The completion time of a global write performed now (R156); 0 in the other spaces. -/
def State.completionAt (s : State) (p : Place) : Nat :=
  match p with
  | .glob pa _ => max s.now (mapGet 0 s.lease (pa / 128)) + Config.skew
  | _ => 0

/-- The condition of a wait (R197). -/
def waitHolds (m : Nat) (w y mask : Word) : Bool :=
  let x := w &&& mask
  match m with
  | 0 => decide (x = y)
  | 1 => decide (x ≠ y)
  | 2 => x.slt y
  | 3 => !x.slt y
  | 4 => x.ult y
  | 5 => !x.ult y
  | 6 => decide (x = mask)
  | _ => decide (x ≠ mask)

/-- An ended wait of an absent block marks the block ready (R203, R286). -/
def markReady (s : State) (bk : Nat) : State :=
  let b := s.block bk
  if b.st = .absent then s.putBlock bk { b with st := .ready, readyAt := s.now } else s

/-- The wait of a group ends with a final word and a status (R198, R200, R203). -/
def endWait (s : State) (gk : Nat) (w st : Word) : State :=
  let g := s.group gk
  match g.wait with
  | none => s
  | some r => markReady (s.putGroup gk { g with wait := some { r with ended := some (w, st) } }) g.blk

/-- The wait is gone and its split takes a fault at the `gwaitu` (R204); a block that is off its core becomes Ready for it (log entry
57). -/
def faultWait (s : State) (gk detail : Nat) : State :=
  let g := s.group gk
  match g.wait with
  | none => s
  | some r =>
    let va := match r.place with
      | .glob _ va => va
      | _ => r.hnum * 2 ^ 32 + r.off
    let g := g.unretire (g.split r.sp) (s.ordQ gk)
    takeFault (s.putGroup gk { g with wait := none }) gk r.sp
      (mkTrap fMemerr detail va (oneLane (g.leader (g.split r.sp)))) |> fun s => markReady s g.blk

/-- A block whose groups are on its core. -/
def Block.onCore (b : Block) : Bool :=
  match b.st with
  | .resident | .stopping | .saving => true
  | _ => false

/-- R202: a scratchpad wait is watched only while its block is on a core. -/
def State.watched (s : State) (gk : Nat) (p : Place) : Bool :=
  match p with
  | .scr _ _ => (s.block (s.group gk).blk).onCore
  | _ => true

/-- One monitor meets a write (R198, R204). Ordered mode evaluates its waits at quantum ends only (R174). -/
def evalWait (s : State) (gk : Nat) (ws : List ByteWrite) : State :=
  match (s.group gk).wait with
  | none => s
  | some r =>
    if r.ended.isSome || decide (s.ordQ gk ≠ 0) || !s.watched gk r.place || !ws.any (fun w => placesMeet r.place 4 w.place w.bytes.length) then s
    else if s.poisoned r.place 4 then faultWait s gk 7
    else
      let w : Word := BitVec.ofNat 32 (s.numAt r.place 4)
      if waitHolds r.m w r.y r.mask then endWait s gk w 1 else s

/-- One launch dependence meets a write, and latches (R312). -/
def evalDep (s : State) (lid : Nat) (ws : List ByteWrite) : State :=
  let l := s.launch lid
  match l.dep with
  | none => s
  | some d =>
    if !d.registered || d.satisfied || !ws.any (fun w => placesMeet d.place 4 w.place w.bytes.length) then s
    else if waitHolds d.m (BitVec.ofNat 32 (s.numAt d.place 4)) d.y d.mask then
      s.putLaunch lid { l with dep := some { d with satisfied := true } }
    else s

/-- Every monitor and dependence meets these writes. -/
def evalMonitors (s : State) (ws : List ByteWrite) : State :=
  let s := s.groups.foldl (fun s e => if e.2.wait.isSome then evalWait s e.1 ws else s) s
  s.launches.foldl (fun s e => if e.2.dep.isSome then evalDep s e.1 ws else s) s

/-- Writes are performed at their ordering points (R150, R196). `core` is the core that sends them, if any; `pins` says that they
are stores or atomics of its groups (R171). -/
def State.perform (s : State) (core : Option Nat) (pins : Bool) (ws : List ByteWrite) : State :=
  let s := ws.foldl (fun s w =>
    let s := s.pokeBytes w.place w.bytes
    match core, w.place with
    | some c, .glob pa _ => s.updateCopies c pins pa w.bytes
    | _, _ => s) s
  evalMonitors s ws

/-- The page holds accepted code or is frozen (R45, R303). -/
def State.execPage (s : State) (pa : Nat) : Bool :=
  decide (mapGet 0 s.xcount (pa / 65536) ≠ 0) || s.frozen.contains (pa / 65536)

/-- Writes that no access check has passed, of the device's own units, the host and other devices: those to executable and frozen pages
do not take place (R47, R303; log entry 61). -/
def State.devPut (s : State) (ws : List ByteWrite) : State :=
  s.perform none false (ws.filter fun w => match w.place with
    | .glob pa _ => !s.execPage pa
    | _ => true)

/-- The largest completion time of writes that are performed now (R156). -/
def State.completionOf (s : State) (ws : List ByteWrite) : Nat := ws.foldl (fun t w => max t (s.completionAt w.place)) 0

/-! ### The service queue -/

/-- The slot of the next record: the tail word, and the records that it does not count yet. -/
def State.svcNext (s : State) : Nat := (s.physNum s.svcTail 4 + s.svcPosts.length) % 2 ^ 32

/-- R281: the queue has room. -/
def State.svcRoom (s : State) : Bool := decide ((s.svcNext + 2 ^ 32 - s.physNum s.svcHead 4) % 2 ^ 32 < 2048)

/-- R281: a record is written; the tail word counts it once its release is met (`State.flushTail`). -/
def State.postRecord (s : State) (r : SvcRec) : State :=
  let ws : List ByteWrite :=
    [{ place := .glob (s.svcBase + 32 * (s.svcNext % 2048)) 0, bytes := r.words.flatMap fun w => leBytes 4 w.toNat }]
  let ct := s.completionOf ws
  let s := s.devPut ws
  { s with svcPosts := s.svcPosts ++ [{ g := r.g, upto := r.upto, due := s.now + 250, ct := ct }] }

/-- The oldest waiting record of a double fault is posted when there is room (R275, R281). -/
def State.flushSvc (s : State) : State :=
  match s.svcWait with
  | [] => s
  | r :: rest => if s.svcRoom then { s with svcWait := rest }.postRecord r else s

/-! ### How a meaning ends -/

/-- The fault of the current split (R273). -/
def State.trapCur (s : State) (t : Trap) : State := (takeFault s s.cg s.cs t).flushSvc

/-- A new cause to wait does not take from a split that its access to a peer's scratchpad has passed the checks (R323). -/
def SplitState.stall (st : SplitState) (w : StallWhy) : SplitState :=
  match st, w with
  | .stalled (.passed _ (some _)), .passed _ _ => .stalled w
  | .stalled (.passed n (some a)), _ => .stalled (.passed n (some a))
  | _, _ => .stalled w

/-- The current split waits at its instruction. -/
def State.stallCur (s : State) (w : StallWhy) : State := s.putCsp { s.csp with st := s.csp.st.stall w }

/-- The outcome of a meaning that has either completed or stopped in `s`. -/
def settle (s : State) (r : Except Stop State) : Out :=
  match r with
  | .ok s' => .next s'
  | .error (.trap t) => .next (s.trapCur t)
  | .error (.stall w) => .next (s.stallCur w)
  | .error (.absent f) => .fault f

/-- Run `k` once the tests `r` have passed. -/
def guarded (s : State) (r : Except Stop Unit) (k : State) : Out :=
  match r with
  | .ok _ => .next k
  | .error (.trap t) => .next (s.trapCur t)
  | .error (.stall w) => .next (s.stallCur w)
  | .error (.absent f) => .fault f

/-- R270: a privileged instruction in user mode faults `F_PROT` with detail 4. -/
def State.needPriv (s : State) : Except Stop Unit :=
  if s.privileged then .ok () else .error (.trap (mkTrap fProt 4 0 s.leaderMask))

/-- `r`, and then `q`. -/
def andThen (r q : Except Stop Unit) : Except Stop Unit :=
  match r with
  | .ok _ => q
  | .error e => .error e

/-! ### Rows under a march test (R159) -/

/-- The bank and the row of a scratchpad address (R18). -/
def bankOf (a : Nat) : Nat := a / 4 % 384
def rowOf (a : Nat) : Nat := a / 4 / 384

/-- The core number of accesses that no core's L1 serves: those of engines, walkers, fetches and the host. -/
def noCore : Nat := 196

/-- The march test of this unit holds back an access of core `core` to this place. Of the sets and rows whose geometry the manual does
not give, the model takes the one line (log entry 53). -/
def rowCovers (u : StorageUnit) (core : Nat) (p : Place) : Bool :=
  match u, p with
  | .scratch c w, .scr d a => decide (c = d) && decide (rowOf (4 * w) = rowOf a)
  | .l1Line c _ vl, .glob _ va => decide (c = core) && decide (vl = va / 128)
  | .sliceClean pl, .glob pa _ => decide (pl = pa / 128)
  | .sliceDirty pl, .glob pa _ => decide (pl = pa / 128)
  | .hbm pb, .glob pa _ => decide (pb / 128 = pa / 128)
  | _, _ => false

/-- Some of these places lies in a row under test. -/
def State.underTest (s : State) (core : Nat) (ps : List Place) : Bool := s.march.any fun t => ps.any (rowCovers t.unit core)

/-- Some of these writes reaches a row under test. -/
def State.writesTested (s : State) (core : Nat) (ws : List ByteWrite) : Bool := s.underTest core (ws.map (·.place))

/-- A row of these scratchpad ranges, or a line of these physical pages, is under test. -/
def State.rangesTested (s : State) (rs : List ScrRange) (pages : List Nat) : Bool :=
  s.march.any fun t =>
    match t.unit with
    | .scratch c w => rs.any fun r =>
      decide (r.core = c) && decide (r.lo < r.hi) && decide (rowOf r.lo ≤ rowOf (4 * w)) && decide (rowOf (4 * w) ≤ rowOf (r.hi - 1))
    | .sliceClean pl => pages.contains (pl / 512)
    | .sliceDirty pl => pages.contains (pl / 512)
    | .hbm pa => pages.contains (pa / 65536)
    | _ => false

/-! ### Handles -/

/-- A handle entry (R138), read. -/
structure Entry where
  usable : Bool
  space : Nat
  pr : Bool
  pw : Bool
  pa : Bool
  lease : Nat
  bypass : Bool
  scope : Nat
  limit : Nat
  base : Nat
  deriving DecidableEq, Repr

/-- The lease lengths of R138, in ticks. -/
def leaseTicks (c : Nat) : Nat :=
  match c with
  | 0 => 0
  | 1 => 256
  | 2 => 1024
  | _ => 4096

/-- R138: the fields of an entry, and whether its valid bit and its base let it be used. A limit field above 2^32, which R138 does not
describe, stands as it is (log entry 71). -/
def readEntry (v : Nat) : Entry :=
  let space := bitsOf v 126 125
  let base := bitsOf v 63 0
  let okBase := match space with
    | 0 => decide (base % 128 = 0)
    | 1 => decide (base % 16 = 0) && decide (base < 2 ^ 21)
    | 2 => decide (base = 0)
    | _ => decide (base % 128 = 0)
  { usable := v.testBit 127 && okBase, space := space, pr := v.testBit 124, pw := v.testBit 123,
    pa := v.testBit 122 && decide (space ≠ 3), lease := leaseTicks (bitsOf v 121 120), bypass := v.testBit 119,
    scope := min (bitsOf v 118 116) 4, limit := bitsOf v 96 64, base := base }

/-- An entry that no use gets past (R139). -/
def Entry.none : Entry := readEntry 0

/-- R139: entry `hnum` of the context's user table or, with supervisor rights, of its supervisor table (R270); through the
core's cache, which it fills. -/
def State.handle (s : State) (core ctx : Nat) (sup : Bool) (hnum : Nat) : State × Entry :=
  let c := s.context ctx
  let len := if sup then c.shtLen else c.htLen
  let base := if sup then c.shtBase else c.htBase
  if 4095 < hnum ∨ len ≤ hnum then (s, Entry.none)
  else
    let co := s.core core
    match co.hcache.find? fun e => decide (e.sup = sup) && decide (e.ctx = ctx) && decide (e.idx = hnum) with
    | some e => (s, readEntry e.val.toNat)
    | none =>
      let v := s.physNum (base + 16 * hnum) 16
      (s.putCore core { co with hcache := { sup := sup, ctx := ctx, idx := hnum, val := BitVec.ofNat 128 v } :: co.hcache },
        readEntry v)

/-- The read of an entry that the core's cache does not hold waits for its row (R159). -/
def State.handleTested (s : State) (core ctx : Nat) (sup : Bool) (hnum : Nat) : Bool :=
  let c := s.context ctx
  !s.march.isEmpty && decide (hnum ≤ 4095) && decide (hnum < if sup then c.shtLen else c.htLen) &&
    !((s.core core).hcache.any fun e => decide (e.sup = sup) && decide (e.ctx = ctx) && decide (e.idx = hnum)) &&
    s.underTest noCore [.glob ((if sup then c.shtBase else c.htBase) + 16 * hnum) 0]

/-- The entry that the current split names has to wait. -/
def State.curHandleTested (s : State) (hnum : Nat) : Bool := s.handleTested s.curCore s.curCtx s.privileged hnum

/-- The entry that the current split names. -/
def State.curHandle (s : State) (hnum : Nat) : State × Entry := s.handle s.curCore s.curCtx s.privileged hnum

/-- The key of the block that is member `m` of the party of block `bk` (R25, R140). -/
def State.member (s : State) (bk m : Nat) : Option Nat :=
  let b := s.block bk
  if b.pid = m then some bk
  else
    (s.blocks.find? fun e => decide (e.2.lid = b.lid) && !e.2.control && decide (e.2.pid = m) &&
      decide (e.2.bid / e.2.party = b.bid / b.party)).map (·.1)

/-- The effective limit of an entry (R140), exact (R8): below 0 where a space-1 base lies beyond the block's scratchpad. -/
def effLimit (e : Entry) (scratch : Nat) : Int :=
  match e.space with
  | 1 => min (e.limit : Int) (scratch - e.base)
  | 2 => min e.limit scratch
  | _ => e.limit

/-- Check 1 of R147 on one offset: the detail of the failure (R271). -/
def boundFault (e : Entry) (b : Block) (o size : Nat) : Option Nat :=
  if e.space = 2 then
    if o / 2 ^ 23 % 2 ^ 9 ≠ 0 ∨ b.party ≤ o / 2 ^ 21 % 4 then some 3
    else if effLimit e b.scratch < ((o % 2 ^ 21 + size : Nat) : Int) then some 2 else none
  else if effLimit e b.scratch < ((o + size : Nat) : Int) then some 2 else none

/-- `within` of R140, which looks at a peer offset in whole: the detail of the failure. -/
def withinFault (e : Entry) (b : Block) (o : Nat) : Option Nat :=
  if e.space = 2 ∧ o / 2 ^ 23 ≠ 0 then some 3 else boundFault e b o 0

/-! ### Translation -/

/-- A level of the page table (R296): the shift and width of its index, whether a leaf may stand there, and the alignment of the
table that a pointer names. -/
structure Level where
  shift : Nat
  width : Nat
  leaf : Bool
  align : Nat
  deriving DecidableEq, Repr

def levels : List Level :=
  [{ shift := 38, width := 10, leaf := false, align := 4096 }, { shift := 29, width := 9, leaf := true, align := 2048 },
   { shift := 21, width := 8, leaf := true, align := 256 }, { shift := 16, width := 5, leaf := true, align := 0 }]

/-- Bits 47:8 of an entry, as an address (R297). -/
def pteAddr (e : Nat) : Nat := bitsOf e 47 8 * 256

/-- The entry of a level's table that an address selects. -/
def pteAt (l : Level) (table va : Nat) : Nat := table + 8 * (va / 2 ^ l.shift % 2 ^ l.width)

/-- A walk (R296, R297): the leaf and log2 of its page size, or none at an invalid entry. -/
def walk (s : State) (va : Nat) : List Level → Nat → Option (Nat × Nat)
  | [], _ => none
  | l :: rest, table =>
    let e := s.physNum (pteAt l table va) 8
    if !e.testBit 63 then none
    else if e.testBit 62 then
      if l.leaf && decide (pteAddr e % 2 ^ l.shift = 0) then some (e, l.shift) else none
    else if l.align = 0 ∨ pteAddr e % l.align ≠ 0 then none
    else walk s va rest (pteAddr e)

/-- The cached leaf that covers an address. -/
def tlbHit (t : List TlbEnt) (ctx va : Nat) : Option TlbEnt :=
  t.find? fun e => decide (e.ctx = ctx) && decide (e.vpn ≤ va / 65536) && decide (va / 65536 < e.vpn + e.pages)

/-- R298: the translation of an address in a context for a core: the state with the TLBs filled, and the physical address with
its leaf. -/
def State.translate (s : State) (core ctx va : Nat) : State × Option (Nat × Nat) :=
  if 2 ^ 48 ≤ va then (s, none)
  else
    let pa := fun (e : TlbEnt) => pteAddr e.leaf.toNat + (va - e.vpn * 65536)
    let cl := s.cluster (clusterOf core)
    let ll := mapGet [] s.lltlb (chipletOf core)
    match tlbHit cl.tlb ctx va with
    | some e => (s, some (pa e, e.leaf.toNat))
    | none =>
      match tlbHit ll ctx va with
      | some e => (s.putCluster (clusterOf core) { cl with tlb := e :: cl.tlb.take 4095 }, some (pa e, e.leaf.toNat))
      | none =>
        match walk s va levels (s.context ctx).root with
        | none => (s, none)
        | some (leaf, sh) =>
          let e : TlbEnt :=
            { ctx := ctx, vpn := va / 2 ^ sh * 2 ^ (sh - 16), pages := 2 ^ (sh - 16), leaf := BitVec.ofNat 64 leaf }
          let s := s.putCluster (clusterOf core) { cl with tlb := e :: cl.tlb.take 4095 }
          ({ s with lltlb := mapPut s.lltlb (chipletOf core) (e :: ll.take 767) }, some (pa e, leaf))

/-- The page-table entries that a walk reads (R296). -/
def walkReads (s : State) (va : Nat) : List Level → Nat → List Nat
  | [], _ => []
  | l :: rest, table =>
    let at' := pteAt l table va
    let e := s.physNum at' 8
    at' :: (if !e.testBit 63 || e.testBit 62 || decide (l.align = 0) || decide (pteAddr e % l.align ≠ 0) then [] else walkReads s va rest (pteAddr e))

/-- The walk of an address reads an entry whose row is under test (R159). -/
def State.walkBusy (s : State) (ctx va : Nat) : Bool :=
  !s.march.isEmpty && s.underTest noCore ((walkReads s va levels (s.context ctx).root).map fun a => .glob a 0)

/-- The translation of an address, which no TLB of the core holds, waits for its walk (R159, R298). -/
def State.walkTested (s : State) (core ctx va : Nat) : Bool :=
  !s.march.isEmpty && decide (va < 2 ^ 48) && (tlbHit (s.cluster (clusterOf core)).tlb ctx va).isNone &&
    (tlbHit (mapGet [] s.lltlb (chipletOf core)) ctx va).isNone && s.walkBusy ctx va

/-- Why a translated access fails: no page, no permission, no storage; `busy` is no fault: the walk waits for a row under test (R159). -/
inductive TransFault where
  | page
  | prot (detail : Nat)
  | absent (pa : Nat)
  | busy
  deriving DecidableEq, Repr

/-- R297, R303: the physical address of an access that needs these permissions. -/
def State.transCheck (s : State) (core ctx va : Nat) (needR needW : Bool) : State × Except TransFault Nat :=
  if s.walkTested core ctx va then (s, .error .busy)
  else
    let (s1, r) := s.translate core ctx va
    match r with
    | none => (s1, .error .page)
    | some (pa, leaf) =>
      if needW && s.execPage pa then (s1, .error (.prot 3))
      else if (needR && !leaf.testBit 61) || (needW && !leaf.testBit 60) then (s1, .error (.prot 2))
      else if Config.memBytes ≤ pa then (s1, .error (.absent pa))
      else (s1, .ok pa)

end Sys2Proof.Machine
end

