-- ==== Sys2Proof/Machine/Window.lean ====
section
/-! DEFINITION. Register windows and the register area of the context image (spec/04_group_instructions.md R67-R72; spec/19_scheduling.md
R308): bytes at virtual addresses, register lines in an image, and what an access to a register that misses in its window does. -/
namespace Sys2Proof.Machine
open Sys2Proof

/-! ### Bytes at virtual addresses -/

/-- The physical 64 KiB page and the leaf of a virtual page, by a walk of the table. -/
def State.pageLeaf (s : State) (ctx page : Nat) : Option (Nat × Nat) :=
  if 2 ^ 32 ≤ page then none
  else
    match walk s (page * 65536) levels (s.context ctx).root with
    | some (leaf, sh) => some ((pteAddr leaf + page * 65536 % 2 ^ sh) / 65536, leaf)
    | none => none

/-- The physical address of a virtual byte, by a walk of the table. -/
def State.virtPa (s : State) (ctx va : Nat) : Option Nat :=
  match s.pageLeaf ctx (va / 65536) with
  | some (page, _) => if page * 65536 < Config.memBytes then some (page * 65536 + va % 65536) else none
  | none => none

/-- The number in `n` bytes at a virtual address, at most 64 KiB of them, where every byte translates. -/
def State.virtNum (s : State) (ctx va n : Nat) : Option Nat :=
  let k := 65536 - va % 65536
  if n ≤ k then (s.virtPa ctx va).map fun pa => s.physNum pa n
  else
    match s.virtPa ctx va, s.virtPa ctx (va + k) with
    | some pa, some pb => some (s.physNum pa k + 256 ^ k * s.physNum pb (n - k))
    | _, _ => none

/-- Bytes are written at a virtual address page by page; a page that does not translate is left out. -/
def putPages (ctx : Nat) : Nat → Nat → List Byte → State → State
  | 0, _, _, s => s
  | n + 1, va, bs, s =>
    if bs.isEmpty then s
    else
      let k := 65536 - va % 65536
      let s := match s.virtPa ctx va with
        | some pa => s.devPut [{ place := .glob pa va, bytes := bs.take k }]
        | none => s
      putPages ctx n (va + k) (bs.drop k) s

/-- Bytes are written at a virtual address. -/
def State.virtPut (s : State) (ctx va : Nat) (bs : List Byte) : State := putPages ctx (bs.length / 65536 + 2) va bs s

/-! ### Register lines (R71) -/

/-- A difference fits `n` signed bits. -/
def fitsSigned (n : Nat) (x : Word) : Bool := decide (-(2 ^ (n - 1) : Int) ≤ x.toInt) && decide (x.toInt < 2 ^ (n - 1))

/-- The format byte of a line and the bytes that it writes. -/
def packLine (vs : List Word) : Nat × List Byte :=
  let base := vs.headD 0
  let ds := vs.drop 1 |>.map (· - base)
  if ds.all fun d => decide (d = 0) then (1, leBytes 4 base.toNat)
  else if ds.all (fitsSigned 8) then (2, leBytes 4 base.toNat ++ ds.flatMap fun d => leBytes 1 d.toNat)
  else if ds.all (fitsSigned 16) then (3, leBytes 4 base.toNat ++ ds.flatMap fun d => leBytes 2 d.toNat)
  else (0, vs.flatMap fun v => leBytes 4 v.toNat)

/-- Lane `i` of a stored line; `rd off n` is the number in `n` of its bytes. -/
def unpackLane (fmt : Nat) (rd : Nat → Nat → Nat) (i : Nat) : Word :=
  let base : Word := BitVec.ofNat 32 (rd 0 4)
  match fmt with
  | 1 => base
  | 2 => if i = 0 then base else base + (BitVec.ofNat 8 (rd (3 + i) 1)).signExtend 32
  | 3 => if i = 0 then base else base + (BitVec.ofNat 16 (rd (2 + 2 * i) 2)).signExtend 32
  | _ => BitVec.ofNat 32 (rd (4 * i) 4)

/-- The lane values of a register. -/
def Group.lineOf (g : Group) (n : Nat) : List Word := (seqFrom 0 32).map fun l => mapGet 0 g.regs (32 * n + l)

/-- A register's line is written back to the image at `base` (R71). -/
def State.writeLine (s : State) (ctx base : Nat) (g : Group) (n : Nat) : State :=
  let (fmt, bs) := packLine (g.lineOf n)
  let s := s.virtPut ctx (base + 0x400 + 128 * n) bs
  s.virtPut ctx (base + 0x40 + n) (leBytes 1 fmt)

/-- One register of an image: its lanes that have not exited (R70, R71); of a poisoned line the whole register is poisoned (log entry 59). -/
def State.readLine (s : State) (ctx base : Nat) (g : Group) (n : Nat) : Group :=
  match s.virtNum ctx (base + 0x40 + n) 1, s.virtPa ctx (base + 0x400 + 128 * n) with
  | some fmt, some pa =>
    let rd := fun o k => s.physNum (pa + o) k
    let live := g.launched &&& ~~~ g.exited
    { g with
      regs := (lanesOf live).foldl (fun r l => mapSet 0 r (32 * n + l) (unpackLane fmt rd l)) g.regs
      rpoison := if s.poisoned (.glob pa 0) 128 then mapSet 0 g.rpoison n (BitVec.allOnes 32) else g.rpoison }
  | _, _ => g

/-! ### Block slots (R308, R292) -/

/-- The groups of a block of a launch. -/
def Launch.groups (l : Launch) : Nat := ceilDiv l.blockLanes 32

/-- The size of a block's own image, P. -/
def Launch.blockImage (l : Launch) : Nat := ceilDiv (0x1000 + l.scratch) 0x10000 * 0x10000

/-- The size of a slot. -/
def slotBytes (scratch groups : Nat) : Nat := ceilDiv (0x1000 + scratch) 0x10000 * 0x10000 + groups * 0x60000

/-- The virtual address of the slot of a block. -/
def State.slotBase (s : State) (bk : Nat) : Nat :=
  let b := s.block bk
  let l := s.launch b.lid
  l.image + b.slot * slotBytes l.scratch l.groups

/-- The virtual address of a group's image. -/
def State.imageBase (s : State) (gk : Nat) : Nat :=
  let g := s.group gk
  s.slotBase g.blk + (s.launch (s.block g.blk).lid).blockImage + g.gid * 0x60000

/-! ### Misses (R67) -/

/-- The line of register `n` in an image can be reached. -/
def State.lineMapped (s : State) (ctx base n : Nat) : Bool :=
  (s.virtPa ctx (base + 0x40 + n)).isSome && (s.virtPa ctx (base + 0x400 + 128 * n)).isSome

/-- A register in a list of registers. -/
def addReg (ns : List Nat) (n : Nat) : List Nat := if ns.contains n then ns else insertBy id n ns

/-- Register `n` of a group leaves the store: its line is written back where it is dirty, and its next access fetches it again. A control
core's group has no image, and a line that the image has no page for stays on chip (log entry 59). -/
def State.displace (s : State) (gk n : Nat) : State :=
  let g := s.group gk
  let b := s.block g.blk
  let base := s.imageBase gk
  if b.control || !s.lineMapped b.ctx base n then s
  else
    let d := g.dirty.contains n
    let s := if d then s.writeLine b.ctx base g n else s
    let g := s.group gk
    let written := if d then addReg g.written n else g.written
    s.putGroup gk { g with
      regs := g.regs.filter fun e => decide (e.1 / 32 ≠ n)
      dirty := g.dirty.filter fun m => decide (m ≠ n)
      written := written, cold := if written.contains n then addReg g.cold n else g.cold }

/-- The line of register `n` in an image holds a value of a lane that has exited since (R71, R103). -/
def State.staleLine (s : State) (ctx base : Nat) (g : Group) (n : Nat) : Bool :=
  match s.virtNum ctx (base + 0x40 + n) 1, s.virtPa ctx (base + 0x400 + 128 * n) with
  | some fmt, some pa => (lanesOf g.exited).any fun l => decide (unpackLane fmt (fun o k => s.physNum (pa + o) k) l ≠ 0)
  | _, _ => false

/-- Register `n` of a group comes back from its image, if it is there alone; its line is dirty where the image holds more than it does. -/
def State.fetchLine (s : State) (gk n : Nat) : State :=
  let g := s.group gk
  let b := s.block g.blk
  let base := s.imageBase gk
  if g.cold.contains n && s.lineMapped b.ctx base n then
    s.putGroup gk { s.readLine b.ctx base g n with
      cold := g.cold.filter fun m => decide (m ≠ n)
      dirty := if s.staleLine b.ctx base g n then addReg g.dirty n else g.dirty }
  else s

/-- An access to register `n` of a group, in an instruction that accesses the registers of `keep` too: on a miss the line's occupant leaves
it and the register is fetched (R67). Two registers of one instruction do not displace each other before it has executed. -/
def State.windowMiss (s : State) (gk : Nat) (keep : List Nat) (n : Nat) : State :=
  let g := s.group gk
  let i := n % 2 ^ g.win.log2
  let s1 := match mapFind g.win.lines i with
    | some m => if m = n ∨ m ∈ keep then s else s.displace gk m
    | none => s
  let s2 := s1.fetchLine gk n
  if mapFind g.win.lines i = some n then s2
  else
    let g := s2.group gk
    s2.putGroup gk { g with win := { g.win with lines := mapPut g.win.lines i n } }

/-- The numbers of the register-file locations of a list. -/
def regNums (locs : List RegLoc) : List Nat :=
  locs.filterMap fun l => match l with
    | .reg n => some n
    | _ => none

/-- Accesses to these locations of a group that holds a slot. -/
def State.touch (s : State) (gk : Nat) (locs : List RegLoc) : State :=
  (regNums locs).foldl (fun s n => if (s.group gk).live then s.windowMiss gk (regNums locs) n else s) s

/-- After an instruction those of its registers leave the store that another of them has taken the line from (R67). -/
def State.settleRegs (s : State) (gk : Nat) (locs : List RegLoc) : State :=
  (regNums locs).foldl (fun s n =>
    let g := s.group gk
    let taken := match mapFind g.win.lines (n % 2 ^ g.win.log2) with
      | some m => decide (m ≠ n)
      | none => false
    if g.live && taken && !g.cold.contains n then s.displace gk n else s) s

/-! ### Windows that change (R67-R69) -/

/-- The window of a group takes another block of the store; occupants that meet in one line make room. -/
def State.resizeWindow (s : State) (gk base log2 : Nat) : State :=
  let old := (s.group gk).win.lines
  let s := s.putGroup gk { s.group gk with win := { base := base, log2 := log2, lines := [] } }
  old.foldl (fun s e =>
    let g := s.group gk
    let i := e.2 % 2 ^ log2
    match mapFind g.win.lines i with
    | some _ => s.displace gk e.2
    | none => s.putGroup gk { g with win := { g.win with lines := mapPut g.win.lines i e.2 } }) s

end Sys2Proof.Machine
end

