-- ==== Sys2Proof/Machine/Operands.lean ====
section
/-! DEFINITION. The operand forms: lane-form and group-form register instructions (R65, R89), and the checks that every memory
operand passes before it is accessed (R147). -/
namespace Sys2Proof.Machine
open Sys2Proof

/-! ### Register instructions -/

/-- A lane-form instruction that writes one register in each active lane (R89). -/
def laneOp (s : State) (d : Reg) (reads : List Reg) (f : Nat → Word) : Out :=
  guarded s (s.laneRegs [d] reads) (s.putLanes d f).advance

/-- The generator states after each active lane has taken its own (R57, R104). -/
def State.putGen (s : State) (f : Nat → Word) : State :=
  s.putCur { s.cur with gen := (lanesOf s.active).foldl (fun m l => mapSet 0 m l (f l)) s.cur.gen }

/-- The generator state of a lane. -/
def State.genOf (s : State) (lane : Nat) : Word := mapGet 0 s.cur.gen lane

/-- A lane-form instruction whose result also moves the lane's generator: `f` gives the result and the new state. -/
def laneGenOp (s : State) (d : Reg) (reads : List Reg) (f : Nat → Word → Word × Word) : Out :=
  let r := fun l => f l (s.genOf l)
  guarded s (s.laneRegs [d] reads) ((s.putLanes d fun l => (r l).1).putGen fun l => (r l).2).advance

/-- A group-form instruction that writes one register in every member lane (R65). -/
def groupOp (s : State) (d : Reg) (reads : List Reg) (v : Word) : Out :=
  guarded s (s.groupRegs [d] reads) (s.put d v).advance

/-! ### Memory operands -/

/-- What an access needs of its entry (R147 check 3) and how its page faults are named (R271); `object` is the barrier object of an `.arr`
command, checked as an atomic (R217). -/
inductive AccKind where
  | weakLoad | load | store | atomic | wait | desc | object
  deriving DecidableEq, Repr

def AccKind.detail (k : AccKind) : Nat :=
  match k with
  | .weakLoad => 1
  | .load => 1
  | .store => 2
  | .atomic => 3
  | .object => 3
  | .desc => 5
  | .wait => 7

def AccKind.reads (k : AccKind) : Bool := decide (k ≠ .store)
def AccKind.writes (k : AccKind) : Bool := decide (k = .store) || decide (k = .atomic) || decide (k = .object)

/-- Check 4 of R147 is made: the faults of a descriptor read have none for it (R10, R180, R217, R310). -/
def AccKind.peers (k : AccKind) : Bool := decide (k ≠ .desc)

/-- The access meets the revocation marks of its group: a wait, a descriptor read and the object of a command do not (log entry 21). -/
def AccKind.marks (k : AccKind) : Bool := decide (k ≠ .wait) && decide (k ≠ .desc) && decide (k ≠ .object)

/-- R147 check 3. -/
def permitted (e : Entry) (k : AccKind) : Bool :=
  match k with
  | .weakLoad => e.pr
  | .load => e.pr
  | .desc => e.pr
  | .store => e.pw
  | .atomic => e.pr && e.pw && e.pa && decide (e.space ≠ 3)
  | .object => e.pr && e.pw && e.pa && decide (e.space ≠ 3)
  | .wait => e.pr && decide (e.space ≠ 3)

/-- A lane's offset and the place it names. -/
structure LaneAddr where
  lane : Nat
  off : Nat
  place : Place
  deriving DecidableEq, Repr

/-- The (hnum << 32) | o form of `K_FADDR` (R147). -/
def handleAddr (hnum o : Nat) : Nat := hnum * 2 ^ 32 + o % 2 ^ 32

/-- The first failing check of R147: its fault, with the code, detail and address of the lowest lane in the mask. -/
def laneTrap (code hnum : Nat) (detail : Nat → Nat) (bad : List (Nat × Nat)) : Stop :=
  let o := (bad.headD (0, 0)).2
  .trap (mkTrap code (detail o) (handleAddr hnum o) (maskOf (bad.map (·.1))))

/-- The member that a space-2 offset names (R140). -/
def peerOf (o : Nat) : Nat := o / 2 ^ 21 % 4

/-- R147 check 4: the block of the member has exited. -/
def State.peerGone (s : State) (o : Nat) : Bool :=
  match s.member s.cur.blk (peerOf o) with
  | none => true
  | some k => (s.block k).exited

/-- Where byte `o` of a scratchpad or host entry lies (R140, R141). -/
def State.placeOf (s : State) (e : Entry) (o : Nat) : Place :=
  match e.space with
  | 1 => .scr s.curCore (s.curBlock.origin + e.base + o)
  | 2 =>
    let b := s.block ((s.member s.cur.blk (peerOf o)).getD s.cur.blk)
    .scr b.core (b.origin + o % 2 ^ 21)
  | _ => .host (e.base + o)

/-- What the translation of one lane's address yields: a place or a fault. -/
abbrev LaneTrans := Nat × Nat × Except TransFault Place

/-- A line of the L1 with an unexpired lease (R155). -/
def l1Hit (co : Core) (now ctx vl : Nat) : Option L1Line :=
  co.l1.find? fun l => decide (l.ctx = ctx) && decide (l.vl = vl) && decide (now < l.expiry)

/-- The physical line that a weak load hits by virtual tag, in a pinned copy (R171) or the L1 (R155, R300): a hit needs no
translation (log entry 15). Ordered mode reads committed memory (R173), and a bypass entry is served from the slice (R142). -/
def State.virtHit (s : State) (bypass : Bool) (va : Nat) : Option Nat :=
  if s.curLaunch.q ≠ 0 then none
  else
    let co := s.core s.curCore
    match co.pins.find? fun p => p.tagged && decide (p.ctx = s.curCtx) && decide (p.vl = va / 128) with
    | some p => some p.pl
    | none => if bypass then none else (l1Hit co s.now s.curCtx (va / 128)).map (·.pl)

/-- R147 check 5: one lane's address. -/
def State.transOne (s : State) (e : Entry) (k : AccKind) (o : Nat) : State × Except TransFault Place :=
  let va := e.base + o
  match if k = .weakLoad then s.virtHit e.bypass va else none with
  | some pl => (s, .ok (.glob (pl * 128 + va % 128) va))
  | none =>
    match s.transCheck s.curCore s.curCtx va k.reads k.writes with
    | (s1, .ok pa) => (s1, .ok (.glob pa va))
    | (s1, .error f) => (s1, .error f)

/-- R147 check 5: every lane's address is translated, in ascending lane order. -/
def transLanes (s : State) (e : Entry) (k : AccKind) : List (Nat × Nat) → State × List LaneTrans
  | [] => (s, [])
  | (l, o) :: rest =>
    let (s1, p) := s.transOne e k o
    let (s2, ps) := transLanes s1 e k rest
    (s2, (l, o, p) :: ps)

/-- The lanes whose translation failed. -/
def failedTrans (ts : List LaneTrans) : List (Nat × Nat × TransFault) :=
  ts.filterMap fun t =>
    match t.2.2 with
    | .error e => some (t.1, t.2.1, e)
    | .ok _ => none

/-- The lanes whose translation succeeded. -/
def goodTrans (ts : List LaneTrans) : List LaneAddr :=
  ts.filterMap fun t =>
    match t.2.2 with
    | .ok p => some { lane := t.1, off := t.2.1, place := p }
    | .error _ => none

/-- The fault of a failed translation (R271, R297, R303). -/
def transStop (e : TransFault) (va detail : Nat) (mask : LaneMask) : Stop :=
  match e with
  | .page => .trap (mkTrap fPage detail va mask)
  | .prot d => .trap (mkTrap fProt d va mask)
  | .absent pa => .absent (.noSuchAddress pa)
  | .busy => .stall .full

/-- The virtual lines of a bundle's extents hold this line. -/
def extHolds (ext : List (Nat × Nat)) (vline : Nat) : Bool :=
  ext.any fun e => decide (e.1 ≤ vline) && decide (vline < e.1 + e.2)

/-- The extents of an id that a group is marked for: those it had then (R192). -/
def markExt (g : Group) (bundles : SMap Bundle) (i : Nat) : List (Nat × Nat) :=
  match mapFind g.marks i with
  | some ext => ext
  | none => ((mapFind bundles i).map (·.ext)).getD []

/-- R192: the lowest revoked id, of those the group is marked for, that one of these addresses meets. -/
def revokedAt (g : Group) (bundles : SMap Bundle) (as : List LaneAddr) : Option Nat :=
  ((lanesOf g.revoked).filter fun i => as.any fun a =>
    match a.place with
    | .glob _ va => extHolds (markExt g bundles i) (va / 128)
    | _ => false).head?

/-- R192: the mark is cleared and the access faults before it performs. -/
def State.revokeFault (s : State) (id : Nat) (as : List LaneAddr) : State × Stop :=
  let ext := markExt s.cur s.curLaunch.bundles id
  let hit := as.filter fun a =>
    match a.place with
    | .glob _ va => extHolds ext (va / 128)
    | _ => false
  let va := match (hit.map (·.place)).headD (.glob 0 0) with
    | .glob _ va => va
    | _ => 0
  (s.putCur { s.cur with revoked := s.cur.revoked &&& ~~~ oneLane id, marks := mapDel s.cur.marks id },
    .trap (mkTrap fBrevoke id va (maskOf (hit.map (·.lane)))))

/-- THE COMMON ACCESS PROCEDURE (R147, R192) on (lane, offset) pairs in ascending lane order: the state with the caches that it
fills, and the entry with each lane's place or the first fault; while a row that it needs is under test it waits (R159). The revocation marks
come after check 5, an order that R147 and R192 leave open (log entry 21). -/
def accessCheck (s : State) (hnum : Nat) (k : AccKind) (size : Nat) (offs : List (Nat × Nat)) :
    State × Except Stop (Entry × List LaneAddr) :=
  if s.curHandleTested hnum then (s, .error (.stall .full))
  else
  let (s, e) := s.curHandle hnum
  if !e.usable then (s, .error (laneTrap fHandle hnum (fun _ => 1) offs))
  else
    let b := s.curBlock
    let bad1 := offs.filter fun x => (boundFault e b x.2 size).isSome
    let bad2 := offs.filter fun x => decide (x.2 % size ≠ 0)
    let bad4 := offs.filter fun x => decide (e.space = 2) && k.peers && s.peerGone x.2
    if !bad1.isEmpty then (s, .error (laneTrap fHandle hnum (fun o => (boundFault e b o size).getD 2) bad1))
    else if !bad2.isEmpty then (s, .error (laneTrap fAlign hnum (fun _ => 0) bad2))
    else if !permitted e k then (s, .error (laneTrap fProt hnum (fun _ => 1) offs))
    else if !bad4.isEmpty then (s, .error (laneTrap fPeergone hnum peerOf bad4))
    else if e.space ≠ 0 then
      (s, .ok (e, offs.map fun x => { lane := x.1, off := x.2, place := s.placeOf e x.2 }))
    else
      let (s, ts) := transLanes s e k offs
      if (failedTrans ts).any fun x => decide (x.2.2 = .busy) then (s, .error (.stall .full))
      else
        match failedTrans ts with
        | (l, o, f) :: rest =>
          (s, .error (transStop f (e.base + o) k.detail (maskOf (l :: rest.map (·.1)))))
        | [] =>
          let as := goodTrans ts
          match if k.marks then revokedAt s.cur s.curLaunch.bundles as else none with
          | some id =>
            let (s, t) := s.revokeFault id as
            (s, .error t)
          | none => (s, .ok (e, as))

/-- What the current split's access to a peer's scratchpad has passed the checks with. -/
def State.heldAcc (s : State) : Option HeldAcc :=
  match s.csp.st with
  | .stalled (.passed _ a) => a
  | _ => none

/-- `accessCheck` for an atomic or an arrival: a peer access that has passed it is performed from there, whatever the member, the handle or its
entry has become since (R323). -/
def atomCheck (s : State) (hnum size : Nat) (offs : List (Nat × Nat)) : State × Except Stop (Entry × List LaneAddr) :=
  match s.heldAcc with
  | some a =>
    (s, .ok ({ Entry.none with usable := true, space := 2, scope := a.scope },
      a.lanes.map fun x => { lane := x.1, off := x.2.1, place := x.2.2 }))
  | none => accessCheck s hnum .atomic size offs

/-- What an access that has passed `accessCheck` holds while it waits. -/
def heldOf (e : Entry) (as : List LaneAddr) : Option HeldAcc :=
  if e.space = 2 then some { scope := e.scope, lanes := as.map fun x => (x.lane, x.off, x.place) } else none

/-- The (lane, offset) pairs of a lane-form memory operand (R32, R140). -/
def State.laneOffs (s : State) (a : Reg) (o : BitVec 5) (scale : Nat) : List (Nat × Nat) :=
  (lanesOf s.active).map fun l => (l, (s.x l a).toNat + o.toNat * scale)

/-- The entry that a lane-form slot names (R37, R139). -/
def State.slotHandle (s : State) (h : BitVec 5) : Nat := s.cur.khwin.toNat + h.toNat

/-! ### Strong stores that a core holds (R153, R163) -/

/-- An access of `m` bytes at the first place reaches a byte of the `n` bytes at the second, or in device or host memory their line. -/
def reachesBytes (p : Place) (m : Nat) (q : Place) (n : Nat) : Bool :=
  match p, q with
  | .glob a _, .glob b _ => decide (a / 128 = b / 128)
  | .scr c a, .scr d b => decide (c = d) && decide (a < b + n) && decide (b < a + m)
  | .host a, .host b => decide (a / 128 = b / 128)
  | _, _ => false

/-- A group of the core holds a strong store that meets an access of `size` bytes at one of these places; the store is sent first (R163). -/
def State.heldAtPlaces (s : State) (core : Nat) (ps : List Place) (size : Nat) : Bool :=
  s.groups.any fun g =>
    !g.2.hsts.isEmpty && decide ((s.block g.2.blk).core = core) && g.2.hsts.any fun h =>
      h.writes.any fun w => ps.any fun p => reachesBytes p size w.place w.bytes.length

/-- The places of a wide read at issue, one for each line or row that it can reach. -/
def placesFrom (p : Place) (n : Nat) : List Place :=
  (seqFrom 0 (ceilDiv n 4)).map fun i =>
    match p with
    | .glob a va => .glob (a + 4 * i) (va + 4 * i)
    | .scr c a => .scr c (a + 4 * i)
    | .host a => .host (a + 4 * i)

/-- R159, R163: the device's own read at issue waits while one of its rows is under test or the core holds a strong store to it. -/
def State.ownReadWaits (s : State) (p : Place) (n : Nat) : Option StallWhy :=
  if s.heldAtPlaces s.curCore (placesFrom p n) 4 then some .acquire
  else if s.underTest s.curCore (placesFrom p n) then some .full
  else none

/-! ### The L1 (R17) -/

/-- A core's L1 holds 2048 lines, of which the pinned ones and those reserved for bundles leave the rest to leases (R17, R179). -/
def Core.trimL1 (co : Core) : Core := { co with l1 := co.l1.take (2048 - ((co.bundles.flatMap (·.pls)).eraseDups).length) }

/-! ### The device's own reads at issue (descriptors, tables and records) -/

/-- `n` bytes that nothing determines, drawn from the free values. -/
def State.freeBytes (s : State) (n : Nat) : State × List Byte :=
  ({ s with free := s.free + n }, (seqFrom s.free n).map fun i => (Config.freeWord i).extractLsb' 0 8)

/-- A read at this offset of an entry names a member of the party of which nothing is left. -/
def State.noMember (s : State) (e : Entry) (o : Nat) : Bool := decide (e.space = 2) && (s.member s.cur.blk (peerOf o)).isNone

/-- A doubleword or record read at its ordering point for the leader, checked as a load at this offset of entry `hnum`. From a member's
scratchpad that is gone it reads free values (log entry 63). -/
def State.descRead (s : State) (hnum o size n : Nat) : State × Except Stop (Entry × Place × List Byte) :=
  let (s, r) := accessCheck s hnum .desc size [(s.leader, o)]
  match r with
  | .error e => (s, .error e)
  | .ok (e, as) =>
    if s.noMember e o then
      let (s, bs) := s.freeBytes n
      (s, .ok (e, .host 0, bs))
    else
    let p := ((as.map (·.place)).headD (.glob 0 0))
    let va := match p with
      | .glob _ va => va
      | _ => handleAddr hnum o
    match s.ownReadWaits p n with
    | some w => (s, .error (.stall w))
    | none =>
      if s.poisoned p n then (s, .error (.trap (mkTrap fMemerr 6 va s.leaderMask)))
      else (s, .ok (e, p, s.bytesAt p n))

/-! ### Orders that an access waits for -/

/-- An acquire of the split is outstanding (R153). -/
def State.acquireOut (s : State) : Bool :=
  s.cur.ploads.any fun p => p.strong && decide (p.lanes &&& s.csp.members ≠ 0)

/-- A store of the group before id `n` is not yet acknowledged (R153, R157); buffered stores are not waited for (R166). -/
def Group.storesBefore (g : Group) (n : Nat) : Bool :=
  (g.pstores.any fun p => !p.buffered && decide (p.id < n)) || g.hsts.any fun h => decide (h.id < n)

/-- A store of the group before id `n` is not yet acknowledged, one that waits in the quantum buffer included (R302, R304). -/
def Group.anyStoreBefore (g : Group) (n : Nat) : Bool := (g.pstores.any fun p => decide (p.id < n)) || g.hsts.any fun h => decide (h.id < n)

/-- A load of the group before id `n` has not yet written its registers. -/
def Group.loadsBefore (g : Group) (n : Nat) : Bool := g.ploads.any fun p => decide (p.id < n)

/-- The id bound of an order wait: it stays as it was when the instruction first waited. -/
def State.orderBound (s : State) : Nat :=
  match s.csp.st with
  | .stalled (.order n) => n
  | .stalled (.passed n _) => n
  | .stalled (.fence n) => n
  | .stalled (.drained n) => n
  | _ => s.cur.nextId

/-- A host-space store of the group before id `n` has not been shown to have reached the host (R153). -/
def Group.hostBefore (g : Group) (n : Nat) : Bool := g.hpages.any fun p => decide (p.store < n)

/-- R153: the release of a strong access at scope `sc` is met for the stores before id `n`. -/
def State.releaseMet (s : State) (g : Group) (sc n : Nat) : Bool :=
  !g.storesBefore n && (decide (sc < 2) || decide (g.ct < s.now)) && (decide (sc ≠ 4) || !g.hostBefore n)

/-- R168: the fork of an engine command may take place. In ordered mode it does not wait for the stores that the group has buffered, which land at
its commit before the command starts (R173, R174); its descriptor is read as committed before them (log entry 76). -/
def State.forkReady (s : State) : Except Stop Unit :=
  if s.acquireOut then .error (.stall .acquire)
  else
    let n := s.orderBound
    if s.cur.loadsBefore n || s.cur.storesBefore n then .error (.stall (.order n)) else .ok ()

/-- The tracker entry of a global or host address (R144). -/
def Place.entry (p : Place) : Option Nat :=
  match p with
  | .glob pa _ => some (2 * (pa / 128))
  | .host ha => some (2 * (ha / 128) + 1)
  | .scr _ _ => none

/-- The distinct lines of global and host addresses: the tracker entries of an access (R144). -/
def linesOf (as : List LaneAddr) : List Nat := (as.filterMap fun a => a.place.entry).eraseDups

/-- The requests of an access, one for each line; `lat` gives the latency of a place's class (R142), and whether it goes beyond the core. -/
def lineReqs (lat : Place → Nat × Bool) (as : List LaneAddr) : List LineReq :=
  (linesOf as).map fun l =>
    let t := lat (((as.map (·.place)).find? fun p => decide (p.entry = some l)).getD (.host 0))
    { line := l, far := t.2, time := t.1 }

/-- The entries of an access in use: those of requests that have not been sent, or whose response has not come (R144). -/
def openLines (now : Nat) (unsent flying : List LineReq) : List Nat := (unsent ++ flying.filter fun r => decide (now < r.time)).map (·.line)

/-- The lines that an access waits for at their HBM banks (R22). -/
def bankLines (now : Nat) (flying : List LineReq) : List Nat := (flying.filter fun r => r.far && decide (now < r.time)).map (·.line)

/-- Those of these (line, time of response) requests that are still under way. -/
def underWay (now : Nat) (rs : List (Nat × Nat)) : List Nat := (rs.filter fun x => decide (now < x.2)).map (·.1)

/-- The places of some writes, as the addresses of their tracker entries. -/
def writeAddrs (ws : List ByteWrite) : List LaneAddr := ws.map fun w => { lane := 0, off := 0, place := w.place }

/-- The request-tracker entries of a core in use, each by its line (R144): those of its outstanding loads and stores, of the strong stores that
their releases hold, and of the commits of ordered mode (R173). -/
def State.tracker (s : State) (core : Nat) : List Nat :=
  (s.groups.flatMap fun e =>
    if (s.block e.2.blk).core = core then
      (e.2.ploads.flatMap fun p => openLines s.now p.unsent p.flying) ++ (e.2.pstores.flatMap fun p => openLines s.now p.unsent p.flying) ++
        e.2.hsts.flatMap fun h => linesOf (writeAddrs h.writes)
    else []) ++ underWay s.now (s.core core).commits

/-- Slice(p) of R143, with a slice that is out of service replaced by its neighbour. Where both slices of a pair are out, R143 names no
owner; the model still takes the neighbour (log entry 53). -/
def State.sliceOf (s : State) (line : Nat) : Nat :=
  let f := fun lo => line / 2 ^ lo % 128
  let n := f 0 ^^^ f 7 ^^^ f 14 ^^^ f 21 ^^^ (line / 2 ^ 28 % 16)
  if s.sliceOut.contains n then n ^^^ 1 else n

/-- Stack(p) of R143. -/
def stackOf (line : Nat) : Nat := line % 8 ^^^ (line / 2 ^ 15 % 8)

/-- Hbank(p) of R143. -/
def hbankOf (line : Nat) : Nat := stackOf line * 512 + line / 8 % 512

/-- The HBM bank of a tracker entry; a host line has none. -/
def entryBank (l : Nat) : Option Nat := if l % 2 = 0 then some (hbankOf (l / 2)) else none

/-- The line requests of a core's engines that are under way (R224). -/
def Core.engineLines (co : Core) : List Nat := ([co.copyq, co.rillq, co.cascq].flatMap id).flatMap fun c => c.flying.map (·.1)

/-- The requests of a core that have been sent and count against the bank cap (R22): its tracker's, the reads of its bundle fills (R194), and
those of its running engines (R224). -/
def State.bankUse (s : State) (core : Nat) : List Nat :=
  (s.groups.flatMap fun e =>
    if (s.block e.2.blk).core = core then
      (e.2.ploads.flatMap fun p => bankLines s.now p.flying) ++ e.2.pstores.flatMap fun p => bankLines s.now p.flying
    else []) ++ underWay s.now (s.core core).commits ++ ((s.core core).fills.flatMap fun f => underWay s.now f.flying) ++
    (s.core core).engineLines

/-- The HBM bank of a request has room for it beside those that have been sent (R22). -/
def bankRoom (used : List Nat) (l : Nat) : Bool :=
  (entryBank l).isNone || decide ((used.filter fun x => decide (entryBank x = entryBank l)).length < 64)

/-- R22, R144: the requests of an access that their banks hold back, each by itself; those that are sent now, with the times of their
responses; and the bank use after them. -/
def sendReqs (now : Nat) (used : List Nat) : List LineReq → List LineReq × List LineReq × List Nat
  | [] => ([], [], used)
  | r :: rest =>
    if !r.far || bankRoom used r.line then
      let (held, sent, used) := sendReqs now (if r.far then r.line :: used else used) rest
      (held, { r with time := now + r.time } :: sent, used)
    else
      let (held, sent, used) := sendReqs now used rest
      (r :: held, sent, used)

/-- The time at which the last of some responses is there, and not before `t`. -/
def lastTime (t : Nat) (sent : List LineReq) : Nat := sent.foldl (fun t r => max t r.time) t

/-- The virtual 64 KiB pages of global addresses. -/
def pagesOf (ps : List Place) : List Nat :=
  (ps.filterMap fun p =>
    match p with
    | .glob _ va => some (va / 65536)
    | _ => none).eraseDups

/-! ### Lines and their poison -/

/-- The bytes of a physical line, by offset. -/
def State.lineBytes (s : State) (pl : Nat) : SMap Byte :=
  (s.mem.filter fun e => decide (pl * 128 ≤ e.1) && decide (e.1 < pl * 128 + 128)).map fun e => (e.1 - pl * 128, e.2)

/-- The poisoned units of device memory that a physical line meets. -/
def State.linePoison (s : State) (pl : Nat) : List PoisonUnit :=
  s.poison.filter fun u => decide (pl * 128 < u.base + u.size) && decide (u.base < pl * 128 + 128)

/-- `n` bytes from a physical address on meet one of these units. -/
def meetsUnit (us : List PoisonUnit) (pa n : Nat) : Bool := us.any fun u => decide (pa < u.base + u.size) && decide (u.base < pa + n)

/-! ### Banks and times (R18, R141, R142, R145) -/

/-- The scratchpad words of an access of `size` bytes in each lane, as core, bank and row. -/
def bankRows (as : List LaneAddr) (size : Nat) : List (Nat × Nat × Nat) :=
  (as.flatMap fun a =>
    match a.place with
    | .scr c x => (seqFrom 0 (ceilDiv size 4)).map fun i => (c, bankOf (x + 4 * i), rowOf (x + 4 * i))
    | _ => []).eraseDups

/-- The passes of a scratchpad access (R145). -/
def passes (as : List LaneAddr) (size : Nat) : Nat :=
  let ws := bankRows as size
  ws.foldl (fun n w => max n (ws.filter fun x => decide (x.1 = w.1) && decide (x.2.1 = w.2.1)).length) 0

/-- The nominal latency of a lane's access (R142): classes A and B in the scratchpads, L in the L1, C at a slice, E at the host. The
model does not hold what a slice caches, so class D is never told from C (log entry 11). -/
def nominal (place : Place) (core : Nat) (hit atomic : Bool) : Nat :=
  match place with
  | .glob _ _ => if hit then 24 else 250
  | .scr c _ => if c = core && !atomic then 6 else 48
  | .host _ => 2400

/-- The passes of a scratchpad access at one core (R145). -/
def passesAt (as : List LaneAddr) (size core : Nat) : Nat :=
  passes (as.filter fun a => match a.place with
    | .scr c _ => decide (c = core)
    | _ => false) size

/-- The time of a scratchpad access: that of its slowest lane, whose class takes the extra passes at the lane's own scratchpad (R142, R145). -/
def scratchTime (as : List LaneAddr) (size core : Nat) (atomic : Bool) : Nat :=
  as.foldl (fun t a =>
    match a.place with
    | .scr c _ => max t (nominal a.place core false atomic + (passesAt as size c - 1))
    | _ => t) 0

/-- The latency of a store's request until its acknowledgement (R157), and that it goes beyond the core. -/
def ackTime (place : Place) : Nat × Bool :=
  match place with
  | .host _ => (30, true)
  | _ => (250, true)

/-! ### Splits that may issue (R22, R287, R316, R320) -/

/-- The groups on a core, with their keys. -/
def State.groupsOn (s : State) (core : Nat) : List (Nat × Group) :=
  s.groups.filter fun e => decide ((s.block e.2.blk).core = core) && (s.block e.2.blk).onCore

/-- The split is at an instruction that it could perform, or try again. -/
def SplitState.tries (st : SplitState) : Bool :=
  match st with
  | .running => true
  | .stalled _ => true
  | _ => false

/-- R22: a request of a split of these lanes waits for its HBM bank, and the split stalls until it has been sent. -/
def Group.heldBack (g : Group) (lanes : LaneMask) : Bool :=
  (g.ploads.any fun p => !p.unsent.isEmpty && decide (p.lanes &&& lanes ≠ 0)) ||
    g.pstores.any fun p => !p.unsent.isEmpty && decide (p.lanes &&& lanes ≠ 0)

/-- The block lets a split issue: it is resident, or it is stopping and the split is in its handler (R287); its context has not failed
(R275), and the firmware is verified (R335). In ordered mode nothing issues while a quantum ends or at the boundary, but for a handler whose
block stops, and no user mode after its group's quantum has ended (R173, R320). -/
def State.blockLets (s : State) (gk : Nat) (sp : Split) : Bool :=
  let g := s.group gk
  let b := s.block g.blk
  let l := s.launch b.lid
  (decide (b.st = .resident) || (decide (b.st = .stopping) && sp.sup)) && !(s.context b.ctx).failed && !s.shut && s.fw &&
    (decide (l.q = 0) || (l.ending.isNone && (if sp.sup then g.closing.isNone && (!l.boundary || decide (b.st = .stopping))
      else !l.boundary && !g.qended)))

/-- A split of a group that may issue now, but for the withholding of its group (R317). -/
def State.mayIssue (s : State) (gk i : Nat) : Bool :=
  match mapFind s.groups gk with
  | none => false
  | some g =>
    match mapFind g.splits i with
    | none => false
    | some sp =>
      g.live && sp.st.tries && decide (sp.notBefore ≤ s.now) && !g.heldBack sp.members && s.blockLets gk sp

/-- The group is withheld (R317). -/
def State.isWithheld (s : State) (gk : Nat) : Bool := (s.cluster (clusterOf (s.block (s.group gk).blk).core)).withheld.contains gk

/-- A split of a group that may issue now. -/
def State.canIssue (s : State) (gk i : Nat) : Bool := s.mayIssue gk i && !s.isWithheld gk

/-- R144: an older split of the core, by its age stamp and index (R316), waits for entries of the request tracker (log entry 74). -/
def State.olderWaits (s : State) : Bool :=
  let key := fun (age i : Nat) => age * 4 + i
  (s.groupsOn s.curCore).any fun e => e.2.splits.any fun x =>
    decide (x.2.st = .stalled .tracker) && decide (key x.2.age x.1 < key s.csp.age s.cs) && s.mayIssue e.1 x.1

end Sys2Proof.Machine
end

