-- ==== Sys2Proof/Machine/Flags.lean ====
section
/-! DEFINITION. The device keeps no arithmetic flags (R54). Conditions are values of registers (R33, R93, R99) or the activity of
lanes, which the 8-bit nesting counters of R97-R100 decide. -/
namespace Sys2Proof.Machine
open Sys2Proof

/-! ### Conditions -/

/-- The register tests of cond3 1-4 (R33). -/
def test (c : Nat) (x : Word) : Bool :=
  match c with
  | 1 => decide (x = 0)
  | 2 => decide (x ≠ 0)
  | 3 => x.slt 0
  | _ => !x.slt 0

/-- The integer comparisons of `cmp` and `gcmp` (R83, R93). -/
def intCmp (m : Nat) (x y : Word) : Bool :=
  match m with
  | 0 => decide (x = y)
  | 1 => decide (x ≠ y)
  | 2 => x.slt y
  | 3 => !x.slt y
  | 4 => x.ult y
  | _ => !x.ult y

/-- The word 1 or 0. -/
def flagWord (b : Bool) : Word := if b then 1 else 0

/-- −1, 0 or 1 as x, signed, is below, at or above y (R84, R94). -/
def threeWay (x y : Word) : Word := if x.slt y then BitVec.ofInt 32 (-1) else if x = y then 0 else 1

/-! ### Nesting counters (R97-R100) -/

/-- One structured opcode: the new counter from the present one and the lane's condition (R100). -/
inductive NestOp where
  | ifOp | elseOp | endifOp | lbegOp
  | brkOp (n : Nat)
  | contOp (n : Nat)
  | lnextOp | lendOp
  deriving DecidableEq, Repr

/-- c′ of R100. -/
def nestNext (op : NestOp) (c : Nat) (cond : Bool) : Nat :=
  match op with
  | .ifOp => if c = 0 then (if cond then 0 else 1) else c + 1
  | .elseOp => if c = 0 then 1 else if c = 1 then 0 else c
  | .endifOp => c - 1
  | .lbegOp => if c = 0 then 0 else c + 2
  | .brkOp n => if c = 0 ∧ cond = true then n + 2 else c
  | .contOp n => if c = 0 ∧ cond = true then n + 1 else c
  | .lnextOp => if c = 1 then 0 else c
  | .lendOp => if c = 2 then 0 else if 3 ≤ c then c - 2 else c

/-- The present counter of a lane. -/
def Group.counter (g : Group) (lane : Nat) : Nat := (mapGet 0 g.cnt lane).toNat

/-- The counters after a structured opcode (R100): `F_NEST` where one would reach 256. -/
def State.nest (s : State) (op : NestOp) (cond : Nat → Bool) : Except Stop State :=
  let ls := lanesOf s.csp.members
  let next := fun l => nestNext op (s.cur.counter l) (cond l)
  let bad := ls.filter fun l => decide (256 ≤ next l)
  if bad.isEmpty then
    .ok (s.putCur { s.cur with cnt := ls.foldl (fun m l => mapSet 0 m l (BitVec.ofNat 8 (next l))) s.cur.cnt })
  else .error (.trap (mkTrap fNest 0 0 (maskOf bad)))

/-- A structured instruction with its sources: counters change, and the split goes on. -/
def nestOp (s : State) (reads : List Reg) (op : NestOp) (cond : Nat → Bool) : Out :=
  match s.laneRegs [] reads with
  | .error e => settle s (.error e)
  | .ok _ =>
    match s.nest op cond with
    | .error e => settle s (.error e)
    | .ok s' => .next s'.advance

end Sys2Proof.Machine
end

