-- ==== Sys2Proof/Machine/Bundles.lean ====
section
/-! DEFINITION. Bundles (spec/10_bundles.md R177-R194): the operations over a core's pinned lines, and the meanings of the bundle
instructions 0xD0-0xD4 and of the events K_BCAP_WRITE, GBDECL_DONE, BUNDLE_FILL_COMPLETE and BUNDLE_QUEUE_GRANT. -/
namespace Sys2Proof.Machine
open Sys2Proof

/-! ### Pinned lines of a core -/

/-- The virtual lines of resolved extents, in order (R177). -/
def extLines (ext : List (Nat × Nat)) : List Nat := ext.flatMap fun e => seqFrom e.1 e.2

/-- The size of a bundle in lines (R177). -/
def extSize (ext : List (Nat × Nat)) : Nat := (ext.map (·.2)).sum

/-- A declared bundle of a launch. -/
def State.bundleOf (s : State) (lid i : Nat) : Option Bundle := mapFind (s.launch lid).bundles i

/-- A bundle's copy on a core (R181). -/
def Core.bundle (co : Core) (lid i : Nat) : Option BundleAt :=
  co.bundles.find? fun b => decide (b.lid = lid) && decide (b.id = i)

/-- Filling and Entered bundles count as entered (R181). -/
def BundleAt.held (b : BundleAt) : Bool := decide (b.st ≠ .resident)

/-- The distinct lines of some bundles. -/
def pinnedLines (bs : List BundleAt) : List Nat := (bs.flatMap (·.pls)).eraseDups

/-- Keep the pinned copies of lines that an Entered or Resident bundle still holds (R181): the older copy that a Resident bundle holds of a line
which another bundle is filling stays until the fill, and weak loads read it (R171), where R184 speaks of a leased load (log entry 77). -/
def Core.prunePins (co : Core) : Core :=
  let pls := (co.bundles.filter fun b => decide (b.st ≠ .filling)).flatMap (·.pls)
  { co with pins := co.pins.filter fun p => pls.contains p.pl }

/-- A copy becomes Absent (R183). -/
def Core.evict (co : Core) (lid i : Nat) : Core :=
  Core.prunePins { co with bundles := co.bundles.filter fun b => !(decide (b.lid = lid) && decide (b.id = i)) }

/-- The order in which Resident bundles are evicted (R183). -/
def evictOrder (bs : List BundleAt) : List BundleAt :=
  sortBy (fun b => (b.leave * 2 ^ 32 + b.lid) * 32 + b.id) bs

/-- Evict candidates, in order, until a total fits. -/
def evictUntil (ok : Core → Bool) : List BundleAt → Core → Core
  | [], co => co
  | b :: rest, co => if ok co then co else evictUntil ok rest (co.evict b.lid b.id)

/-- R179: a context's unentered bundles leave a core until the lines that it has pinned there fit its `K_BCAP`. -/
def Core.trimBcap (ctx cap : Nat) (co : Core) : Core :=
  evictUntil (fun c => decide ((pinnedLines (c.bundles.filter fun x => decide (x.ctx = ctx))).length ≤ cap))
    (evictOrder (co.bundles.filter fun x => !x.held && decide (x.ctx = ctx))) co

/-- Some group of the core is inside the bundle, or a request for it is being filled (R181). -/
def State.insideAny (s : State) (core lid i : Nat) : Bool :=
  (s.groups.any fun e =>
    e.2.entered.getLsbD i &&
      (let b := s.block e.2.blk
       decide (b.core = core) && decide (b.lid = lid) && b.onCore)) ||
    (s.core core).fills.any fun f =>
      f.mask.getLsbD i && decide ((s.block (s.group f.g).blk).lid = lid)

/-- R189: a dropping id that no core holds and no group has entered becomes free. -/
def State.sweepDropped (s : State) (lid : Nat) : State :=
  let l := s.launch lid
  if l.bundles.any fun e => e.2.dropping then
    let keep := fun (e : Nat × Bundle) => !(mapFind l.bundles e.1).any (·.dropping) || (s.cores.any fun c => (c.2.bundle lid e.1).isSome) ||
      s.groups.any fun g => g.2.entered.getLsbD e.1 && decide ((s.block g.2.blk).lid = lid)
    s.putLaunch lid { l with bundles := l.bundles.filter keep }
  else s

/-- R192: the group is no longer inside bundle `i`, and is marked for it with the lines that it had. -/
def Group.revoke (g : Group) (i : Nat) (ext : List (Nat × Nat)) : Group :=
  { g with entered := g.entered &&& ~~~ oneLane i, revoked := g.revoked ||| oneLane i, marks := mapPut g.marks i ext }

/-- The group leaves bundle `i`; with nobody left inside it becomes Resident, as far as `K_BCAP` allows (R179), or goes if its id is dropping
(R187, R189). -/
def State.leaveOne (s : State) (gk i : Nat) : State :=
  let g := s.group gk
  if !g.entered.getLsbD i then s
  else
    let b := s.block g.blk
    let s := s.putGroup gk { g with entered := g.entered &&& ~~~ oneLane i }
    if s.insideAny b.core b.lid i || !b.onCore then s
    else
      let co := s.core b.core
      let dropping := match s.bundleOf b.lid i with
        | none => true
        | some d => d.dropping
      if dropping then s.putCore b.core (co.evict b.lid i)
      else
        s.putCore b.core (Core.trimBcap b.ctx (s.context b.ctx).bcap.toNat { co with bundles := co.bundles.map fun x =>
          if x.lid = b.lid ∧ x.id = i then { x with st := .resident, leave := s.now } else x })

/-- The group leaves the bundles of a mask (R187). -/
def State.leaveMask (s : State) (gk : Nat) (mask : Word) : State :=
  let s' := (lanesOf mask).foldl (fun s i => s.leaveOne gk i) s
  s'.sweepDropped (s.block (s.group gk).blk).lid

/-! ### The fit test and making room -/

/-- The physical lines of a bundle as the context translates them now; a line that does not translate counts as a line of its
own. -/
def State.bundleLines (s : State) (core ctx : Nat) (ext : List (Nat × Nat)) : State × List (Nat × Except TransFault Nat) :=
  (extLines ext).foldl (fun acc vl =>
    let (s1, r) := acc.1.transCheck core ctx (vl * 128) true false
    (s1, acc.2 ++ [(vl, match r with
      | .ok pa => .ok (pa / 128)
      | .error e => .error e)])) (s, [])

/-- A line's identity for counting: its physical line (R301), or a number of its own. -/
def lineId (x : Nat × Except TransFault Nat) : Nat :=
  match x.2 with
  | .ok pl => pl
  | .error _ => 2 ^ 60 + x.1

/-- The physical lines of the bundles of a mask, as the context translates them now. -/
def State.savedLines (s : State) (core ctx lid : Nat) (mask : Word) : List Nat :=
  (lanesOf mask).flatMap fun i =>
    match s.bundleOf lid i with
    | some b => (s.bundleLines core ctx b.ext).2.map lineId
    | none => []

/-- The lines that blocks on their way to a core will enter there (R193): each with its context. -/
def State.comingLines (s : State) (core : Nat) : List (Nat × Nat) :=
  (s.blocks.filter fun e => decide (e.2.st = .restoring) && decide (e.2.core = core)).flatMap fun e =>
    let mask := (seqFrom (e.1 * 32) e.2.ngroups).foldl (fun m k => m ||| (s.group k).entered) 0
    (s.savedLines core e.2.ctx e.2.lid mask).map fun l => (e.2.ctx, l)

/-- A bundle of a request with its lines. -/
structure ReqBundle where
  id : Nat
  joined : Bool
  lines : List (Nat × Except TransFault Nat)

/-- The request of a `gbenter`: the bundles of the mask that the group does not hold (R182). -/
def State.request (s : State) (gk : Nat) (mask : Word) : State × List ReqBundle :=
  let g := s.group gk
  let b := s.block g.blk
  (lanesOf (mask &&& ~~~ g.entered)).foldl (fun acc i =>
    let ext := ((acc.1.bundleOf b.lid i).map (·.ext)).getD []
    let (s1, ls) := acc.1.bundleLines b.core b.ctx ext
    let joined := match (acc.1.core b.core).bundle b.lid i with
      | some x => x.held
      | none => false
    (s1, acc.2 ++ [{ id := i, joined := joined, lines := ls }])) (s, [])

/-- The extents of a bundle touch a range of pages. -/
def extTouches (ext : List (Nat × Nat)) (a n : Nat) : Bool :=
  ext.any fun e => decide (e.1 < (a + n) * 512) && decide (a * 512 < e.1 + e.2)

/-- A bundle's copy of a context lies in a range (R305). -/
def State.covers (s : State) (ctx a n : Nat) (b : BundleAt) : Bool :=
  decide (b.ctx = ctx) && (match s.bundleOf b.lid b.id with
    | some d => extTouches d.ext a n
    | none => false)

/-- Some covered bundle is Filling or Entered. -/
def State.bundleOpen (s : State) (ctx a n : Nat) : Bool := s.cores.any fun c => c.2.bundles.any fun b => b.held && s.covers ctx a n b

/-- R182 condition 5, R191: an invalidation of this context covers the line and waits for bundles to be left. -/
def State.invalPending (s : State) (ctx vl : Nat) : Bool :=
  s.groups.any fun e =>
    !e.2.pends.isEmpty && decide ((s.block e.2.blk).ctx = ctx) && e.2.pends.any fun p =>
      match p.op with
      | .inval k a n _ _ => decide (k = 0) && decide (a * 512 ≤ vl) && decide (vl < (a + n) * 512) && s.bundleOpen ctx a n
      | _ => false

/-- R182: the request fits. Blocks on their way to the core count with the bundles that they hold (R179, R193). -/
def State.fits (s : State) (gk : Nat) (req : List ReqBundle) : Bool :=
  let b := s.block (s.group gk).blk
  let co := s.core b.core
  let ids := (req.flatMap fun r => r.lines.map lineId)
  let held := co.bundles.filter (·.held)
  let coming := s.comingLines b.core
  let mine := (pinnedLines (held.filter fun x => decide (x.ctx = b.ctx)) ++ (coming.filter fun x => decide (x.1 = b.ctx)).map (·.2) ++ ids).eraseDups
  let all := (pinnedLines held ++ coming.map (·.2) ++ ids).eraseDups
  let others := (held.filter fun x => !(decide (x.lid = b.lid) && req.any fun r => decide (r.id = x.id))).flatMap (·.pls)
  let joinOnly := req.all (·.joined)
  joinOnly ||
    (decide (mine.length ≤ (s.context b.ctx).bcap.toNat) && decide (all.length ≤ 1536) &&
      (req.all fun r => r.joined || r.lines.all fun x => !others.contains (lineId x)) &&
      req.all fun r => r.lines.all fun x => !s.invalPending b.ctx x.1)

/-- R183: room is made for the lines of a request. -/
def State.makeRoom (s : State) (gk : Nat) (req : List ReqBundle) : State :=
  let b := s.block (s.group gk).blk
  let co := s.core b.core
  let ids := req.flatMap fun r => r.lines.map lineId
  let cand := evictOrder (co.bundles.filter fun x =>
    !x.held && !(decide (x.lid = b.lid) && req.any fun r => decide (r.id = x.id)))
  let total := fun (c : Core) (p : BundleAt → Bool) => ((pinnedLines (c.bundles.filter p)) ++ ids).eraseDups.length
  let cap := (s.context b.ctx).bcap.toNat
  let co := evictUntil (fun c => decide (total c (fun x => decide (x.ctx = b.ctx)) ≤ cap))
    (cand.filter fun x => decide (x.ctx = b.ctx)) co
  let co := evictUntil (fun c => decide (total c (fun _ => true) ≤ 1536)) cand co
  s.putCore b.core co

/-- The walk of a line of the request waits for a row under test (R159). -/
def reqBusy (req : List ReqBundle) : Bool := req.any fun r => r.lines.any fun x => match x.2 with
  | .error .busy => true
  | _ => false

/-- The first line of a request that does not translate (R184). -/
def reqFault (req : List ReqBundle) : Option (Nat × TransFault) :=
  ((req.flatMap (·.lines)).filterMap fun x =>
    match x.2 with
    | .error e => some (x.1, e)
    | .ok _ => none).head?

/-- The order of the bundle queue (R186). -/
def State.queueKey (s : State) (gk sp : Nat) : Nat :=
  let g := s.group gk
  let b := s.block g.blk
  ((((3 - (s.launch b.lid).prio) * 2 ^ 32 + b.lid) * 2 ^ 32 + b.bid) * 32 + g.gid) * 4 + sp

/-- R184: New(U) of the request is not empty. -/
def State.needsNew (s : State) (core : Nat) (req : List ReqBundle) : Bool :=
  let pinned := pinnedLines (s.core core).bundles
  req.any fun r => r.lines.any fun x => !pinned.contains (lineId x)

/-- R184: lines are reserved and the request's unheld bundles become Filling. Its reads begin when its lines have been translated, 4 in each
cycle after a first lookup of 6; without any its token comes 4 cycles after its issue (R194). -/
def State.startFill (s : State) (gk : Nat) (mask : Word) (req : List ReqBundle) (loc : RegLoc) (lanes : LaneMask) : State :=
  let s := s.makeRoom gk req
  let g := s.group gk
  let b := s.block g.blk
  let co := s.core b.core
  let fills := (req.filter fun r => !r.joined)
  let kept := co.bundles.filter fun x => !(decide (x.lid = b.lid) && fills.any fun r => decide (r.id = x.id))
  let new : List BundleAt := fills.map fun r =>
    { lid := b.lid, id := r.id, ctx := b.ctx, st := .filling, leave := 0, pls := (r.lines.map lineId).eraseDups }
  let lines := fills.flatMap fun r => r.lines.filterMap fun x => match x.2 with
    | .ok pl => some (x.1, pl)
    | .error _ => none
  let reads := (lines.map fun x => 2 * x.2).eraseDups
  let f : FillReq :=
    { id := g.nextId, g := gk, mask := mask, fills := fills.map (·.id), lines := lines, loc := loc, lanes := lanes
      start := s.now + 7 + ceilDiv reads.length 4, unsent := reads, flying := [], due := s.now + 4 }
  let s := s.putCore b.core (Core.prunePins { co with bundles := kept ++ new, fills := co.fills ++ [f] }).trimL1
  s.putGroup gk { g with
    nextId := g.nextId + 1
    tokens := g.tokens ++ [{ id := g.nextId, cmd := false, loc := loc, lanes := lanes }] }

/-- Of these lines those whose reads wait, where `n` more may be sent, each if its HBM bank has room (R22); the lines that are read; and the
bank use after them. -/
def sendFill (used : List Nat) : Nat → List Nat → List Nat × List Nat × List Nat
  | _, [] => ([], [], used)
  | 0, ls => (ls, [], used)
  | n + 1, l :: rest =>
    if bankRoom used l then
      let (held, sent, used) := sendFill (l :: used) n rest
      (held, l :: sent, used)
    else
      let (held, sent, used) := sendFill used (n + 1) rest
      (l :: held, sent, used)

/-- A bundle request sends fill reads, and its token follows the last line by 4 cycles (R194). -/
def FillReq.send (now : Nat) (acc : List FillReq × Nat × List Nat) (f : FillReq) : List FillReq × Nat × List Nat :=
  if f.unsent.isEmpty || decide (now < f.start) then (acc.1 ++ [f], acc.2)
  else
    let (held, sent, used) := sendFill acc.2.2 acc.2.1 f.unsent
    (acc.1 ++ [{ f with
      unsent := held, flying := (f.flying.filter fun x => decide (now < x.2)) ++ sent.map fun l => (l, now + 250)
      due := if sent.isEmpty then f.due else max f.due (now + 254) }], acc.2.1 - sent.length, used)

/-- The bundle requests of every core send their fill reads: 8 in a cycle of a core, with at most 256 outstanding (R194). -/
def State.sendFills (s : State) : State :=
  (s.cores.filter fun e => e.2.fills.any fun f => !f.unsent.isEmpty).foldl (fun (s : State) e =>
    let co := s.core e.1
    let out := (co.fills.flatMap fun f => underWay s.now f.flying).length
    let (fs, _) := co.fills.foldl (FillReq.send s.now) ([], min 8 (256 - out), s.bankUse e.1)
    s.putCore e.1 { co with fills := fs }) s

/-- A group writes a value that a later event brings, to the lanes that are still members of it (R65). -/
def State.deliver (s : State) (gk : Nat) (loc : RegLoc) (lanes : LaneMask) (v : Word) : State :=
  let g := s.group gk
  s.putGroup gk (g.wr loc ((lanesOf (lanes &&& ~~~ g.exited)).map fun l => (l, v)))

/-- The table maps this virtual line to this physical line, under a leaf that allows reads (R297). -/
def State.lineReadable (s : State) (ctx vl pl : Nat) : Bool :=
  match s.pageLeaf ctx (vl / 512) with
  | some (page, leaf) => decide (page * 512 + vl % 512 = pl) && leaf.testBit 61
  | none => false

/-- A pinned copy of a line as its slice holds it now (R171). -/
def State.pinOf (s : State) (ctx vl pl : Nat) : Pin :=
  { ctx := ctx, vl := vl, tagged := s.lineReadable ctx vl pl, pl := pl, data := s.lineBytes pl, bad := s.linePoison pl }

/-! ### Control register K_BCAP -/

/-- R179: the stored value of a write to `K_BCAP`. -/
def clampBcap (v : Word) : Word :=
  if v.toNat < 4 then 4 else if 1536 < v.toNat then BitVec.ofNat 32 1536 else v

/-- R179: `K_BCAP` of a context changes, and every core evicts the context's unentered bundles until they fit. -/
def State.setBcap (s : State) (ctx : Nat) (v : Word) : State :=
  let cap := (clampBcap v).toNat
  let s := s.putContext ctx { s.context ctx with bcap := clampBcap v }
  { s with cores := s.cores.map fun c => (c.1, c.2.trimBcap ctx cap) }

/-- K_BCAP_WRITE (R179): a live context receives `K_BCAP`. -/
def execKBcapWrite (ctx : Nat) (v : BitVec 32) (s : State) : Out :=
  if (s.context ctx).live then .next (s.setBcap ctx v) else .next s

/-! ### gbdecl -/

/-- `F_BUNDLE` with its reason (R190). -/
def State.bundleFault (s : State) (reason : Nat) : Stop := .trap (mkTrap fBundle reason 0 s.leaderMask)

/-- The extent doublewords of a descriptor, each checked as an 8-byte load, in ascending order (R180). -/
def State.readExtents (s : State) (hnum o : Nat) : Nat → State × Except Stop (List Nat)
  | 0 => (s, .ok [])
  | n + 1 =>
    let (s, r) := s.descRead hnum o 8 8
    match r with
    | .error e => (s, .error e)
    | .ok (_, _, bs) =>
      let (s, rest) := s.readExtents hnum (o + 8) n
      match rest with
      | .error e => (s, .error e)
      | .ok es => (s, .ok (leNat bs :: es))

/-- R180 reason 2: the extent's entry, resolved to a first virtual line and a length. -/
def State.resolveExtent (s : State) (x : Nat) : State × Option (Nat × Nat) :=
  let (s, e) := s.curHandle (bitsOf x 31 20)
  let off := bitsOf x 63 32
  let lines := bitsOf x 10 0
  if !e.usable ∨ e.space ≠ 0 ∨ !e.pr ∨ e.limit < off + 128 * lines then (s, none)
  else (s, some ((e.base + off) / 128, lines))

def State.resolveExtents (s : State) : List Nat → State × Option (List (Nat × Nat))
  | [] => (s, some [])
  | x :: rest =>
    let (s, r) := s.resolveExtent x
    match r with
    | none => (s, none)
    | some e =>
      let (s, rs) := s.resolveExtents rest
      (s, rs.map (e :: ·))

/-- Two of the ranges share a line (R180 reason 3). -/
def rangesMeet : List (Nat × Nat) → Bool
  | [] => false
  | e :: rest => (rest.any fun f => decide (e.1 < f.1 + f.2) && decide (f.1 < e.1 + e.2)) || rangesMeet rest

/-- The tests of R180 after the descriptor has been read, and the table's answer with the new table; an entry whose row is under test is waited
for (R159). -/
def State.declare (s : State) (id : Nat) (xs : List Nat) : State × Except Stop Word :=
  if xs.any fun x => bitsOf x 10 0 = 0 ∨ 1536 < bitsOf x 10 0 ∨ bitsOf x 63 32 % 128 ≠ 0 then (s, .error (s.bundleFault 1))
  else if xs.any fun x => s.curHandleTested (bitsOf x 31 20) then (s, .error (.stall .full))
  else
    let (s, r) := s.resolveExtents xs
    match r with
    | none => (s, .error (s.bundleFault 2))
    | some ext =>
      if rangesMeet ext then (s, .error (s.bundleFault 3))
      else if (s.context s.curCtx).bcap.toNat < extSize ext then (s, .error (s.bundleFault 4))
      else
        let lid := s.curBlock.lid
        match s.bundleOf lid id with
        | none =>
          let l := s.launch lid
          (s.putLaunch lid { l with bundles := mapPut l.bundles id { ext := ext, dropping := false } }, .ok 1)
        | some b => if b.ext = ext ∧ b.dropping = false then (s, .ok 2) else (s, .error (s.bundleFault 5))

/-- An operation is recorded whose result a later event writes to a register; the split goes on (R180, R282). -/
def State.pend (s : State) (op : PendOp) (d : Reg) (delay : Nat) : State :=
  let g := s.cur
  s.putCur { g with
    nextId := g.nextId + 1
    pends := g.pends ++ [{ id := g.nextId, sp := s.cs, op := op, loc := g.loc s.csp d, lanes := s.csp.members,
                           due := s.now + delay }] }

/-- GBDECL (R180). The table decides when the instruction executes, so that its faults are precise (R9); GBDECL_DONE writes
d. A descriptor named through a handle of space 1, 2 or 3 is read there (log entry 63). -/
def execGbdecl (d a b : Reg) (s : State) : Out :=
  match s.groupRegs [d] [a, a + 1, b] with
  | .error e => settle s.openRegion (.error e)
  | .ok _ =>
    let s := s.openRegion
    if 31 < (s.u b).toNat then settle s (.error (s.bundleFault 9))
    else if s.acquireOut then settle s (.error (.stall .acquire))
    else
      let hnum := (s.u a).toNat
      let o := (s.u (a + 1)).toNat
      let (s1, r) := s.descRead hnum o 8 8
      match r with
      | .error e => settle s1 (.error e)
      | .ok (_, _, bs) =>
        let count := leNat bs % 8
        if count = 0 ∨ 4 < count then settle s1 (.error (s.bundleFault 1))
        else
          let (s2, xs) := s1.readExtents hnum (o + 8) count
          match xs with
          | .error e => settle s2 (.error e)
          | .ok xs =>
            let (s3, st) := s2.declare (s.u b).toNat xs
            match st with
            | .error e => settle s3 (.error e)
            | .ok st => .next (s3.pend (.decl st) d 300).advanceClose

/-- The pending operation of a group with this id. -/
def Group.pendOf (g : Group) (id : Nat) : Option Pend := g.pends.find? fun p => decide (p.id = id)

/-- A pending operation ends with a status in its register. -/
def State.endPend (s : State) (gk : Nat) (p : Pend) (v : Word) : State :=
  let g := s.group gk
  let s := s.putGroup gk { g with pends := g.pends.filter fun q => decide (q.id ≠ p.id) }
  s.deliver gk p.loc p.lanes v

/-- GBDECL_DONE (R180): d is written. -/
def execGbdeclDone (g id : Nat) (s : State) : Out :=
  match (s.group g).pendOf id with
  | some p =>
    match p.op with
    | .decl r => .next (s.endPend g p r)
    | _ => .next s
  | none => .next s

/-! ### gbenter, gbleave -/

/-- A `gbenter` of the group is still Filling (R184, R187). -/
def State.fillingOf (s : State) (gk : Nat) : Bool :=
  (s.core (s.block (s.group gk).blk).core).fills.any fun f => decide (f.g = gk)

/-- Some id of the mask is not declared, or is dropping (R184 reason 6). -/
def State.undeclared (s : State) (lid : Nat) (mask : Word) : Bool :=
  (lanesOf mask).any fun i =>
    match s.bundleOf lid i with
    | none => true
    | some b => b.dropping

/-- The number of distinct lines of the bundles of a mask (R184 reason 7): the virtual lines that their extents declare, so that two names of one
physical line count twice (log entry 78). -/
def State.maskLines (s : State) (lid : Nat) (mask : Word) : Nat :=
  ((lanesOf mask).flatMap fun i => extLines (((s.bundleOf lid i).map (·.ext)).getD [])).eraseDups.length

/-- A request of the queue comes before this split's (R184, R186). -/
def State.headAhead (s : State) : Bool :=
  match (s.core s.curCore).bqueue with
  | [] => false
  | h :: _ => decide (s.queueKey h.g h.sp < s.queueKey s.cg s.cs)

/-- The split waits in the bundle queue (R184, R186). -/
def State.enqueueBundle (s : State) (mask : Word) (loc : RegLoc) : State :=
  let co := s.core s.curCore
  let r : QueueReq := { g := s.cg, sp := s.cs, mask := mask, loc := loc, lanes := s.csp.members }
  let q := sortBy (fun (x : QueueReq) => s.queueKey x.g x.sp) (co.bqueue ++ [r])
  let s := s.putCore s.curCore { co with bqueue := q }
  s.putCsp { s.csp with st := .bundleQueue }

/-- GBENTER (R184). -/
def execGbenter (d a : Reg) (s : State) : Out :=
  match s.groupRegs [d] [a] with
  | .error e => settle s.openRegion (.error e)
  | .ok _ =>
    let s := s.openRegion
    let mask := s.u a
    let lid := s.curBlock.lid
    let loc := s.cur.loc s.csp d
    if mask = 0 then .next (s.put d 0).advanceClose
    else if s.undeclared lid mask then settle s (.error (s.bundleFault 6))
    else if (s.context s.curCtx).bcap.toNat < s.maskLines lid mask then settle s (.error (s.bundleFault 7))
    else if s.fillingOf s.cg then settle s (.error (.stall .filling))
    else if mask &&& ~~~ s.cur.entered = 0 then .next (s.put d mask).advanceClose
    else
      let (s1, req) := s.request s.cg mask
      let needsNew := s1.needsNew s1.curCore req
      let fit := s1.fits s.cg req
      if reqBusy req then settle s1 (.error (.stall .full))
      else if fit = false ∧ s.cur.entered ≠ 0 then settle s1 (.error (s.bundleFault 8))
      else if fit = false ∨ (needsNew = true ∧ s.cur.entered = 0 ∧ s1.headAhead = true) then
        .next (s1.enqueueBundle mask loc)
      else
        match reqFault req with
        | some (vl, f) => settle s1 (.error (transStop f (vl * 128) 6 s.leaderMask))
        | none => .next (s1.startFill s.cg mask req loc s.csp.members).advanceClose

/-- GBLEAVE (R187). -/
def execGbleave (d a : Reg) (s : State) : Out :=
  match s.groupRegs [d] [a] with
  | .error e => settle s.openRegion (.error e)
  | .ok _ =>
    let s := s.openRegion
    let n := s.orderBound
    if s.fillingOf s.cg then settle s (.error (.stall .filling))
    else if s.cur.loadsBefore n then settle s (.error (.stall (.order n)))
    else
      let mask := s.u a
      let s := s.leaveMask s.cg mask
      .next (s.put d s.cur.entered).advanceClose

/-- BUNDLE_FILL_COMPLETE (R181, R194): every line of every bundle of the request is present. Lines that a bundle with groups inside
shares keep its copies (R182), a strong store that the core still holds is sent before its line is read (R163), and a line whose row is under
test is waited for (R159). -/
def execBundleFillComplete (core id : Nat) (s : State) : Out :=
  let co := s.core core
  match co.fills.find? fun f => decide (f.id = id) with
  | none => .next s
  | some f =>
    let g := s.group f.g
    let b := s.block g.blk
    let waits := (lanesOf (f.mask &&& ~~~ g.entered)).any fun i =>
      !f.fills.contains i && (match co.bundle b.lid i with
        | some x => decide (x.st ≠ .entered)
        | none => true)
    let places := f.lines.map fun x => Place.glob (x.2 * 128) (x.1 * 128)
    if waits || !f.unsent.isEmpty || s.heldAtPlaces core places 4 || s.underTest core places then .next s
    else
      let filled := fun (x : BundleAt) => decide (x.lid = b.lid) && f.fills.contains x.id
      let shared := pinnedLines (co.bundles.filter fun x => decide (x.st = .entered))
      let lines := f.lines.filter fun x => !shared.contains x.2
      let pls := lines.map (·.2)
      let old := co.pins.filter fun p => !pls.contains p.pl
      let s := s.putCore core (Core.trimL1 { co with
        bundles := co.bundles.map fun x => if filled x then { x with st := .entered } else x
        pins := old ++ lines.map fun x => s.pinOf b.ctx x.1 x.2
        l1 := co.l1.filter fun l => !pls.contains l.pl
        fills := co.fills.filter fun x => decide (x.id ≠ id ∨ x.g ≠ f.g) })
      let g := s.group f.g
      let s := s.putGroup f.g { g with
        entered := g.entered ||| f.mask
        tokens := g.tokens.filter fun t => t.cmd || decide (t.id ≠ id) }
      let s := s.deliver f.g f.loc f.lanes f.mask
      .next (if g.live then s.sweepDropped b.lid else s.leaveMask f.g (s.group f.g).entered)

/-- R327: a queued `gbenter` of an ordered launch that retires behind the end of its group's quantum, or of its launch's, counts in the next one;
`old` is the group before it (log entry 85). -/
def State.carryCount (s : State) (gk : Nat) (old : Group) : State :=
  if s.ordQ gk ≠ 0 ∧ (old.qended || (s.launch (s.block old.blk).lid).ending.isSome) = true ∧ (s.group gk).qcount ≠ old.qcount then
    s.putGroup gk { s.group gk with qcount := old.qcount, qcarry := old.qcarry + 1, qended := old.qended }
  else s

/-- The head of a core's bundle queue is tested again, as at its issue (R184). While another `gbenter` of its group is Filling it stays, and with it
the queue: R184 puts that stall before the wait, where R186 lets a head that fits proceed (log entry 79). -/
def State.grantHead (s : State) (core : Nat) : Out :=
  let co := s.core core
  match co.bqueue with
  | [] => .next s
  | h :: rest =>
    let out := s.putCore core { co with bqueue := rest }
    let s1 := { out with cg := h.g, cs := h.sp }
    let back := fun (t : State) => ({ t with cg := s.cg, cs := s.cs } : State)
    if s.undeclared (s.block (s.group h.g).blk).lid h.mask then .next (back (s1.trapCur (mkTrap fBundle 6 0 s1.leaderMask)))
    else if s.fillingOf h.g then .next s
    else
      let (s2, req) := s1.request h.g h.mask
      if reqBusy req then .next s
      else if !s2.fits h.g req then
        .next (if (s.group h.g).entered = 0 then s else back (s1.trapCur (mkTrap fBundle 8 0 s1.leaderMask)))
      else
        match reqFault req with
        | some (_, .absent pa) => .fault (.noSuchAddress pa)
        | some (vl, .page) => .next (back (s2.trapCur (mkTrap fPage 6 (vl * 128) s1.leaderMask)))
        | some (vl, .prot d) => .next (back (s2.trapCur (mkTrap fProt d (vl * 128) s1.leaderMask)))
        | some (_, .busy) => .next s
        | none => .next (back ((s2.startFill h.g h.mask req h.loc h.lanes).advanceClose.carryCount h.g (s.group h.g)))

/-- The head of a core's bundle queue comes before a key in the order of R186; without one every head does. -/
def State.headBefore (s : State) (core : Nat) (key : Option Nat) : Bool :=
  match (s.core core).bqueue, key with
  | h :: _, some k => decide (s.queueKey h.g h.sp < k)
  | _, _ => true

/-- Heads of a core's bundle queue are tested while each of them leaves it, as far as they come before a key (R186). -/
def grantHeads (core : Nat) (key : Option Nat) : Nat → State → Out
  | 0, s => .next s
  | n + 1, s =>
    if !s.headBefore core key then .next s
    else
      match s.grantHead core with
      | .next t => if (t.core core).bqueue.length < (s.core core).bqueue.length then grantHeads core key n t else .next t
      | .fault f => .fault f
      | .refused r => .refused r

/-- The heads of a core's bundle queue that come before a key are tested. -/
def grantBefore (core : Nat) (key : Option Nat) (s : State) : Out := grantHeads core key (s.core core).bqueue.length s

/-- BUNDLE_QUEUE_GRANT (R186, R189): the head of a core's bundle queue is tested again, and after each one that leaves the next. -/
def execBundleQueueGrant (core : Nat) (s : State) : Out := grantBefore core none s

/-! ### gbquery, gbdrop -/

/-- The ids of a list as a mask. -/
def idMask (ids : List Nat) : Word := maskOf ids

/-- GBQUERY (R188). -/
def execGbquery (d a : Reg) (m : BitVec 3) (s : State) : Out :=
  let co := s.core s.curCore
  let lid := s.curBlock.lid
  let ctx := s.curCtx
  let r : Word := match m.toNat with
    | 0 => s.cur.entered ||| ((co.fills.filter fun f => decide (f.g = s.cg)).foldl (fun acc f => acc ||| f.mask) 0)
    | 1 => idMask ((co.bundles.filter fun x => decide (x.lid = lid) && decide (x.st ≠ .filling)).map (·.id))
    | 2 => BitVec.ofNat 32 (extSize (((s.bundleOf lid ((s.u a).toNat % 32)).map (·.ext)).getD []))
    | 3 => BitVec.ofNat 32 (pinnedLines (co.bundles.filter fun x => decide (x.ctx = ctx))).length
    | 4 => (s.context ctx).bcap
    | _ => BitVec.ofNat 32 (co.bqueue.filter fun q => decide ((s.block (s.group q.g).blk).ctx = ctx)).length
  groupOp s d (if m = 2 then [a] else []) r

/-- R189: one id is marked dropping; Resident copies go on every core. -/
def State.dropOne (s : State) (lid i : Nat) : State :=
  let l := s.launch lid
  match mapFind l.bundles i with
  | none => s
  | some b =>
    let s := s.putLaunch lid { l with bundles := mapPut l.bundles i { b with dropping := true } }
    { s with cores := s.cores.map fun c =>
        match c.2.bundle lid i with
        | some x => if x.held then c else (c.1, c.2.evict lid i)
        | none => c }

/-- GBDROP (R189). -/
def execGbdrop (d a : Reg) (s : State) : Out :=
  match s.groupRegs [d] [a] with
  | .error e => settle s.openRegion (.error e)
  | .ok _ =>
    let s := s.openRegion
    let lid := s.curBlock.lid
    let ids := (lanesOf (s.u a)).filter fun i =>
      match s.bundleOf lid i with
      | none => false
      | some b => !b.dropping
    let s := (ids.foldl (fun s i => s.dropOne lid i) s).sweepDropped lid
    .next (s.put d (idMask ids)).advanceClose

end Sys2Proof.Machine
end

