-- ==== Sys2Proof/Machine/Life.lean ====
section
/-! DEFINITION. How lanes, splits, groups and blocks end: exits (R82, R103), the split stack (R75), joins (R76), barrier records
(R208), and the end of a group, a block and the last block of a launch (R82, R313). -/
namespace Sys2Proof.Machine
open Sys2Proof

/-! ### Splits and the split stack -/

/-- The lowest free split index (R74). -/
def freeIndex (sps : SMap Split) : Option Nat := (seqFrom 0 4).find? fun i => (mapFind sps i).isNone

/-- The most recently pushed pending record, and the rest of the stack (R75); the stack's head is its newest record. -/
def takePending : List SplitRec → Option (Split × List SplitRec)
  | [] => none
  | r :: rest =>
    if r.barrier then (takePending rest).map fun x => (x.1, r :: x.2)
    else some (r.sp, rest)

/-- The age stamp of a group: its block's admission number × 32 + `K_GID` (R316). -/
def Group.stamp (g : Group) : Nat := g.blk * 32 + g.gid

/-- R75: while an index is free, a pending record becomes a live split at its PC, with its group's stamp (R316). -/
def promote (g : Group) (quantum : Nat) : Group :=
  match freeIndex g.splits, takePending g.stack with
  | some i, some (sp, rest) =>
    let g := { g with stack := rest }
    let g := g.putSplit i { sp with st := .running, age := g.stamp }
    setRegionOf g i quantum sp.pc
  | _, _ => g

/-- A split goes on behind the instruction it waited at, and PC + 4 is its region entry (R76, R80, R277); in a group that a double fault has
stopped it does not (R354). -/
def passOn (g : Group) (i quantum : Nat) : Group :=
  let sp := g.split i
  if sp.st = .halted then g
  else setRegionOf (g.putSplit i { sp with pc := sp.pc + 4, st := .running }) i quantum (sp.pc + 4)

/-- R76: the waiting joins of a group are tested. -/
def testJoins (g : Group) (quantum : Nat) : Group :=
  let waiting := g.splits.filter fun e => decide (e.2.st = .atJoin)
  match waiting with
  | [] => g
  | w :: _ =>
    if g.splits.length + g.stack.length = 1 then passOn g w.1 quantum
    else if waiting.length = g.splits.length + g.stack.length ∧ waiting.any (fun e => e.2.pc ≠ w.2.pc) then
      let low := waiting.foldl (fun acc e => if e.2.pc.toNat < acc.2.pc.toNat then e else acc) w
      passOn g low.1 quantum
    else g

/-- The split waits at a barrier (R208). -/
def SplitState.isBar (st : SplitState) : Bool :=
  match st with
  | .atBar _ => true
  | .atPbar _ => true
  | _ => false

/-- R208: where every live split waits at barriers while a pending record exists, the highest waiting split becomes a barrier
record and the pending record runs. -/
def pushBarrier (g : Group) (quantum : Nat) : Group :=
  if !g.splits.isEmpty && g.splits.all (fun e => e.2.st.isBar) && g.stack.any (fun r => !r.barrier) then
    match g.splits.getLast? with
    | some (i, sp) =>
      promote { g with splits := mapDel g.splits i, stack := { barrier := true, sp := sp } :: g.stack } quantum
    | none => g
  else g

/-- The quantum number of the launch of a group (R328). -/
def State.quantumOf (s : State) (gk : Nat) : Nat := (s.launch (s.block (s.group gk).blk).lid).quantum

/-! ### Exits -/

/-- Lanes exit: they leave their split, their registers read 0, which the image follows (R103), and they have no counter (R71, R82, R97). -/
def exitLanesOf (g : Group) (i : Nat) (m : LaneMask) : Group :=
  let sp := g.split i
  let out := fun (k : Nat) => m.getLsbD (k % 32)
  { g with
    exited := g.exited ||| m
    regs := g.regs.filter fun e => !out e.1
    dirty := ((g.regs.filter fun e => out e.1).map fun e => e.1 / 32).foldl addReg g.dirty
    hregs := g.hregs.filter fun e => !out e.1
    cnt := g.cnt.filter fun e => !m.getLsbD e.1
    splits := mapPut g.splits i { sp with members := sp.members &&& ~~~ m } }

/-- The group has work outstanding that its retirement-tracker entry waits for (R82, R227, R247): stores, commands and, in ordered
mode, what it has not yet committed. -/
def Group.outstanding (g : Group) : Bool :=
  !g.pstores.isEmpty || !g.hsts.isEmpty || decide (0 < g.neng) || decide (0 < g.ntile) || !g.qbuf.isEmpty ||
    g.closing.isSome

/-- The group has no lane left to run (R82). -/
def Group.ended (g : Group) : Bool := g.splits.isEmpty && g.stack.isEmpty

/-- The keys of the groups of a block. -/
def State.groupsOf (s : State) (bk : Nat) : List Nat := seqFrom (bk * 32) (s.block bk).ngroups

/-- R197: the waits on the scratchpad of a block that has exited end with status 2 and the last value there. -/
def State.cancelPeerWaits (s : State) (bk : Nat) : State :=
  let b := s.block bk
  s.groups.foldl (fun s e =>
    match e.2.wait with
    | none => s
    | some r =>
      if r.ended.isNone && decide (s.ordQ e.1 = 0) && decide (e.2.blk ≠ bk) && placesMeet r.place 4 (.scr b.core b.origin) b.scratch then
        endWait s e.1 (BitVec.ofNat 32 (s.numAt r.place 4)) 2
      else s) s

/-- The block's groups have exited, which its party sees from the next cycle on (R323). -/
def State.blockExit (s : State) (bk : Nat) : State :=
  let b := s.block bk
  if b.exited || (s.groupsOf bk).any fun k => (s.group k).live then s
  else (s.putBlock bk { b with exited := true }).cancelPeerWaits bk

/-- The commands of every queue of the device. -/
def State.commands (s : State) : List Cmd :=
  (s.cores.flatMap fun c => c.2.copyq ++ c.2.rillq ++ c.2.cascq ++ c.2.matq) ++ s.clusters.flatMap fun c => c.2.sluice

/-- A split of the block's party holds at an access that has passed its checks (R323). -/
def State.partyChecked (s : State) (b : Block) : Bool :=
  s.groups.any fun e =>
    (e.2.splits.any fun x => match x.2.st with
      | .stalled (.passed _ _) => true
      | _ => false) &&
    (let c := s.block e.2.blk
     decide (c.lid = b.lid) && decide (c.bid / c.party = b.bid / b.party))

/-- No peer access that has passed check 4 of R147 (R323) and no command (R227) is still to reach the scratchpad of this block, and no bundle
request of it is being filled (R181). -/
def State.regionIdle (s : State) (bk : Nat) : Bool :=
  let b := s.block bk
  let ks := s.groupsOf bk
  let region := fun (p : Place) (n : Nat) => decide (b.scratch ≠ 0) && placesMeet p n (.scr b.core b.origin) b.scratch
  !(s.groups.any fun e => e.2.hsts.any fun h => h.writes.any fun w => region w.place w.bytes.length) &&
    !(s.commands.any fun c => (c.rd ++ c.wr).any (fun r => region (.scr r.core r.lo) (r.hi - r.lo)) || (match c.arr with
      | some (p, _) => region p 8
      | none => false)) &&
    !((s.core b.core).fills.any fun f => ks.contains f.g) && !s.partyChecked b

/-- The block's groups have exited, their tracker entries have drained (R82) and nothing still reaches its scratchpad, so the block leaves
its core and its launch counts it. The completion times of its groups pass to the launch (R313), and its place is free (R328). -/
def State.blockFinish (s : State) (bk : Nat) : State :=
  let b := s.block bk
  let ks := s.groupsOf bk
  if !b.exited || b.control || ks.any (fun k => (s.group k).draining) || !s.regionIdle bk then s
  else
    let l := s.launch b.lid
    let ct := ks.foldl (fun t k => max t (s.group k).ct) l.ct
    let done := l.done + 1
    let st := if done = l.gx * l.gy * l.gz then LaunchState.finishing else l.st
    let s := s.putLaunch b.lid { l with done := done, ct := ct, st := st, places := l.places.filter fun e => decide (e.2 ≠ b.bid) }
    { s with blocks := mapDel s.blocks bk, groups := s.groups.filter fun e => !ks.contains e.1 }

/-- The last split of a group has exited (R82, R187): its slot and window free, and it leaves its bundles. -/
def State.endGroup (s : State) (gk : Nat) : State :=
  let s := s.leaveMask gk (s.group gk).entered
  let g := s.group gk
  s.putGroup gk { Group.empty with
    blk := g.blk, gid := g.gid, draining := g.outstanding, launched := g.launched, exited := g.exited, ct := g.ct
    nst := g.nst, neng := g.neng, ntile := g.ntile, pstores := g.pstores, hsts := g.hsts, hpages := g.hpages
    qbuf := g.qbuf, qrel := g.qrel, qended := true, closing := g.closing, nextId := g.nextId, chain := none, chains := if g.outstanding then g.chains else [] }

/-- The blocks whose groups have all exited, those of ordered launches apart, whose exits fall at quantum ends (R326): they exit, and finish
when they can. -/
def State.blockEnds (s : State) : State :=
  s.blocks.foldl (fun s e => if (s.launch e.2.lid).q = 0 then (s.blockExit e.1).blockFinish e.1 else s.blockFinish e.1) s

/-- The split has lost its last lane: its index is freed, a pending record runs, waiting joins are tested, and the group may end
(R75, R76, R82). -/
def State.endSplit (s : State) (gk i : Nat) : State :=
  let q := s.quantumOf gk
  let g := s.group gk
  let g := promote { g with splits := mapDel g.splits i } q
  let g := testJoins g q
  let s := s.putGroup gk g
  if g.ended then s.endGroup gk else s

/-- Lanes of a split exit, and with its last lane the split (R82, R103). Where the last part of a handler leaves so, and not by `gresume`, the
faults that its group holds stay held until another `gresume` or a swap: R353 names no other release (log entry 80). -/
def State.exitLanes (s : State) (gk i : Nat) (m : LaneMask) : State :=
  let g := exitLanesOf (s.group gk) i m
  let s := s.putGroup gk g
  if (g.split i).members = 0 then s.endSplit gk i else s

/-- The retirement-tracker entries of a core in use (R82). -/
def State.retireUsed (s : State) (core : Nat) : Nat :=
  (s.groups.filter fun e => e.2.draining && decide ((s.block e.2.blk).core = core)).length

/-- R82: an exit of these lanes ends the group with work outstanding and finds no free tracker entry. -/
def State.exitBlocked (s : State) (m : LaneMask) : Bool :=
  let g := s.cur
  decide (s.csp.members &&& ~~~ m = 0) && decide (g.splits.length = 1) && g.stack.isEmpty && g.outstanding &&
    decide (16 ≤ s.retireUsed s.curCore)

/-- RETIREMENT_DRAIN (R82): the outstanding work of an exited group has drained and its entry frees. -/
def execRetirementDrain (g : Nat) (s : State) : Out :=
  let r := s.group g
  if r.draining && !r.outstanding then .next (s.putGroup g { r with draining := false, chains := [] }) else .next s

end Sys2Proof.Machine
end

