-- ==== Sys2Proof/Machine/Numeric.lean ====
section
/-! DEFINITION. Number formats and rounding (spec/03_number_formats.md R49-R64), the stochastic generator (R57, R58), and the
correctly rounded functions of spec/06_lane_float.md R112. Every value is exact: an integer times a power of two, and for the
irrational functions the integer part of such a product with a flag that says that more follows. -/
namespace Sys2Proof.Machine
open Sys2Proof

/-! ### Integers (R51) -/

/-- `x` clamped to the signed range of width `n`. -/
def satS (x : Int) (n : Nat) : Int := max (-(2 ^ (n - 1) : Int)) (min x ((2 ^ (n - 1) : Int) - 1))
/-- `x` clamped to the unsigned range of width `n`. -/
def satU (x : Int) (n : Nat) : Int := max 0 (min x ((2 ^ n : Int) - 1))
/-- An integer wrapped to a word (R8). -/
def wordOfInt (x : Int) : Word := BitVec.ofInt 32 x

/-! ### Floating formats (R52-R54) -/

/-- A format: its exponent and fraction widths and its bias; `tight` marks `e4m3`, whose largest exponent holds numbers. -/
structure Fmt where
  e : Nat
  f : Nat
  bias : Nat
  tight : Bool
  deriving DecidableEq, Repr

def f32F : Fmt := { e := 8, f := 23, bias := 127, tight := false }
def f16F : Fmt := { e := 5, f := 10, bias := 15, tight := false }
def bf16F : Fmt := { e := 8, f := 7, bias := 127, tight := false }
def e5m2F : Fmt := { e := 5, f := 2, bias := 15, tight := false }
def e4m3F : Fmt := { e := 4, f := 3, bias := 7, tight := true }

/-- A value: NaN, an infinity, or (−1)^neg · man · 2^exp; `more` says that the true magnitude lies strictly between man and
man + 1 units. -/
inductive FVal where
  | nan
  | inf (neg : Bool)
  | num (neg : Bool) (man : Nat) (exp : Int) (more : Bool)
  deriving DecidableEq, Repr

/-- An exact value. -/
def FVal.exact (neg : Bool) (man : Nat) (exp : Int) : FVal := .num neg man exp false
/-- An integer as a value; zero is +0. -/
def FVal.ofInt (x : Int) (exp : Int) : FVal := .num (decide (x < 0)) x.natAbs exp false
/-- A zero. -/
def FVal.zero (neg : Bool) : FVal := .num neg 0 0 false

/-- The default NaN (R54). -/
def dnan (t : Fmt) : Nat := if t.tight then 0x7F else (2 ^ t.e - 1) * 2 ^ t.f + 2 ^ (t.f - 1)
/-- An encoding with its sign bit. -/
def withSign (t : Fmt) (neg : Bool) (bits : Nat) : Nat := (if neg then 2 ^ (t.e + t.f) else 0) + bits
/-- The largest finite magnitude, encoded. -/
def maxBits (t : Fmt) : Nat := if t.tight then 0x7E else (2 ^ t.e - 1) * 2 ^ t.f - 1
/-- The infinity of a format that has one, encoded. -/
def infBits (t : Fmt) : Nat := (2 ^ t.e - 1) * 2 ^ t.f

/-- R53: the value of an encoding. -/
def fval (t : Fmt) (bits : Nat) : FVal :=
  let neg := bits.testBit (t.e + t.f)
  let e := bits / 2 ^ t.f % 2 ^ t.e
  let f := bits % 2 ^ t.f
  if t.tight && decide (e = 2 ^ t.e - 1) && decide (f = 2 ^ t.f - 1) then .nan
  else if !t.tight && decide (e = 2 ^ t.e - 1) then if f = 0 then .inf neg else .nan
  else if e = 0 then .exact neg f (1 - (t.bias : Int) - t.f)
  else .exact neg (2 ^ t.f + f) ((e : Int) - t.bias - t.f)

/-! ### Stochastic rounding (R57, R58) -/

/-- `sr_step()`: the state after one step, which is also the value drawn. -/
def srStep (s : Word) : Word :=
  let s := s ^^^ (s <<< 13)
  let s := s ^^^ (s >>> 17)
  s ^^^ (s <<< 5)

/-- R58: the initial state of a lane. -/
def srInit (seed : Word) (bid gid lane : Nat) : Word :=
  let gl : Word := BitVec.ofNat 32 (bid * 1024 + gid * 32 + lane)
  let x : Word := seed ^^^ (gl * 0x9E3779B9)
  let x : Word := (x ^^^ (x >>> 16)) * 0x85EBCA6B
  let x : Word := (x ^^^ (x >>> 13)) * 0xC2B2AE35
  let x : Word := x ^^^ (x >>> 16)
  if x = 0 then 1 else x

/-! ### Rounding (R55, R56). Modes: 0 rne, 1 rz, 2 up, 3 dn, 4 sr -/

/-- `over` of R56 for a finite overflow in a floating target, encoded. -/
def overBits (t : Fmt) (neg : Bool) (mode : Nat) (sat : Bool) : Nat :=
  if t.tight || sat then withSign t neg (maxBits t)
  else
    match mode with
    | 1 => withSign t neg (maxBits t)
    | 2 => withSign t neg (if neg then maxBits t else infBits t)
    | 3 => withSign t neg (if neg then infBits t else maxBits t)
    | _ => withSign t neg (infBits t)

/-- `over` of R56 for an infinite input. -/
def overInf (t : Fmt) (neg : Bool) (sat : Bool) : Nat :=
  withSign t neg (if t.tight || sat then maxBits t else infBits t)

/-- man · 2^exp in units of 2^qe: the whole units k, and the fraction f as a numerator over 2^sh. -/
def quantize (man : Nat) (exp qe : Int) : Nat × Nat × Nat :=
  if qe ≤ exp then (man * 2 ^ (exp - qe).toNat, 0, 0)
  else
    let sh := (qe - exp).toNat
    (man / 2 ^ sh, man % 2 ^ sh, sh)

/-- The `up` of R55, with the generator's state after it. -/
def roundUp (mode : Nat) (neg : Bool) (k fr sh : Nat) (more : Bool) (st : Word) : Bool × Word :=
  match mode with
  | 0 => (decide (2 ^ sh < 2 * fr) || (decide (2 ^ sh = 2 * fr) && (more || decide (k % 2 = 1))), st)
  | 1 => (false, st)
  | 2 => ((decide (0 < fr) || more) && !neg, st)
  | 3 => ((decide (0 < fr) || more) && neg, st)
  | _ =>
    let s := srStep st
    (decide (2 ^ 32 ≤ fr * 2 ^ 32 / 2 ^ sh + s.toNat), s)

/-- log2 of the magnitude, rounded down; `man` is not 0. -/
def magLog (man : Nat) (exp : Int) : Int := (Nat.log2 man : Int) + exp

/-- `round_MODE(v, T, sat)` of R55 for a floating target: the encoding, and the generator's state after it. -/
def roundF (t : Fmt) (mode : Nat) (sat : Bool) (st : Word) (v : FVal) : Nat × Word :=
  match v with
  | .nan => (dnan t, st)
  | .inf neg => (overInf t neg sat, st)
  | .num neg man exp more =>
    if man = 0 then (withSign t neg 0, st)
    else
      let qe := max (magLog man exp) (1 - (t.bias : Int)) - t.f
      let (k, fr, sh) := quantize man exp qe
      let (up, st) := roundUp mode neg k fr sh more st
      let m := if up then k + 1 else k
      let e := (qe + t.f + t.bias).toNat
      let enc := if m < 2 ^ t.f then m else (e - 1) * 2 ^ t.f + m
      if maxBits t < enc then (overBits t neg mode sat, st) else (withSign t neg enc, st)

/-- `round_MODE(v, T)` of R55 for an integer target of the given range. -/
def roundInt (lo hi : Int) (mode : Nat) (st : Word) (v : FVal) : Int × Word :=
  match v with
  | .nan => (0, st)
  | .inf neg => (if neg then lo else hi, st)
  | .num neg man exp more =>
    if man = 0 then (0, st)
    else
      let (k, fr, sh) := quantize man exp 0
      let (up, st) := roundUp mode neg k fr sh more st
      let m : Int := if up then k + 1 else k
      (max lo (min (if neg then -m else m) hi), st)

/-- `round_rne` into a format. -/
def rne (t : Fmt) (v : FVal) : Nat := (roundF t 0 false 0 v).1

/-! ### Exact arithmetic (R106) -/

/-- The signed integer of an exact number in units of 2^u, where u is at most its exponent. -/
def scaled (neg : Bool) (man : Nat) (exp u : Int) : Int :=
  let m : Int := man * 2 ^ (exp - u).toNat
  if neg then -m else m

/-- x + y; `dn` says that the mode is toward −∞, which decides the sign of a cancelled zero. -/
def fAdd (dn : Bool) (x y : FVal) : FVal :=
  match x, y with
  | .nan, _ => .nan
  | _, .nan => .nan
  | .inf a, .inf b => if a = b then .inf a else .nan
  | .inf a, _ => .inf a
  | _, .inf b => .inf b
  | .num n1 m1 e1 _, .num n2 m2 e2 _ =>
    if m1 = 0 ∧ m2 = 0 then .zero (if n1 = n2 then n1 else dn)
    else
      let u := min e1 e2
      let r := scaled n1 m1 e1 u + scaled n2 m2 e2 u
      if r = 0 then .zero dn else .ofInt r u

/-- −x. -/
def fNeg (x : FVal) : FVal :=
  match x with
  | .nan => .nan
  | .inf a => .inf !a
  | .num n m e s => .num (!n) m e s

/-- x · y. -/
def fMul (x y : FVal) : FVal :=
  match x, y with
  | .nan, _ => .nan
  | _, .nan => .nan
  | .inf a, .inf b => .inf (a != b)
  | .inf a, .num n m _ _ => if m = 0 then .nan else .inf (a != n)
  | .num n m _ _, .inf b => if m = 0 then .nan else .inf (n != b)
  | .num n1 m1 e1 _, .num n2 m2 e2 _ => .exact (n1 != n2) (m1 * m2) (e1 + e2)

/-- x · y + z. -/
def fFma (dn : Bool) (x y z : FVal) : FVal := fAdd dn (fMul x y) z

def FVal.isNan (x : FVal) : Bool :=
  match x with
  | .nan => true
  | _ => false

/-- x < y of two values that are no NaN; −0 is not below +0. -/
def fLt (x y : FVal) : Bool :=
  match x, y with
  | .nan, _ => false
  | _, .nan => false
  | .inf a, .inf b => a && !b
  | .inf a, .num .. => a
  | .num .., .inf b => !b
  | .num n1 m1 e1 _, .num n2 m2 e2 _ =>
    let u := min e1 e2
    decide (scaled n1 m1 e1 u < scaled n2 m2 e2 u)

/-- The exact sum of a set of terms, with the special values of R64 (and R130): before its one rounding. -/
def exactSum (ps : List FVal) : FVal :=
  let u : Int := ps.foldl (fun u p =>
    match p with
    | .num _ _ e _ => min u e
    | _ => u) 0
  let neg := ps.any fun p => p = .inf true
  let pos := ps.any fun p => p = .inf false
  if ps.any (·.isNan) || (neg && pos) then .nan
  else if neg then .inf true
  else if pos then .inf false
  else
    let t : Int := ps.foldl (fun t p =>
      match p with
      | .num n m e _ => t + scaled n m e u
      | _ => t) 0
    if t = 0 then
      .zero (!ps.isEmpty && ps.all fun p =>
        match p with
        | .num n m _ _ => n && decide (m = 0)
        | _ => false)
    else .ofInt t u

/-! ### Correctly rounded functions (R112) -/

/-- Bits `i-1 … 0` of the integer square root of `n`, above the bits `r` that are known. -/
def isqrtFrom (n : Nat) : Nat → Nat → Nat
  | 0, r => r
  | i + 1, r => isqrtFrom n i (if (r + 2 ^ i) * (r + 2 ^ i) ≤ n then r + 2 ^ i else r)

/-- ⌊√n⌋ for n below 4^160. -/
def isqrt (n : Nat) : Nat := isqrtFrom n 160 0

/-- 1 / x. -/
def fRcp (x : FVal) : FVal :=
  match x with
  | .nan => .nan
  | .inf neg => .zero neg
  | .num neg man exp _ =>
    if man = 0 then .inf neg
    else .num neg (2 ^ 128 / man) (-exp - 128) (decide (2 ^ 128 % man ≠ 0))

/-- √x. -/
def fSqrtV (x : FVal) : FVal :=
  match x with
  | .nan => .nan
  | .inf neg => if neg then .nan else .inf false
  | .num neg man exp _ =>
    if man = 0 then .zero neg
    else if neg then .nan
    else
      let m := if exp % 2 = 0 then man else 2 * man
      let e := if exp % 2 = 0 then exp else exp - 1
      let n := m * 2 ^ 160
      let r := isqrt n
      .num false r (e / 2 - 80) (decide (r * r ≠ n))

/-- 1 / √x. -/
def fRsqV (x : FVal) : FVal :=
  match x with
  | .nan => .nan
  | .inf neg => if neg then .nan else .zero false
  | .num neg man exp _ =>
    if man = 0 then .inf neg
    else if neg then .nan
    else
      let m := if exp % 2 = 0 then man else 2 * man
      let e := if exp % 2 = 0 then exp else exp - 1
      let r := isqrt (2 ^ 240 / m)
      .num false r (-(e / 2) - 120) (decide (r * r * m ≠ 2 ^ 240))

/-- The bits of fixed-point fractions in the irrational functions. -/
def fx : Nat := 512

/-- ln 2 in units of 2^−fx: the sum of 1 / (k · 2^k), from the `n` terms that remain. -/
def ln2Sum : Nat → Nat → Nat
  | 0, _ => 0
  | n + 1, k => 2 ^ (fx - k) / k + ln2Sum n (k + 1)

/-- e^t for 0 ≤ t < 1 in units of 2^−fx: the terms of the series from `term` = t^k / k! on. -/
def expSum (t : Nat) : Nat → Nat → Nat → Nat
  | 0, _, _ => 0
  | n + 1, k, term => term + expSum t n (k + 1) (term * t / 2 ^ fx / (k + 1))

/-- 2^x. -/
def fExp2V (x : FVal) : FVal :=
  match x with
  | .nan => .nan
  | .inf neg => if neg then .zero false else .inf false
  | .num neg man exp _ =>
    if man = 0 then .exact false 1 0
    else if 9 ≤ magLog man exp then (if neg then .exact false 1 (-400) else .exact false 1 400)
    else
      let v : Int := scaled neg man (exp + fx) 0
      let n : Int := v / 2 ^ fx
      let f : Nat := (v % 2 ^ fx).toNat
      if f = 0 then .exact false 1 n
      else .num false (expSum (f * ln2Sum fx 1 / 2 ^ fx) 120 0 (2 ^ fx)) (n - fx) true

/-- The first `n` bits of log2 of `m` · 2^−fx, which lies in [1, 2): squaring doubles the logarithm. -/
def log2Bits : Nat → Nat → Nat → Nat
  | 0, _, acc => acc
  | n + 1, m, acc =>
    let sq := m * m / 2 ^ fx
    if 2 ^ (fx + 1) ≤ sq then log2Bits n (sq / 2) (2 * acc + 1) else log2Bits n sq (2 * acc)

/-- log2 x. -/
def fLog2V (x : FVal) : FVal :=
  match x with
  | .nan => .nan
  | .inf neg => if neg then .nan else .inf false
  | .num neg man exp _ =>
    if man = 0 then .inf true
    else if neg then .nan
    else
      let n : Int := magLog man exp
      let m := man * 2 ^ (fx - Nat.log2 man)
      if m = 2 ^ fx then .ofInt n 0
      else
        let l : Int := n * 2 ^ 160 + log2Bits 160 m 0
        if 0 ≤ l then .num false l.toNat (-160) true else .num true (-l - 1).toNat (-160) true

/-- atan(1/d) in units of 2^−fx: the alternating series, from `pw` = 2^fx / d^k on. -/
def atanSum (d : Nat) : Nat → Nat → Nat → Int
  | 0, _, _ => 0
  | n + 1, k, pw => (pw / k : Nat) - atanSum d n (k + 2) (pw / (d * d))

/-- π in units of 2^−fx, by Machin's formula. -/
def piFx : Nat := (16 * atanSum 5 130 1 (2 ^ fx / 5) - 4 * atanSum 239 40 1 (2 ^ fx / 239)).toNat

/-- sin t for 0 ≤ t < 2 in units of 2^−fx: the alternating series from `term` = t^k / k! on. -/
def sinSum (t2 : Nat) : Nat → Nat → Nat → Int
  | 0, _, _ => 0
  | n + 1, k, term => (term : Int) - sinSum t2 n (k + 2) (term * t2 / 2 ^ fx / ((k + 1) * (k + 2)))

/-- sin(π·x). -/
def fSinpiV (x : FVal) : FVal :=
  match x with
  | .nan => .nan
  | .inf _ => .nan
  | .num neg man exp _ =>
    if man = 0 then .zero neg
    else if 0 ≤ exp then .zero neg
    else
      let one := 2 ^ (-exp).toNat
      let n := man / one
      let r := man % one
      let s := neg != decide (n % 2 = 1)
      if r = 0 then .zero neg
      else if 2 * r = one then .exact s 1 0
      else
        let r' := if one < 2 * r then one - r else r
        let t := r' * piFx / one
        .num s (sinSum (t * t / 2 ^ fx) 80 1 t).toNat (-(fx : Int)) true

/-! ### The residue format (R60-R62) -/

def resA (w : Word) : Nat := w.toNat % 256 % 255
def resB (w : Word) : Nat := w.toNat / 256 % 256
def resC (w : Word) : Nat := w.toNat / 65536 % 512 % 257

/-- A word of canonical channels. -/
def resWord (a b c : Nat) : Word := BitVec.ofNat 32 (c % 257 * 65536 + b % 256 * 256 + a % 255)
/-- `res_enc(x)`. -/
def resEnc (x : Int) : Word := resWord (x % 255).toNat (x % 256).toNat (x % 257).toNat
/-- `res_crt(w)`. -/
def resCrt (w : Word) : Int :=
  let x := (resA w * 128 * 65792 + resB w * 255 * 65535 + resC w * 129 * 65280) % 16776960
  if 8388480 ≤ x then (x : Int) - 16776960 else x
/-- Sum and product by channel (R61). -/
def resAdd (x y : Word) : Word := resWord (resA x + resA y) (resB x + resB y) (resC x + resC y)
def resMul (x y : Word) : Word := resWord (resA x * resA y) (resB x * resB y) (resC x * resC y)

end Sys2Proof.Machine
end

