-- ==== Sys2Proof/Machine/LaneInt.lean ====
section
/-! DEFINITION. Lane integer, address and nesting instructions (spec/05_lane_integer.md R89-R103): opcodes 0x01-0x29. The integer
operations at the head of the file serve the group forms of R83 and R84 as well. -/
namespace Sys2Proof.Machine
open Sys2Proof

/-! ### Integer operations (R83, R84, R93, R94) -/

/-- Sum, wrapped or saturating. -/
def addOp (m : Nat) (x y : Word) : Word :=
  match m with
  | 0 => x + y
  | 1 => wordOfInt (satS (x.toInt + y.toInt) 32)
  | _ => wordOfInt (satU ((x.toNat : Int) + y.toNat) 32)

/-- Difference, with the same three treatments. -/
def subOp (m : Nat) (x y : Word) : Word :=
  match m with
  | 0 => x - y
  | 1 => wordOfInt (satS (x.toInt - y.toInt) 32)
  | _ => wordOfInt (satU ((x.toNat : Int) - y.toNat) 32)

/-- Product: low word, signed high word, unsigned high word. -/
def mulOp (m : Nat) (x y : Word) : Word :=
  match m with
  | 0 => x * y
  | 1 => wordOfInt (x.toInt * y.toInt / 2 ^ 32)
  | _ => BitVec.ofNat 32 (x.toNat * y.toNat / 2 ^ 32)

/-- Product plus z, wrapped or saturating. -/
def madOp (m : Nat) (x y z : Word) : Word :=
  match m with
  | 0 => x * y + z
  | 1 => wordOfInt (satS (x.toInt * y.toInt + z.toInt) 32)
  | _ => wordOfInt (satU ((x.toNat : Int) * y.toNat + z.toNat) 32)

/-- x below y, signed under m 0 and unsigned under m 1. -/
def below (m : Nat) (x y : Word) : Bool := if m = 0 then x.slt y else x.ult y
def minOp (m : Nat) (x y : Word) : Word := if below m y x then y else x
def maxOp (m : Nat) (x y : Word) : Word := if below m x y then y else x

/-- Shift left; 0 for amounts of 32 or more. -/
def shlOp (x : Word) (k : Nat) : Word := if 32 ≤ k then 0 else x <<< k
/-- Logical shift right; 0 for amounts of 32 or more. -/
def shrOp (x : Word) (k : Nat) : Word := if 32 ≤ k then 0 else x >>> k
/-- Arithmetic shift right; all sign bits for amounts of 31 or more. -/
def asrOp (x : Word) (k : Nat) : Word := x.sshiftRight (min k 31)

/-- Rotation by y[4:0], left under m 0 and right under m 1. -/
def rotOp (m : Nat) (x y : Word) : Word :=
  if m = 0 then x.rotateLeft (y.toNat % 32) else x.rotateRight (y.toNat % 32)

/-- The position and the width of a field (`bfe`, `bfi`). -/
def fieldPos (y : Word) : Nat := y.toNat % 32
def fieldWidth (y : Word) : Nat := y.toNat / 32 % 32 + 1

/-- Bit-field extract, zero-extended under m 0 and sign-extended from its width under m 1. -/
def bfeOp (m : Nat) (x y : Word) : Word :=
  let w := fieldWidth y
  let f := x.toNat / 2 ^ fieldPos y % 2 ^ w
  if m = 0 then BitVec.ofNat 32 f else wordOfInt (if f.testBit (w - 1) then (f : Int) - 2 ^ w else f)

/-- Bit-field insert into z. -/
def bfiOp (x y z : Word) : Word :=
  let ones : Word := BitVec.ofNat 32 ((2 ^ fieldWidth y - 1) * 2 ^ fieldPos y)
  (z &&& ~~~ ones) ||| ((x <<< fieldPos y) &&& ones)

/-- The number of 1 bits. -/
def popCount (x : Word) : Nat := ((seqFrom 0 32).filter fun i => x.getLsbD i).length
/-- Trailing zeros; 32 for 0. -/
def ctzCount (x : Word) : Nat := ((seqFrom 0 32).find? fun i => x.getLsbD i).getD 32
/-- Leading zeros; 32 for 0. -/
def clzCount (x : Word) : Nat := ((seqFrom 0 32).find? fun i => x.getLsbD (31 - i)).getD 32
/-- The bits in reverse order. -/
def bitRev (x : Word) : Word :=
  BitVec.ofNat 32 (((seqFrom 0 32).filter fun i => x.getLsbD i).map fun i => 2 ^ (31 - i)).sum

/-- The bit counts of `bitc` and `gbitc`. -/
def bitcOp (m : Nat) (x : Word) : Word :=
  match m with
  | 0 => BitVec.ofNat 32 (popCount x)
  | 1 => BitVec.ofNat 32 (clzCount x)
  | 2 => BitVec.ofNat 32 (ctzCount x)
  | _ => bitRev x

/-- A signed 10-bit immediate. -/
def simm (i : BitVec 10) : Word := i.signExtend 32
/-- An unsigned 10-bit immediate. -/
def zimm (i : BitVec 10) : Word := i.setWidth 32

/-! ### Register-register family (R93) -/

/-- ADD. -/
def execAdd (d a b : Reg) (m : BitVec 3) (s : State) : Out := laneOp s d [a, b] fun l => addOp m.toNat (s.x l a) (s.x l b)
/-- SUB. -/
def execSub (d a b : Reg) (m : BitVec 3) (s : State) : Out := laneOp s d [a, b] fun l => subOp m.toNat (s.x l a) (s.x l b)
/-- MUL. -/
def execMul (d a b : Reg) (m : BitVec 3) (s : State) : Out := laneOp s d [a, b] fun l => mulOp m.toNat (s.x l a) (s.x l b)
/-- MAD; reads d. -/
def execMad (d a b : Reg) (m : BitVec 3) (s : State) : Out :=
  laneOp s d [a, b, d] fun l => madOp m.toNat (s.x l a) (s.x l b) (s.x l d)
/-- MIN. -/
def execMin (d a b : Reg) (m : BitVec 3) (s : State) : Out := laneOp s d [a, b] fun l => minOp m.toNat (s.x l a) (s.x l b)
/-- MAX. -/
def execMax (d a b : Reg) (m : BitVec 3) (s : State) : Out := laneOp s d [a, b] fun l => maxOp m.toNat (s.x l a) (s.x l b)
/-- AND. -/
def execAnd (d a b : Reg) (s : State) : Out := laneOp s d [a, b] fun l => s.x l a &&& s.x l b
/-- OR. -/
def execOr (d a b : Reg) (s : State) : Out := laneOp s d [a, b] fun l => s.x l a ||| s.x l b
/-- XOR. -/
def execXor (d a b : Reg) (s : State) : Out := laneOp s d [a, b] fun l => s.x l a ^^^ s.x l b
/-- ANDN. -/
def execAndn (d a b : Reg) (s : State) : Out := laneOp s d [a, b] fun l => s.x l a &&& ~~~ s.x l b
/-- SHL. -/
def execShl (d a b : Reg) (s : State) : Out := laneOp s d [a, b] fun l => shlOp (s.x l a) (s.x l b).toNat
/-- SHR. -/
def execShr (d a b : Reg) (m : BitVec 3) (s : State) : Out :=
  laneOp s d [a, b] fun l =>
    if m = 0 then shrOp (s.x l a) (s.x l b).toNat else asrOp (s.x l a) (s.x l b).toNat
/-- ROT. -/
def execRot (d a b : Reg) (m : BitVec 3) (s : State) : Out := laneOp s d [a, b] fun l => rotOp m.toNat (s.x l a) (s.x l b)
/-- BFE. -/
def execBfe (d a b : Reg) (m : BitVec 3) (s : State) : Out := laneOp s d [a, b] fun l => bfeOp m.toNat (s.x l a) (s.x l b)
/-- BFI; reads d. -/
def execBfi (d a b : Reg) (s : State) : Out := laneOp s d [a, b, d] fun l => bfiOp (s.x l a) (s.x l b) (s.x l d)
/-- BITC. -/
def execBitc (d a : Reg) (m : BitVec 3) (s : State) : Out := laneOp s d [a] fun l => bitcOp m.toNat (s.x l a)
/-- SEL; reads d. -/
def execSel (d a b : Reg) (s : State) : Out :=
  laneOp s d [a, b, d] fun l => if s.x l d ≠ 0 then s.x l a else s.x l b
/-- CMP. -/
def execCmp (d a b : Reg) (m : BitVec 3) (s : State) : Out :=
  laneOp s d [a, b] fun l => flagWord (intCmp m.toNat (s.x l a) (s.x l b))

/-! ### Register-immediate family (R94), `movi`, `mov`, `lid` (R95) -/

/-- ADDI. -/
def execAddi (d a : Reg) (i : BitVec 10) (s : State) : Out := laneOp s d [a] fun l => s.x l a + simm i
/-- ANDI. -/
def execAndi (d a : Reg) (i : BitVec 10) (s : State) : Out := laneOp s d [a] fun l => s.x l a &&& simm i
/-- ORI. -/
def execOri (d a : Reg) (i : BitVec 10) (s : State) : Out := laneOp s d [a] fun l => s.x l a ||| zimm i
/-- XORI. -/
def execXori (d a : Reg) (i : BitVec 10) (s : State) : Out := laneOp s d [a] fun l => s.x l a ^^^ simm i
/-- SHLI. -/
def execShli (d a : Reg) (i : BitVec 10) (s : State) : Out := laneOp s d [a] fun l => shlOp (s.x l a) i.toNat
/-- SHRI. Bit 9 of the immediate selects the arithmetic shift. -/
def execShri (d a : Reg) (i : BitVec 10) (s : State) : Out :=
  laneOp s d [a] fun l =>
    if i.getLsbD 9 then asrOp (s.x l a) (i.toNat % 512) else shrOp (s.x l a) (i.toNat % 512)
/-- CMPI. -/
def execCmpi (d a : Reg) (i : BitVec 10) (s : State) : Out := laneOp s d [a] fun l => threeWay (s.x l a) (simm i)
/-- MOVI. -/
def execMovi (d : Reg) (i : BitVec 10) (s : State) : Out := laneOp s d [] fun _ => simm i
/-- MOV. -/
def execMov (d a : Reg) (s : State) : Out := laneOp s d [a] fun l => s.x l a
/-- LID. -/
def execLid (d : Reg) (m : BitVec 3) (s : State) : Out :=
  laneOp s d [] fun l =>
    match m.toNat with
    | 0 => BitVec.ofNat 32 l
    | 1 => BitVec.ofNat 32 (s.cur.gid * 32 + l)
    | _ => BitVec.ofNat 32 (s.curBlock.bid * 1024 + s.cur.gid * 32 + l)

/-! ### lea (R96) -/

/-- LEA: the offsets are checked by `within` of R140 and no memory is accessed. -/
def execLea (d : Reg) (h : BitVec 5) (a : Reg) (o : BitVec 5) (s : State) : Out :=
  match s.laneRegs [d] [a] with
  | .error e => settle s (.error e)
  | .ok _ =>
    if s.active = 0 then .next s.advance
    else
      let hnum := s.slotHandle h
      let offs := s.laneOffs a o 4
      let (s1, e) := s.curHandle hnum
      if s.curHandleTested hnum then settle s (.error (.stall .full))
      else if !e.usable then settle s1 (.error (laneTrap fHandle hnum (fun _ => 1) offs))
      else
        let bad := offs.filter fun x => (withinFault e s.curBlock x.2).isSome
        if !bad.isEmpty then
          settle s1 (.error (laneTrap fHandle hnum (fun x => (withinFault e s.curBlock x).getD 2) bad))
        else .next (s1.putLanes d fun l => s.x l a + BitVec.ofNat 32 (4 * o.toNat)).advance

/-! ### Structured opcodes (R97-R102) -/

/-- cond(L) of `if` (R99). -/
def ifCond (m : Nat) (x : Word) : Bool :=
  match m with
  | 0 => decide (x ≠ 0)
  | 1 => decide (x = 0)
  | 2 => x.slt 0
  | _ => !x.slt 0

/-- The mode and depth of `brk` and `cont` (R98). -/
def loopMode (i : BitVec 10) : Nat := i.toNat / 256
def loopDepth (i : BitVec 10) : Nat := i.toNat % 256

/-- cond(L) of `brk` and `cont` (R99). -/
def loopCond (mode : Nat) (x : Word) : Bool :=
  match mode with
  | 0 => decide (x ≠ 0)
  | 1 => decide (x = 0)
  | 2 => true
  | _ => false

/-- IF. -/
def execLaneIf (a : Reg) (m : BitVec 3) (s : State) : Out := nestOp s [a] .ifOp fun l => ifCond m.toNat (s.x l a)
/-- IFI. -/
def execLaneIfi (a : Reg) (i : BitVec 10) (s : State) : Out := nestOp s [a] .ifOp fun l => decide (s.x l a &&& zimm i ≠ 0)
/-- ELSE. -/
def execLaneElse (s : State) : Out := nestOp s [] .elseOp fun _ => false
/-- ENDIF. -/
def execEndif (s : State) : Out := nestOp s [] .endifOp fun _ => false
/-- LBEG. -/
def execLbeg (s : State) : Out := nestOp s [] .lbegOp fun _ => false
/-- BRK; field a is read under `.nz` and `.z` only. -/
def execBrk (a : Reg) (i : BitVec 10) (s : State) : Out :=
  nestOp s (if loopMode i < 2 then [a] else []) (.brkOp (loopDepth i)) fun l => loopCond (loopMode i) (s.x l a)
/-- CONT. -/
def execCont (a : Reg) (i : BitVec 10) (s : State) : Out :=
  nestOp s (if loopMode i < 2 then [a] else []) (.contOp (loopDepth i)) fun l => loopCond (loopMode i) (s.x l a)
/-- LNEXT. -/
def execLnext (s : State) : Out := nestOp s [] .lnextOp fun _ => false
/-- LEND. -/
def execLend (s : State) : Out := nestOp s [] .lendOp fun _ => false

/-- LEXIT (R103): the active lanes whose source fits exit. In ordered mode one that empties its split and leaves others of the group alive
does not end the group's quantum, as R173 lists `gexit` only (log entry 70). -/
def execLexit (a : Reg) (m : BitVec 3) (s : State) : Out :=
  match s.laneRegs [] (if m = 0 then [] else [a]) with
  | .error e => settle s (.error e)
  | .ok _ =>
    let e := maskOf ((lanesOf s.active).filter fun l =>
      match m.toNat with
      | 0 => true
      | 1 => decide (s.x l a ≠ 0)
      | _ => decide (s.x l a = 0))
    if s.exitBlocked e then settle s (.error (.stall .retirement))
    else .next (s.advance.exitLanes s.cg s.cs e)

end Sys2Proof.Machine
end

