-- ==== Sys2Proof/Machine/GroupAlu.lean ====
section
/-! DEFINITION. Group arithmetic and the group's reads of its own place (spec/04_group_instructions.md R83-R88): opcodes 0x80-0x9B but
for the control registers. -/
namespace Sys2Proof.Machine
open Sys2Proof

/-- GNOP (R88). -/
def execGnop (s : State) : Out := .next s.advance
/-- GADD (R83). -/
def execGadd (d a b : Reg) (m : BitVec 3) (s : State) : Out := groupOp s d [a, b] (addOp m.toNat (s.u a) (s.u b))
/-- GSUB (R83). -/
def execGsub (d a b : Reg) (m : BitVec 3) (s : State) : Out := groupOp s d [a, b] (subOp m.toNat (s.u a) (s.u b))
/-- GMUL (R83). -/
def execGmul (d a b : Reg) (m : BitVec 3) (s : State) : Out := groupOp s d [a, b] (mulOp m.toNat (s.u a) (s.u b))
/-- GAND (R83). -/
def execGand (d a b : Reg) (s : State) : Out := groupOp s d [a, b] (s.u a &&& s.u b)
/-- GOR (R83). -/
def execGor (d a b : Reg) (s : State) : Out := groupOp s d [a, b] (s.u a ||| s.u b)
/-- GXOR (R83). -/
def execGxor (d a b : Reg) (s : State) : Out := groupOp s d [a, b] (s.u a ^^^ s.u b)
/-- GSHL (R83). -/
def execGshl (d a b : Reg) (s : State) : Out := groupOp s d [a, b] (shlOp (s.u a) (s.u b).toNat)
/-- GSHR (R83). -/
def execGshr (d a b : Reg) (m : BitVec 3) (s : State) : Out :=
  groupOp s d [a, b] (if m = 0 then shrOp (s.u a) (s.u b).toNat else asrOp (s.u a) (s.u b).toNat)
/-- GMIN (R83). -/
def execGmin (d a b : Reg) (m : BitVec 3) (s : State) : Out := groupOp s d [a, b] (minOp m.toNat (s.u a) (s.u b))
/-- GMAX (R83). -/
def execGmax (d a b : Reg) (m : BitVec 3) (s : State) : Out := groupOp s d [a, b] (maxOp m.toNat (s.u a) (s.u b))
/-- GCMP (R83). -/
def execGcmp (d a b : Reg) (m : BitVec 3) (s : State) : Out :=
  groupOp s d [a, b] (flagWord (intCmp m.toNat (s.u a) (s.u b)))
/-- GSEL (R83); reads d. -/
def execGsel (d a b : Reg) (s : State) : Out := groupOp s d [a, b, d] (if s.u d ≠ 0 then s.u a else s.u b)
/-- GMOV (R83). -/
def execGmov (d a : Reg) (s : State) : Out := groupOp s d [a] (s.u a)
/-- GBITC (R83). -/
def execGbitc (d a : Reg) (m : BitVec 3) (s : State) : Out := groupOp s d [a] (bitcOp m.toNat (s.u a))
/-- GBFE (R83). -/
def execGbfe (d a b : Reg) (m : BitVec 3) (s : State) : Out := groupOp s d [a, b] (bfeOp m.toNat (s.u a) (s.u b))
/-- GMAD (R83); reads d. -/
def execGmad (d a b : Reg) (s : State) : Out := groupOp s d [a, b, d] (madOp 0 (s.u a) (s.u b) (s.u d))
/-- GADDI (R84). -/
def execGaddi (d a : Reg) (i : BitVec 10) (s : State) : Out := groupOp s d [a] (s.u a + simm i)
/-- GANDI (R84). -/
def execGandi (d a : Reg) (i : BitVec 10) (s : State) : Out := groupOp s d [a] (s.u a &&& simm i)
/-- GORI (R84). -/
def execGori (d a : Reg) (i : BitVec 10) (s : State) : Out := groupOp s d [a] (s.u a ||| zimm i)
/-- GCMPI (R84). -/
def execGcmpi (d a : Reg) (i : BitVec 10) (s : State) : Out := groupOp s d [a] (threeWay (s.u a) (simm i))
/-- GSET (R85). -/
def execGset (d : Reg) (j : BitVec 17) (s : State) : Out := groupOp s d [] (j.signExtend 32)
/-- GSETH (R85); reads d. -/
def execGseth (d : Reg) (j : BitVec 17) (s : State) : Out :=
  groupOp s d [d] (j.extractLsb' 0 15 ++ (s.u d).extractLsb' 0 17)

/-- GLEA (R87): the check of `within` (R140) and no access. -/
def execGlea (d a b : Reg) (m : BitVec 3) (s : State) : Out :=
  match s.groupRegs [d] [a, a + 1, b] with
  | .error e => settle s (.error e)
  | .ok _ =>
    let hnum := (s.u a).toNat
    let off := (s.u (a + 1)).toNat + (s.u b).toNat * 2 ^ m.toNat
    let (s1, e) := s.curHandle hnum
    if s.curHandleTested hnum then settle s (.error (.stall .full))
    else if !e.usable then settle s1 (.error (laneTrap fHandle hnum (fun _ => 1) [(s.leader, off)]))
    else
      match withinFault e s.curBlock off with
      | some det => settle s1 (.error (laneTrap fHandle hnum (fun _ => det) [(s.leader, off)]))
      | none => .next (s1.put d (BitVec.ofNat 32 off)).advance

/-- GCLOCK (R88): device time, or in ordered mode the instructions retired before this one. -/
def execGclock (d : Reg) (m : BitVec 3) (s : State) : Out :=
  let t : Dword := if s.curLaunch.q = 0 then BitVec.ofNat 64 s.now else s.cur.retired
  groupOp s d [] (if m = 0 then t.extractLsb' 0 32 else t.extractLsb' 32 32)

/-- GID (R88). -/
def execGid (d : Reg) (m : BitVec 3) (s : State) : Out :=
  groupOp s d [] (match m.toNat with
    | 0 => s.csp.members
    | 1 => s.active
    | 2 => BitVec.ofNat 32 s.cs
    | 3 => BitVec.ofNat 32 s.leader
    | _ => BitVec.ofNat 32 (s.cur.splits.length + s.cur.stack.length))

end Sys2Proof.Machine
end

