-- ==== Sys2Proof/Machine/Control.lean ====
section
/-! DEFINITION. Control flow, splits, control registers and the allocation (spec/04_group_instructions.md R73, R77-R82, R86): opcodes
0x94, 0x95, 0xA0-0xA8 and 0xF2. -/
namespace Sys2Proof.Machine
open Sys2Proof

/-! ### Branches (R77-R79) -/

/-- PC + 4 · sext(off14) (R31). -/
def State.target (s : State) (f : BitVec 14) : Dword := s.csp.pc + 4 * f.signExtend 64

/-- GBR. -/
def execGbr (f : BitVec 14) (s : State) : Out := .next (s.jump (s.target f))

/-- The condition of `gbc` (R33, R77). -/
def State.gbcTaken (s : State) (a : Reg) (c : Nat) : Bool :=
  match c with
  | 5 => decide (s.active ≠ 0)
  | 6 => decide (s.active = 0)
  | _ => test c (s.u a)

/-- GBC; field a is a register under cond3 1-4 only. -/
def execGbc (a : Reg) (c : BitVec 3) (f : BitVec 14) (s : State) : Out :=
  guarded s (s.groupRegs [] (if c.toNat < 5 then [a] else []))
    (s.jump (if s.gbcTaken a c.toNat then s.target f else s.csp.pc + 4))

/-- GCALL. -/
def execGcall (a : Reg) (f : BitVec 14) (s : State) : Out :=
  guarded s (s.groupRegs [a] []) ((s.put a ((s.csp.pc + 4).extractLsb' 0 32)).jump (s.target f))

/-- A jump to a register address, within the current 4 GiB (R78). -/
def State.jumpReg (s : State) (a : Reg) : Out :=
  match s.groupRegs [] [a] with
  | .error e => settle s (.error e)
  | .ok _ =>
    let x := s.u a
    let t : Dword := s.csp.pc.extractLsb' 32 32 ++ x
    if x.toNat % 4 ≠ 0 then settle s (.error (.trap (mkTrap fAlign 0 t.toNat s.leaderMask)))
    else .next (s.jump t)

/-- GRET. -/
def execGret (a : Reg) (s : State) : Out := s.jumpReg a
/-- GJR. -/
def execGjr (a : Reg) (s : State) : Out := s.jumpReg a

/-- R79: the split divides into the lanes `t`, at `target`, and the rest, at PC + 4. -/
def State.divide (s : State) (t : LaneMask) (target : Dword) : State :=
  let pc := s.csp.pc
  let q := s.curLaunch.quantum
  let rest := s.csp.members &&& ~~~ t
  let s := s.jump target
  let sp := s.csp
  let g := setRegionOf (s.cur.putSplit s.cs { sp with members := t }) s.cs q target
  let other := { sp with pc := pc + 4, members := rest, age := g.stamp }
  match freeIndex g.splits with
  | some i => s.putCur (setRegionOf (g.putSplit i other) i q (pc + 4))
  | none =>
    let r := if sp.sup then other else { other with region := pc + 4, snap := snapshotOf g other q }
    s.putCur { g with stack := { barrier := false, sp := r } :: g.stack }

/-- What `gbrd` tests of its register: as a group-form instruction for its leader (R271); with no active lane it reads none. -/
def State.branchRegs (s : State) (a : Reg) : Except Stop Unit := if s.active = 0 then s.groupRegs [a] [] else s.groupRegs [] [a]

/-- GBRD (R79). -/
def execGbrd (a : Reg) (c : BitVec 3) (f : BitVec 14) (s : State) : Out :=
  let t := maskOf ((lanesOf s.active).filter fun l => test c.toNat (s.x l a))
  guarded s (s.branchRegs a)
    (if t = 0 then s.advance
     else if s.csp.members &&& ~~~ t = 0 then s.jump (s.target f)
     else s.divide t (s.target f))

/-- R80: two splits of one mode merge; the lower index stays, with the `K_IX` of the part that held the lowest lane (R66). -/
def mergeSplits (g : Group) (i j : Nat) : Group :=
  let a := g.split i
  let b := g.split j
  let kix := if lowestLane a.members ≤ lowestLane b.members then a.kix else b.kix
  let low := min i j
  { g with splits := mapDel (mapPut g.splits low { g.split low with members := a.members ||| b.members, kix := kix }) (max i j) }

/-- GJOIN (R76, R80): the split waits, or under `.nw` goes on with whoever waits here. -/
def execGjoin (m : BitVec 3) (s : State) : Out :=
  let q := s.curLaunch.quantum
  let pc := s.csp.pc
  let s := s.advance
  let g := s.cur.putSplit s.cs { s.csp with pc := pc, st := .atJoin }
  let i := s.cs
  let partner := g.splits.find? fun e =>
    decide (e.1 ≠ i) && decide (e.2.st = .atJoin) && decide (e.2.pc = pc) && decide (e.2.sup = s.csp.sup)
  let (g, k) := match partner with
    | some (j, _) => (mergeSplits g i j, min i j)
    | none => (g, i)
  let g := if m = 1 then passOn g k q else g
  .next (s.putCur (testJoins (promote g q) q))

/-- GREGION (R81): the region entry is the word's own address. -/
def execGregion (s : State) : Out := .next s.openRegion.advance

/-- GEXIT (R82); in ordered mode it ends the group's quantum (R173). -/
def execGexit (s : State) : Out :=
  if s.exitBlocked s.csp.members then settle s (.error (.stall .retirement))
  else
    let s1 := s.advance
    let s2 := if s.curLaunch.q = 0 then s1 else s1.putCur { s1.cur with qended := true }
    .next (s2.exitLanes s.cg s.cs s.csp.members)

/-! ### Control registers (R39, R86) -/

/-- The control registers of 64 bits. -/
def wideReg (n : Nat) : Bool :=
  match n with
  | 0x020 | 0x022 | 0x024 | 0x042 | 0x043 => true
  | _ => false

/-- The control registers that only a supervisor writes. -/
def supReg (n : Nat) : Bool :=
  match n with
  | 0x020 | 0x030 | 0x031 | 0x032 | 0x033 | 0x3F0 => true
  | _ => false

/-- `K_IX` as the split sees it: the user value in the fault frame while in a handler (R270). -/
def State.kix (s : State) : Word :=
  match s.csp.sup, s.cur.frame with
  | true, some f => f.kix
  | _, _ => s.csp.kix

/-- The value of a control register (R39); a 32-bit one in the low word. -/
def State.ctrl (s : State) (n : Nat) : Dword :=
  let w := fun (x : Nat) => BitVec.ofNat 64 x
  let b := s.curBlock
  let l := s.curLaunch
  let c := s.context b.ctx
  match n with
  | 0x000 => w s.cur.gid
  | 0x001 => w b.bid
  | 0x002 => w (b.bid % l.gx)
  | 0x003 => w (b.bid / l.gx % l.gy)
  | 0x004 => w (b.bid / l.gx / l.gy)
  | 0x005 => w b.pid
  | 0x006 => w b.lid
  | 0x010 => w s.kix.toNat
  | 0x011 => w s.cur.kwto.toNat
  | 0x012 => w s.cur.khwin.toNat
  | 0x020 => s.fvecOf s.cg
  | 0x021 => w s.cur.fcode.toNat
  | 0x022 => s.cur.faddr
  | 0x023 => w s.cur.fmask.toNat
  | 0x024 => s.cur.fregion
  | 0x030 => w c.parkn.toNat
  | 0x031 => w c.parkt.toNat
  | 0x032 => w c.bcap.toNat
  | 0x033 => w c.drain.toNat
  | 0x040 => w (if l.q = 0 then 0 else l.quantum)
  | 0x041 => w l.q
  | 0x042 => s.cur.retired
  | 0x043 => w s.now
  | 0x3F0 => w s.dseed.toNat
  | 0x3F1 => w s.dready.toNat
  | _ => 0

/-- A control register takes a value; a number that R39 does not assign names none (log entry 65). -/
def State.setCtrl (s : State) (n : Nat) (v : Dword) : State :=
  let lo : Word := v.extractLsb' 0 32
  let ctx := s.curCtx
  let c := s.context ctx
  match n with
  | 0x010 =>
    match s.csp.sup, s.cur.frame with
    | true, some f => s.putCur { s.cur with frame := some { f with kix := lo } }
    | _, _ => s.putCsp { s.csp with kix := lo }
  | 0x011 => s.putCur { s.cur with kwto := lo }
  | 0x012 => s.putCur { s.cur with khwin := lo }
  | 0x020 =>
    if isControl s.curCore then s.putCore s.curCore { s.core s.curCore with fvec := v }
    else s.putContext ctx { c with fvec := v }
  | 0x030 => s.putContext ctx { c with parkn := lo }
  | 0x031 => s.putContext ctx { c with parkt := lo }
  | 0x032 => s.setBcap ctx lo
  | 0x033 => s.putContext ctx { c with drain := lo }
  | 0x3F0 => { s with dseed := lo }
  | _ => s

/-- GRDC. -/
def execGrdc (d : Reg) (i : BitVec 10) (s : State) : Out :=
  let v := s.ctrl i.toNat
  if wideReg i.toNat then
    guarded s (s.groupRegs [d, d + 1] []) ((s.put d (v.extractLsb' 0 32)).put (d + 1) (v.extractLsb' 32 32)).advance
  else groupOp s d [] (v.extractLsb' 0 32)

/-- GWRC. -/
def execGwrc (a : Reg) (i : BitVec 10) (s : State) : Out :=
  let n := i.toNat
  let v : Dword := if wideReg n then s.u (a + 1) ++ s.u a else (s.u a).setWidth 64
  guarded s (andThen (if supReg n then s.needPriv else .ok ()) (s.groupRegs [] (if wideReg n then [a, a + 1] else [a])))
    (s.advance.setCtrl n v)

/-! ### galloc (R73) -/

/-- ALLOC(g) becomes 2^k, and what a shrink drops reads as 0. -/
def Group.setAlloc (g : Group) (k : Nat) : Group :=
  { g with
    alloc := 2 ^ k
    regs := g.regs.filter fun e => decide (e.1 < 32 * 2 ^ k)
    rpoison := g.rpoison.filter fun e => decide (e.1 < 2 ^ k)
    written := g.written.filter fun n => decide (n < 2 ^ k)
    dirty := g.dirty.filter fun n => decide (n < 2 ^ k)
    cold := g.cold.filter fun n => decide (n < 2 ^ k)
    win := { g.win with log2 := min g.win.log2 k, lines := g.win.lines.filter fun e => decide (e.2 < 2 ^ k) } }

/-- A register that an allocation of 2^k leaves out is nowhere. -/
def RegLoc.cut (k : Nat) (loc : RegLoc) : RegLoc :=
  match loc with
  | .reg n => if n < 2 ^ k then loc else .off
  | _ => loc

/-- R73: what is on its way to a register that a shrink drops is not written there. -/
def Group.cutDests (g : Group) (k : Nat) : Group :=
  { g with
    ploads := g.ploads.map fun p => { p with locs := p.locs.map (RegLoc.cut k), writes := p.writes.map fun w => { w with loc := w.loc.cut k } }
    tokens := g.tokens.map fun t => { t with loc := t.loc.cut k }
    pends := g.pends.map fun p => { p with loc := p.loc.cut k }
    wait := g.wait.map fun r => { r with dl := r.dl.cut k, dh := r.dh.cut k }
    closing := g.closing.map fun c => { c with d := c.d.cut k, d2 := c.d2.cut k } }

/-- A command of this group. -/
def Cmd.cutDest (gk k : Nat) (c : Cmd) : Cmd := if c.g = gk then { c with tok := c.tok.map (RegLoc.cut k) } else c

/-- The bundle requests and commands of a group, wherever they are queued. -/
def State.cutDests (s : State) (gk k : Nat) : State :=
  let q := List.map (Cmd.cutDest gk k)
  { s with
    cores := s.cores.map fun (e : Nat × Core) =>
      (e.1, { e.2 with
        fills := e.2.fills.map fun f => if f.g = gk then { f with loc := f.loc.cut k } else f
        bqueue := e.2.bqueue.map fun r => if r.g = gk then { r with loc := r.loc.cut k } else r
        copyq := q e.2.copyq, rillq := q e.2.rillq, cascq := q e.2.cascq, matq := q e.2.matq })
    clusters := s.clusters.map fun (e : Nat × Cluster) => (e.1, { e.2 with sluice := q e.2.sluice }) }

/-- The allocation of the current group becomes 2^k. -/
def State.realloc (s : State) (k : Nat) : State :=
  let s1 := s.putCur (s.cur.setAlloc k)
  if 2 ^ k < s.cur.alloc then (s1.putCur (s1.cur.cutDests k)).cutDests s.cg k else s1

/-- GALLOC. -/
def execGalloc (d a : Reg) (i : BitVec 10) (s : State) : Out :=
  match s.groupRegs [] (if i = 0 then [a] else []) with
  | .error e => settle s.openRegion (.error e)
  | .ok _ =>
    let s := s.openRegion
    let k := if i = 0 then (s.u a).toNat else i.toNat
    if k < s.curBlock.regsLog2 ∨ 9 < k then settle s (.error (.trap (mkTrap fRegindex 0 k s.leaderMask)))
    else
      let old := s.cur.alloc
      let s1 := s.realloc k
      match s1.groupRegs [d] [] with
      | .error e => settle s (.error e)
      | .ok _ => .next (s1.put d (BitVec.ofNat 32 old)).advanceClose

end Sys2Proof.Machine
end

