-- ==== Sys2Proof/Machine/LaneFloat.lean ====
section
/-! DEFINITION. Lane floating-point and conversion instructions (spec/06_lane_float.md R104-R121): opcodes 0x30-0x4A. -/
namespace Sys2Proof.Machine
open Sys2Proof

/-- The value of a register read as `f32`. -/
def f32v (x : Word) : FVal := fval f32F x.toNat

/-- An `f32` result rounded by `m`, with the generator's state after it; mode 3 is toward −∞. -/
def roundW (m : Nat) (st : Word) (v : FVal) : Word × Word :=
  let (r, st) := roundF f32F m false st v
  (BitVec.ofNat 32 r, st)

/-- The default NaN of `f32` (R54). -/
def nan32 : Word := 0x7FC00000

/-! ### FP32 arithmetic (R106-R111) -/

/-- FADD (R106). -/
def execFadd (d a b : Reg) (m : BitVec 3) (s : State) : Out :=
  laneGenOp s d [a, b] fun l st => roundW m.toNat st (fAdd (decide (m = 3)) (f32v (s.x l a)) (f32v (s.x l b)))
/-- FSUB (R106). -/
def execFsub (d a b : Reg) (m : BitVec 3) (s : State) : Out :=
  laneGenOp s d [a, b] fun l st => roundW m.toNat st (fAdd (decide (m = 3)) (f32v (s.x l a)) (fNeg (f32v (s.x l b))))
/-- FMUL (R106). -/
def execFmul (d a b : Reg) (m : BitVec 3) (s : State) : Out :=
  laneGenOp s d [a, b] fun l st => roundW m.toNat st (fMul (f32v (s.x l a)) (f32v (s.x l b)))
/-- FFMA (R106); reads d. -/
def execFfma (d a b : Reg) (m : BitVec 3) (s : State) : Out :=
  laneGenOp s d [a, b, d] fun l st =>
    roundW m.toNat st (fFma (decide (m = 3)) (f32v (s.x l a)) (f32v (s.x l b)) (f32v (s.x l d)))

/-- The sign bit of a word. -/
def signBit (x : Word) : Bool := x.getLsbD 31

/-- x orders before y with −0 below +0; neither is a NaN (R107). -/
def totalLt (x y : Word) : Bool :=
  fLt (f32v x) (f32v y) ||
    (decide (x.toNat % 2 ^ 31 = 0) && decide (y.toNat % 2 ^ 31 = 0) && signBit x && !signBit y)

/-- FMIN's and FMAX's choice (R107). -/
def fminOp (x y : Word) : Word :=
  if (f32v x).isNan && (f32v y).isNan then nan32
  else if (f32v x).isNan then y else if (f32v y).isNan then x else if totalLt y x then y else x
def fmaxOp (x y : Word) : Word :=
  if (f32v x).isNan && (f32v y).isNan then nan32
  else if (f32v x).isNan then y else if (f32v y).isNan then x else if totalLt x y then y else x

/-- FMIN (R107). -/
def execFmin (d a b : Reg) (s : State) : Out := laneOp s d [a, b] fun l => fminOp (s.x l a) (s.x l b)
/-- FMAX (R107). -/
def execFmax (d a b : Reg) (s : State) : Out := laneOp s d [a, b] fun l => fmaxOp (s.x l a) (s.x l b)

/-- The eight comparisons of R108. -/
def fcmpOp (m : Nat) (x y : FVal) : Bool :=
  let un := x.isNan || y.isNan
  let lt := fLt x y
  let gt := fLt y x
  match m with
  | 0 => !un && !lt && !gt
  | 1 => un || lt || gt
  | 2 => lt
  | 3 => !un && !gt
  | 4 => gt
  | 5 => !un && !lt
  | 6 => un
  | _ => !un

/-- FCMP (R108). -/
def execFcmp (d a b : Reg) (m : BitVec 3) (s : State) : Out :=
  laneOp s d [a, b] fun l => flagWord (fcmpOp m.toNat (f32v (s.x l a)) (f32v (s.x l b)))

/-- FSGN's result (R109). -/
def fsgnOp (m : Nat) (x y : Word) : Word :=
  let top : Word := 0x80000000
  if (f32v x).isNan then nan32
  else
    match m with
    | 0 => (x &&& ~~~ top) ||| (y &&& top)
    | 1 => x ^^^ top
    | 2 => x &&& ~~~ top
    | _ => x ^^^ (y &&& top)

/-- FSGN (R109); `.neg` and `.abs` read no b. -/
def execFsgn (d a b : Reg) (m : BitVec 3) (s : State) : Out :=
  laneOp s d (if m = 1 ∨ m = 2 then [a] else [a, b]) fun l => fsgnOp m.toNat (s.x l a) (s.x l b)

/-- The class number of R110. -/
def classOf (x : Word) : Nat :=
  match f32v x with
  | .nan => 0
  | .inf neg => if neg then 1 else 8
  | .num neg man _ _ =>
    if man = 0 then (if neg then 4 else 5)
    else if man < 2 ^ 23 then (if neg then 3 else 6)
    else (if neg then 2 else 7)

/-- FCLASS (R110). -/
def execFclass (d a : Reg) (s : State) : Out := laneOp s d [a] fun l => BitVec.ofNat 32 (2 ^ classOf (s.x l a))

/-- FRND's result (R111). -/
def frndOp (m : Nat) (x st : Word) : Word × Word :=
  match f32v x with
  | .nan => (nan32, st)
  | .inf _ => (x, st)
  | .num neg man exp more =>
    if man = 0 ∨ 23 ≤ magLog man exp then (x, st)
    else
      let (k, fr, sh) := quantize man exp 0
      let (up, st) := roundUp m neg k fr sh more st
      (BitVec.ofNat 32 (rne f32F (.exact neg (if up then k + 1 else k) 0)), st)

/-- FRND (R111). -/
def execFrnd (d a : Reg) (m : BitVec 3) (s : State) : Out := laneGenOp s d [a] fun l st => frndOp m.toNat (s.x l a) st

/-! ### Correctly rounded functions (R112) -/

/-- The rounding of `frcp` and `fsqrt`. The result that R112's table names as finite and non-zero is read as the exact one, so that its
row agrees with R57 and R104 for a reciprocal that overflows (log entry 68). -/
def sfuW (m : Nat) (st : Word) (v : FVal) : Word × Word := roundW m st v

/-- FRCP. -/
def execFrcp (d a : Reg) (m : BitVec 3) (s : State) : Out := laneGenOp s d [a] fun l st => sfuW m.toNat st (fRcp (f32v (s.x l a)))
/-- FRSQ. −0 gives −∞. -/
def execFrsq (d a : Reg) (s : State) : Out := laneOp s d [a] fun l => (roundW 0 0 (fRsqV (f32v (s.x l a)))).1
/-- FSQRT. -/
def execFsqrt (d a : Reg) (m : BitVec 3) (s : State) : Out :=
  laneGenOp s d [a] fun l st => sfuW m.toNat st (fSqrtV (f32v (s.x l a)))
/-- FEXP2. -/
def execFexp2 (d a : Reg) (s : State) : Out := laneOp s d [a] fun l => (roundW 0 0 (fExp2V (f32v (s.x l a)))).1
/-- FLOG2. -/
def execFlog2 (d a : Reg) (s : State) : Out := laneOp s d [a] fun l => (roundW 0 0 (fLog2V (f32v (s.x l a)))).1
/-- FSINPI. -/
def execFsinpi (d a : Reg) (s : State) : Out := laneOp s d [a] fun l => (roundW 0 0 (fSinpiV (f32v (s.x l a)))).1

/-! ### Conversions (R113-R117) -/

/-- The source value of `i2f` (R113). -/
def i2fVal (sel : Nat) (x : Word) : FVal :=
  match sel with
  | 0 => .ofInt x.toInt 0
  | 1 => .ofInt x.toNat 0
  | 2 => .ofInt (resCrt x) 0
  | _ => .ofInt x.toInt (-16)

/-- I2F (R113): b selects the source and is no register. -/
def execI2f (d a b : Reg) (m : BitVec 3) (s : State) : Out :=
  laneGenOp s d [a] fun l st => roundW m.toNat st (i2fVal (b.toNat % 4) (s.x l a))

/-- F2I's result (R114). -/
def f2iOp (sel m : Nat) (x st : Word) : Word × Word :=
  let v := f32v x
  let out := fun (lo hi : Int) =>
    let (k, st) := roundInt lo hi m st v
    (wordOfInt k, st)
  match sel with
  | 0 => out (-(2 ^ 31)) (2 ^ 31 - 1)
  | 1 => out 0 (2 ^ 32 - 1)
  | 2 => out (-(2 ^ 15)) (2 ^ 15 - 1)
  | 3 => out 0 (2 ^ 16 - 1)
  | 4 => out (-(2 ^ 7)) (2 ^ 7 - 1)
  | 5 => out 0 (2 ^ 8 - 1)
  | 6 =>
    let (k, st) := roundInt (-(2 ^ 31)) (2 ^ 31 - 1) m st v
    (resEnc (max (-8388480) (min k 8388479)), st)
  | _ =>
    let (k, st) := roundInt (-(2 ^ 31)) (2 ^ 31 - 1) m st (fMul v (.exact false 1 16))
    (wordOfInt k, st)

/-- F2I (R114): b selects the destination and is no register. -/
def execF2i (d a b : Reg) (m : BitVec 3) (s : State) : Out :=
  laneGenOp s d [a] fun l st => f2iOp (b.toNat % 8) m.toNat (s.x l a) st

/-- Two elements rounded in ascending order, `w` bits each (R50, R57). -/
def pack2 (t : Fmt) (w mode : Nat) (sat : Bool) (v0 v1 : FVal) (st : Word) : Word × Word :=
  let (e0, st) := roundF t mode sat st v0
  let (e1, st) := roundF t mode sat st v1
  (BitVec.ofNat 32 (e1 * 2 ^ w + e0), st)

/-- PKH (R115). -/
def execPkh (d a b : Reg) (m : BitVec 3) (s : State) : Out :=
  laneGenOp s d [a, b] fun l st => pack2 f16F 16 m.toNat false (f32v (s.x l a)) (f32v (s.x l b)) st
/-- PKB (R115). -/
def execPkb (d a b : Reg) (m : BitVec 3) (s : State) : Out :=
  laneGenOp s d [a, b] fun l st => pack2 bf16F 16 m.toNat false (f32v (s.x l a)) (f32v (s.x l b)) st
/-- PK8 (R116). -/
def execPk8 (d a b : Reg) (m : BitVec 3) (s : State) : Out :=
  laneGenOp s d [a, b] fun l st =>
    pack2 (if m.getLsbD 1 then e5m2F else e4m3F) 8 (if m.getLsbD 0 then 4 else 0) (m.getLsbD 2)
      (f32v (s.x l a)) (f32v (s.x l b)) st

/-- Element `j` of `w` bits (R50). -/
def elem (x : Word) (w j : Nat) : Nat := x.toNat / 2 ^ (w * j) % 2 ^ w
/-- A signed integer of `w` bits. -/
def sInt (w v : Nat) : Int := if v.testBit (w - 1) then (v : Int) - 2 ^ w else v

/-- UNPK's value (R117). -/
def unpkVal (b : Nat) (x : Word) : FVal :=
  let j16 := b / 8 % 2
  let j8 := b / 8 % 4
  match b % 8 with
  | 0 => fval f16F (elem x 16 j16)
  | 1 => fval bf16F (elem x 16 j16)
  | 2 => fval e4m3F (elem x 8 j8)
  | 3 => fval e5m2F (elem x 8 j8)
  | 4 => .ofInt (sInt 8 (elem x 8 j8)) 0
  | 5 => .ofInt (elem x 8 j8) 0
  | 6 => .ofInt (sInt 16 (elem x 16 j16)) 0
  | _ => .ofInt (elem x 16 j16) 0

/-- UNPK (R117): b selects the type and the element and is no register. -/
def execUnpk (d a b : Reg) (s : State) : Out := laneOp s d [a] fun l => (roundW 0 0 (unpkVal b.toNat (s.x l a))).1

/-! ### Packed 16-bit arithmetic (R118, R119) -/

/-- The format and rounding mode that m selects (R118). -/
def hFmt (m : Nat) : Fmt := if m = 2 ∨ m = 3 ∨ m = 5 then bf16F else f16F
def hMode (m : Nat) : Nat := if m = 1 ∨ m = 3 then 4 else if m = 4 ∨ m = 5 then 1 else 0

/-- Element `j` of a pair as a value. -/
def hv (m : Nat) (x : Word) (j : Nat) : FVal := fval (hFmt m) (elem x 16 j)

/-- HADD2 (R118). -/
def execHadd2 (d a b : Reg) (m : BitVec 3) (s : State) : Out :=
  laneGenOp s d [a, b] fun l st =>
    let f := fun j => fAdd false (hv m.toNat (s.x l a) j) (hv m.toNat (s.x l b) j)
    pack2 (hFmt m.toNat) 16 (hMode m.toNat) false (f 0) (f 1) st
/-- HMUL2 (R118). -/
def execHmul2 (d a b : Reg) (m : BitVec 3) (s : State) : Out :=
  laneGenOp s d [a, b] fun l st =>
    let f := fun j => fMul (hv m.toNat (s.x l a) j) (hv m.toNat (s.x l b) j)
    pack2 (hFmt m.toNat) 16 (hMode m.toNat) false (f 0) (f 1) st
/-- HFMA2 (R118); reads d. -/
def execHfma2 (d a b : Reg) (m : BitVec 3) (s : State) : Out :=
  laneGenOp s d [a, b, d] fun l st =>
    let f := fun j => fFma false (hv m.toNat (s.x l a) j) (hv m.toNat (s.x l b) j) (hv m.toNat (s.x l d) j)
    pack2 (hFmt m.toNat) 16 (hMode m.toNat) false (f 0) (f 1) st

/-- HCMP2's result (R119): its four conditions are those of R108. -/
def hcmp2Op (m : Nat) (x y : Word) : Word :=
  let t := if m / 4 = 0 then f16F else bf16F
  let cc := match m % 4 with
    | 0 => 0
    | 1 => 2
    | 2 => 3
    | _ => 6
  let e := fun j => if fcmpOp cc (fval t (elem x 16 j)) (fval t (elem y 16 j)) then 0xFFFF else 0
  BitVec.ofNat 32 (e 1 * 2 ^ 16 + e 0)

/-- HCMP2 (R119). -/
def execHcmp2 (d a b : Reg) (m : BitVec 3) (s : State) : Out := laneOp s d [a, b] fun l => hcmp2Op m.toNat (s.x l a) (s.x l b)

/-! ### Random numbers (R120) -/

/-- RND (R120): one step of the lane's generator. -/
def execRnd (d : Reg) (m : BitVec 3) (s : State) : Out :=
  laneGenOp s d [] fun _ st =>
    let st := srStep st
    (if m = 0 then st else BitVec.ofNat 32 (rne f32F (.exact false (st.toNat / 256) (-24))), st)

end Sys2Proof.Machine
end

