-- ==== Sys2Proof/Machine/CrossLane.lean ====
section
/-! DEFINITION. Cross-lane instructions (spec/07_cross_lane.md R122-R137): opcodes 0x50-0x57. -/
namespace Sys2Proof.Machine
open Sys2Proof

/-- READ(M, n) of R124: the register's current value in a launched lane that has not exited, whatever its split; else 0. -/
def State.readLane (s : State) (lane : Nat) (n : Reg) : Word :=
  if s.cur.launched.getLsbD lane && !s.cur.exited.getLsbD lane then s.x lane n else 0

/-- The values of the active lanes, in ascending lane order. -/
def State.activeVals (s : State) (a : Reg) : List (Nat × Word) := (lanesOf s.active).map fun l => (l, s.x l a)

/-- R126: in ordered mode, a register write of an earlier instruction of another split of the group has not taken place. -/
def State.othersBusy (s : State) : Bool :=
  decide (s.curLaunch.q ≠ 0) &&
    (s.cur.ploads.any (fun p => decide (p.lanes &&& ~~~ s.csp.members ≠ 0)) ||
      s.cur.tokens.any (fun t => decide (t.lanes &&& ~~~ s.csp.members ≠ 0)) ||
      s.cur.pends.any fun p => decide (p.lanes &&& ~~~ s.csp.members ≠ 0))

/-- R126: another split of the group waits for a word or in the bundle queue, and its registers are written when that ends. -/
def State.othersWait (s : State) : Bool :=
  decide (s.curLaunch.q ≠ 0) &&
    (s.cur.wait.any (fun r => decide (r.sp ≠ s.cs)) || s.cur.splits.any fun x => decide (x.1 ≠ s.cs) && decide (x.2.st = .bundleQueue))

/-- A cross-lane instruction that writes f(L) to d in each active lane. -/
def crossOp (s : State) (d : Reg) (reads : List Reg) (f : Nat → Word) : Out :=
  if s.othersBusy then settle s (.error (.stall .scoreboard))
  else if s.othersWait then settle s (.error (.stall .oneWait))
  else laneOp s d reads f

/-! ### Shuffles (R127, R128) -/

/-- The source lane of `shfl`. -/
def shflSrc (mode l r : Nat) : Nat :=
  match mode with
  | 0 => r
  | 1 => (l + 32 - r) % 32
  | 2 => (l + r) % 32
  | _ => l ^^^ r

/-- `.z`: the source lies past the group's edge. -/
def shflEdge (m l : Nat) (y : Word) : Bool :=
  (decide (m = 5) && decide (l < y.toNat)) || (decide (m = 6) && decide (31 < l + y.toNat))

/-- SHFL (R127). -/
def execShfl (d a b : Reg) (m : BitVec 3) (s : State) : Out :=
  crossOp s d [a, b] fun l =>
    let y := s.x l b
    if shflEdge m.toNat l y then 0 else s.readLane (shflSrc (m.toNat % 4) l (y.toNat % 32)) a

/-- The source lane of `shfli`, within segments of 2^w lanes. -/
def shfliSrc (i : BitVec 10) (l : Nat) : Nat :=
  let k := i.toNat % 32
  let w := 2 ^ min (i.toNat / 32 % 8) 5
  let base := l / w * w
  match i.toNat / 256 with
  | 0 => base + k % w
  | 1 => base + (l - base + w - k % w) % w
  | 2 => base + (l - base + k) % w
  | _ => l ^^^ (k % w)

/-- SHFLI (R128). -/
def execShfli (d a : Reg) (i : BitVec 10) (s : State) : Out := crossOp s d [a] fun l => s.readLane (shfliSrc i l) a

/-! ### Vote (R129) -/

/-- VOTE's result from the active lanes' values. -/
def voteOp (m : Nat) (vs : List (Nat × Word)) : Word :=
  let set := vs.filter fun v => decide (v.2 ≠ 0)
  match m with
  | 0 => flagWord !set.isEmpty
  | 1 => flagWord (decide (set.length = vs.length))
  | 2 => maskOf (set.map (·.1))
  | 3 => BitVec.ofNat 32 set.length
  | 4 => flagWord (vs.all fun v => decide (v.2 = (vs.headD (0, 0)).2))
  | 5 => flagWord (decide (set.length % 2 = 1))
  | _ => BitVec.ofNat 32 ((set.map (·.1)).headD 32)

/-- VOTE. -/
def execVote (d a : Reg) (m : BitVec 3) (s : State) : Out :=
  let r := voteOp m.toNat (s.activeVals a)
  crossOp s d [a] fun _ => r

/-! ### Scan and reduction (R130-R132) -/

/-- OP over a set of values; an empty set yields the identity. -/
def reduceOp (sel : Nat) (vs : List Word) : Word :=
  match sel with
  | 0 => vs.foldl (· + ·) 0
  | 1 => if vs.isEmpty then 0 else BitVec.ofNat 32 (rne f32F (exactSum (vs.map f32v)))
  | 2 => vs.foldl (minOp 0) 0x7FFFFFFF
  | 3 => vs.foldl (maxOp 0) 0x80000000
  | 4 => vs.foldl (minOp 1) 0xFFFFFFFF
  | 5 => vs.foldl (maxOp 1) 0
  | 6 => vs.foldl (· ||| ·) 0
  | _ => vs.foldl (· &&& ·) 0xFFFFFFFF

/-- SCAN (R131): b selects the operation and is no register. -/
def execScan (d a b : Reg) (m : BitVec 3) (s : State) : Out :=
  let vs := s.activeVals a
  crossOp s d [a] fun l =>
    reduceOp (b.toNat % 8) ((vs.filter fun v => if m = 0 then decide (v.1 ≤ l) else decide (v.1 < l)).map (·.2))

/-- RED (R132). -/
def execRed (d a b : Reg) (s : State) : Out :=
  let r := reduceOp (b.toNat % 8) ((s.activeVals a).map (·.2))
  crossOp s d [a] fun _ => r

/-! ### Match (R133) -/

/-- MATCH's result for one lane. -/
def matchOp (m : Nat) (vs : List (Nat × Word)) (l : Nat) (x : Word) : Word :=
  let eq := (vs.filter fun v => decide (v.2 = x)).map (·.1)
  match m with
  | 0 => maskOf eq
  | 1 => BitVec.ofNat 32 (eq.headD 0)
  | 2 => BitVec.ofNat 32 (eq.getLastD 0)
  | 3 => BitVec.ofNat 32 eq.length
  | 4 => BitVec.ofNat 32 (eq.filter fun i => decide (i < l)).length
  | _ => BitVec.ofNat 32 (vs.map (·.2)).eraseDups.length

/-- MATCH. -/
def execMatchLanes (d a : Reg) (m : BitVec 3) (s : State) : Out :=
  let vs := s.activeVals a
  crossOp s d [a] fun l => matchOp m.toNat vs l (s.x l a)

/-! ### The total order, sort and topk (R134-R137) -/

/-- The code of a key (R134); types 0 `.i32`, 1 `.n32`, 2 `.f32`. -/
def keyCode (ty : Nat) (x : Word) : Nat :=
  match ty with
  | 0 => (x ^^^ 0x80000000).toNat
  | 1 => x.toNat
  | _ => if (f32v x).isNan then 0 else if signBit x then (~~~ x).toNat else (x ||| 0x80000000).toNat

/-- The lanes in rank order (R135): by code, ascending or descending, the lower lane first among equals. -/
def rankOrder (ty : Nat) (dsc : Bool) (vs : List (Nat × Word)) : List (Nat × Word) :=
  sortBy (fun v => if dsc then 2 ^ 32 - keyCode ty v.2 else keyCode ty v.2) vs

/-- dsc_rank(L) (R135). -/
def dscRank (ty : Nat) (vs : List (Nat × Word)) (l : Nat) (x : Word) : Nat :=
  (vs.filter fun v => decide (keyCode ty x < keyCode ty v.2) ||
    (decide (keyCode ty v.2 = keyCode ty x) && decide (v.1 < l))).length

/-- SORT (R136): rank k goes to the k-th active lane. -/
def execSort (d a b : Reg) (m : BitVec 3) (s : State) : Out :=
  let ty := b.toNat % 4
  let vs := s.activeVals a
  let ranked := rankOrder ty (decide (2 ≤ m.toNat)) vs
  let out := fun (v : Nat × Word) =>
    if m.toNat % 2 = 1 then BitVec.ofNat 32 v.1
    else if ty = 2 ∧ (f32v v.2).isNan = true then nan32 else v.2
  let place := (vs.map (·.1)).zip (ranked.map out)
  crossOp s d [a] fun l => ((place.find? fun p => decide (p.1 = l)).map (·.2)).getD 0

/-- TOPK (R137). -/
def execTopk (d a b : Reg) (m : BitVec 3) (s : State) : Out :=
  let vs := s.activeVals a
  crossOp s d (if m.toNat < 4 then [a, b] else [a]) fun l =>
    let r := dscRank (m.toNat % 4) vs l (s.x l a)
    if m.toNat < 4 then flagWord (decide (r < (s.x l b).toNat)) else BitVec.ofNat 32 r

end Sys2Proof.Machine
end

