-- ==== Sys2Proof/Machine/Scanner.lean ====
section
/-! DEFINITION. Kernel objects and code acceptance (spec/02_instruction_words.md R40-R46): the header, patches and their overlay, and
the scanner that GINVAL_XON runs. -/
namespace Sys2Proof.Machine
open Sys2Proof

/-! ### What one code word may hold -/

/-- R46 reason 5: the card accepts the m value or the condition. -/
def modeOk : Instr → Bool
  | .add _ _ _ m => decide (m.toNat ≤ 2)
  | .sub _ _ _ m => decide (m.toNat ≤ 2)
  | .mul _ _ _ m => decide (m.toNat ≤ 2)
  | .mad _ _ _ m => decide (m.toNat ≤ 2)
  | .min _ _ _ m => decide (m.toNat ≤ 1)
  | .max _ _ _ m => decide (m.toNat ≤ 1)
  | .shr _ _ _ m => decide (m.toNat ≤ 1)
  | .rot _ _ _ m => decide (m.toNat ≤ 1)
  | .bfe _ _ _ m => decide (m.toNat ≤ 1)
  | .bitc _ _ m => decide (m.toNat ≤ 3)
  | .cmp _ _ _ m => decide (m.toNat ≤ 5)
  | .lid _ m => decide (m.toNat ≤ 2)
  | .laneIf _ m => decide (m.toNat ≤ 3)
  | .lexit _ m => decide (m.toNat ≤ 2)
  | .fadd _ _ _ m => decide (m.toNat ≤ 4)
  | .fsub _ _ _ m => decide (m.toNat ≤ 4)
  | .fmul _ _ _ m => decide (m.toNat ≤ 4)
  | .ffma _ _ _ m => decide (m.toNat ≤ 4)
  | .frcp _ _ m => decide (m.toNat ≤ 4)
  | .fsqrt _ _ m => decide (m.toNat ≤ 4)
  | .fsgn _ _ _ m => decide (m.toNat ≤ 3)
  | .frnd _ _ m => decide (m.toNat ≤ 4)
  | .i2f _ _ _ m => decide (m.toNat ≤ 4)
  | .f2i _ _ _ m => decide (m.toNat ≤ 4)
  | .pkh _ _ _ m => decide (m.toNat ≤ 4)
  | .pkb _ _ _ m => decide (m.toNat ≤ 4)
  | .pk8 _ _ _ m => decide (m ≠ 4 ∧ m ≠ 5)
  | .hfma2 _ _ _ m => decide (m.toNat ≤ 5)
  | .hadd2 _ _ _ m => decide (m.toNat ≤ 5)
  | .hmul2 _ _ _ m => decide (m.toNat ≤ 5)
  | .rnd _ m => decide (m.toNat ≤ 1)
  | .shfl _ _ _ m => decide (m ≠ 4 ∧ m ≠ 7)
  | .vote _ _ m => decide (m.toNat ≤ 6)
  | .scan _ _ _ m => decide (m.toNat ≤ 1)
  | .topk _ _ _ m => decide (m ≠ 3 ∧ m ≠ 7)
  | .sort _ _ _ m => decide (m.toNat ≤ 3)
  | .matchLanes _ _ m => decide (m.toNat ≤ 5)
  | .gadd _ _ _ m => decide (m.toNat ≤ 2)
  | .gsub _ _ _ m => decide (m.toNat ≤ 2)
  | .gmul _ _ _ m => decide (m.toNat ≤ 2)
  | .gshr _ _ _ m => decide (m.toNat ≤ 1)
  | .gmin _ _ _ m => decide (m.toNat ≤ 1)
  | .gmax _ _ _ m => decide (m.toNat ≤ 1)
  | .gcmp _ _ _ m => decide (m.toNat ≤ 5)
  | .glea _ _ _ m => decide (m.toNat ≤ 4)
  | .gclock _ m => decide (m.toNat ≤ 1)
  | .gbitc _ _ m => decide (m.toNat ≤ 2)
  | .gid _ m => decide (m.toNat ≤ 4)
  | .gbfe _ _ _ m => decide (m.toNat ≤ 1)
  | .gbc _ c _ => decide (1 ≤ c.toNat ∧ c.toNat ≤ 6)
  | .gbrd _ c _ => decide (1 ≤ c.toNat ∧ c.toNat ≤ 4)
  | .gjoin m => decide (m.toNat ≤ 1)
  | .gresume m => decide (m.toNat ≤ 2)
  | .gmap _ _ _ m => decide (m.toNat ≤ 2)
  | .gsplinter _ _ m => decide (m.toNat ≤ 1)
  | .gfence m => decide (m.toNat ≤ 4)
  | .gcopy _ _ _ m => decide (m.toNat ≤ 3)
  | .ggather _ _ _ m => decide (m.toNat ≤ 3)
  | .gscadd _ _ _ m => decide (m.toNat ≤ 3)
  | .groute _ _ _ m => decide (m.toNat ≤ 3)
  | .grsel _ _ _ m => decide (m.toNat ≤ 3)
  | .gpref _ _ m => decide (m.toNat ≤ 1)
  | .gbquery _ _ m => decide (m.toNat ≤ 5)
  | .mma _ _ _ m => decide (m.toNat ≤ 3)
  | .mchain _ m => decide (m.toNat ≤ 3)
  | .mend _ _ m => decide (m.toNat ≤ 1)
  | .msacc _ _ _ m => decide (m.toNat ≤ 1)
  | .tfill _ _ m => decide (m.toNat ≤ 1)
  | .gqcfg _ _ _ m => decide (m.toNat ≤ 2)
  | _ => true

/-- R36, R46 reason 6: what a card wants 0 inside a field that it keeps. -/
def unreadOk : Instr → Bool
  | .brk a i => decide ((2 ≤ (i.extractLsb' 8 2).toNat → a = 0))
  | .cont a i => decide ((2 ≤ (i.extractLsb' 8 2).toNat → a = 0))
  | .lexit a m => decide ((m = 0 → a = 0))
  | .fsgn _ _ b m => decide ((m = 1 ∨ m = 2 → b = 0))
  | .i2f _ _ b _ => decide (b.extractLsb' 2 5 = 0)
  | .f2i _ _ b _ => decide (b.extractLsb' 3 4 = 0)
  | .unpk _ _ b => decide (b.extractLsb' 5 2 = 0) && decide ((unpkWide b → b.extractLsb' 4 1 = 0))
  | .scan _ _ b _ => decide (b.extractLsb' 3 4 = 0)
  | .red _ _ b => decide (b.extractLsb' 3 4 = 0)
  | .topk _ _ b m => decide ((4 ≤ m.toNat → b = 0))
  | .sort _ _ b _ => decide (b.toNat ≤ 2)
  | .gseth _ j => decide (j.extractLsb' 15 2 = 0)
  | .gbc a c _ => decide ((5 ≤ c.toNat → a = 0))
  | .gbar i => decide (i.toNat ≤ 15)
  | .gpbar i => decide (i.toNat ≤ 3)
  | .gwaitc j => decide (j.extractLsb' 16 1 = 0)
  | .gcopy d _ b m => ((m.getLsbD 0 || decide (b = 0)) && (!m.getLsbD 1 || decide (d = 0)))
  | .ggather d _ b m => ((m.getLsbD 0 || decide (b = 0)) && (!m.getLsbD 1 || decide (d = 0)))
  | .gscadd d _ b m => ((m.getLsbD 0 || decide (b = 0)) && (!m.getLsbD 1 || decide (d = 0)))
  | .groute d _ b m => ((m.getLsbD 0 || decide (b = 0)) && (!m.getLsbD 1 || decide (d = 0)))
  | .grsel d _ b m => ((m.getLsbD 0 || decide (b = 0)) && (!m.getLsbD 1 || decide (d = 0)))
  | .grretry d _ b m => ((m.getLsbD 0 || decide (b = 0)) && (!m.getLsbD 1 || decide (d = 0)))
  | .gbquery _ a m => decide ((m ≠ 2 → a = 0))
  | .gtile d _ _ => tileOk d
  | .gtileg _ a _ => tileOk a
  | .mma d a b _ => tileOk d && tileOk a && tileOk b
  | .mchain d _ => tileOk d
  | .mend _ a _ => tileOk a
  | .msacc d a b _ => tileOk d && tileOk a && tileOk b
  | .tcvt d a _ => tileOk d && tileOk a
  | .tfill d _ _ => tileOk d
  | .galloc _ a i => decide ((i ≠ 0 → a = 0))
  | _ => true

/-- R38: the registers that a word names, as bases and lengths. -/
def regSpans : Instr → List (Reg × Nat)
  | .add d a b _ => [(d, 1), (a, 1), (b, 1)]
  | .sub d a b _ => [(d, 1), (a, 1), (b, 1)]
  | .mul d a b _ => [(d, 1), (a, 1), (b, 1)]
  | .mad d a b _ => [(d, 1), (a, 1), (b, 1)]
  | .min d a b _ => [(d, 1), (a, 1), (b, 1)]
  | .max d a b _ => [(d, 1), (a, 1), (b, 1)]
  | .and d a b => [(d, 1), (a, 1), (b, 1)]
  | .or d a b => [(d, 1), (a, 1), (b, 1)]
  | .xor d a b => [(d, 1), (a, 1), (b, 1)]
  | .andn d a b => [(d, 1), (a, 1), (b, 1)]
  | .shl d a b => [(d, 1), (a, 1), (b, 1)]
  | .shr d a b _ => [(d, 1), (a, 1), (b, 1)]
  | .rot d a b _ => [(d, 1), (a, 1), (b, 1)]
  | .bfe d a b _ => [(d, 1), (a, 1), (b, 1)]
  | .bfi d a b => [(d, 1), (a, 1), (b, 1)]
  | .bitc d a _ => [(d, 1), (a, 1)]
  | .sel d a b => [(d, 1), (a, 1), (b, 1)]
  | .cmp d a b _ => [(d, 1), (a, 1), (b, 1)]
  | .addi d a _ => [(d, 1), (a, 1)]
  | .andi d a _ => [(d, 1), (a, 1)]
  | .ori d a _ => [(d, 1), (a, 1)]
  | .xori d a _ => [(d, 1), (a, 1)]
  | .shli d a _ => [(d, 1), (a, 1)]
  | .shri d a _ => [(d, 1), (a, 1)]
  | .cmpi d a _ => [(d, 1), (a, 1)]
  | .movi d _ => [(d, 1)]
  | .lid d _ => [(d, 1)]
  | .mov d a => [(d, 1), (a, 1)]
  | .lea d _ a _ => [(d, 1), (a, 1)]
  | .laneIf a _ => [(a, 1)]
  | .laneIfi a _ => [(a, 1)]
  | .brk a _ => [(a, 1)]
  | .cont a _ => [(a, 1)]
  | .lexit a _ => [(a, 1)]
  | .fadd d a b _ => [(d, 1), (a, 1), (b, 1)]
  | .fsub d a b _ => [(d, 1), (a, 1), (b, 1)]
  | .fmul d a b _ => [(d, 1), (a, 1), (b, 1)]
  | .ffma d a b _ => [(d, 1), (a, 1), (b, 1)]
  | .fmin d a b => [(d, 1), (a, 1), (b, 1)]
  | .fmax d a b => [(d, 1), (a, 1), (b, 1)]
  | .fcmp d a b _ => [(d, 1), (a, 1), (b, 1)]
  | .frcp d a _ => [(d, 1), (a, 1)]
  | .frsq d a => [(d, 1), (a, 1)]
  | .fsqrt d a _ => [(d, 1), (a, 1)]
  | .fexp2 d a => [(d, 1), (a, 1)]
  | .flog2 d a => [(d, 1), (a, 1)]
  | .fsinpi d a => [(d, 1), (a, 1)]
  | .fsgn d a b _ => [(d, 1), (a, 1), (b, 1)]
  | .fclass d a => [(d, 1), (a, 1)]
  | .frnd d a _ => [(d, 1), (a, 1)]
  | .i2f d a _ _ => [(d, 1), (a, 1)]
  | .f2i d a _ _ => [(d, 1), (a, 1)]
  | .pkh d a b _ => [(d, 1), (a, 1), (b, 1)]
  | .pkb d a b _ => [(d, 1), (a, 1), (b, 1)]
  | .pk8 d a b _ => [(d, 1), (a, 1), (b, 1)]
  | .unpk d a _ => [(d, 1), (a, 1)]
  | .hfma2 d a b _ => [(d, 1), (a, 1), (b, 1)]
  | .hadd2 d a b _ => [(d, 1), (a, 1), (b, 1)]
  | .hmul2 d a b _ => [(d, 1), (a, 1), (b, 1)]
  | .rnd d _ => [(d, 1)]
  | .hcmp2 d a b _ => [(d, 1), (a, 1), (b, 1)]
  | .shfl d a b _ => [(d, 1), (a, 1), (b, 1)]
  | .shfli d a _ => [(d, 1), (a, 1)]
  | .vote d a _ => [(d, 1), (a, 1)]
  | .scan d a _ _ => [(d, 1), (a, 1)]
  | .red d a _ => [(d, 1), (a, 1)]
  | .topk d a b _ => [(d, 1), (a, 1), (b, 1)]
  | .sort d a _ _ => [(d, 1), (a, 1)]
  | .matchLanes d a _ => [(d, 1), (a, 1)]
  | .ldN8 d _ a _ => [(d, 1), (a, 1)]
  | .ldI8 d _ a _ => [(d, 1), (a, 1)]
  | .ldN16 d _ a _ => [(d, 1), (a, 1)]
  | .ldI16 d _ a _ => [(d, 1), (a, 1)]
  | .ldB32 d _ a _ => [(d, 1), (a, 1)]
  | .ldB64 d _ a _ => [(d, 2), (a, 1)]
  | .ldB128 d _ a _ => [(d, 4), (a, 1)]
  | .ldsB32 d _ a _ => [(d, 1), (a, 1)]
  | .ldsB64 d _ a _ => [(d, 2), (a, 1)]
  | .stB8 d _ a _ => [(d, 1), (a, 1)]
  | .stB16 d _ a _ => [(d, 1), (a, 1)]
  | .stB32 d _ a _ => [(d, 1), (a, 1)]
  | .stB64 d _ a _ => [(d, 2), (a, 1)]
  | .stB128 d _ a _ => [(d, 4), (a, 1)]
  | .stsB32 d _ a _ => [(d, 1), (a, 1)]
  | .stsB64 d _ a _ => [(d, 2), (a, 1)]
  | .aadd d _ a _ => [(d, 1), (a, 1)]
  | .afadd d _ a _ => [(d, 1), (a, 1)]
  | .amin d _ a _ => [(d, 1), (a, 1)]
  | .amax d _ a _ => [(d, 1), (a, 1)]
  | .aand d _ a _ => [(d, 1), (a, 1)]
  | .aor d _ a _ => [(d, 1), (a, 1)]
  | .axor d _ a _ => [(d, 1), (a, 1)]
  | .axch d _ a _ => [(d, 1), (a, 1)]
  | .acas d _ a _ => [(d, 2), (a, 1)]
  | .aadd64 d _ a _ => [(d, 2), (a, 1)]
  | .gadd d a b _ => [(d, 1), (a, 1), (b, 1)]
  | .gsub d a b _ => [(d, 1), (a, 1), (b, 1)]
  | .gmul d a b _ => [(d, 1), (a, 1), (b, 1)]
  | .gand d a b => [(d, 1), (a, 1), (b, 1)]
  | .gor d a b => [(d, 1), (a, 1), (b, 1)]
  | .gxor d a b => [(d, 1), (a, 1), (b, 1)]
  | .gshl d a b => [(d, 1), (a, 1), (b, 1)]
  | .gshr d a b _ => [(d, 1), (a, 1), (b, 1)]
  | .gmin d a b _ => [(d, 1), (a, 1), (b, 1)]
  | .gmax d a b _ => [(d, 1), (a, 1), (b, 1)]
  | .gcmp d a b _ => [(d, 1), (a, 1), (b, 1)]
  | .gsel d a b => [(d, 1), (a, 1), (b, 1)]
  | .gaddi d a _ => [(d, 1), (a, 1)]
  | .gandi d a _ => [(d, 1), (a, 1)]
  | .gori d a _ => [(d, 1), (a, 1)]
  | .gcmpi d a _ => [(d, 1), (a, 1)]
  | .gset d _ => [(d, 1)]
  | .gseth d _ => [(d, 1)]
  | .gmov d a => [(d, 1), (a, 1)]
  | .grdc d i => [(d, (if ctl64.contains i.toNat then 2 else 1))]
  | .gwrc a i => [(a, (if ctl64.contains i.toNat then 2 else 1))]
  | .glea d a b _ => [(d, 1), (a, 2), (b, 1)]
  | .gclock d _ => [(d, 1)]
  | .gbitc d a _ => [(d, 1), (a, 1)]
  | .gid d _ => [(d, 1)]
  | .gbfe d a b _ => [(d, 1), (a, 1), (b, 1)]
  | .gmad d a b => [(d, 1), (a, 1), (b, 1)]
  | .gbc a _ _ => [(a, 1)]
  | .gbrd a _ _ => [(a, 1)]
  | .gcall a _ => [(a, 1)]
  | .gret a => [(a, 1)]
  | .gjr a => [(a, 1)]
  | .gpark d a b _ => [(d, 2), (a, 2), (b, 2)]
  | .gmap d a b _ => [(d, 1), (a, 1), (b, 1)]
  | .gsplinter d a _ => [(d, 1), (a, 1)]
  | .ginvalPg d a b => [(d, 1), (a, 1), (b, 1)]
  | .ginvalHnd d a b => [(d, 1), (a, 1), (b, 1)]
  | .ginvalXon d a b => [(d, 1), (a, 1), (b, 1)]
  | .ginvalXoff d a b => [(d, 1), (a, 1), (b, 1)]
  | .ginvalRvk d a b => [(d, 1), (a, 1), (b, 1)]
  | .garrive d a b => [(d, 1), (a, 2), (b, 1)]
  | .gwaitu d a b _ => [(d, 2), (a, 2), (b, 2)]
  | .gcopy d a b m => [(d, 1), (a, 2), (b, (if m.getLsbD 0 then 2 else 1))]
  | .ggather d a b m => [(d, 1), (a, 2), (b, (if m.getLsbD 0 then 2 else 1))]
  | .gscadd d a b m => [(d, 1), (a, 2), (b, (if m.getLsbD 0 then 2 else 1))]
  | .groute d a b m => [(d, 1), (a, 2), (b, (if m.getLsbD 0 then 2 else 1))]
  | .grsel d a b m => [(d, 1), (a, 2), (b, (if m.getLsbD 0 then 2 else 1))]
  | .grretry d a b m => [(d, 1), (a, 2), (b, (if m.getLsbD 0 then 2 else 1))]
  | .gpref a b _ => [(a, 2), (b, 1)]
  | .gbdecl d a b => [(d, 1), (a, 2), (b, 1)]
  | .gbenter d a => [(d, 1), (a, 1)]
  | .gbleave d a => [(d, 1), (a, 1)]
  | .gbquery d a _ => [(d, 1), (a, 1)]
  | .gbdrop d a => [(d, 1), (a, 1)]
  | .gtile _ a _ => [(a, 1)]
  | .gtileg d _ _ => [(d, 1)]
  | .mend d _ _ => [(d, 1)]
  | .tfill _ a _ => [(a, 1)]
  | .glaunch d a => [(d, 1), (a, 2)]
  | .gqend d a => [(d, 1), (a, 1)]
  | .galloc d a _ => [(d, 1), (a, 1)]
  | .gdrainWait d a => [(d, 1), (a, 1)]
  | .gdrainStop d a => [(d, 1), (a, 1)]
  | .gdrainRun d a => [(d, 1), (a, 1)]
  | .gqcfg d a b _ => [(d, 1), (a, 1), (b, 1)]
  | _ => []

/-- Opcodes whose cards give m and list 0 only, the others reserved. -/
def zeroMode : List Nat :=
  [0x80, 0x07, 0x08, 0x09, 0x0A, 0x0B, 0x0F, 0x11, 0x34, 0x35, 0x38, 0x3A, 0x3B, 0x3C, 0x3E, 0x45, 0x54, 0x84, 0x85, 0x86,
   0x87, 0x8C, 0x93, 0x9B, 0xB3, 0xD0, 0xD1, 0xD2, 0xD4, 0xF0, 0xF1]

/-- The branches whose cards accept cond3 0 only (R77). -/
def zeroCond : List Nat := [0xA0, 0xA4]

/-- off14 of a branch, in words (R31). -/
def branchOff : Instr → Option Int
  | .gbr f => some f.toInt
  | .gbc _ _ f => some f.toInt
  | .gbrd _ _ f => some f.toInt
  | .gcall _ f => some f.toInt
  | _ => none

/-- R46 reason 9: the control register that a word names has the use that the word makes of it. -/
def ctlOk : Instr → Bool
  | .grdc _ i => ctl32.contains i.toNat || ctl64.contains i.toNat
  | .gwrc _ i => !ctlFixed.contains i.toNat
  | _ => true

/-- R46: the lowest reason 4-10 for code word `k` of an object with `ncode` code words, 0 where there is none. -/
def wordReason (w : Word) (k ncode alloc : Nat) (control : Bool) : Nat :=
  let op := (wOp w).toNat
  match decodeFields w with
  | none => if op = 0xAE ∨ op = 0xF3 then 5 else 4
  | some i =>
    if !modeOk i || (zeroMode.contains op && decide (wM w ≠ 0)) || (zeroCond.contains op && decide (wC w ≠ 0)) then 5
    else if encode i ≠ some w || !unreadOk i then 6
    else if !(regSpans i).all (fun x => spanOk x.1 x.2 && (decide (96 ≤ x.1.toNat) || decide (x.1.toNat + x.2 ≤ alloc))) then 7
    else if (match branchOff i with
      | some f => decide ((k : Int) + f < 0) || decide ((ncode : Int) ≤ k + f)
      | none => false) then 8
    else if !ctlOk i then 9
    else if control && decide (0xE0 ≤ op) && decide (op ≤ 0xE7) then 10
    else 0

/-! ### Kernel objects (R40-R43) -/

/-- W0 (R41). -/
def markerWord : Nat := 0x00474B48

/-- The fixed header (R41). -/
structure KHeader where
  codeWords : Nat
  patchCount : Nat
  regsLog2 : Nat
  party : Nat
  blockLanes : Nat
  scratch : Nat
  handles : Nat
  bundles : Nat
  entry : Nat
  paramBytes : Nat
  deriving DecidableEq, Repr

/-- The header at the head of an object whose word `i` is `rd i`. -/
def readHeader (rd : Nat → Nat) : KHeader :=
  { codeWords := bitsOf (rd 1) 23 10 + 1, patchCount := bitsOf (rd 1) 9 0, regsLog2 := bitsOf (rd 2) 21 18
    party := bitsOf (rd 2) 17 15, blockLanes := bitsOf (rd 2) 10 0, scratch := bitsOf (rd 3) 20 0
    handles := bitsOf (rd 4) 23 11, bundles := bitsOf (rd 4) 10 0, entry := bitsOf (rd 5) 13 0
    paramBytes := bitsOf (rd 6) 15 0 }

/-- R41: header word `j` keeps its limits and its zeros. -/
def headerOk (rd : Nat → Nat) (j : Nat) : Bool :=
  let h := readHeader rd
  match j with
  | 0 => decide (rd 0 = markerWord)
  | 1 => decide (bitsOf (rd 1) 31 24 = 0)
  | 2 => decide (bitsOf (rd 2) 31 22 = 0) && decide (bitsOf (rd 2) 14 11 = 0) && decide (3 ≤ h.regsLog2) &&
      decide (h.regsLog2 ≤ 9) && decide (1 ≤ h.party) && decide (h.party ≤ 4) && decide (1 ≤ h.blockLanes) &&
      decide (h.blockLanes ≤ 1024)
  | 3 => decide (rd 3 ≤ 0x180000) && decide (rd 3 % 4 = 0)
  | 4 => decide (bitsOf (rd 4) 31 24 = 0) && decide (h.handles ≤ 4096) && decide (h.bundles ≤ 1536)
  | 5 => decide (rd 5 < h.codeWords)
  | 6 => decide (rd 6 ≤ 65532) && decide (rd 6 % 4 = 0)
  | _ => decide (rd 7 = 0)

/-- A patch entry (R42): ioff, kind and pword. -/
def patchOf (w : Nat) : Nat × Nat × Nat := (bitsOf w 23 10, bitsOf w 9 8, bitsOf w 7 0)

/-- The patch entries of an object. -/
def readPatches (rd : Nat → Nat) : List (Nat × Nat × Nat) :=
  (seqFrom 8 (readHeader rd).patchCount).map fun i => patchOf (rd i)

/-- R43: the patch kind that an instruction allows. -/
def patchKind : Instr → Option Nat
  | .addi .. => some 0
  | .andi .. => some 0
  | .ori .. => some 0
  | .xori .. => some 0
  | .cmpi .. => some 0
  | .movi .. => some 0
  | .laneIfi .. => some 0
  | .gaddi .. => some 0
  | .gandi .. => some 0
  | .gori .. => some 0
  | .gcmpi .. => some 0
  | .gset .. => some 1
  | .gseth .. => some 2
  | _ => none

/-- R43, R44: a code word with the bits of a parameter word laid over it. -/
def overlay (w p : Word) (kind : Nat) : Word :=
  match kind with
  | 0 => w.extractLsb' 10 22 ++ p.extractLsb' 0 10
  | 1 => w.extractLsb' 17 15 ++ p.extractLsb' 0 17
  | _ => w.extractLsb' 15 17 ++ p.extractLsb' 17 15

/-! ### The scanner (R46) -/

/-- The reason for which patch entry `j` of an object is rejected; `prev` is the ioff of the entry before it, plus 1. -/
def patchReason (rd : Nat → Nat) (j prev : Nat) : Nat :=
  let h := readHeader rd
  let e := rd (8 + j)
  let (ioff, kind, pword) := patchOf e
  if bitsOf e 31 24 ≠ 0 ∨ kind = 3 ∨ h.paramBytes < 4 * pword + 4 then 2
  else if h.codeWords ≤ ioff ∨ ioff < prev ∨
      ((decodeFields (BitVec.ofNat 32 (rd (8 + h.patchCount + ioff)))).bind patchKind) ≠ some kind then 3
  else 0

/-- The first offending patch entry. -/
def scanPatches (rd : Nat → Nat) : Nat → Nat → Nat → Option (Nat × Nat)
  | 0, _, _ => none
  | n + 1, j, prev =>
    let r := patchReason rd j prev
    if r ≠ 0 then some (8 + j, r) else scanPatches rd n (j + 1) ((patchOf (rd (8 + j))).1 + 1)

/-- The first offending code word of an object. -/
def scanCode (rd : Nat → Nat) (h : KHeader) (control : Bool) : Nat → Nat → Option (Nat × Nat)
  | 0, _ => none
  | n + 1, k =>
    let r := wordReason (BitVec.ofNat 32 (rd (8 + h.patchCount + k))) k h.codeWords (2 ^ max 3 (min 9 h.regsLog2)) control
    if r ≠ 0 then some (8 + h.patchCount + k, r) else scanCode rd h control n (k + 1)

/-- The first offending word of an object, by its index in the object, with its reason. -/
def scanObject (rd : Nat → Nat) (control : Bool) : Option (Nat × Nat) :=
  let h := readHeader rd
  match (seqFrom 1 7).find? fun j => !headerOk rd j with
  | some j => some (j, 2)
  | none =>
    match scanPatches rd h.patchCount 0 0 with
    | some x => some x
    | none => scanCode rd h control h.codeWords 0

/-- THE SCANNER: the lowest offending word of a range of `n` words from word `i` on, with its reason. Of an object that runs past the range's
end R46 names no word for reason 1; the model names its marker word (log entry 69). -/
def scanRange (rd : Nat → Nat) (n : Nat) (control : Bool) : Nat → Nat → Option (Nat × Nat)
  | 0, _ => none
  | fuel + 1, i =>
    if n ≤ i then none
    else if rd i = 0x80000000 ∧ i ≠ 0 then scanRange rd n control fuel (i + 1)
    else
      let sub := fun j => rd (i + j)
      let h := readHeader sub
      let size := 8 + h.patchCount + h.codeWords
      if rd i ≠ markerWord ∨ n < i + size then some (i, 1)
      else
        match scanObject sub control with
        | some (j, r) => some (i + j, r)
        | none => scanRange rd n control fuel (i + size)

end Sys2Proof.Machine
end

