-- ==== Sys2Proof/Machine/LaneMem.lean ====
section
/-! DEFINITION. Lane loads, stores and atomics (spec/08_memory_access.md R147-R157, spec/09_ordering.md R163-R173): opcodes 0x60-0x79, and
the events LOAD_DATA_RETURN, STORE_ACK, COMPLETION_TIME_REACHED and PCIE_READ_COMPLETION.

A load is performed when it issues, and its registers are written when its data returns; a store is performed when it issues, or
when its release is met, and counts until its acknowledgement. -/
namespace Sys2Proof.Machine
open Sys2Proof

/-! ### What a load reads -/

/-- `n` bytes of a line's copy. -/
def copyBytes (data : SMap Byte) (off n : Nat) : List Byte := (seqFrom off n).map (mapGet zeroByte data)

/-- R173: the youngest buffered store to byte `i` of a global address. -/
def bufferedByte (q : List ByteWrite) (pa : Nat) : Option Byte :=
  q.foldl (fun acc w =>
    match w.place with
    | .glob b _ => if b ≤ pa ∧ pa < b + w.bytes.length then w.bytes[pa - b]? else acc
    | _ => acc) none

/-- R155, R300: a line is fetched from its slice under a lease, with whatever of it is poisoned; an older copy of it goes. -/
def State.fillLine (s : State) (ctx va pa lease : Nat) : State :=
  let c := s.curCore
  let co := s.core c
  let pl := pa / 128
  let l : L1Line := { ctx := ctx, vl := va / 128, pl := pl, expiry := s.now + lease, data := s.lineBytes pl, bad := s.linePoison pl }
  let rest := co.l1.filter fun x => decide (x.pl ≠ pl) && !(decide (x.ctx = ctx) && decide (x.vl = va / 128))
  let s := s.putCore c (Core.trimL1 { co with l1 := l :: rest })
  { s with lease := mapSet 0 s.lease pl (max (mapGet 0 s.lease pl) (s.now + lease)) }

/-- A read that goes past the L1 leaves no older copy of its line behind there, so that later loads of the core do not go back in
coherence order (R163, R167). Pinned copies stay (R172). -/
def State.dropLine (s : State) (core pa : Nat) : State :=
  let co := s.core core
  if co.l1.any fun l => decide (l.pl = pa / 128) then s.putCore core { co with l1 := co.l1.filter fun l => decide (l.pl ≠ pa / 128) }
  else s

/-- One lane's load of `n` bytes (R149, R152, R153, R155, R163, R171, R173): the bytes, or none where they are poisoned (R160). -/
def State.loadBytes (s : State) (e : Entry) (strong : Bool) (p : Place) (n : Nat) : State × Option (List Byte) :=
  match p with
  | .glob pa va =>
    let fresh := if s.poisoned p n then none else some (s.bytesAt p n)
    if s.curLaunch.q ≠ 0 then
      let bs := (seqFrom pa n).map fun a => (bufferedByte s.cur.qbuf a).getD (mapGet zeroByte s.mem a)
      let own := (seqFrom pa n).all fun a => (bufferedByte s.cur.qbuf a).isSome
      (s, if !own && s.poisoned p n then none else some bs)
    else if strong then (s.dropLine s.curCore pa, fresh)
    else
      let co := s.core s.curCore
      match co.pins.find? fun x => decide (x.pl = pa / 128) with
      | some x => (s, if meetsUnit x.bad pa n then none else some (copyBytes x.data (pa % 128) n))
      | none =>
        if e.bypass then (s.dropLine s.curCore pa, fresh)
        else
          match l1Hit co s.now s.curCtx (va / 128) with
          | some l => (s, if meetsUnit l.bad pa n then none else some (copyBytes l.data (pa % 128) n))
          | none => (s.fillLine s.curCtx va pa e.lease, fresh)
  | _ => (s, if s.poisoned p n then none else some (s.bytesAt p n))

/-- A weak load of this place is served by the core, from a pinned copy or under a lease (class L of R142). -/
def State.l1Serves (s : State) (e : Entry) (p : Place) : Bool :=
  match p with
  | .glob pa va =>
    let co := s.core s.curCore
    decide (s.curLaunch.q = 0) && ((co.pins.any fun x => decide (x.pl = pa / 128)) ||
      (!e.bypass && (l1Hit co s.now s.curCtx (va / 128)).isSome))
  | _ => false

/-- Every lane's bytes, in ascending lane order. -/
def State.loadLanes (s : State) (e : Entry) (strong : Bool) (n : Nat) : List LaneAddr → State × List (LaneAddr × Option (List Byte))
  | [] => (s, [])
  | a :: rest =>
    let (s1, b) := s.loadBytes e strong a.place n
    let (s2, bs) := s1.loadLanes e strong n rest
    (s2, (a, b) :: bs)

/-! ### Limits and held stores -/

/-- The order and resource tests that every access of `size` bytes in each lane takes after R147: R144, R153, R157, R159, R163. The cap of R22
holds back its requests later, each by itself. -/
def State.accessReady (s : State) (size : Nat) (as : List LaneAddr) (count : Nat) : Except Stop Unit :=
  if s.heldAtPlaces s.curCore (as.map (·.place)) size then .error (.stall .acquire)
  else if 2064 ≤ count then .error (.stall .full)
  else if s.underTest s.curCore (as.map (·.place)) then .error (.stall .full)
  else if linesOf as ≠ [] ∧ (s.olderWaits = true ∨ 2048 < (s.tracker s.curCore).length + (linesOf as).length) then .error (.stall .tracker)
  else .ok ()

/-- The requests of an access of a core that their banks hold back, those that go out now, and the time at which what has been sent is there
(R22, R144); `time` is that of its scratchpad lanes. -/
def State.sendTimes (s : State) (core : Nat) (reqs : List LineReq) (time : Nat) : List LineReq × List LineReq × Nat :=
  let (held, sent, _) := sendReqs s.now (s.bankUse core) reqs
  (held, sent, lastTime (s.now + time) sent)

/-- An atomic or arrival on a peer's scratchpad that has passed its checks keeps that while it stalls for another cause (R323). -/
def keepPassed (e : Entry) (as : List LaneAddr) (n : Nat) (st : Stop) : Stop :=
  match st with
  | .stall _ => if e.space = 2 then .stall (.passed n (heldOf e as)) else st
  | .trap _ => st
  | .absent _ => st

/-- `K_FADDR` of an `F_MEMERR`: the virtual address, and in the other spaces the handle form (log entry 12). -/
def memAddr (hnum : Nat) (a : LaneAddr) : Nat :=
  match a.place with
  | .glob _ va => va
  | _ => handleAddr hnum a.off

/-- `F_MEMERR` of a load or atomic on these lanes (R160). -/
def memerr (hnum detail : Nat) (part : Bool) (bad : List LaneAddr) : Trap :=
  { code := fMemerr, detail := detail
    addr := BitVec.ofNat 64 (memAddr hnum (bad.headD { lane := 0, off := 0, place := .host 0 }))
    mask := maskOf (bad.map (·.lane)), part := part }

/-- d, d+1, … (R38). -/
def spanOf (d : Reg) (n : Nat) : List Reg := (seqFrom 0 n).map fun i => d + BitVec.ofNat 7 i

/-! ### Loads -/

/-- The (location, value) pairs of a lane's loaded words. -/
def State.laneWrites (s : State) (regs : List Reg) (lane : Nat) (ws : List Word) : List LaneWrite :=
  (regs.zip ws).map fun x => { lane := lane, loc := s.cur.loc s.csp x.1, val := x.2 }

/-- The latency of a load's or an atomic's request, and whether it goes beyond the core: `hit` says which places the core serves (R142). -/
def loadTime (hit : Place → Bool) (p : Place) : Nat × Bool := (nominal p 0 (hit p) false, !hit p)

/-- An access whose data will return is recorded, with its destination registers scoreboarded (R149); `time` is that of its scratchpad lanes. -/
def State.addLoad (s : State) (regs : List Reg) (ws : List LaneWrite) (strong : Bool) (as : List LaneAddr) (hit : Place → Bool) (time : Nat) :
    State :=
  let g := s.cur
  let (held, sent, due) := s.sendTimes s.curCore (lineReqs (loadTime hit) as) time
  s.putCur { g with
    nextId := g.nextId + 1
    nld := if strong then g.nld else g.nld + 1
    ploads := g.ploads ++ [{ id := g.nextId, lanes := s.csp.members, locs := regs.map (g.loc s.csp), writes := ws,
                             counted := !strong, strong := strong, unsent := held, flying := sent
                             pages := pagesOf (as.map (·.place)), due := due }] }

/-- A load of `size` bytes per lane into `regs`; `conv` makes the registers' words of the bytes (R149). -/
def laneLoad (s : State) (h : BitVec 5) (a : Reg) (o : BitVec 5) (regs : List Reg) (size : Nat) (strong : Bool)
    (conv : List Byte → List Word) : Out :=
  match s.laneRegs regs [a] with
  | .error e => settle (if strong then s.openRegion else s) (.error e)
  | .ok _ =>
    let s := if strong then s.openRegion else s
    let fin := fun (t : State) => if strong then t.advanceClose else t.advance
    if s.active = 0 then .next (fin s)
    else if s.acquireOut then settle s (.error (.stall .acquire))
    else
      let hnum := s.slotHandle h
      let (s1, r) := accessCheck s hnum (if strong then .load else .weakLoad) size (s.laneOffs a o size)
      match r with
      | .error e => settle s1 (.error e)
      | .ok (e, as) =>
        match s1.accessReady size as (if strong then 0 else s1.cur.nld) with
        | .error e => settle s1 (.error e)
        | .ok _ =>
          let (s2, bs) := s1.loadLanes e strong size as
          let bad := (bs.filter fun x => x.2.isNone).map (·.1)
          if !bad.isEmpty then settle s2 (.error (.trap (memerr hnum 1 false bad)))
          else
            let ws := bs.flatMap fun x => s2.laneWrites regs x.1.lane (conv (x.2.getD []))
            .next (fin (s2.addLoad regs ws strong as (fun p => !strong && s1.l1Serves e p) (scratchTime as size s1.curCore false)))

/-- The words of a byte string. -/
def wordsOf : Nat → List Byte → List Word
  | 0, _ => []
  | n + 1, bs => BitVec.ofNat 32 (leNat (bs.take 4)) :: wordsOf n (bs.drop 4)

/-- Zero and sign extension of a narrow value. -/
def zextBytes (bs : List Byte) : List Word := [BitVec.ofNat 32 (leNat bs)]
def sextBytes (bs : List Byte) : List Word := [wordOfInt (sInt (8 * bs.length) (leNat bs))]

/-- LD_N8. -/
def execLdN8 (d : Reg) (h : BitVec 5) (a : Reg) (o : BitVec 5) (s : State) : Out := laneLoad s h a o [d] 1 false zextBytes
/-- LD_I8. -/
def execLdI8 (d : Reg) (h : BitVec 5) (a : Reg) (o : BitVec 5) (s : State) : Out := laneLoad s h a o [d] 1 false sextBytes
/-- LD_N16. -/
def execLdN16 (d : Reg) (h : BitVec 5) (a : Reg) (o : BitVec 5) (s : State) : Out := laneLoad s h a o [d] 2 false zextBytes
/-- LD_I16. -/
def execLdI16 (d : Reg) (h : BitVec 5) (a : Reg) (o : BitVec 5) (s : State) : Out := laneLoad s h a o [d] 2 false sextBytes
/-- LD_B32. -/
def execLdB32 (d : Reg) (h : BitVec 5) (a : Reg) (o : BitVec 5) (s : State) : Out := laneLoad s h a o [d] 4 false (wordsOf 1)
/-- LD_B64. -/
def execLdB64 (d : Reg) (h : BitVec 5) (a : Reg) (o : BitVec 5) (s : State) : Out :=
  laneLoad s h a o (spanOf d 2) 8 false (wordsOf 2)
/-- LD_B128. -/
def execLdB128 (d : Reg) (h : BitVec 5) (a : Reg) (o : BitVec 5) (s : State) : Out :=
  laneLoad s h a o (spanOf d 4) 16 false (wordsOf 4)
/-- LDS_B32. -/
def execLdsB32 (d : Reg) (h : BitVec 5) (a : Reg) (o : BitVec 5) (s : State) : Out := laneLoad s h a o [d] 4 true (wordsOf 1)
/-- LDS_B64. -/
def execLdsB64 (d : Reg) (h : BitVec 5) (a : Reg) (o : BitVec 5) (s : State) : Out :=
  laneLoad s h a o (spanOf d 2) 8 true (wordsOf 2)

/-- LOAD_DATA_RETURN (R149): the data of a load, strong load or atomic is written to its registers, in lanes that have not
exited and of the registers that a shrink has not dropped (R73); its counter falls (R157), and an acquire ends (R153). Nothing returns while one
of its requests is held back (R22). -/
def execLoadDataReturn (g id : Nat) (s : State) : Out :=
  let r := s.group g
  match r.ploads.find? fun p => decide (p.id = id) && p.unsent.isEmpty with
  | none => .next s
  | some p =>
    let ws := p.writes.filter fun w => !r.exited.getLsbD w.lane
    let r' := ws.foldl (fun (g : Group) w => g.wr w.loc [(w.lane, w.val)]) r
    .next (s.putGroup g { r' with
      ploads := r.ploads.filter fun q => decide (q.id ≠ id)
      nld := if p.counted then r.nld - 1 else r.nld })

/-! ### Stores -/

/-- The host pages that these writes of store `id` touch (R153). -/
def hostPages (id : Nat) (due : Option Nat) (ws : List ByteWrite) : List HostPage :=
  (ws.filterMap fun w =>
    match w.place with
    | .host a => some { page := a / 4096, store := id, due := due : HostPage }
    | _ => none).eraseDups

/-- The least time of a PCIe round trip (class E of R142). -/
def hostTicks : Nat := 2400

/-- A store of these lanes is performed now: bytes written, monitors evaluated, completion time merged, acknowledgement pending (R150, R156,
R157). -/
def State.performStore (s : State) (gk id : Nat) (lanes : LaneMask) (ws : List ByteWrite) : State :=
  let core := (s.block (s.group gk).blk).core
  let ct := s.completionOf ws
  let as := writeAddrs ws
  let s := s.perform (some core) true ws
  let (held, sent, due) := s.sendTimes core (lineReqs ackTime as) (scratchTime as ((ws.map (·.bytes.length)).headD 4) core false)
  let g := s.group gk
  s.putGroup gk { g with
    ct := max g.ct ct
    hpages := g.hpages ++ hostPages id none ws
    pstores := g.pstores ++ [{ id := id, lanes := lanes, unsent := held, flying := sent
                               pages := pagesOf (ws.map (·.place)), buffered := false, due := due }] }

/-- The distinct lines of the quantum buffer (R173). -/
def bufferLines (q : List ByteWrite) : List Nat := linesOf (writeAddrs q)

/-- The bytes of `n` registers of a lane, `size` of them (R150). -/
def State.storeBytes (s : State) (regs : List Reg) (size lane : Nat) : List Byte :=
  (regs.flatMap fun r => leBytes 4 (s.x lane r).toNat).take size

/-- A store of `size` bytes per lane from `regs` (R150, R151, R153, R173). The lanes' bytes are listed in ascending lane order, so
that the highest lane's value remains. -/
def laneStore (s : State) (h : BitVec 5) (a : Reg) (o : BitVec 5) (regs : List Reg) (size : Nat) (strong : Bool) : Out :=
  match s.laneRegs [] (regs ++ [a]) with
  | .error e => settle (if strong then s.openRegion else s) (.error e)
  | .ok _ =>
    let s := if strong then s.openRegion else s
    let fin := fun (t : State) => if strong then t.advanceClose else t.advance
    if s.active = 0 then .next (fin s)
    else if s.acquireOut then settle s (.error (.stall .acquire))
    else
      let (s1, r) := accessCheck s (s.slotHandle h) .store size (s.laneOffs a o size)
      match r with
      | .error e => settle s1 (.error e)
      | .ok (e, as) =>
        match s1.accessReady size as s1.cur.nst with
        | .error e => settle s1 (.error e)
        | .ok _ =>
          let ws := as.map fun x => { place := x.place, bytes := s1.storeBytes regs size x.lane : ByteWrite }
          let g := s1.cur
          let id := g.nextId
          if s1.curLaunch.q ≠ 0 ∧ (e.space = 0 ∨ e.space = 3) then
            if 256 < (bufferLines (g.qbuf ++ ws)).length then
              settle (s1.putCur { g with qended := true }) (.error (.stall .quantum))
            else
              .next (fin (s1.putCur { g with
                nextId := id + 1, nst := g.nst + 1, qbuf := g.qbuf ++ ws
                qrel := g.qrel ++ [(g.qbuf.length, if strong then e.scope else 0)]
                pstores := g.pstores ++ [{ id := id, lanes := 0, unsent := [], flying := [], pages := pagesOf (ws.map (·.place))
                                           buffered := true, due := 0 }] }))
          else
            let s2 := s1.putCur { g with nextId := id + 1, nst := g.nst + 1 }
            if strong ∧ s1.releaseMet g e.scope id = false then
              .next (fin (s2.putCur { s2.cur with
                hsts := s2.cur.hsts ++ [{ id := id, lanes := s2.csp.members, after := g.pstores.map (·.id), scope := e.scope, writes := ws }] }))
            else .next (fin (s2.performStore s2.cg id s2.csp.members ws))

/-- ST_B8. -/
def execStB8 (d : Reg) (h : BitVec 5) (a : Reg) (o : BitVec 5) (s : State) : Out := laneStore s h a o [d] 1 false
/-- ST_B16. -/
def execStB16 (d : Reg) (h : BitVec 5) (a : Reg) (o : BitVec 5) (s : State) : Out := laneStore s h a o [d] 2 false
/-- ST_B32. -/
def execStB32 (d : Reg) (h : BitVec 5) (a : Reg) (o : BitVec 5) (s : State) : Out := laneStore s h a o [d] 4 false
/-- ST_B64. -/
def execStB64 (d : Reg) (h : BitVec 5) (a : Reg) (o : BitVec 5) (s : State) : Out := laneStore s h a o (spanOf d 2) 8 false
/-- ST_B128. -/
def execStB128 (d : Reg) (h : BitVec 5) (a : Reg) (o : BitVec 5) (s : State) : Out := laneStore s h a o (spanOf d 4) 16 false
/-- STS_B32. -/
def execStsB32 (d : Reg) (h : BitVec 5) (a : Reg) (o : BitVec 5) (s : State) : Out := laneStore s h a o [d] 4 true
/-- STS_B64. -/
def execStsB64 (d : Reg) (h : BitVec 5) (a : Reg) (o : BitVec 5) (s : State) : Out := laneStore s h a o (spanOf d 2) 8 true

/-- The held strong stores of a group whose release is now met leave the core, oldest first (R153), unless a row that the store reaches is
under test (R159). -/
def releaseStores (gk : Nat) : Nat → State → State
  | 0, s => s
  | n + 1, s =>
    let g := s.group gk
    match g.hsts with
    | [] => s
    | h :: rest =>
      if s.releaseMet { g with hsts := [] } h.scope h.id && !s.writesTested (s.block g.blk).core h.writes then
        releaseStores gk n ((s.putGroup gk { g with hsts := rest }).performStore gk h.id h.lanes h.writes)
      else s

/-- The port sends its reads of the host pages that an acknowledged store wrote (R153). -/
def Group.sendReads (g : Group) (id now : Nat) : Group :=
  { g with hpages := g.hpages.map fun p => if p.store = id ∧ p.due = none then { p with due := some (now + hostTicks) } else p }

/-- STORE_ACK (R157): the store counter falls; held releases may go (R153). -/
def execStoreAck (g id : Nat) (s : State) : Out :=
  let r := s.group g
  match r.pstores.find? fun p => decide (p.id = id) && !p.buffered && p.unsent.isEmpty with
  | none => .next s
  | some _ =>
    let s := s.putGroup g (Group.sendReads { r with pstores := r.pstores.filter (fun p => decide (p.id ≠ id)), nst := r.nst - 1 } id s.now)
    .next (releaseStores g (s.group g).hsts.length s)

/-- COMPLETION_TIME_REACHED (R153, R156): device time has passed the completion time that the group holds; held releases go.
Fences, barriers and arrivals test it themselves. -/
def execCompletionTimeReached (g : Nat) (s : State) : Out :=
  if (s.group g).ct < s.now then .next (releaseStores g (s.group g).hsts.length s) else .next s

/-- The read of this page that the port sent after the store's acknowledgement can have completed. -/
def HostPage.reached (p : HostPage) (page now : Nat) : Bool :=
  decide (p.page = page) && (match p.due with
    | some t => decide (t ≤ now)
    | none => false)

/-- PCIE_READ_COMPLETION (R153): the stores to this page whose reads were sent a round trip ago have reached the host, for every
group. -/
def execPcieReadCompletion (page : Nat) (s : State) : Out :=
  let s1 : State := { s with
    groups := s.groups.map fun (e : Nat × Group) =>
      (e.1, { e.2 with hpages := e.2.hpages.filter fun p => !p.reached page s.now }) }
  .next (s1.groups.foldl (fun (t : State) (e : Nat × Group) =>
    if e.2.hsts.isEmpty then t else releaseStores e.1 e.2.hsts.length t) s1)

/-! ### Requests that their banks hold back (R22, R144) -/

/-- The requests of a load that find room are sent. -/
def PendLoad.send (now : Nat) (acc : List PendLoad × List Nat) (p : PendLoad) : List PendLoad × List Nat :=
  if p.unsent.isEmpty then (acc.1 ++ [p], acc.2)
  else
    let (held, sent, used) := sendReqs now acc.2 p.unsent
    (acc.1 ++ [{ p with unsent := held, flying := p.flying ++ sent, due := lastTime p.due sent }], used)

/-- The same for a store. -/
def PendStore.send (now : Nat) (acc : List PendStore × List Nat) (p : PendStore) : List PendStore × List Nat :=
  if p.unsent.isEmpty then (acc.1 ++ [p], acc.2)
  else
    let (held, sent, used) := sendReqs now acc.2 p.unsent
    (acc.1 ++ [{ p with unsent := held, flying := p.flying ++ sent, due := lastTime p.due sent }], used)

/-- The group has a request that its bank holds back. -/
def Group.holdsBack (g : Group) : Bool := (g.ploads.any fun p => !p.unsent.isEmpty) || g.pstores.any fun p => !p.unsent.isEmpty

/-- Requests that were held back are sent where their banks have room again. -/
def State.sendRequests (s : State) : State :=
  (s.groups.filter fun e => e.2.holdsBack).foldl (fun (s : State) e =>
    let g := s.group e.1
    let (ls, used) := g.ploads.foldl (PendLoad.send s.now) ([], s.bankUse (s.block g.blk).core)
    let (ss, _) := g.pstores.foldl (PendStore.send s.now) ([], used)
    s.putGroup e.1 { g with ploads := ls, pstores := ss }) s

/-! ### Atomics -/

/-- m′ of R154 from the old value and the operands; `x2` is register d+1. -/
def atomNew (op : Nat) (m : Nat) (x x2 : Word) : Nat :=
  let w : Word := BitVec.ofNat 32 m
  match op with
  | 0x70 => (w + x).toNat
  | 0x71 => (roundW 0 0 (fAdd false (f32v w) (f32v x))).1.toNat
  | 0x72 => (minOp 0 w x).toNat
  | 0x73 => (maxOp 0 w x).toNat
  | 0x74 => (w &&& x).toNat
  | 0x75 => (w ||| x).toNat
  | 0x76 => (w ^^^ x).toNat
  | 0x77 => x.toNat
  | 0x78 => if w = x then x2.toNat else m
  | _ => (m + x2.toNat * 2 ^ 32 + x.toNat) % 2 ^ 64

/-- The size of an atomic's word. -/
def atomSize (op : Nat) : Nat := if op = 0x79 then 8 else 4

/-- One lane's read-modify-write of a group, at the ordering point (R153, R154, R156): its old value, or none on poison
(R160). -/
def State.atomLane (s : State) (gk op : Nat) (p : Place) (x x2 : Word) : State × Option Nat :=
  let n := atomSize op
  if s.poisoned p n then (s, none)
  else
    let old := s.numAt p n
    let ws : List ByteWrite := [{ place := p, bytes := leBytes n (atomNew op old x x2) }]
    let ct := s.completionOf ws
    let s := s.perform (some (s.block (s.group gk).blk).core) true ws
    let g := s.group gk
    (s.putGroup gk { g with ct := max g.ct ct }, some old)

/-- The lanes of an atomic, in ascending order (R154). -/
def State.atomLanes (s : State) (gk op : Nat) : List (LaneAddr × Word × Word) → State × List (LaneAddr × Option Nat)
  | [] => (s, [])
  | (a, x, x2) :: rest =>
    let (s1, r) := s.atomLane gk op a.place x x2
    let (s2, rs) := s1.atomLanes gk op rest
    (s2, (a, r) :: rs)

/-- The old value as register words. -/
def oldWords (old : Nat) : List Word := [BitVec.ofNat 32 old, BitVec.ofNat 32 (old / 2 ^ 32)]

/-- An atomic (R154) by opcode; `reads` and `writes` are its registers. -/
def laneAtomic (s : State) (op : Nat) (d : Reg) (h : BitVec 5) (a : Reg) (o : BitVec 5) (writes reads : List Reg) : Out :=
  match s.laneRegs writes (reads ++ [a]) with
  | .error e => settle s.openRegion (.error e)
  | .ok _ =>
    let s := s.openRegion
    if s.active = 0 then .next s.advanceClose
    else if s.acquireOut then settle s (.error (.stall .acquire))
    else
      let hnum := s.slotHandle h
      let (s1, r) := atomCheck s hnum (atomSize op) (s.laneOffs a o (atomSize op))
      match r with
      | .error e => settle s1 (.error e)
      | .ok (e, as) =>
        let n := s1.orderBound
        let g := s1.cur
        let ops := as.map fun x => (x, s1.x x.lane d, s1.x x.lane (d + 1))
        let ordered := decide (s1.curLaunch.q ≠ 0)
        if ordered = true ∧ e.space = 0 ∧ 256 < (bufferLines (g.qbuf ++ as.map fun x => { place := x.place, bytes := [] })).length then
          settle (s1.putCur { g with qended := true }) (.error (.stall .quantum))
        else if ordered = true ∧ e.space = 0 then
          let al : List AtomLane := ops.map fun x =>
            match x.1.place with
            | .glob pa va => { lane := x.1.lane, pa := pa, va := va, x := x.2.1, x2 := x.2.2 }
            | _ => { lane := x.1.lane, pa := 0, va := 0, x := x.2.1, x2 := x.2.2 }
          let c : Closing := { id := g.nextId, op := op, scope := e.scope, sp := s1.cs, pc := s1.csp.pc, lanes := al, d := g.loc s1.csp d, d2 := g.loc s1.csp (d + 1) }
          .next ((s1.putCur { g with closing := some c, nextId := g.nextId + 1, qended := true }).issueWait .awaiting)
        else if s1.releaseMet g e.scope n = false then settle s1 (.error (.stall (.passed n (heldOf e as))))
        else
          match s1.accessReady (atomSize op) as 0 with
          | .error st => settle s1 (.error (keepPassed e as n st))
          | .ok _ =>
            let (s2, rs) := s1.atomLanes s1.cg op ops
            let bad := (rs.filter fun x => x.2.isNone).map (·.1)
            let good := rs.filter fun x => x.2.isSome
            let ws := good.flatMap fun x => s2.laneWrites writes x.1.lane (oldWords (x.2.getD 0))
            if bad.isEmpty then
              let s3 := (s2.addLoad writes ws true as (fun _ => false) (scratchTime as (atomSize op) s1.curCore true)).advanceClose
              .next (if ordered then s3.putCur { s3.cur with qended := true } else s3)
            else
              let s3 := s2.putCur (ws.foldl (fun (g : Group) w => g.wr w.loc [(w.lane, w.val)]) s2.cur)
              settle s3 (.error (.trap (memerr hnum 2 (!good.isEmpty) bad)))

/-- AADD. -/
def execAadd (d : Reg) (h : BitVec 5) (a : Reg) (o : BitVec 5) (s : State) : Out := laneAtomic s 0x70 d h a o [d] [d]
/-- AFADD. -/
def execAfadd (d : Reg) (h : BitVec 5) (a : Reg) (o : BitVec 5) (s : State) : Out := laneAtomic s 0x71 d h a o [d] [d]
/-- AMIN. -/
def execAmin (d : Reg) (h : BitVec 5) (a : Reg) (o : BitVec 5) (s : State) : Out := laneAtomic s 0x72 d h a o [d] [d]
/-- AMAX. -/
def execAmax (d : Reg) (h : BitVec 5) (a : Reg) (o : BitVec 5) (s : State) : Out := laneAtomic s 0x73 d h a o [d] [d]
/-- AAND. -/
def execAand (d : Reg) (h : BitVec 5) (a : Reg) (o : BitVec 5) (s : State) : Out := laneAtomic s 0x74 d h a o [d] [d]
/-- AOR. -/
def execAor (d : Reg) (h : BitVec 5) (a : Reg) (o : BitVec 5) (s : State) : Out := laneAtomic s 0x75 d h a o [d] [d]
/-- AXOR. -/
def execAxor (d : Reg) (h : BitVec 5) (a : Reg) (o : BitVec 5) (s : State) : Out := laneAtomic s 0x76 d h a o [d] [d]
/-- AXCH. -/
def execAxch (d : Reg) (h : BitVec 5) (a : Reg) (o : BitVec 5) (s : State) : Out := laneAtomic s 0x77 d h a o [d] [d]
/-- ACAS: compares with d and writes d+1. -/
def execAcas (d : Reg) (h : BitVec 5) (a : Reg) (o : BitVec 5) (s : State) : Out := laneAtomic s 0x78 d h a o [d] (spanOf d 2)
/-- AADD64. -/
def execAadd64 (d : Reg) (h : BitVec 5) (a : Reg) (o : BitVec 5) (s : State) : Out :=
  laneAtomic s 0x79 d h a o (spanOf d 2) (spanOf d 2)

end Sys2Proof.Machine
end

