-- ==== Sys2Proof/Machine/System.lean ====
section
/-! DEFINITION. Deliberate traps, the return from a handler, service records and ordered-mode configuration
(spec/17_system.md R279-R281, R293): opcodes 0xA9, 0xAA, 0xF4 and 0xF5. -/
namespace Sys2Proof.Machine
open Sys2Proof

/-- GTRAP (R280): raises `F_TRAP`; in a handler a double fault. -/
def execGtrap (j : BitVec 17) (s : State) : Out :=
  settle s (.error (.trap (mkTrap fTrap (j.toNat % 256) j.toNat s.leaderMask)))

/-- THE RETURN FROM A HANDLER (R279, R353): this part's lanes return to user mode with the frame's `K_IX`. -/
def State.leaveHandler (s : State) : State :=
  let f := s.cur.frame.getD { pc := 0, kix := s.csp.kix, cnt := [], since := 0 }
  s.putCsp { s.csp with sup := false, kix := f.kix }

/-- The member lanes' counters become those of the frame, and the PC the one after the faulting instruction (R279). -/
def State.resumeNext (s : State) : State :=
  let f := s.cur.frame.getD { pc := 0, kix := 0, cnt := [], since := 0 }
  let g := s.cur
  let cnt := (lanesOf s.csp.members).foldl (fun m l => mapSet 0 m l (mapGet 0 f.cnt l)) g.cnt
  s.putCur (({ g with cnt := cnt } : Group).putSplit s.cs { s.csp with pc := f.pc + 4, st := .running })

/-- GRESUME. -/
def execGresume (m : BitVec 3) (s : State) : Out :=
  if !s.csp.sup then settle s (.error (.trap (mkTrap fProt 4 0 s.leaderMask)))
  else if m = 2 ∧ s.exitBlocked s.csp.members = true then settle s (.error (.stall .retirement))
  else
    let gk := s.cg
    let s1 := s.leaveHandler
    let s2 := match m.toNat with
      | 0 => s1.putCur (replaySplit s1.cur s1.cs s1.curLaunch.q s1.curLaunch.quantum)
      | 1 => s1.resumeNext
      | _ => s1.exitLanes s1.cg s1.cs s1.csp.members
    .next (releaseHeld s2 gk)

/-- The handler registers of the record have no write outstanding (R149). -/
def State.svcReady (s : State) : Except Stop Unit :=
  if (seqFrom 0 3).any fun n => s.cur.busy s.csp.members (.hreg n) then .error (.stall .scoreboard) else .ok ()

/-- GSVC (R281): posts a service record of kind 1. The increment of the tail word is a release of the group's earlier stores (R153). -/
def execGsvc (j : BitVec 17) (s : State) : Out :=
  match andThen s.needPriv s.svcReady with
  | .error e => settle s (.error e)
  | .ok _ =>
    if !s.svcRoom then settle s (.error (.stall .service))
    else
      let b := s.curBlock
      let h := fun n => s.cur.rd (.hreg n) s.leader
      .next (s.advance.postRecord { g := s.cg, upto := s.cur.nextId, words :=
        [BitVec.ofNat 32 (2 ^ 24 + j.toNat), BitVec.ofNat 32 b.ctx, BitVec.ofNat 32 b.lid, BitVec.ofNat 32 b.bid,
         BitVec.ofNat 32 (s.cs % 4 * 256 + s.cur.gid % 32), h 0, h 1, h 2] })

/-- GQCFG (R293): the ordered configuration of a queue, for the launches that come after. -/
def execGqcfg (d a b : Reg) (m : BitVec 3) (s : State) : Out :=
  let ctx := s.curCtx
  let c := s.context ctx
  let q := (s.u a).toNat
  let n := (s.u b).toNat
  let old := mapGet 0 c.qcfg q
  let bad := decide (m = 1) && (decide (n < 8) || decide (65536 < n))
  let s1 := match m.toNat with
    | 0 => s.putContext ctx { c with qcfg := mapSet 0 c.qcfg q 0 }
    | 1 => if bad then s else s.putContext ctx { c with qcfg := mapSet 0 c.qcfg q n }
    | _ => s
  guarded s (andThen s.needPriv (s.groupRegs [d] [a, b]))
    (s1.put d (if bad then 0xFFFFFFFF else BitVec.ofNat 32 old)).advance

end Sys2Proof.Machine
end

