-- ==== Sys2Proof/Machine/Waits.lean ====
section
/-! DEFINITION. Fences, waits, yields and barriers (spec/09_ordering.md R166, R170; spec/12_waiting_barriers.md R196-R212;
spec/17_system.md R283): opcodes 0xAB and 0xB0-0xB6, and the events WAIT_WAKE, WAIT_TIMEOUT, GBAR_RELEASE, GPBAR_RELEASE and
YIELD_EXPIRE. -/
namespace Sys2Proof.Machine
open Sys2Proof

/-! ### gfence (R166) -/

/-- The loads and stores that a fence still waits for: those of the group before id `n`; in ordered mode the scratchpad's only. -/
def State.fenceOpen (s : State) (m n : Nat) : Bool :=
  let g := s.cur
  if s.curLaunch.q ≠ 0 then
    (g.ploads.any fun p => decide (p.id < n) && p.unsent.isEmpty && p.flying.isEmpty) ||
      (g.pstores.any fun p => decide (p.id < n) && !p.buffered && p.unsent.isEmpty && p.flying.isEmpty) || g.hsts.any fun h => decide (h.id < n)
  else
    g.loadsBefore n || g.storesBefore n || (decide (2 ≤ m) && !decide (g.ct < s.now)) || (decide (m = 4) && g.hostBefore n)

/-- GFENCE. -/
def execGfence (m : BitVec 3) (s : State) : Out :=
  let n := s.orderBound
  guarded s (if s.fenceOpen m.toNat n then .error (.stall (.fence n)) else .ok ()) s.advance

/-! ### gwaitu and gpark (R196-R201, R283) -/

/-- The slice that holds the Basin entry of a wait, if it is a global one outside ordered mode (R196, R326). -/
def State.basinSlice (s : State) (e : Nat × Group) : Option Nat :=
  match e.2.wait with
  | none => none
  | some r =>
    match r.place with
    | .glob pa _ => if r.ended.isNone && decide (s.ordQ e.1 = 0) then some (s.sliceOf (pa / 128)) else none
    | _ => none

/-- An entry of a Basin table: a group's wait, or a launch's dependence (R312), by its key, with the time of its registration. -/
structure BasinEnt where
  dep : Bool
  key : Nat
  since : Nat
  deriving DecidableEq, Repr

/-- The slice of a launch's registered dependence. -/
def State.depSlice (s : State) (l : Launch) : Option Nat :=
  match l.dep with
  | some d =>
    match d.place with
    | .glob pa _ => if d.registered && !d.satisfied then some (s.sliceOf (pa / 128)) else none
    | _ => none
  | none => none

/-- The entries that a slice holds on chip, those of the overflow area apart (R201). -/
def State.onChip (s : State) (sl : Nat) : List BasinEnt :=
  (s.groups.filterMap fun e =>
    match e.2.wait with
    | some r => if s.basinSlice e = some sl && !r.spilled then some { dep := false, key := e.1, since := r.since } else none
    | none => none) ++
  s.launches.filterMap fun e =>
    match e.2.dep with
    | some d => if s.depSlice e.2 = some sl && !d.spilled then some { dep := true, key := e.1, since := d.since } else none
    | none => none

/-- An entry moves to the overflow area (R201). -/
def State.overflow (s : State) (x : BasinEnt) : State :=
  if x.dep then
    let l := s.launch x.key
    s.putLaunch x.key { l with dep := l.dep.map fun d => { d with spilled := true } }
  else
    let g := s.group x.key
    s.putGroup x.key { g with wait := g.wait.map fun r => { r with spilled := true } }

/-- The entry belongs to a swapped-out block. -/
def State.entryAway (s : State) (x : BasinEnt) : Bool := !x.dep && !(s.block (s.group x.key).blk).onCore

/-- R201: where a slice holds more than 512 entries, the oldest one of a swapped-out block moves to the overflow area; without one, `new`
does, or the youngest where none is new. -/
def State.spill (s : State) (sl : Nat) (new : Option BasinEnt) : State :=
  let ents := s.onChip sl
  if ents.length ≤ 512 then s
  else
    match sortBy BasinEnt.since (ents.filter s.entryAway), new with
    | x :: _, _ => s.overflow x
    | [], some x => s.overflow x
    | [], none =>
      match (sortBy BasinEnt.since ents).getLast? with
      | some x => s.overflow x
      | none => s

/-- A wait is registered, and its split waits (R197, R200, R326); `park` says that it is a `gpark` (R284). -/
def State.registerWait (s : State) (park : Bool) (d a b : Reg) (m : Nat) (p : Place) : State :=
  let q := s.curLaunch.q
  let g := s.cur
  let base := if q = 0 then s.now else s.curLaunch.quantum
  let r : WaitRec :=
    { sp := s.cs, park := park, hnum := (s.u a).toNat, off := (s.u (a + 1)).toNat, place := p, m := m, y := s.u b
      mask := s.u (b + 1), deadline := if g.kwto = 0 then none else some (base + g.kwto.toNat)
      dl := g.loc s.csp d, dh := g.loc s.csp (d + 1), spilled := false, ended := none, since := s.now }
  let s := s.issueWait .waiting
  let s := s.putCur { s.cur with wait := some r, qended := s.cur.qended || decide (q ≠ 0) }
  match p with
  | .glob pa _ => if q = 0 then s.spill (s.sliceOf (pa / 128)) (some { dep := false, key := s.cg, since := s.now }) else s
  | _ => s

/-- R168: what the commands have written that have written or arrived on this word, under times that are not past yet. -/
def State.joined (s : State) (p : Place) : List Joined :=
  let cmds := (s.joins.filter fun j => j.writes.any fun w => placesMeet p 4 w.place w.bytes.length).map (·.cmd)
  s.joins.filter fun j => cmds.contains j.cmd

/-- A read of this place by the core leaves no older copy of its line in the L1. -/
def State.dropPlace (s : State) (core : Nat) (p : Place) : State :=
  match p with
  | .glob pa _ => s.dropLine core pa
  | _ => s

/-- The read of a wait's word that returns control: an acquire, after which the core's L1 holds no older copy of the word's line (R167, R170).
It joins the commands that it reads from, and their writes happen before every later event of the split (R168). -/
def State.acquired (s : State) (gk : Nat) (p : Place) : State :=
  let js := s.joined p
  let g := s.group gk
  let core := (s.block g.blk).core
  let s := if js.isEmpty then s else s.putGroup gk { g with ct := js.foldl (fun t j => max t j.ct) g.ct }
  (js.flatMap (·.writes)).foldl (fun s w => s.dropPlace core w.place) (s.dropPlace core p)

/-- `gwaitu` and `gpark`. -/
def waitOp (s : State) (park : Bool) (d a b : Reg) (m : BitVec 3) : Out :=
  match s.groupRegs [d, d + 1] [a, a + 1, b, b + 1] with
  | .error e => settle s.openRegion (.error e)
  | .ok _ =>
    if s.cur.wait.isSome then settle s.openRegion (.error (.stall .oneWait))
    else
      let s := s.openRegion
      if s.acquireOut then settle s (.error (.stall .acquire))
      else
        let hnum := (s.u a).toNat
        let (s1, r) := accessCheck s hnum .wait 4 [(s.leader, (s.u (a + 1)).toNat)]
        match r with
        | .error e => settle s1 (.error e)
        | .ok (_, as) =>
          match s1.accessReady 4 as 0 with
          | .error e => settle s1 (.error e)
          | .ok _ =>
            let p := (as.map (·.place)).headD (.host 0)
            if s1.poisoned p 4 ∧ s1.curLaunch.q = 0 then settle s1 (.error (.trap (memerr hnum 7 false as)))
            else
              let w : Word := BitVec.ofNat 32 (s1.numAt p 4)
              if s1.curLaunch.q = 0 ∧ waitHolds m.toNat w (s1.u b) (s1.u (b + 1)) then
                let s2 := s1.acquired s1.cg p
                .next ((s2.put d w).put (d + 1) 1).advanceClose
              else .next (s1.registerWait park d a b m.toNat p)

/-- GWAITU. -/
def execGwaitu (d a b : Reg) (m : BitVec 3) (s : State) : Out := waitOp s false d a b m
/-- GPARK. -/
def execGpark (d a b : Reg) (m : BitVec 3) (s : State) : Out := waitOp s true d a b m

/-- The results of an ended wait are written and its split goes on (R197). -/
def State.finishWait (s : State) (gk : Nat) (r : WaitRec) (w st : Word) : State :=
  let g := s.group gk
  let q := s.quantumOf gk
  let lanes := (g.split r.sp).members
  let s := ((s.acquired gk r.place).deliver gk r.dl lanes w).deliver gk r.dh lanes st
  s.putGroup gk (passOn { s.group gk with wait := none } r.sp q)

/-- WAIT_WAKE (R198, R203, R288): the result of an ended wait reaches a group on its core. -/
def execWaitWake (g : Nat) (s : State) : Out :=
  let r := s.group g
  match r.wait with
  | some w =>
    match w.ended with
    | some (x, st) => .next (if (s.block r.blk).st = .resident then s.finishWait g w x st else s)
    | none => .next s
  | none => .next s

/-- The block of the waiter's party that owns a scratchpad word and is off its core, with the word's place in its scratchpad (R202). -/
def State.awayOwner (s : State) (gk : Nat) (p : Place) : Option (Block × Nat) :=
  match p with
  | .scr c a =>
    let b := s.block (s.group gk).blk
    match s.blocks.find? fun e =>
      decide (e.2.lid = b.lid) && decide (e.2.bid / e.2.party = b.bid / b.party) && decide (e.2.core = c) &&
        decide (e.2.origin ≤ a) && decide (a < e.2.origin + e.2.scratch) with
    | some (_, o) => if o.onCore then none else some (o, a - o.origin)
    | none => none
  | _ => none

/-- The watched word of a wait: in the saved scratchpad where its block is off its core (R200, R202). -/
def State.waitWord (s : State) (gk : Nat) (p : Place) : Word :=
  match s.awayOwner gk p with
  | some (o, a) => BitVec.ofNat 32 (leNat ((seqFrom a 4).map (mapGet zeroByte o.saved)))
  | none => BitVec.ofNat 32 (s.numAt p 4)

/-- The watched word is poisoned (R204). -/
def State.waitPoisoned (s : State) (gk : Nat) (p : Place) : Bool :=
  match s.awayOwner gk p with
  | some (o, a) => decide (mapGet 0 o.spois (a / 4) ≠ 0)
  | none => s.poisoned p 4

/-- WAIT_TIMEOUT (R200): at the deadline the word is read and the entry removed in one step. -/
def execWaitTimeout (g : Nat) (s : State) : Out :=
  match (s.group g).wait with
  | none => .next s
  | some r =>
    match r.deadline with
    | none => .next s
    | some t =>
      if r.ended.isSome ∨ s.ordQ g ≠ 0 ∨ s.now < t then .next s
      else if s.waitPoisoned g r.place then .next (faultWait s g 7)
      else
        let w := s.waitWord g r.place
        .next (endWait s g w (flagWord (waitHolds r.m w r.y r.mask)))

/-! ### gwaitc and gyield (R206, R207) -/

/-- The limit of a class in the operand of `gwaitc`, 15 meaning none. -/
def waitLimit (j : BitVec 17) (c : Nat) : Nat := j.toNat / 2 ^ (4 * c) % 16

/-- One limit of `gwaitc` holds. -/
def withinLimit (n limit : Nat) : Bool := decide (limit = 15) || decide (n ≤ limit)

/-- Every limit of a `gwaitc` holds. -/
def Group.limitsMet (g : Group) (j : BitVec 17) : Bool :=
  withinLimit g.nld (waitLimit j 0) && withinLimit g.nst (waitLimit j 1) && withinLimit g.neng (waitLimit j 2) &&
    withinLimit g.ntile (waitLimit j 3)

/-- GWAITC. -/
def execGwaitc (j : BitVec 17) (s : State) : Out :=
  guarded s (if s.cur.limitsMet j then .ok () else .error (.stall (.counters j))) s.advance

/-! ### gyield -/

/-- R207: the time of a split's `gyield` while it is held back by it. -/
def Split.yieldedAt (sp : Split) : Nat := sp.notBefore - 64

/-- R207: every other ready split of that priority on the core has issued since the `gyield`. -/
def State.yieldOver (s : State) (gk i : Nat) : Bool :=
  let prio := fun (k : Nat) => (s.launch (s.block (s.group k).blk).lid).prio
  let t := ((s.group gk).split i).yieldedAt
  (s.groupsOn (s.block (s.group gk).blk).core).all fun e => decide (prio e.1 ≠ prio gk) || e.2.splits.all fun x =>
    (decide (e.1 = gk) && decide (x.1 = i)) || !(decide (x.2.st = .running) && s.mayIssue e.1 x.1 && !s.isWithheld e.1) || decide (t < x.2.issued)

/-- GYIELD: in ordered mode it only retires. Otherwise the split's stamp passes every stamp of the core (R316), and it does not
issue for 64 cycles, or until YIELD_EXPIRE. -/
def execGyield (s : State) : Out :=
  if s.curLaunch.q ≠ 0 then .next s.advance
  else
    let top := (s.groupsOn s.curCore).foldl (fun t e => e.2.splits.foldl (fun t x => max t x.2.age) t) 0
    let s1 := s.advance
    .next (s1.putCsp { s1.csp with age := top + 1, notBefore := s.now + 64 })

/-- YIELD_EXPIRE (R207): every other ready split of that priority has issued once, or 64 cycles have passed. -/
def execYieldExpire (g sp : Nat) (s : State) : Out :=
  let r := s.group g
  match mapFind r.splits sp with
  | none => .next s
  | some x =>
    if s.now < x.notBefore ∧ s.yieldOver g sp = false then .next s else .next (s.putGroup g (r.putSplit sp { x with notBefore := min x.notBefore s.now }))

/-! ### Hardware barriers (R170, R208-R210, R322) -/

/-- A split waits at a barrier, and the group's last live split may make room for a pending record (R208). -/
def State.atBarrier (s : State) (st : SplitState) : State :=
  let s := s.issueWait st
  s.putCur (pushBarrier s.cur s.curLaunch.quantum)

/-- GBAR. -/
def execGbar (i : BitVec 10) (s : State) : Out := .next (s.atBarrier (.atBar (i.toNat % 16)))
/-- GPBAR. -/
def execGpbar (i : BitVec 10) (s : State) : Out := .next (s.atBarrier (.atPbar (i.toNat % 4)))

/-- R170, R208: every unexited lane of the group waits at this barrier, and its loads and stores are done. -/
def Group.arrived (g : Group) (st : SplitState) (n : Nat) : Bool :=
  g.splits.all (fun e => decide (e.2.st = st)) && g.stack.all (fun r => r.barrier && decide (r.sp.st = st)) &&
    !g.loadsBefore n && !g.storesBefore n

/-- Pending records run while an index is free (R75). -/
def promoteAll (g : Group) (quantum : Nat) : Group := promote (promote (promote (promote g quantum) quantum) quantum) quantum

/-- A group is released from a barrier (R208). -/
def releaseGroup (g : Group) (st : SplitState) (quantum : Nat) : Group :=
  let stack := g.stack.map fun r =>
    if r.barrier && decide (r.sp.st = st) then { r with barrier := false, sp := { r.sp with pc := r.sp.pc + 4, st := .running } }
    else r
  let waiting := (g.splits.filter fun e => decide (e.2.st = st)).map (·.1)
  promoteAll (waiting.foldl (fun g i => passOn g i quantum) { g with stack := stack }) quantum

/-- The unexited groups of some blocks. -/
def State.liveOf (s : State) (bks : List Nat) : List Nat :=
  (bks.flatMap s.groupsOf).filter fun k => (s.group k).live

/-- The blocks of the party of a block (R25). -/
def State.partyOf (s : State) (bk : Nat) : List Nat :=
  let b := s.block bk
  (s.blocks.filter fun e => decide (e.2.lid = b.lid) && decide (e.2.bid / e.2.party = b.bid / b.party) &&
    (decide (e.1 = bk) || !e.2.control)).map (·.1)

/-- Every unexited group of some resident blocks waits at a barrier, its loads and stores done (R170, R208). -/
def State.barrierFull (s : State) (bks : List Nat) (st : SplitState) : Bool :=
  !(s.liveOf bks).isEmpty && bks.all (fun b => decide ((s.block b).st = .resident)) && (s.liveOf bks).all fun k =>
    (s.group k).arrived st (s.group k).nextId

/-- Device time has passed CT(g) of every unexited group of these blocks (R170). -/
def State.barrierPast (s : State) (bks : List Nat) : Bool := (s.liveOf bks).all fun k => decide ((s.group k).ct < s.now)

/-- A barrier is tested among the groups of some blocks, and releases them (R208, R209). -/
def State.testBarrier (s : State) (bks : List Nat) (st : SplitState) (party : Bool) : State :=
  if s.barrierFull bks st && (!party || s.barrierPast bks) then
    (s.liveOf bks).foldl (fun s k => s.putGroup k (releaseGroup (s.group k) st (s.quantumOf k))) s
  else s

/-- GBAR_RELEASE (R208); in ordered mode barriers release at quantum ends only (R210). -/
def execGbarRelease (blk id : Nat) (s : State) : Out :=
  .next (if (s.launch (s.block blk).lid).q = 0 then s.testBarrier [blk] (.atBar id) false else s)

/-- GPBAR_RELEASE (R209). -/
def execGpbarRelease (blk id : Nat) (s : State) : Out :=
  .next (if (s.launch (s.block blk).lid).q = 0 then s.testBarrier (s.partyOf blk) (.atPbar id) true else s)

/-! ### Barrier objects (R211, R212) -/

/-- The object after `n` arrivals. -/
def arriveNew (old n : Nat) : Nat :=
  let count := sInt 32 (old % 2 ^ 32) - n
  let quota := bitsOf old 47 32
  if n = 0 then old
  else if 0 < count then old / 2 ^ 32 * 2 ^ 32 + (wordOfInt count).toNat
  else (bitsOf old 63 48 + 1) % 2 ^ 16 * 2 ^ 48 + quota * 2 ^ 32 + quota

/-- An arrival at the object's ordering point, made from a core; `pins` as in `State.perform`. Its old value and completion time,
or none on a poisoned object. -/
def State.arrive (s : State) (core : Nat) (pins : Bool) (p : Place) (n : Nat) : State × Option (Nat × Nat) :=
  if s.poisoned p 8 then (s, none)
  else
    let old := s.numAt p 8
    let ws : List ByteWrite := [{ place := p, bytes := leBytes 8 (arriveNew old n) }]
    (s.perform (some core) pins ws, some (old, s.completionOf ws))

/-- The arrival at issue: release, read-modify-write, and the old high word to d (R153, R212); it ends a quantum (R173). -/
def State.arriveNow (s1 : State) (d b : Reg) (hnum : Nat) (e : Entry) (as : List LaneAddr) (p : Place) : Out :=
  let n := s1.orderBound
  if s1.releaseMet s1.cur e.scope n = false then settle s1 (.error (.stall (.passed n (heldOf e as))))
  else
    match s1.accessReady 8 as 0 with
    | .error st => settle s1 (.error (keepPassed e as n st))
    | .ok _ =>
      match s1.arrive s1.curCore true p (s1.u b).toNat with
      | (s2, none) => settle s2 (.error (.trap (memerr hnum 2 false as)))
      | (s2, some (old, ct)) =>
        let s3 := s2.putCur { s2.cur with ct := max s2.cur.ct ct, qended := s2.cur.qended || decide (s1.curLaunch.q ≠ 0) }
        .next (s3.put d (BitVec.ofNat 32 (old / 2 ^ 32))).advanceClose

/-- GARRIVE; on a global object in ordered mode the arrival closes the quantum and is made at the commit (R173). -/
def execGarrive (d a b : Reg) (s : State) : Out :=
  match s.groupRegs [d] [a, a + 1, b] with
  | .error e => settle s.openRegion (.error e)
  | .ok _ =>
    let s := s.openRegion
    if s.acquireOut then settle s (.error (.stall .acquire))
    else
      let hnum := (s.u a).toNat
      let (s1, r) := atomCheck s hnum 8 [(s.leader, (s.u (a + 1)).toNat)]
      match r with
      | .error e => settle s1 (.error e)
      | .ok (e, as) =>
        let p := (as.map (·.place)).headD (.host 0)
        match p with
        | .glob pa va =>
          if s1.curLaunch.q = 0 then s1.arriveNow d b hnum e as p
          else
            let g := s1.cur
            let al : List AtomLane := [{ lane := s1.leader, pa := pa, va := va, x := s1.u b, x2 := 0 }]
            let c : Closing :=
              { id := g.nextId, op := 0xB3, scope := e.scope, sp := s1.cs, pc := s1.csp.pc, lanes := al, d := g.loc s1.csp d, d2 := g.loc s1.csp d }
            .next ((s1.putCur { g with closing := some c, nextId := g.nextId + 1, qended := true }).issueWait .awaiting)
        | _ => s1.arriveNow d b hnum e as p

end Sys2Proof.Machine
end

