-- ==== Sys2Proof/Machine/Translation.lean ====
section
/-! DEFINITION. First-touch mapping, splinters and invalidation (spec/17_system.md R282; spec/18_translation.md R302-R306): opcodes 0xAC-0xAE
and the events GMAP_DONE, GSPLINTER_DONE and INVALIDATION_COMPLETE. -/
namespace Sys2Proof.Machine
open Sys2Proof

/-! ### Page-table entries and pools -/

/-- A valid leaf at a level (R297). -/
def leafAt (l : Level) (e : Nat) : Bool :=
  e.testBit 63 && e.testBit 62 && l.leaf && decide (pteAddr e % 2 ^ l.shift = 0)

/-- A valid pointer at a level (R297). -/
def pointerAt (l : Level) (e : Nat) : Bool :=
  e.testBit 63 && !e.testBit 62 && decide (l.align ≠ 0) && decide (pteAddr e % l.align = 0)

/-- Where a descent by at most `n` pointers ends: the pointers left, the level, and the entry with its address. -/
structure Descent where
  left : Nat
  level : Level
  at' : Nat
  entry : Nat
  deriving DecidableEq, Repr

def State.descend (s : State) (va : Nat) : List Level → Nat → Nat → Option Descent
  | [], _, _ => none
  | l :: rest, n, table =>
    let at' := pteAt l table va
    let e := s.physNum at' 8
    match n with
    | 0 => some { left := 0, level := l, at' := at', entry := e }
    | k + 1 => if pointerAt l e then s.descend va rest k (pteAddr e) else some { left := k + 1, level := l, at' := at', entry := e }

/-- Some valid leaf lies in a table or below it. -/
def State.anyLeaf (s : State) : List Level → Nat → Bool
  | [], _ => false
  | l :: rest, table =>
    (seqFrom 0 (2 ^ l.width)).any fun i =>
      let e := s.physNum (table + 8 * i) 8
      leafAt l e || (pointerAt l e && s.anyLeaf rest (pteAddr e))

/-- A word, doubleword or entry of the device's own is written at its slice. -/
def State.writeNum (s : State) (pa n v : Nat) : State := s.devPut [{ place := .glob pa 0, bytes := leBytes n v }]

/-- The number of free entries of a pool of a context (R307); pools 0-4 hold 64 KiB, 2 MiB and 512 MiB pages and 256-byte and
2 KiB tables. -/
def State.poolCount (s : State) (ctx k : Nat) : Nat :=
  match mapFind (s.context ctx).pools k with
  | some p => s.physNum p 8
  | none => 0

/-- R307: the entry at index count − 1, which leaves its pool. -/
def State.poolTake (s : State) (ctx k : Nat) : State × Nat :=
  match mapFind (s.context ctx).pools k with
  | some p =>
    let n := s.physNum p 8
    (s.writeNum p 8 (n - 1), s.physNum (p + 8 * n) 8)
  | none => (s, 0)

/-- The pool of the table that a level's pointer names; 4 KiB tables have none. -/
def tablePool (l : Level) : Option Nat :=
  match l.align with
  | 256 => some 3
  | 2048 => some 4
  | _ => none

/-! ### gmap (R282) -/

/-- The pools that a first-touch page needs below an unmapped entry: a table for each level that is missing, and the page. -/
def neededPools (pagePool : Nat) : List Level → Nat → List (Option Nat)
  | _, 0 => [some pagePool]
  | [], _ => [none]
  | l :: rest, n + 1 => tablePool l :: neededPools pagePool rest n

/-- A table whose entries are all first-touch. -/
def State.fillFt (s : State) (table n : Nat) : State :=
  (seqFrom 0 n).foldl (fun s i => s.writeNum (table + 8 * i) 8 (2 ^ 58)) s

/-- The missing tables and the leaf are written, from the top down: `lv` are the levels from the entry at `at'` on. -/
def State.mapDown (s : State) (ctx va pagePool : Nat) : List Level → Nat → Nat → State
  | _, 0, at' =>
    let (s, page) := s.poolTake ctx pagePool
    s.writeNum at' 8 (2 ^ 63 + 2 ^ 62 + 2 ^ 61 + 2 ^ 60 + page)
  | l :: m :: rest, n + 1, at' =>
    let (s, table) := s.poolTake ctx ((tablePool l).getD 0)
    let s := s.fillFt table (2 ^ m.width)
    let s := s.writeNum at' 8 (2 ^ 63 + table)
    s.mapDown ctx va pagePool (m :: rest) n (pteAt m table va)
  | _, _, _ => s

/-- The decision on one mapping (R282): `level` is 4, 3 or 2 for 64 KiB, 2 MiB and 512 MiB. The statuses are tested in the order 1,
4, 3, 2. -/
def State.gmapDecide (s : State) (ctx va level : Nat) : State × Word :=
  if 2 ^ 48 ≤ va then (s, 3)
  else
    match s.descend va levels (level - 1) (s.context ctx).root with
    | none => (s, 3)
    | some d =>
      let below := levels.drop (level - d.left)
      if leafAt d.level d.entry then (s, 1)
      else if pointerAt d.level d.entry then (s, if s.anyLeaf below (pteAddr d.entry) then 4 else 3)
      else if d.entry.testBit 63 ∨ d.entry.testBit 58 = false then (s, 3)
      else
        let from' := levels.drop (level - 1 - d.left)
        let pagePool := 4 - level
        let pools := neededPools pagePool from' d.left
        let empty := pools.any fun p => match p with
          | none => true
          | some k => decide (s.poolCount ctx k = 0)
        if empty then (s, 2) else (s.mapDown ctx va pagePool from' d.left d.at', 0)

/-- GMAP: the mapping is decided when GMAP_DONE comes. -/
def execGmap (d a b : Reg) (m : BitVec 3) (s : State) : Out :=
  match andThen s.needPriv (s.groupRegs [d] [a, b]) with
  | .error e => settle s (.error e)
  | .ok _ =>
    let level := 4 - m.toNat
    let shift := 16 + (if m = 1 then 5 else if m = 2 then 13 else 0)
    let va := ((s.u b).toNat * 2 ^ 32 + (s.u a).toNat) / 2 ^ shift * 2 ^ shift
    .next (s.pend (.map va level) d 400).advance

/-- A decision on the mapping of an address waits: an entry on its walk, or the top of one of its context's pools, is under test (R159). -/
def State.mapBusy (s : State) (ctx va : Nat) : Bool :=
  s.walkBusy ctx va || (!s.march.isEmpty && (s.context ctx).pools.any fun e => s.underTest noCore
    [.glob e.2 0, .glob (e.2 + 8 * s.poolCount ctx e.1) 0])

/-- GMAP_DONE. -/
def execGmapDone (g id : Nat) (s : State) : Out :=
  match (s.group g).pendOf id with
  | some p =>
    match p.op with
    | .map va level =>
      if s.mapBusy (s.block (s.group g).blk).ctx va then .next s
      else
      let (s1, st) := s.gmapDecide (s.block (s.group g).blk).ctx va level
      .next (s1.endPend g p st)
    | _ => .next s
  | none => .next s

/-! ### Operations that hold their split (R302, R304, R310, R311) -/

/-- The operation is recorded and its split descheduled until an event writes d. -/
def State.pendHold (s : State) (op : PendOp) (d : Reg) (delay : Nat) : State := (s.pend op d delay).issueWait .awaiting

/-- The pending operation that holds a split. -/
def Group.heldPend (g : Group) (sp : Nat) : Option Pend :=
  g.pends.find? fun p => decide (p.sp = sp) && (match p.op with
    | .decl _ => false
    | .map _ _ => false
    | _ => true)

/-- d is written and the split goes on, unless its group has stopped (R354). -/
def State.endHold (s : State) (gk : Nat) (p : Pend) (v : Word) : State :=
  let s := s.endPend gk p v
  let g := s.group gk
  match mapFind g.splits p.sp with
  | some sp => if sp.st = .halted then s else s.putGroup gk (g.putSplit p.sp { sp with pc := sp.pc + 4, st := .running })
  | none => s

/-- A status that is known at issue. -/
def State.answer (s : State) (d : Reg) (v : Word) : Out := .next (s.put d v).advance

/-! ### gsplinter (R302) -/

/-- The splinter of a leaf: the status, with a table of smaller leaves in its place on 0. -/
def State.splinter (s : State) (ctx va level : Nat) : State × Word :=
  match s.descend va levels (level - 1) (s.context ctx).root with
  | none => (s, 1)
  | some d =>
    if d.left ≠ 0 ∨ leafAt d.level d.entry = false then (s, 1)
    else
      match tablePool d.level with
      | none => (s, 1)
      | some k =>
        if s.poolCount ctx k = 0 then (s, 2)
        else
          let (s, table) := s.poolTake ctx k
          let n := if level = 3 then 32 else 256
          let step := if level = 3 then 2 ^ 16 else 2 ^ 21
          let perm := bitsOf d.entry 61 59 * 2 ^ 59
          let s := (seqFrom 0 n).foldl (fun s i =>
            s.writeNum (table + 8 * i) 8 (2 ^ 63 + 2 ^ 62 + perm + pteAddr d.entry + i * step)) s
          (s.writeNum d.at' 8 (2 ^ 63 + table), 0)

/-- GSPLINTER. -/
def execGsplinter (d a : Reg) (m : BitVec 3) (s : State) : Out :=
  match andThen s.needPriv (s.groupRegs [d] [a]) with
  | .error e => settle s (.error e)
  | .ok _ =>
    let n := s.orderBound
    if s.cur.anyStoreBefore n then settle s (.error (.stall (.drained n)))
    else .next (s.pendHold (.splinter ((s.u a).toNat * 65536) (3 - m.toNat)) d 600)

/-- GSPLINTER_DONE. -/
def execGsplinterDone (g sp : Nat) (s : State) : Out :=
  match (s.group g).heldPend sp with
  | some p =>
    match p.op with
    | .splinter va level =>
      if s.mapBusy (s.block (s.group g).blk).ctx va then .next s
      else
      let (s1, st) := s.splinter (s.block (s.group g).blk).ctx va level
      .next (s1.endHold g p st)
    | _ => .next s
  | none => .next s

/-! ### ginval (R45, R191, R192, R204, R303-R305) -/

/-- The physical pages under the executable leaves of a range. -/
def State.execPages (s : State) (ctx a n : Nat) : List Nat :=
  (seqFrom a n).filterMap fun p =>
    match s.pageLeaf ctx p with
    | some (pp, leaf) => if leaf.testBit 59 then some pp else none
    | none => none

/-- Counts rise by 1 for each listed page, or fall (R303). One that is 0 already stays 0: R304 does not say what becomes of it (log entry 83). -/
def countPages (up : Bool) (m : SMap Nat) (ps : List Nat) : SMap Nat :=
  ps.foldl (fun m p => mapSet 0 m p (if up then mapGet 0 m p + 1 else mapGet 0 m p - 1)) m

/-- A virtual page lies in a range. -/
def inRange (a n page : Nat) : Bool := decide (a ≤ page) && decide (page < a + n)

/-- A covered wait loses its entry, and its split issues it again (R204), for which a block that is off its core becomes Ready (log entry
57). -/
def State.setBackWaits (s : State) (ctx a n : Nat) : State :=
  s.groups.foldl (fun s e =>
    let g := s.group e.1
    match g.wait with
    | none => s
    | some r =>
      match r.place with
      | .glob _ va =>
        if r.ended.isNone && decide ((s.block g.blk).ctx = ctx) && inRange a n (va / 65536) then
          let g := g.unretire (g.split r.sp) (s.ordQ e.1)
          markReady (s.putGroup e.1 (({ g with wait := none } : Group).putSplit r.sp { g.split r.sp with st := .running })) g.blk
        else s
      | _ => s) s

/-- Where the completion word and the dependence of a launch lie once the mapping of a range has changed: a dependence in the range is
registered again. One that no page holds is lost until a page holds it (log entry 62). -/
def State.remapLaunch (s : State) (ctx a n : Nat) (l : Launch) : Launch :=
  if l.ctx ≠ ctx then l
  else
    let at' := s.virtPa ctx l.compVa
    let l := if inRange a n (l.compVa / 65536) then { l with comp := at'.getD l.comp, compLost := at'.isNone } else l
    match l.dep with
    | some d =>
      match d.place with
      | .glob pa va =>
        if inRange a n (va / 65536) && !d.satisfied then
          let moved := s.virtPa ctx va
          { l with dep := some { d with place := .glob (moved.getD pa) va, registered := false, spilled := false, lost := moved.isNone } }
        else l
      | _ => l
    | none => l

/-- The pinned copies of a range that the table no longer maps where their tags say, or no longer lets be read, are found by their tags no more
(R305). -/
def State.untag (s : State) (ctx a n : Nat) : State :=
  { s with cores := s.cores.map fun (c : Nat × Core) =>
      (c.1, { c.2 with pins := c.2.pins.map fun p =>
        if p.ctx = ctx ∧ inRange a n (p.vl / 512) = true then { p with tagged := s.lineReadable ctx p.vl p.pl }
        else p }) }

/-- A TLB entry of a context overlaps a range of pages. -/
def TlbEnt.meets (e : TlbEnt) (ctx a n : Nat) : Bool := decide (e.ctx = ctx) && decide (e.vpn < a + n) && decide (a < e.vpn + e.pages)

/-- R305: TLB entries and L1 lines of the range go, on every core, its waits are set back, and its launches follow the new mapping. -/
def State.dropRange (s : State) (ctx a n : Nat) : State :=
  let keep := fun (e : TlbEnt) => !e.meets ctx a n
  let s1 : State := { s with
    clusters := s.clusters.map fun (c : Nat × Cluster) => (c.1, { c.2 with tlb := c.2.tlb.filter keep })
    lltlb := s.lltlb.map fun (c : Nat × List TlbEnt) => (c.1, c.2.filter keep)
    cores := s.cores.map fun (c : Nat × Core) =>
      (c.1, { c.2 with l1 := c.2.l1.filter fun l => !(decide (l.ctx = ctx) && inRange a n (l.vl / 512)) }) }
  let s2 := s1.setBackWaits ctx a n
  { s2 with launches := s2.launches.map fun (e : Nat × Launch) => (e.1, s2.remapLaunch ctx a n e.2) }

/-- R191: Resident copies of covered bundles are evicted. -/
def State.evictResident (s : State) (ctx a n : Nat) : State :=
  { s with cores := s.cores.map fun (c : Nat × Core) =>
      (c.1, (c.2.bundles.filter fun b => decide (b.st = .resident) && s.covers ctx a n b).foldl
        (fun co b => Core.evict co b.lid b.id) c.2) }

/-- R192: every copy of the covered bundles goes, and the groups inside are marked. -/
def State.revokeRange (s : State) (ctx a n : Nat) : State :=
  let ids := fun (core : Nat) => ((s.core core).bundles.filter (s.covers ctx a n)).map fun b => (b.lid, b.id)
  let mark := fun (g : Group) =>
    let b := s.block g.blk
    if b.ctx = ctx ∧ b.onCore = true then
      ((ids b.core).filter fun x => decide (x.1 = b.lid) && g.entered.getLsbD x.2).foldl
        (fun g x => g.revoke x.2 (((s.bundleOf b.lid x.2).map (·.ext)).getD [])) g
    else g
  let s1 : State := { s with
    groups := s.groups.map fun (e : Nat × Group) => (e.1, mark e.2)
    cores := s.cores.map fun (c : Nat × Core) =>
      (c.1, (ids c.1).foldl (fun co x => Core.evict co x.1 x.2) c.2) }
  s1.launches.foldl (fun s e => s.sweepDropped e.1) s1

/-- The bundle requests that fill or join a covered bundle and have not written their tokens, by group and id (R192, R305). -/
def State.openFills (s : State) (ctx a n : Nat) : List (Nat × Nat) :=
  s.cores.flatMap fun c => (c.2.fills.filter fun f =>
    let lid := (s.block (s.group f.g).blk).lid
    c.2.bundles.any fun b => decide (b.lid = lid) && f.mask.getLsbD b.id && s.covers ctx a n b).map fun f => (f.g, f.id)

/-- The accesses and commands that are under way through one of these virtual pages of a context (R305). -/
def State.openAccs (s : State) (ctx a n : Nat) : Drain :=
  let hit := fun (ps : List Nat) => ps.any (inRange a n)
  let gs := s.groups.filter fun e => decide ((s.block e.2.blk).ctx = ctx)
  { accs := gs.flatMap fun e =>
      (((e.2.ploads.filter fun p => hit p.pages).map (·.id)) ++ ((e.2.pstores.filter fun p => hit p.pages).map (·.id)) ++
        ((e.2.hsts.filter fun h => hit (pagesOf (h.writes.map (·.place)))).map (·.id)) ++
        ((e.2.closing.toList.filter fun c => hit (c.lanes.map fun l => l.va / 65536)).map (·.id))).map fun i => (e.1, i)
    cmds := (s.commands.filter fun c => decide ((s.block (s.group c.g).blk).ctx = ctx) && hit c.pages).map (·.id)
    fills := [], revoked := false }

/-- The writes that are still to reach one of these physical pages through translations of any context (R45). -/
def State.openWrites (s : State) (pages : List Nat) : Drain :=
  let hit := fun (w : ByteWrite) => match w.place with
    | .glob pa _ => pages.contains (pa / 65536)
    | _ => false
  { accs := s.groups.flatMap fun e =>
      (((e.2.hsts.filter fun h => h.writes.any hit).map (·.id)) ++
        (if e.2.qbuf.any hit then (e.2.pstores.filter (·.buffered)).map (·.id) else []) ++
        ((e.2.closing.toList.filter fun c => c.lanes.any fun l => pages.contains (l.pa / 65536)).map (·.id))).map fun i => (e.1, i)
    cmds := (s.commands.filter fun c => (c.xl.any fun x => pages.contains x.2) || (match c.arr with
      | some (.glob pa _, _) => pages.contains (pa / 65536)
      | _ => false)).map (·.id)
    fills := [], revoked := false }

/-- The group's access `id` has not yet been performed and acknowledged. -/
def Group.openAcc (g : Group) (id : Nat) : Bool :=
  g.ploads.any (fun p => decide (p.id = id)) || g.pstores.any (fun p => decide (p.id = id)) || g.hsts.any (fun h => decide (h.id = id)) ||
    g.closing.any fun c => decide (c.id = id)

/-- What of a drain is still under way. -/
def State.drainLeft (s : State) (d : Drain) : Drain :=
  { d with
    accs := d.accs.filter fun x => (s.group x.1).openAcc x.2
    cmds := d.cmds.filter fun i => s.commands.any fun c => decide (c.id = i)
    fills := d.fills.filter fun x => s.cores.any fun c => c.2.fills.any fun f => decide (f.g = x.1) && decide (f.id = x.2) }

/-- Nothing is. -/
def Drain.over (d : Drain) : Bool := d.accs.isEmpty && d.cmds.isEmpty && d.fills.isEmpty

/-- The checks of R304 before anything is removed, for the kinds with a range of pages: a status other than 0. -/
def State.invalStatus (s : State) (kind ctx a n : Nat) : Option Word :=
  if n = 0 then some 0
  else if kind = 1 then none
  else if 2 ^ 32 < a + n then some 1
  else if kind ≠ 2 then none
  else if 64 < n ∨ (s.execPages ctx a n).length ≠ n then some 2
  else if ((s.execPages ctx a n).any fun p => decide (65535 < mapGet 0 (countPages true s.xcount (s.execPages ctx a n)) p)) then some 3
  else none

/-- A walk of a page of the range reads an entry under test (R159). -/
def State.rangeBusy (s : State) (ctx a n : Nat) : Bool := !s.march.isEmpty && (seqFrom a n).any fun p => s.walkBusy ctx (p * 65536)

/-- The checks of a `ginval` read the leaves of its range: those of `.xon` and `.xoff` (R304). -/
def invalReads (kind a n : Nat) : Bool := decide (a + n ≤ 2 ^ 32) && (decide (kind = 3) || (decide (kind = 2) && decide (n ≤ 64)))

/-- `ginval` of a kind: 0 `.pg`, 1 `.hnd`, 2 `.xon`, 3 `.xoff`, 4 `.rvk`. -/
def invalOp (s : State) (kind : Nat) (d a b : Reg) : Out :=
  match andThen s.needPriv (s.groupRegs [d] [a, b]) with
  | .error e => settle s (.error e)
  | .ok _ =>
    let bound := s.orderBound
    if s.cur.anyStoreBefore bound ∨ s.now ≤ s.cur.ct then settle s (.error (.stall (.drained bound)))
    else
      let p := (s.u a).toNat
      let n := (s.u b).toNat
      if invalReads kind p n && s.rangeBusy s.curCtx p n then settle s (.error (.stall .full))
      else
      match s.invalStatus kind s.curCtx p n with
      | some st => s.answer d st
      | none =>
        let pages := s.execPages s.curCtx p n
        let s := match kind with
          | 2 => { s with frozen := (pages ++ s.frozen).eraseDups }
          | 3 => { s with xcount := countPages false s.xcount pages }
          | _ => s
        let old := if kind = 2 then some (s.openWrites pages) else none
        .next (s.pendHold (.inval (if kind = 3 then 0 else kind) p n (if kind = 2 then pages else []) old) d
          (if kind = 2 then 300 + 2048 * n else 300))

/-- GINVAL_PG. -/
def execGinvalPg (d a b : Reg) (s : State) : Out := invalOp s 0 d a b
/-- GINVAL_HND. -/
def execGinvalHnd (d a b : Reg) (s : State) : Out := invalOp s 1 d a b
/-- GINVAL_XON. -/
def execGinvalXon (d a b : Reg) (s : State) : Out := invalOp s 2 d a b
/-- GINVAL_XOFF. -/
def execGinvalXoff (d a b : Reg) (s : State) : Out := invalOp s 3 d a b
/-- GINVAL_RVK. -/
def execGinvalRvk (d a b : Reg) (s : State) : Out := invalOp s 4 d a b

/-- R45: the frozen pages are scanned, as one range; the first offending word with its reason. -/
def State.scanPages (s : State) (ctx : Nat) (pages : List Nat) : Option (Nat × Nat) :=
  let control := s.blocks.any fun b => b.2.control && decide (b.2.ctx = ctx)
  let n := pages.length
  scanRange (fun i => s.physNum ((pages[i / 16384]?).getD 0 * 65536 + i % 16384 * 4) 4) (n * 16384) control (n * 16384) 0

/-- R45: the freeze ends for the pages of a range, but for those that another request has frozen too; an accepted page needs none. -/
def State.thaw (s : State) (pages : List Nat) : State :=
  let others := s.groups.flatMap fun e => e.2.pends.flatMap fun p => match p.op with
    | .inval _ _ _ ps _ => ps
    | _ => []
  { s with frozen := s.frozen.filter fun p => !pages.contains p || others.contains p }

/-- The pending operation of a group goes on as another. -/
def State.setPend (s : State) (gk : Nat) (p : Pend) (op : PendOp) : State :=
  let g := s.group gk
  s.putGroup gk { g with pends := g.pends.map fun x => if x.id = p.id then { x with op := op } else x }

/-- The removal of a range (R191, R305), and what it then waits for; kind 5 is an accepted `.xon`. -/
def State.startDrain (s : State) (kind ctx a n : Nat) : State × Drain :=
  let d := { s.openAccs ctx a n with fills := if kind = 5 then s.openFills ctx a n else [] }
  let s := s.dropRange ctx a n
  (s, d)

/-- A TLB entry says of a page of the range what the table no longer says. -/
def State.entryStale (s : State) (a n : Nat) (e : TlbEnt) : Bool :=
  (seqFrom (max a e.vpn) (min (a + n) (e.vpn + e.pages) - max a e.vpn)).any fun p =>
    match s.pageLeaf e.ctx p with
    | some (page, leaf) => decide (page ≠ pteAddr e.leaf.toNat / 65536 + (p - e.vpn)) || decide (bitsOf leaf 61 59 ≠ bitsOf e.leaf.toNat 61 59)
    | none => true

/-- A TLB has taken up an entry of the range during a drain, and the table has changed since (R305). -/
def State.rangeStale (s : State) (ctx a n : Nat) : Bool :=
  let stale := fun (t : List TlbEnt) => t.any fun e => e.meets ctx a n && s.entryStale a n e
  (s.clusters.any fun c => stale c.2.tlb) || s.lltlb.any fun c => stale c.2

/-- The drain of a range (R191, R192, R305): once nothing is under way, the range goes once more with what was taken up during the drain, no
pinned copy is found through the old mapping, and d is 0. Where the table has changed since an entry was taken up, accesses may be under way
through it, and the drain begins again (log entry 84). -/
def State.drainInval (s : State) (gk : Nat) (p : Pend) (kind ctx a n : Nat) (d : Drain) : State :=
  let (s, d) := if kind = 4 ∧ d.revoked = false ∧ s.openFills ctx a n = [] then (s.revokeRange ctx a n, { d with revoked := true }) else (s, d)
  let s := if kind = 5 then s else s.evictResident ctx a n
  let d := s.drainLeft d
  let open' := match kind with
    | 4 => !d.revoked
    | 5 => false
    | _ => s.bundleOpen ctx a n
  if d.over && !open' && !s.rangeBusy ctx a n then
    if s.rangeStale ctx a n then
      let (s, d) := s.startDrain kind ctx a n
      s.setPend gk p (.inval kind a n [] (some d))
    else ((s.dropRange ctx a n).untag ctx a n).endHold gk p 0
  else s.setPend gk p (.inval kind a n [] (some d))

/-- Removal and drain, as far as they have come. -/
def State.removeRange (s : State) (gk : Nat) (p : Pend) (kind ctx a n : Nat) (old : Option Drain) : State :=
  match old with
  | some d => s.drainInval gk p kind ctx a n d
  | none =>
    let (s, d) := s.startDrain kind ctx a n
    s.drainInval gk p kind ctx a n d

/-- INVALIDATION_COMPLETE. A `.xon` scans once the writes to its frozen pages have landed (R45) and none of their rows is under test (R159), and
goes on as kind 5 where they are accepted. A `.hnd` removes the entries of its range of both tables of the context, as R304 names neither (log
entry 83). -/
def execInvalidationComplete (g sp : Nat) (s : State) : Out :=
  match (s.group g).heldPend sp with
  | none => .next s
  | some p =>
    let ctx := (s.block (s.group g).blk).ctx
    match p.op with
    | .inval kind a n pages old =>
      if kind = 1 then
        let s1 : State := { s with cores := s.cores.map fun (c : Nat × Core) =>
          (c.1, { c.2 with hcache := c.2.hcache.filter fun e => !(decide (e.ctx = ctx) && inRange a n e.idx) }) }
        .next (s1.endHold g p 0)
      else if kind = 2 then
        let d := s.drainLeft (old.getD { accs := [], cmds := [], fills := [], revoked := false })
        if !d.over || s.rangesTested [] pages then .next (s.setPend g p (.inval kind a n pages (some d)))
        else
          match s.scanPages ctx pages with
          | some (k, r) => .next ((s.endHold g p (BitVec.ofNat 32 (k * 2 ^ 12 + r * 2 ^ 8 + 0x0F))).thaw pages)
          | none =>
            let s1 : State := { s with xcount := countPages true s.xcount pages }
            .next ((s1.removeRange g p 5 ctx a n none).thaw pages)
      else .next (s.removeRange g p kind ctx a n old)
    | _ => .next s

end Sys2Proof.Machine
end

