-- ==== Sys2Proof/Machine/Image.lean ====
section
/-! DEFINITION. Context images in memory (spec/04_group_instructions.md R70-R72; spec/17_system.md R291, R292;
spec/19_scheduling.md R308): their layouts, how a save writes them and how a restore reads them.

A restore reads every field of a group's image back. The fields for which the manual gives a place but no encoding (the state word of a
split, the wait record, the block state) are in an encoding of the model's own, and what an image has no place for (the register that a
wait writes, the snapshots of records, what a peer access has passed its checks with) stays as the save left it (log entry 20). -/
namespace Sys2Proof.Machine
open Sys2Proof

/-! ### Fields of a group's image (R291) -/

/-- A field of an image: its offset, its size, its value, and what reading it back sets. -/
structure ImgField where
  off : Nat
  size : Nat
  get : Group → Nat
  set : Group → Nat → Group

/-- A field that is only written. -/
def ImgField.out (off size : Nat) (get : Group → Nat) : ImgField := { off := off, size := size, get := get, set := fun g _ => g }

/-- The state word of a split, in the model's own encoding. -/
def stateCode (barrier pending : Bool) (sp : Split) : Nat :=
  let base := if pending then (if barrier then 8 else 7) else match sp.st with
    | .atJoin => 1
    | .atBar _ => 2
    | .atPbar _ => 3
    | .waiting => 4
    | .bundleQueue => 5
    | .heldFault => 6
    | .halted => 9
    | .stalled (.passed _ (some _)) => 10
    | _ => 0
  base + if sp.sup then 2 ^ 31 else 0

/-- The barrier of a waiting split, from 256 on those of a party. -/
def barOf (sp : Split) : Nat :=
  match sp.st with
  | .atBar i => i
  | .atPbar i => 256 + i
  | _ => 0

/-- The split's access to a peer's scratchpad has passed its checks (R323). -/
def SplitState.holdsAcc (st : SplitState) : Bool :=
  match st with
  | .stalled (.passed _ (some _)) => true
  | _ => false

/-- The state that a state word and its barrier tell: `stateCode` and `barOf` read back over the state that the save left, which keeps what
a peer access has passed its checks with. -/
def stateOf (code bar : Nat) (old : SplitState) : SplitState :=
  let atBar := if 256 ≤ bar then SplitState.atPbar (bar % 4) else .atBar (bar % 16)
  match code with
  | 1 => .atJoin
  | 2 => atBar
  | 3 => atBar
  | 4 => .waiting
  | 5 => .bundleQueue
  | 6 => .heldFault
  | 8 => atBar
  | 9 => .halted
  | 10 => if old.holdsAcc then old else .running
  | _ => .running

/-- The split record `j`: live for 0-3, then the split stack, oldest first. -/
def recordAt (g : Group) (j : Nat) : Option (Bool × Bool × Split) :=
  if j < 4 then (mapFind g.splits j).map fun sp => (false, false, sp)
  else (g.stack.reverse[j - 4]?).map fun r => (r.barrier, true, r.sp)

/-- A change to live split `i`, where there is one. -/
def Group.mapSplit (g : Group) (i : Nat) (f : Split → Split) : Group :=
  match mapFind g.splits i with
  | some sp => g.putSplit i (f sp)
  | none => g

/-- The fields of live split or record `j`. -/
def splitFields (j : Nat) : List ImgField :=
  let o := 0x10480 + 32 * j
  let get := fun (f : Bool × Bool × Split → Nat) (g : Group) => ((recordAt g j).map f).getD 0
  [.out o 8 (get fun r => r.2.2.pc.toNat), .out (o + 8) 4 (get fun r => r.2.2.members.toNat),
   .out (o + 12) 4 (get fun r => r.2.2.kix.toNat), .out (o + 16) 8 (get fun r => r.2.2.region.toNat),
   .out (o + 24) 4 (get fun r => stateCode r.1 r.2.1 r.2.2), .out (o + 28) 4 (get fun r => barOf r.2.2)]

/-- Record `j` of an image, of which `rd o n` is the number in `n` bytes at offset `o`: whether it is a barrier record, and its split over
what `old` keeps; a record without members is none. -/
def readSplit (rd : Nat → Nat → Nat) (j : Nat) (old : Split) : Option (Bool × Split) :=
  let o := 0x10480 + 32 * j
  let code := rd (o + 24) 4
  if rd (o + 8) 4 = 0 then none
  else
    some (decide (code % 2 ^ 31 = 8),
      { old with
        pc := BitVec.ofNat 64 (rd o 8), members := BitVec.ofNat 32 (rd (o + 8) 4), kix := BitVec.ofNat 32 (rd (o + 12) 4)
        region := BitVec.ofNat 64 (rd (o + 16) 8), st := stateOf (code % 2 ^ 31) (rd (o + 28) 4) old.st, sup := code.testBit 31 })

/-- The live splits and the split stack of an image. -/
def readSplits (rd : Nat → Nat → Nat) (g : Group) : Group :=
  let live := (seqFrom 0 4).filterMap fun j => (readSplit rd j (g.split j)).map fun r => (j, r.2)
  let stack := (seqFrom 4 28).filterMap fun j =>
    (readSplit rd j (((g.stack.reverse[j - 4]?).map (·.sp)).getD { Split.none with age := g.blk * 32 + g.gid })).map fun r =>
      { barrier := r.1, sp := r.2 : SplitRec }
  { g with splits := live, stack := stack.reverse }

/-- The region snapshot of live split `i`. -/
def snapFields (i : Nat) : List ImgField :=
  let o := 0x10920 + 192 * i
  let get := fun (f : Snapshot → Nat) (g : Group) => ((mapFind g.splits i).map fun sp => f sp.snap).getD 0
  let set := fun (f : Nat → Snapshot → Snapshot) (g : Group) (v : Nat) => g.mapSplit i fun sp => { sp with snap := f v sp.snap }
  ((seqFrom 0 32).map fun l =>
    { off := o + l, size := 1, get := get fun n => (mapGet 0 n.cnt l).toNat
      set := set fun v n => { n with cnt := mapSet 0 n.cnt l (BitVec.ofNat 8 v) } : ImgField }) ++
  [{ off := o + 32, size := 4, get := get fun n => n.kix.toNat, set := set fun v n => { n with kix := BitVec.ofNat 32 v } }] ++
  ((seqFrom 0 32).map fun l =>
    { off := o + 36 + 4 * l, size := 4, get := get fun n => (mapGet 0 n.gen l).toNat
      set := set fun v n => { n with gen := mapSet 0 n.gen l (BitVec.ofNat 32 v) } : ImgField }) ++
  [{ off := o + 164, size := 8, get := get fun n => n.retired.toNat
     set := set fun v n => { n with retired := BitVec.ofNat 64 v } },
   { off := o + 172, size := 4, get := get fun n => n.fill, set := set fun v n => { n with fill := v } },
   { off := o + 176, size := 4, get := get fun n => n.quantum, set := set fun v n => { n with quantum := v } }]

/-- A change to the fault frame, where there is one. -/
def Group.mapFrame (g : Group) (f : Frame → Frame) : Group := { g with frame := g.frame.map f }

/-- The fault frame. -/
def frameFields : List ImgField :=
  let get := fun (f : Frame → Nat) (g : Group) => (g.frame.map f).getD 0
  [{ off := 0x10C20, size := 8, get := get fun f => f.pc.toNat
     set := fun g v => g.mapFrame fun f => { f with pc := BitVec.ofNat 64 v } },
   { off := 0x10C28, size := 4, get := get fun f => f.kix.toNat
     set := fun g v => g.mapFrame fun f => { f with kix := BitVec.ofNat 32 v } }] ++
  (seqFrom 0 32).map fun l =>
    { off := 0x10C2C + l, size := 1, get := get fun f => (mapGet 0 f.cnt l).toNat
      set := fun g v => g.mapFrame fun f => { f with cnt := mapSet 0 f.cnt l (BitVec.ofNat 8 v) } : ImgField }

/-- The wait record, packed in the model's own way. -/
def waitFields : List ImgField :=
  let get := fun (f : WaitRec → Nat) (g : Group) => (g.wait.map f).getD 0
  [.out 0x10440 4 (get fun r => r.hnum % 4096 + r.m % 8 * 2 ^ 12 + (if r.park then 2 ^ 15 else 0) +
      (if r.ended.isSome then 2 ^ 16 else 0) + ((r.ended.map fun e => e.2.toNat).getD 0) % 4 * 2 ^ 17),
   .out 0x10444 4 (get fun r => r.off), .out 0x10448 4 (get fun r => r.y.toNat), .out 0x1044C 4 (get fun r => r.mask.toNat),
   .out 0x10450 8 (get fun r => r.deadline.getD 0), .out 0x10458 4 (get fun r => (r.ended.map fun e => e.1.toNat).getD 0)]

/-- A wait record of an image, over what it has no place for; a wait that has ended at its slice keeps its end (R203). -/
def readWait (rd : Nat → Nat → Nat) (r : WaitRec) : WaitRec :=
  let w := rd 0x10440 4
  { r with
    hnum := w % 4096, m := w / 2 ^ 12 % 8, park := w.testBit 15, off := rd 0x10444 4, y := BitVec.ofNat 32 (rd 0x10448 4)
    mask := BitVec.ofNat 32 (rd 0x1044C 4), deadline := if rd 0x10450 8 = 0 then none else some (rd 0x10450 8)
    ended := match r.ended with
      | some e => some e
      | none => if w.testBit 16 then some (BitVec.ofNat 32 (rd 0x10458 4), BitVec.ofNat 32 (w / 2 ^ 17 % 4)) else none }

/-- The records of held faults, oldest first. -/
def heldFields : List ImgField :=
  (seqFrom 0 3).flatMap fun j =>
    let o := 0x10CE0 + 32 * j
    let get := fun (f : HeldFault → Nat) (g : Group) => ((g.held[j]?).map f).getD 0
    [.out o 4 (get fun h => (fcodeWord h.sp h.trap).toNat), .out (o + 4) 4 (get fun h => h.trap.mask.toNat),
     .out (o + 8) 8 (get fun h => h.trap.addr.toNat),
     .out (o + 16) 8 fun g => ((g.held[j]?).map fun h => (g.split h.sp).region.toNat).getD 0]

/-- The held faults of an image: the records with a code, older than every fault to come (R274). -/
def readHeld (rd : Nat → Nat → Nat) : List HeldFault :=
  (seqFrom 0 3).filterMap fun j =>
    let o := 0x10CE0 + 32 * j
    let c := rd o 4
    if c % 256 = 0 then none
    else
      let t : Trap := { code := c % 256, detail := c / 256 % 256, addr := BitVec.ofNat 64 (rd (o + 8) 8), mask := BitVec.ofNat 32 (rd (o + 4) 4),
                        part := c.testBit 16 }
      some { sp := c / 2 ^ 18 % 4, trap := t, since := 0 }

/-- The words of the group state at 0x10400. -/
def groupStateWord (g : Group) : Nat :=
  let parked := (g.wait.map fun r => r.park && r.ended.isNone).getD false
  let live := g.splits.foldl (fun m e => if e.2.sup then m + 2 ^ (4 + e.1) else m) 0
  (if parked then 1 else 0) + (if g.held.isEmpty && g.framed.isNone then 0 else 2) +
    (if live ≠ 0 || g.stack.any (fun r => r.sp.sup) then 4 else 0) + live

/-- The bits of a tile register that are not reserved (R230). -/
def tileBits : Dword := 0xFFFFFFFFF01FFFFF

/-- The scalar part of a group's image. -/
def groupFields : List ImgField :=
  [.out 0x10400 4 groupStateWord,
   { off := 0x10404, size := 4, get := fun g => Nat.log2 g.alloc, set := fun g v => { g with alloc := 2 ^ v } },
   { off := 0x10408, size := 4, get := fun g => g.kwto.toNat, set := fun g v => { g with kwto := BitVec.ofNat 32 v } },
   { off := 0x1040C, size := 4, get := fun g => g.khwin.toNat, set := fun g v => { g with khwin := BitVec.ofNat 32 v } },
   { off := 0x10410, size := 8, get := fun g => g.retired.toNat, set := fun g v => { g with retired := BitVec.ofNat 64 v } },
   { off := 0x10418, size := 8, get := fun g => g.ct, set := fun g v => { g with ct := v } },
   { off := 0x10420, size := 4, get := fun g => g.entered.toNat, set := fun g v => { g with entered := BitVec.ofNat 32 v } },
   { off := 0x10424, size := 8, get := fun g => g.nld + g.nst * 2 ^ 12 + g.neng * 2 ^ 24 + g.ntile * 2 ^ 36
     set := fun g v => { g with
       nld := bitsOf v 11 0, nst := bitsOf v 23 12, neng := bitsOf v 35 24, ntile := bitsOf v 47 36 } },
   { off := 0x10460, size := 4, get := fun g => g.fcode.toNat
     set := fun g v => { g with fcode := BitVec.ofNat 32 v &&& 0x000DFFFF } },
   { off := 0x10464, size := 4, get := fun g => g.fmask.toNat, set := fun g v => { g with fmask := BitVec.ofNat 32 v } },
   { off := 0x10468, size := 8, get := fun g => g.faddr.toNat, set := fun g v => { g with faddr := BitVec.ofNat 64 v } },
   { off := 0x10470, size := 8, get := fun g => g.fregion.toNat, set := fun g v => { g with fregion := BitVec.ofNat 64 v } }] ++
  ((seqFrom 0 32).map fun l =>
    { off := 0x10880 + l, size := 1, get := fun g => (mapGet 0 g.cnt l).toNat
      set := fun g v => { g with cnt := mapSet 0 g.cnt l (BitVec.ofNat 8 v) } : ImgField }) ++
  ((seqFrom 0 32).map fun l =>
    { off := 0x108A0 + 4 * l, size := 4, get := fun g => (mapGet 0 g.gen l).toNat
      set := fun g v => { g with gen := mapSet 0 g.gen l (BitVec.ofNat 32 v) } : ImgField }) ++
  ((seqFrom 0 16).map fun t =>
    { off := 0x10C60 + 8 * t, size := 8, get := fun g => (mapGet 0 g.tiles t).toNat
      set := fun g v => { g with tiles := mapSet 0 g.tiles t (BitVec.ofNat 64 v &&& tileBits) } : ImgField }) ++
  ((seqFrom 0 1024).map fun k =>
    { off := 0x11000 + 4 * k, size := 4, get := fun g => (mapGet 0 g.hregs k).toNat
      set := fun g v => { g with hregs := mapSet 0 g.hregs k (BitVec.ofNat 32 v) } : ImgField })

/-- The reserved bytes of the image, written as 0. -/
def reservedBytes : List (Nat × Nat) :=
  [(0x240, 0x1C0), (0x1042C, 0x14), (0x1045C, 4), (0x10478, 8), (0x10C4C, 0x14), (0x10D40, 0x2C0)] ++
    ((seqFrom 0 4).map fun i => (0x10920 + 192 * i + 180, 12)) ++ (seqFrom 0 3).map fun j => (0x10CE0 + 32 * j + 24, 8)

/-- Every field. -/
def imageFields : List ImgField :=
  groupFields ++ waitFields ++ (seqFrom 0 32).flatMap splitFields ++ (seqFrom 0 4).flatMap snapFields ++ frameFields ++ heldFields

/-! ### Saving and reading -/

/-- The written map (R70). -/
def writtenMap (ns : List Nat) : List Byte :=
  (seqFrom 0 64).map fun b => BitVec.ofNat 8 ((seqFrom 0 8).foldl (fun m i => if ns.contains (8 * b + i) then m + 2 ^ i else m) 0)

/-- The number of accumulators of a chain (R230, R238). -/
def Chain.size (c : Chain) : Nat := (bitsOf c.td.toNat 43 36 + 1) * (bitsOf c.td.toNat 35 28 + 1)

/-- The accumulator addition of R63. -/
def accAdd (a x : Word) : Word := (roundW 0 0 (fAdd false (f32v a) (f32v x))).1

/-- R241: the block sums of an unordered chain are added in an order that free values choose. -/
def addFree (free : Nat) : Nat → List Word → Word → Word
  | 0, _, v => v
  | n + 1, xs, v =>
    let i := if xs.length ≤ 1 then 0 else (Config.freeWord (free + n)).toNat % xs.length
    match xs[i]? with
    | none => v
    | some x => addFree free n (xs.eraseIdx i) (accAdd v x)

/-- Every block sum of a chain is in its accumulators. -/
def flushChain (free : Nat) (c : Chain) : Nat × Chain :=
  c.sums.foldl (fun (acc : Nat × Chain) e =>
    (acc.1 + e.2.length,
      { acc.2 with acc := mapSet 0 acc.2.acc e.1 (addFree acc.1 e.2.length e.2 (mapGet 0 acc.2.acc e.1)), sums := [] }))
    (free, c)

/-- The accumulators of a group's chains become definite. -/
def State.flushChains (s : State) (gk : Nat) : State :=
  let g := s.group gk
  if g.chains.isEmpty then s
  else
    let (free, cs) := g.chains.foldl (fun (acc : Nat × List Chain) c =>
      let (f, c) := flushChain acc.1 c
      (f, acc.2 ++ [c])) (s.free, [])
    ({ s with free := free } : State).putGroup gk { g with chains := cs }

/-- A chain's part of the image. -/
def State.writeChainAt (s : State) (ctx base : Nat) (c : Chain) : State :=
  s.virtPut ctx (base + 0x12000) (leBytes 8 c.td.toNat ++ leBytes 4 c.tile ++ leBytes 4 (if c.ordered then 1 else 0) ++
    leBytes 4 (bitsOf c.td.toNat 47 44) ++ leBytes 44 0 ++ (seqFrom 0 c.size).flatMap fun k => leBytes 4 (mapGet 0 c.acc k).toNat)

/-- The open chain of a group, as its image holds it. Where the engine has evicted it, its chain area holds it already (R238). -/
def State.writeChain (s : State) (ctx base : Nat) (g : Group) : State :=
  match g.chains.find? fun c => decide (g.chain = some c.num) with
  | none => s.virtPut ctx (base + 0x12000) (leBytes 64 0)
  | some c => if c.resident then s.writeChainAt ctx base c else s

/-- The fields of an image are written: all but its registers, its written map and its chain area. -/
def State.writeFields (s : State) (ctx base : Nat) (g : Group) : State :=
  let s := reservedBytes.foldl (fun s r => s.virtPut ctx (base + r.1) (leBytes r.2 0)) s
  imageFields.foldl (fun s f => s.virtPut ctx (base + f.off) (leBytes f.size (f.get g))) s

/-- R72, R291: the image of a group is written. A line that the image alone holds is written again where it has a value of a lane that has
exited (R103). -/
def State.writeImage (s : State) (ctx base : Nat) (g : Group) : State :=
  let s := g.dirty.foldl (fun s n => s.writeLine ctx base g n) s
  let s := (g.cold.filter (s.staleLine ctx base g)).foldl (fun s n => s.writeLine ctx base (s.readLine ctx base g n) n) s
  let s := s.virtPut ctx base (writtenMap (g.dirty.foldl addReg g.written))
  (s.writeFields ctx base g).writeChain ctx base g

/-- A chain whose accumulators have been written to its image leaves the engine (R238, R247); one that the image has no page for keeps
them (log entry 59). -/
def State.leaveEngine (s : State) (ctx base : Nat) (c : Chain) : Chain :=
  { c with
    resident := false
    acc := c.acc.filter fun e => (s.virtPa ctx (base + 0x12040 + 4 * e.1)).isNone }

/-- A canonical `res` word (R60). -/
def resCanon (x : Word) : Word := resWord (resA x) (resB x) (resC x)

/-- Accumulators come back from the chain area of an image (R238, R247), those of `res` reduced (R232). -/
def State.readChain (s : State) (ctx base : Nat) (c : Chain) : Chain :=
  { c with
    resident := true
    acc := (seqFrom 0 c.size).foldl (fun m k =>
      match s.virtNum ctx (base + 0x12040 + 4 * k) 4 with
      | some v => mapSet 0 m k (if bitsOf c.td.toNat 47 44 = 7 then resCanon (BitVec.ofNat 32 v) else BitVec.ofNat 32 v)
      | none => m) c.acc
    bad := ((seqFrom 0 c.size).filter fun k => match s.virtPa ctx (base + 0x12040 + 4 * k) with
      | some pa => s.poisoned (.glob pa 0) 4
      | none => false) ++ c.bad }

/-- The registers that a written map names. -/
def mapRegs (rd : Nat → Nat → Nat) : List Nat := (seqFrom 0 512).filter fun n => (rd (n / 8) 1).testBit (n % 8)

/-- The group after its image has been written: its lines are clean, and those that the image holds are there alone. -/
def State.afterSave (s : State) (ctx base : Nat) (g : Group) : Group :=
  let written := g.dirty.foldl addReg g.written
  let cold := written.filter fun n => s.lineMapped ctx base n
  { g with
    written := written, dirty := [], cold := cold, regs := g.regs.filter fun e => !cold.contains (e.1 / 32)
    win := { g.win with lines := [] } }

/-- Some split of an image waits. -/
def State.imageWaits (s : State) (ctx base : Nat) : Bool :=
  (seqFrom 0 4).any fun j => decide (((s.virtNum ctx (base + 0x10480 + 32 * j + 24) 4).getD 0) % 2 ^ 31 = 4)

/-- The fields of an image are read, all but its registers. What does not translate stays as the group had it. -/
def State.readFields (s : State) (ctx base : Nat) (g : Group) : Group :=
  let rd := fun o n => (s.virtNum ctx (base + o) n).getD 0
  let g := imageFields.foldl (fun g f =>
    match s.virtNum ctx (base + f.off) f.size with
    | some v => f.set g v
    | none => g) g
  if (s.virtPa ctx (base + 0x10480)).isSome then
    { readSplits rd g with held := readHeld rd, wait := g.wait.map (readWait rd) }
  else g

/-- A restore reads the image of a group; its registers are fetched as they are accessed (R72). A group that has lost its wait since the
save, by a fault or an invalidation (R204), goes on from what the device has recorded of that, and its image's fields are not read (log
entry 20). -/
def State.readImage (s : State) (ctx base : Nat) (g : Group) : Group :=
  let rd := fun o n => (s.virtNum ctx (base + o) n).getD 0
  let g := if g.wait.isNone && s.imageWaits ctx base then g else s.readFields ctx base g
  if (s.virtPa ctx base).isSome then
    let written := mapRegs rd
    { g with written := written, cold := written.filter fun n => s.lineMapped ctx base n }
  else g

/-! ### Block images (R292) -/

/-- The code of a block state, in the order of R286. -/
def BlockState.code : BlockState → Nat
  | .resident => 0
  | .stopping => 1
  | .saving => 2
  | .absent => 3
  | .ready => 4
  | .restoring => 5

/-- The groups of a block, by `K_GID`, that wait at a barrier. -/
def State.arrivals (s : State) (bk : Nat) (st : SplitState) : Nat :=
  (s.groupsOf bk).foldl (fun m k =>
    let g := s.group k
    if g.live && g.arrived st g.nextId then m + 2 ^ (g.gid % 32) else m) 0

/-- The groups of a block, by `K_GID`, of which some split waits at a barrier. -/
def State.barWaiters (s : State) (bk : Nat) (st : SplitState) : Nat :=
  (s.groupsOf bk).foldl (fun m k =>
    let g := s.group k
    if g.splits.any (fun e => decide (e.2.st = st)) || g.stack.any (fun r => decide (r.sp.st = st)) then m + 2 ^ (g.gid % 32) else m) 0

/-- R292: the image of a block that goes to state `st` is written, scratchpad included. -/
def State.writeBlockImage (s : State) (bk : Nat) (st : BlockState) : State :=
  let b := s.block bk
  let base := s.slotBase bk
  let head := leBytes 4 b.bid ++ leBytes 4 b.pid ++ leBytes 4 st.code ++ leBytes 4 b.reason ++ leBytes 8 (b.readmitted.getD 0) ++
    leBytes 40 0
  let bars := (seqFrom 0 16).flatMap fun i => leBytes 4 (s.arrivals bk (.atBar i)) ++ leBytes 4 (s.barWaiters bk (.atBar i))
  let pbars := (seqFrom 0 4).flatMap fun i => leBytes 8 (s.arrivals bk (.atPbar i))
  let waits := (seqFrom 0 64).flatMap fun i =>
    match ((s.groupsOf bk).filter fun k => match (s.group k).wait with
      | some r => (match r.place with
        | .scr _ _ => true
        | _ => false)
      | none => false)[i]? with
    | some k => (waitFields.flatMap fun f => leBytes f.size (f.get (s.group k))) ++ leBytes 4 0
    | none => leBytes 32 0
  let scr := (s.bytesAt (.scr b.core b.origin) b.scratch)
  s.virtPut b.ctx base (head ++ bars ++ pbars ++ leBytes 32 0 ++ waits ++ leBytes 0x700 0 ++ scr)

/-- The scratchpad contents in a block's image, line by line. -/
def State.readScratch (s : State) (bk : Nat) : SMap Byte :=
  let b := s.block bk
  (seqFrom 0 (ceilDiv b.scratch 128)).foldl (fun m j =>
    match s.virtPa b.ctx (s.slotBase bk + 0x1000 + 128 * j) with
    | some pa => (seqFrom 0 (min 128 (b.scratch - 128 * j))).foldl (fun m i =>
        mapSet zeroByte m (128 * j + i) (s.byteAt (.glob pa 0) i)) m
    | none => m) b.saved

end Sys2Proof.Machine
end

