-- ==== Sys2Proof/Machine/Launch.lean ====
section
/-! DEFINITION. Launch instructions (spec/19_scheduling.md R307-R313): opcodes 0xF0, 0xF1 and 0xF3, and the events GLAUNCH_DONE and
LAUNCH_FINISH, with the stop request of R289 that `gdrain.stop` sends. -/
namespace Sys2Proof.Machine
open Sys2Proof

/-! ### Stop requests (R289, R290) and the parties of blocks -/

/-- Some block of the context is on a core or on its way. -/
def State.ctxBusy (s : State) (ctx : Nat) : Bool :=
  s.blocks.any fun e => !e.2.control && decide (e.2.ctx = ctx) && (e.2.onCore || decide (e.2.st = .restoring))

/-- R311: waiting `gdrain` instructions whose condition holds receive d; a drain that has ended is charged to its context (R289). -/
def State.testDrains (s : State) : State :=
  let s := s.contexts.foldl (fun s e =>
    if e.2.stopPending && !s.ctxBusy e.1 then
      let c := s.context e.1
      s.putContext e.1 { c with stopPending := false, debt := c.debt + (s.now - c.stopAt - c.drain.toNat) }
    else s) s
  s.groups.foldl (fun s e =>
    e.2.pends.foldl (fun s p =>
      match p.op with
      | .drainWait ctx q =>
        if s.launches.any fun l => decide (l.2.ctx = ctx) && (decide (q = 0xFF) || decide (l.2.queue = q)) then s
        else (s.touch e.1 [p.loc]).endHold e.1 p 0
      | .drainStop ctx at' => if s.ctxBusy ctx then s else (s.touch e.1 [p.loc]).endHold e.1 p (BitVec.ofNat 32 (s.now - at'))
      | _ => s) s) s

/-- R184, R287: the user-mode requests of a block leave its core's bundle queue; they execute again after the restore. -/
def State.withdraw (s : State) (bk : Nat) : State :=
  let co := s.core (s.block bk).core
  if co.bqueue.isEmpty then s
  else
    s.putCore (s.block bk).core { co with
      bqueue := co.bqueue.filter fun r => !(s.groupsOf bk).contains r.g || ((s.group r.g).split r.sp).sup }

/-- R286: a block enters Stopping; in an ordered launch only at a quantum's end (R174), until which the request is kept. -/
def State.stopBlock (s : State) (bk reason : Nat) : State :=
  let b := s.block bk
  let l := s.launch b.lid
  if b.control then s
  else
    match b.st with
    | .resident =>
      if l.q = 0 ∨ l.boundary = true then
        (s.putBlock bk { b with st := .stopping, reason := reason, stopAt := s.now, readmitted := b.readmitted }).withdraw bk
      else s.putBlock bk { b with reason := reason }
    | .stopping => s.putBlock bk { b with reason := max b.reason reason }
    | .saving => s.putBlock bk { b with reason := max b.reason reason }
    | _ => s

/-- R290: a record of the split stack that is in its handler goes back to its region entry. -/
def dropRecord (q quantum : Nat) (g : Group) (r : SplitRec) : Group × SplitRec :=
  if r.sp.sup then
    (replayState g r.sp q quantum,
      { barrier := false, sp := { r.sp with sup := false, pc := r.sp.region, kix := r.sp.snap.kix, st := .running } })
  else (g, r)

/-- R290: every split of a pre-empted block that is in its handler loses its frame and goes back to its region entry, held faults are
dropped, and a wait of such a split goes with it; in an ordered launch a wait that is registered stays, and with it its split and its frame
(R326, log entry 60). -/
def dropHandlersOf (g : Group) (q quantum : Nat) : Group :=
  let stays := fun (i : Nat) => match g.wait with
    | some r => decide (q ≠ 0) && r.ended.isNone && decide (r.sp = i)
    | none => false
  let sups := (g.splits.filter fun e => (e.2.sup || decide (e.2.st = .heldFault)) && !stays e.1).map (·.1)
  let waitGone := match g.wait with
    | some r => sups.contains r.sp
    | none => false
  let inHandler := g.splits.any fun e => e.2.sup && stays e.1
  let back := fun (g : Group) (i : Nat) => replaySplit (g.putSplit i { g.split i with sup := false }) i q quantum
  let g := sups.foldl back g
  let (g, stack) := g.stack.foldl (fun (acc : Group × List SplitRec) r =>
    let (g, r) := dropRecord q quantum acc.1 r
    (g, acc.2 ++ [r])) (g, [])
  { g with
    stack := stack, held := [], frame := if inHandler then g.frame else none, wait := if waitGone then none else g.wait
    pends := g.pends.filter fun p => !(sups.contains p.sp) || (match p.op with
      | .map _ _ => true
      | .decl _ => true
      | _ => false) }

/-- R283, R290: a registered `gpark` of user mode is cancelled without a status, and issues again after the restore; an ordered launch keeps
it (R326). -/
def cancelPark (g : Group) (q : Nat) : Group :=
  match g.wait with
  | some r =>
    if r.park && r.ended.isNone && decide (q = 0) && !(g.split r.sp).sup then
      (({ g with wait := none } : Group).unretire (g.split r.sp) q).putSplit r.sp { g.split r.sp with st := .running }
    else g
  | none => g

/-- R283, R290: what a pre-emption takes from a group; off its core, the group's image follows. -/
def State.dropHandlers (s : State) (gk : Nat) : State :=
  let g := s.group gk
  let b := s.block g.blk
  let s := s.putGroup gk (dropHandlersOf (cancelPark g (s.ordQ gk)) (s.ordQ gk) (s.quantumOf gk))
  if b.onCore || !g.live then s else s.writeFields b.ctx (s.imageBase gk) (s.group gk)

/-- The global waits of blocks that are off their cores or on the way there or back (R201, R203): until a block has been restored, its waits are
those of an absent block. -/
def State.absentWaits (s : State) : Nat :=
  (s.groups.filter fun e =>
    (s.basinSlice e).isSome && (match (s.block e.2.blk).st with
      | .resident => false
      | _ => true)).length

/-- A group that has no wait and may still register one before its block has been saved: a split of it is in its handler, which runs on (R287). The
waits of ordered launches do not count (R326). -/
def State.mayWait (s : State) (k : Nat) : Bool :=
  decide (s.ordQ k = 0) && (s.basinSlice (k, s.group k)).isNone && (s.group k).splits.any fun e => e.2.sup

/-- The waits of the block are cancelled when it is saved, as far as they do not fit the budget: its context is pre-empted (R203), or its party had
a block on a core that has been taken out of service (R161). -/
def State.trims (s : State) (bk : Nat) : Bool :=
  decide ((s.block bk).reason = 3) || (s.partyOf bk).any fun k => s.coresOut.contains (s.block k).core

/-- The groups of other blocks on their way off their cores that may still register a wait. -/
def State.comingWaits (s : State) : Nat :=
  (s.groups.filter fun e => (match (s.block e.2.blk).st with
    | .stopping => true
    | .saving => true
    | _ => false) && s.mayWait e.1 && !s.trims e.2.blk).length

/-- R203: the swap-out of these blocks keeps the waits of absent blocks within 4096, and beside those that the handlers of
blocks on their way may still register. -/
def State.budgetAllows (s : State) (bks : List Nat) : Bool :=
  let mine := (bks.flatMap s.groupsOf).filter fun k => (decide (s.ordQ k = 0) && (s.basinSlice (k, s.group k)).isSome) || s.mayWait k
  decide (s.absentWaits + s.comingWaits + mine.length ≤ 4096)

/-- R203: a wait over the budget is cancelled. -/
def State.cancelWait (s : State) (gk : Nat) : State :=
  match (s.group gk).wait with
  | some r =>
    let w : Word := BitVec.ofNat 32 (s.numAt r.place 4)
    endWait s gk w (if waitHolds r.m w r.y r.mask then 1 else 2)
  | none => s

/-- R201, R203: the waits of a block that do not fit the budget of absent blocks are cancelled, when the block is saved and in ascending group
index; which of them go R203 leaves open (log entry 60). Beside a pre-emption that befalls only a party with a block on a core that has been
taken out of service (R161), which is always swapped out too. -/
def State.trimWaits (s : State) (bk : Nat) : State :=
  (s.groupsOf bk).foldl (fun s k =>
    match s.basinSlice (k, s.group k) with
    | some _ => if 4096 < s.absentWaits + s.comingWaits then s.cancelWait k else s
    | none => s) s

/-- R203, R290: what pre-emption does to the groups of a block. -/
def State.preemptBlock (s : State) (bk : Nat) : State := ((s.groupsOf bk).foldl (fun s k => s.dropHandlers k) s).trimWaits bk

/-- The stop request of a context is taken (R289): its resident blocks stop, and its absent ones lose their handlers (R290). -/
def State.takeStop (s : State) (ctx : Nat) : State :=
  let c := s.context ctx
  let s := s.putContext ctx { c with stopped := true, stopPending := true, stopAt := s.now }
  let s := s.blocks.foldl (fun s e =>
    if e.2.control || decide (e.2.ctx ≠ ctx) then s
    else
      match e.2.st with
      | .absent => s.preemptBlock e.1
      | .ready => s.preemptBlock e.1
      | _ => s.stopBlock e.1 3) s
  s.testDrains

/-- PREEMPT_STOP_REQUEST (R289): the scheduler's request reaches the device. -/
def execPreemptStopRequest (ctx : Nat) (s : State) : Out :=
  let c := s.context ctx
  .next (if c.live && !c.stopped then s.takeStop ctx else s)

/-! ### The launch record (R309) -/

/-- Word `i` of a record. -/
def recWord (w : List Nat) (i : Nat) : Nat := (w[i]?).getD 0

/-- The words of 64 bytes. -/
def recWords (bs : List Byte) : List Nat := (seqFrom 0 16).map fun i => leNat ((bs.drop (4 * i)).take 4)

/-- The kernel object's words at a virtual address of a context. -/
def State.kernelWord (s : State) (ctx va : Nat) (i : Nat) : Nat := (s.virtNum ctx (va + 4 * i) 4).getD 0

/-- R310 reason 2: the object starts with a marker in an accepted page. -/
def State.kernelOk (s : State) (ctx va : Nat) : Bool :=
  decide (va % 4 = 0) && (match s.pageLeaf ctx (va / 65536) with
    | some (page, leaf) => leaf.testBit 59 && decide (mapGet 0 s.xcount page ≠ 0)
    | none => false) && decide (s.kernelWord ctx va 0 = markerWord)

/-- R310 reason 4: an array of a record can be used: its entry, its bounds and its pages. -/
def State.arrayOk (s : State) (ctx hnum off size : Nat) (needW needA : Bool) : Bool :=
  let e := (s.handle s.curCore ctx true hnum).2
  let first := (e.base + off) / 65536
  let last := (e.base + off + size - 1) / 65536
  e.usable && decide (e.space = 0) && e.pr && (!needW || e.pw) && (!needA || e.pa) && decide (off + size ≤ e.limit) &&
    (decide (size = 0) || (seqFrom first (last + 1 - first)).all fun p =>
      match s.pageLeaf ctx p with
      | some (_, leaf) => leaf.testBit 61 && (!needW || leaf.testBit 60)
      | none => false)

/-- The virtual address that a record's handle and offset name. -/
def State.arrayVa (s : State) (ctx hnum off : Nat) : Nat := (s.handle s.curCore ctx true hnum).2.base + off

/-- The blocks of a kernel that one empty core holds (R310 reason 6, R314). -/
def coreHolds (h : KHeader) (bcap : Nat) : Nat :=
  let g := ceilDiv h.blockLanes 32
  let n := min (64 / g) (4096 / (g * min (2 ^ h.regsLog2) 64))
  let n := if h.scratch = 0 then n else min n (0x180000 / (ceilDiv h.scratch 0x600 * 0x600))
  if h.bundles = 0 then n else min n (bcap / h.bundles)

/-- The cores of a context's partition that are in service. -/
def State.partCores (s : State) (ctx : Nat) : List Nat :=
  (seqFrom 0 192).filter fun c => (s.context ctx).part.testBit c && (s.core c).inService

/-- The blocks of a kernel that the empty cores of a partition hold, parties whole on a cluster's lowest cores (R307). -/
def State.partHolds (s : State) (ctx : Nat) (h : KHeader) : Nat :=
  let n := coreHolds h (s.context ctx).bcap.toNat
  let cores := s.partCores ctx
  (seqFrom 0 48).foldl (fun t cl =>
    let m := (cores.filter fun c => decide (clusterOf c = cl)).length
    t + m / max 1 h.party * n * max 1 h.party) 0

/-- The refusal reason of a record (R310), 0 where it is accepted. -/
def State.launchReason (s : State) (w : List Nat) : Nat :=
  let f := recWord w
  let ctx := bitsOf (f 15) 31 22
  let c := s.context ctx
  let va := f 0 + f 1 * 2 ^ 32
  let h := readHeader (s.kernelWord ctx va)
  let n := bitsOf (f 2) 31 16 * bitsOf (f 2) 15 0 * bitsOf (f 3) 31 16
  let live := bitsOf (f 4) 31 16
  let width := bitsOf (f 4) 15 0
  let q := mapGet 0 c.qcfg (bitsOf (f 3) 5 0)
  let den := (f 5).testBit 3
  let slots := live * slotBytes h.scratch (ceilDiv h.blockLanes 32)
  if !c.live || c.failed then 1
  else if !s.kernelOk ctx va then 2
  else if n = 0 ∨ 2 ^ 32 - 1 < n ∨ n % max 1 h.party ≠ 0 ∨ live = 0 ∨ (width = 0 ∧ q ≠ 0) then 3
  else if (den && !s.arrayOk ctx (bitsOf (f 5) 31 20) (f 6) 4 false false) ||
      !s.arrayOk ctx (bitsOf (f 9) 31 20) (f 10) 4 true true ||
      (decide (h.paramBytes ≠ 0) && !s.arrayOk ctx (bitsOf (f 11) 31 20) (f 12) h.paramBytes false false) ||
      !s.arrayOk ctx (bitsOf (f 13) 31 20) (f 14) slots true false then 4
  else if (den && decide (f 6 % 4 ≠ 0)) || decide (f 10 % 4 ≠ 0) || (decide (h.paramBytes ≠ 0) && decide (f 12 % 4 ≠ 0)) ||
      decide (f 14 % 0x10000 ≠ 0) then 5
  else if q ≠ 0 ∧ (live < width ∨ s.partHolds ctx h < width) then 6
  else if 4096 ≤ s.launches.length then 7
  else 0

/-- The dependences that hold one of the 256 entries (R312). -/
def State.depsUsed (s : State) : Nat :=
  (s.launches.filter fun x => match x.2.dep with
    | some y => y.registered && !y.satisfied
    | none => false).length

/-- The dependence of a launch where its word lies now; one whose page an invalidation has found unmapped is looked up again, and none is
the answer while no page holds it (R305, log entry 62). -/
def State.findDep (s : State) (l : Launch) : Option Dep :=
  match l.dep with
  | none => none
  | some d =>
    match d.lost, d.place with
    | true, .glob _ va => (s.virtPa l.ctx va).map fun pa => { d with place := .glob pa va, lost := false }
    | _, _ => some d

/-- A launch's dependence is registered at its word's slice, which reads the word (R198, R312). -/
def State.registerDep (s : State) (lid : Nat) : State :=
  let l := s.launch lid
  match s.findDep l with
  | none => s
  | some d =>
    if d.registered || decide (256 ≤ s.depsUsed) then s
    else
      let ok := waitHolds d.m (BitVec.ofNat 32 (s.numAt d.place 4)) d.y d.mask
      let s := s.putLaunch lid { l with dep := some { d with registered := true, satisfied := ok, since := s.now } }
      match d.place with
      | .glob pa _ => if ok then s else s.spill (s.sliceOf (pa / 128)) (some { dep := true, key := lid, since := s.now })
      | _ => s

/-- R312: dependences are registered in `glaunch` order while entries are free. -/
def State.registerDeps (s : State) : State :=
  (sortBy (fun (e : Nat × Launch) => e.2.seq) (s.launches.filter fun e => match e.2.dep with
    | some d => !d.registered
    | none => false)).foldl (fun s e => s.registerDep e.1) s

/-- The identifier after `n` (R310). -/
def nextIdent (n : Nat) : Nat := if 0xFFFFFEFF ≤ n then 1 else n + 1

/-- A global place at a virtual address of a context. -/
def State.virtPlace (s : State) (ctx va : Nat) : Place := .glob ((s.virtPa ctx va).getD 0) va

/-- R310: an accepted launch is captured and joins its queue. -/
def State.addLaunch (s : State) (w : List Nat) : State :=
  let f := recWord w
  let ctx := bitsOf (f 15) 31 22
  let va := f 0 + f 1 * 2 ^ 32
  let rd := s.kernelWord ctx va
  let h := readHeader rd
  let q := bitsOf (f 3) 5 0
  let pva := s.arrayVa ctx (bitsOf (f 11) 31 20) (f 12)
  let dep : Dep :=
    { place := s.virtPlace ctx (s.arrayVa ctx (bitsOf (f 5) 31 20) (f 6)), m := bitsOf (f 5) 2 0, y := BitVec.ofNat 32 (f 7)
      mask := BitVec.ofNat 32 (f 8), registered := false, satisfied := false, spilled := false, since := 0, lost := false }
  let l : Launch :=
    { seq := s.nextSeq, ctx := ctx, kernel := va, codeWords := h.codeWords, patches := readPatches rd, entry := h.entry, regsLog2 := h.regsLog2
      party := h.party, blockLanes := h.blockLanes, scratch := h.scratch, demand := h.bundles, gx := bitsOf (f 2) 31 16
      gy := bitsOf (f 2) 15 0, gz := bitsOf (f 3) 31 16, prio := bitsOf (f 3) 11 10, queue := q, live := bitsOf (f 4) 31 16
      width := bitsOf (f 4) 15 0, dep := if (f 5).testBit 3 then some dep else none
      comp := (s.virtPa ctx (s.arrayVa ctx (bitsOf (f 9) 31 20) (f 10))).getD 0, compVa := s.arrayVa ctx (bitsOf (f 9) 31 20) (f 10)
      compLost := false
      params := (seqFrom 0 (h.paramBytes / 4)).map fun i => BitVec.ofNat 32 (s.kernelWord ctx pva i)
      image := s.arrayVa ctx (bitsOf (f 13) 31 20) (f 14), seed := s.dseed, q := mapGet 0 (s.context ctx).qcfg q
      st := .queued, next := 0, done := 0, bundles := [], quantum := 0, places := [], boundary := true, ending := none, rounds := [], ct := 0 }
  let s : State := { s with launches := mapPut s.launches s.nextLid l, nextLid := nextIdent s.nextLid, nextSeq := s.nextSeq + 1 }
  s.registerDeps

/-- A handle, a page walk or a word that the checks of a record read has a row under test, and the launch unit waits for it (R159). -/
def State.launchWaits (s : State) (w : List Nat) : Bool :=
  let f := recWord w
  let ctx := bitsOf (f 15) 31 22
  let va := f 0 + f 1 * 2 ^ 32
  let h := readHeader (s.kernelWord ctx va)
  let words := fun (va n : Nat) => (seqFrom 0 n).any fun i =>
    s.walkBusy ctx (va + 4 * i) || (match s.virtPa ctx (va + 4 * i) with
      | some pa => s.underTest noCore [.glob pa 0]
      | none => false)
  !s.march.isEmpty && ([5, 9, 11, 13].any (fun i => s.handleTested s.curCore ctx true (bitsOf (f i) 31 20)) ||
    words va (8 + (readPatches (s.kernelWord ctx va)).length) ||
    words (s.arrayVa ctx (bitsOf (f 11) 31 20) (f 12)) (ceilDiv h.paramBytes 4))

/-- GLAUNCH: the record is checked and captured at issue; GLAUNCH_DONE writes d. While the `launch` bit of `D_READY` is 0 the launch unit accepts
none (R333), and the instruction waits (log entry 82). A record named through a handle of space 1, 2 or 3 is read there (log entry 63). -/
def execGlaunch (d a : Reg) (s : State) : Out :=
  match andThen s.needPriv (s.groupRegs [d] [a, a + 1]) with
  | .error e => settle s (.error e)
  | .ok _ =>
    if s.acquireOut then settle s (.error (.stall .acquire))
    else if !s.dready.getLsbD 4 then settle s (.error (.stall .queue))
    else
      let (s1, r) := s.descRead (s.u a).toNat (s.u (a + 1)).toNat 64 64
      match r with
      | .error e => settle s1 (.error e)
      | .ok (_, _, bs) =>
        let w := recWords bs
        if s1.launchWaits w then settle s1 (.error (.stall .full))
        else
        let reason := s1.launchReason w
        let st : Word := if reason = 0 then BitVec.ofNat 32 s1.nextLid else BitVec.ofNat 32 (0xFFFFFF00 + reason)
        let s2 := if reason = 0 then s1.addLaunch w else s1
        .next (s2.pendHold (.launch st) d 600)

/-- GLAUNCH_DONE: d is written, and the split goes on. -/
def execGlaunchDone (g sp : Nat) (s : State) : Out :=
  match (s.group g).heldPend sp with
  | some p =>
    match p.op with
    | .launch r => .next (s.endHold g p r)
    | _ => .next s
  | none => .next s

/-! ### The end of a launch (R313) -/

/-- The completion word of a launch rises by `n`, at scope `.sys`; a poisoned one is overwritten with 1 (R313), as by a `gqend` too, of which R311
does not say so (log entry 81). -/
def State.addCompletion (s : State) (pa n : Nat) : State :=
  if s.poisoned (.glob pa 0) 4 then s.writeNum pa 4 1 else s.writeNum pa 4 ((s.physNum pa 4 + n) % 2 ^ 32)

/-- Where the completion word of a launch lies; nowhere while no page holds it (R305, log entry 62). -/
def State.compAt (s : State) (l : Launch) : Option Nat := if l.compLost then s.virtPa l.ctx l.compVa else some l.comp

/-- The completion word of a launch rises by `n`, if a page holds it. -/
def State.complete (s : State) (l : Launch) (n : Nat) : State :=
  match s.compAt l with
  | some pa => s.addCompletion pa n
  | none => s

/-- The bundles of a launch leave every core (R183). -/
def State.dropBundles (s : State) (lid : Nat) : State :=
  { s with cores := s.cores.map fun (c : Nat × Core) =>
      (c.1, if c.2.bundles.any fun b => decide (b.lid = lid) then
          Core.prunePins { c.2 with bundles := c.2.bundles.filter fun b => decide (b.lid ≠ lid) }
        else c.2) }

/-- LAUNCH_FINISH: every block has finished and device time has passed the completion times of the launch's writes. -/
def execLaunchFinish (lid : Nat) (s : State) : Out :=
  let l := s.launch lid
  if l.st = .finishing ∧ l.ct < s.now then
    let s := s.complete l 1
    let s := s.dropBundles lid
    let s : State := { s with launches := mapDel s.launches lid }
    .next s.registerDeps.testDrains
  else .next s

/-! ### gqend and gdrain (R311) -/

/-- The launches of the queues that an operand names. -/
def State.namedLaunches (s : State) (ctx q : Nat) : List (Nat × Launch) :=
  s.launches.filter fun e => decide (e.2.ctx = ctx) && (decide (q = 0xFF) || decide (e.2.queue = q))

/-- GQEND: a launch that has no admitted block is removed. -/
def execGqend (d a : Reg) (s : State) : Out :=
  match andThen s.needPriv (s.groupRegs [d] [a]) with
  | .error e => settle s (.error e)
  | .ok _ =>
    let ctx := bitsOf (s.u a).toNat 31 16
    let q := bitsOf (s.u a).toNat 7 0
    if !(s.context ctx).live then s.answer d 0xFFFFFFFF
    else
      let out := (s.namedLaunches ctx q).filter fun e => decide (e.2.next = 0)
      let s1 := out.foldl (fun s e =>
        ({ s with launches := mapDel s.launches e.1 } : State).complete e.2 0x10000) s
      let s2 := (s1.put d (BitVec.ofNat 32 out.length)).advance
      .next s2.registerDeps.testDrains

/-- GDRAIN_WAIT. -/
def execGdrainWait (d a : Reg) (s : State) : Out :=
  match andThen s.needPriv (s.groupRegs [d] [a]) with
  | .error e => settle s (.error e)
  | .ok _ =>
    let ctx := bitsOf (s.u a).toNat 31 16
    let q := bitsOf (s.u a).toNat 7 0
    if !(s.context ctx).live then s.answer d 0xFFFFFFFF
    else if (s.namedLaunches ctx q).isEmpty then s.answer d 0
    else .next (s.pendHold (.drainWait ctx q) d 0)

/-- GDRAIN_STOP. -/
def execGdrainStop (d a : Reg) (s : State) : Out :=
  match andThen s.needPriv (s.groupRegs [d] [a]) with
  | .error e => settle s (.error e)
  | .ok _ =>
    let ctx := bitsOf (s.u a).toNat 31 16
    let c := s.context ctx
    if !c.live then s.answer d 0xFFFFFFFF
    else if c.stopped && !c.stopPending then s.answer d 0
    else
      let s1 := s.pendHold (.drainStop ctx s.now) d 0
      .next (if c.stopped then s1.testDrains else s1.takeStop ctx)

/-- GDRAIN_RUN: the context's absent blocks become Ready. -/
def execGdrainRun (d a : Reg) (s : State) : Out :=
  match andThen s.needPriv (s.groupRegs [d] [a]) with
  | .error e => settle s (.error e)
  | .ok _ =>
    let ctx := bitsOf (s.u a).toNat 31 16
    let c := s.context ctx
    if !c.live then s.answer d 0xFFFFFFFF
    else
      let out := s.blocks.filter fun e => !e.2.control && decide (e.2.ctx = ctx) && decide (e.2.st = .absent)
      let s1 := s.putContext ctx { c with stopped := false, stopPending := false }
      let s2 := out.foldl (fun s e => s.putBlock e.1 { s.block e.1 with st := .ready, readyAt := s.now }) s1
      s2.answer d (BitVec.ofNat 32 out.length)

end Sys2Proof.Machine
end

