-- ==== Sys2Proof/Machine/Sched.lean ====
section
/-! DEFINITION. Admission, parking, swap-out and restore (spec/17_system.md R284-R290; spec/19_scheduling.md R307-R315; spec/09_ordering.md
R175; spec/04_group_instructions.md R67-R69): the events ADMISSION_PASS, PARK_TRIGGER, PARK_TIME_EXPIRE, BLOCK_DRAIN_COMPLETE,
BLOCK_SAVE_COMPLETE, BLOCK_RESTORE_COMPLETE, WINDOW_MISS_FILL, COMPACTOR_STEP and BANK_STARVE_PROMOTE. -/
namespace Sys2Proof.Machine
open Sys2Proof

/-! ### Register windows (R67-R69) -/

/-- The minimum window of a group with this allocation. -/
def minLines (alloc : Nat) : Nat := min alloc 64

/-- A block that takes room on its core. -/
def Block.placed (b : Block) : Bool := b.onCore || decide (b.st = .restoring)

/-- The live groups that hold slots of a core. -/
def State.slotHolders (s : State) (core : Nat) : List (Nat × Group) :=
  s.groups.filter fun e => e.2.live && decide ((s.block e.2.blk).core = core) && (s.block e.2.blk).placed

/-- The live groups that have a window on a core: of those that hold slots all but the groups `but`, which are still to be placed. -/
def State.windowed (s : State) (core : Nat) (but : List Nat) : List (Nat × Group) := (s.slotHolders core).filter fun e => !but.contains e.1

/-- The windows of a core, without those of the groups `but`. -/
def State.windows (s : State) (core : Nat) (but : List Nat) : List (Nat × Nat) :=
  (s.windowed core but).map fun e => (e.2.win.base, 2 ^ e.2.win.log2)

/-- Two line ranges do not meet. -/
def apart (a n b m : Nat) : Bool := decide (a + n ≤ b) || decide (b + m ≤ a)

/-- The lowest free buddy block of a size. -/
def freeBuddy (occ : List (Nat × Nat)) (size : Nat) : Option Nat :=
  ((seqFrom 0 (4096 / size)).map (· * size)).find? fun b => occ.all fun o => apart b size o.1 o.2

/-- R68: the windows that groups of swapped-out blocks have left behind on a core, and that a newcomer may take. The save has written
their dirty lines back (R72). -/
def State.evictable (s : State) (core : Nat) : List (Nat × Nat) :=
  (s.groups.filter fun e => e.2.live && decide ((s.block e.2.blk).core = core) && !(s.block e.2.blk).placed).map fun e =>
    (e.2.win.base, 2 ^ e.2.win.log2)

/-- The order of windows by block index, then group index (R68, R69); blocks of one index by admission. -/
def State.windowKey (s : State) (e : Nat × Group) : Nat := ((s.block e.2.blk).bid * 32 + e.2.gid) * 2 ^ 64 + e.1

/-- R68: the window larger than its minimum that is halved next: highest block index, then highest group index. "In turn" is read so that one
window is halved down to its minimum before the next one is halved (log entry 19). -/
def State.halveOne (s : State) (core : Nat) (but : List Nat) : Option State :=
  match (sortBy s.windowKey ((s.windowed core but).filter fun e => decide (minLines e.2.alloc < 2 ^ e.2.win.log2))).getLast? with
  | some (k, g) => some (s.resizeWindow k g.win.base (g.win.log2 - 1))
  | none => none

/-- R69: the windows of a core moved together, largest first. -/
def State.repack (s : State) (core : Nat) (but : List Nat) : State :=
  let gs := sortBy (fun (e : Nat × Group) => 4096 - 2 ^ e.2.win.log2) (s.windowed core but)
  (gs.foldl (fun (acc : State × Nat) e =>
    let g := acc.1.group e.1
    (acc.1.putGroup e.1 { g with win := { g.win with base := acc.2 } }, acc.2 + 2 ^ e.2.win.log2)) (s, 0)).1

/-- The lines of a core that no window holds. -/
def State.freeLines (s : State) (core : Nat) (but : List Nat) : Nat := 4096 - ((s.windows core but).map (·.2)).sum

/-- R68: a minimum window for a group: free lines, then windows left behind, then windows moved together where enough lines are free (R69),
and halved windows where they are not. The groups `but`, `gk` among them, are still to be placed: they have no window on their new cores yet. -/
def placeWindow (core gk : Nat) (but : List Nat) : Nat → State → State
  | 0, s => s
  | n + 1, s =>
    let g := s.group gk
    let size := minLines g.alloc
    let take := fun (b : Nat) => s.putGroup gk { g with win := { base := b, log2 := Nat.log2 size, lines := [] } }
    match freeBuddy (s.windows core but ++ s.evictable core) size, freeBuddy (s.windows core but) size with
    | some b, _ => take b
    | none, some b => take b
    | none, none =>
      if size ≤ s.freeLines core but then placeWindow core gk but n (s.repack core but)
      else
        match s.halveOne core but with
        | some s1 => placeWindow core gk but n s1
        | none => s

/-- The groups of a party that comes to its cores take their windows in order (R68), each with its core. -/
def placeWindows : List (Nat × Nat) → State → State
  | [], s => s
  | (gk, core) :: rest, s => placeWindows rest (placeWindow core gk (gk :: rest.map (·.1)) 8192 s)

/-- COMPACTOR_STEP (R69): the first window whose buddy is free doubles, in the order of block and group index. -/
def execCompactorStep (core : Nat) (s : State) : Out :=
  let grow := (sortBy s.windowKey (s.slotHolders core)).find? fun e =>
    let size := 2 ^ e.2.win.log2
    let base := e.2.win.base / (2 * size) * (2 * size)
    decide (2 * size ≤ e.2.alloc) && (s.windows core [e.1]).all fun o => apart base (2 * size) o.1 o.2
  match grow with
  | some (k, g) =>
    let size := 2 ^ g.win.log2
    .next (s.resizeWindow k (g.win.base / (2 * size) * (2 * size)) (g.win.log2 + 1))
  | none => .next s

/-- WINDOW_MISS_FILL (R67, R71): the occupant of register `n`'s line leaves it, and `n` takes the line. -/
def execWindowMissFill (g n : Nat) (s : State) : Out :=
  let r := s.group g
  let b := s.block r.blk
  .next (if !r.live || decide (r.alloc ≤ n) || !b.onCore || b.control then s else s.windowMiss g [n] n)

/-- BANK_STARVE_PROMOTE (R146): a requester refused one of a core's 384 banks (R18) for 16 cycles goes to the front of that bank's
order in the next cycle. -/
def execBankStarvePromote (core bank : Nat) (who : BankReq) (s : State) : Out :=
  let co := s.core core
  if 384 ≤ bank ∨ co.starved.contains (bank, who) then .next s
  else .next (s.putCore core { co with starved := co.starved ++ [(bank, who)] })

/-! ### Placement tests (R193, R307, R314) -/

/-- What one block needs of a core. -/
structure Need where
  groups : Nat
  lines : Nat
  scratch : Nat
  demand : Nat
  entered : Word
  deriving DecidableEq, Repr

/-- R314: the lowest region of S bytes that starts at a multiple of 0x600. -/
def State.findOrigin (s : State) (core size : Nat) : Option Nat :=
  if size = 0 then some 0
  else
    let taken := sortBy (·.1) ((s.blocks.filter fun e =>
      e.2.placed && decide (e.2.core = core) && decide (e.2.scratch ≠ 0)).map fun e => (e.2.origin, e.2.scratch))
    let at' := taken.foldl (fun a r => if a + size ≤ r.1 then a else max a (ceilDiv (r.1 + r.2) 0x600 * 0x600)) 0
    if at' + size ≤ 0x180000 then some at' else none

/-- R182 conditions 2 and 3 for a re-admitted block's entered sets (R193). -/
def State.unionFits (s : State) (core ctx lid : Nat) (mask : Word) : Bool :=
  let lines := s.savedLines core ctx lid mask
  let coming := s.comingLines core
  let held := (s.core core).bundles.filter (·.held)
  let mine := pinnedLines (held.filter fun x => decide (x.ctx = ctx)) ++ (coming.filter fun x => decide (x.1 = ctx)).map (·.2)
  decide ((mine ++ lines).eraseDups.length ≤ (s.context ctx).bcap.toNat) &&
    decide ((pinnedLines held ++ coming.map (·.2) ++ lines).eraseDups.length ≤ 1536)

/-- The placement tests of R314 on one core. -/
def State.coreFits (s : State) (ctx lid core : Nat) (n : Need) : Bool :=
  let gs := s.slotHolders core
  let demand := (s.blocks.filter fun e => e.2.placed && decide (e.2.core = core) && decide (e.2.ctx = ctx)).foldl
    (fun t e => t + e.2.demand) 0
  (s.core core).inService && decide (gs.length + n.groups ≤ 64) &&
    decide (gs.foldl (fun t e => t + minLines e.2.alloc) 0 + n.lines ≤ 4096) && (s.findOrigin core n.scratch).isSome &&
    (decide (n.demand = 0) || decide (demand + n.demand ≤ (s.context ctx).bcap.toNat)) &&
    (decide (n.entered = 0) || s.unionFits core ctx lid n.entered)

/-- R193: the lines pinned on a core under bundles of a launch, Filling ones apart. -/
def State.pinsOf (s : State) (lid core : Nat) : Nat :=
  (pinnedLines ((s.core core).bundles.filter fun b => decide (b.lid = lid) && decide (b.st ≠ .filling))).length

/-- The cores that a unit of blocks may take: one core for a lone block, the lowest passing cores of a cluster for a party. -/
def State.coreChoices (s : State) (ctx lid : Nat) (ns : List Need) : List (List Nat) :=
  let ok := (s.partCores ctx).filter fun c => ns.all fun n => s.coreFits ctx lid c n
  if ns.length ≤ 1 then ok.map fun c => [c]
  else
    (seqFrom 0 48).filterMap fun cl =>
      let cs := ok.filter fun c => decide (clusterOf c = cl)
      if ns.length ≤ cs.length then some (cs.take ns.length) else none

/-- The element with the least key; the first of equals. -/
def leastBy {α : Type} (key : α → Nat) : List α → Option α
  | [] => none
  | x :: r =>
    match leastBy key r with
    | none => some x
    | some y => if key y < key x then some y else some x

/-- R314: bundle residency first, then clusters that are not power-gated, then the lowest core number. -/
def State.chooseCores (s : State) (ctx lid : Nat) (ns : List Need) : Option (List Nat) :=
  leastBy (fun cs =>
    let pins := (cs.map (s.pinsOf lid)).sum
    let gated := match (s.cluster (clusterOf (cs.headD 0))).gate with
      | .on => 0
      | _ => 1
    (2 ^ 20 - pins) * 2 + gated) (s.coreChoices ctx lid ns)

/-- R318: the choice with the lowest sensor codes. -/
def State.coolestCores (s : State) (ctx lid : Nat) (ns : List Need) : Option (List Nat) :=
  leastBy (fun cs => cs.foldl (fun t c => max t (mapGet 0 s.codes c)) 0) (s.coreChoices ctx lid ns)

/-- R319: a dispatch to a cluster: it is on, or its gating is abandoned or it starts to wake. True when it can take the block
now. -/
def State.dispatch (s : State) (cl : Nat) : State × Bool :=
  let c := s.cluster cl
  match c.gate with
  | .on => (s, true)
  | .gating t => if s.now < t + 64 then (s.putCluster cl { c with gate := .on, idleSince := s.now }, true) else (s, false)
  | .gated => (s.putCluster cl { c with gate := .waking s.now }, false)
  | .waking _ => (s, false)

/-! ### Blocks that start (R72, R308, R314) -/

/-- The lanes of group `i` of a block (R41). -/
def groupLanes (blockLanes i : Nat) : LaneMask := BitVec.ofNat 32 (2 ^ min 32 (blockLanes - 32 * i) - 1)

/-- The generator states of a group at its creation, those of lanes that are never launched among them (R58). -/
def firstGen (seed : Word) (bid gid : Nat) : SMap Word := (seqFrom 0 32).foldl (fun m i => mapSet 0 m i (srInit seed bid gid i)) []

/-- A group at its creation: every register 0, one split at the kernel's entry (R41, R58, R66, R72, R74, R277, R316). -/
def newGroup (l : Launch) (bk bid gid : Nat) : Group :=
  let lanes := groupLanes l.blockLanes gid
  let pc : Dword := BitVec.ofNat 64 (l.kernel + 4 * (8 + l.patches.length + l.entry))
  let g := { Group.empty with
    blk := bk, gid := gid, live := true, launched := lanes, alloc := 2 ^ l.regsLog2, gen := firstGen l.seed bid gid, qended := false
    win := { base := 0, log2 := 3, lines := [] } }
  let sp := { Split.none with pc := pc, members := lanes, region := pc, age := bk * 32 + gid }
  setRegionOf (g.putSplit 0 sp) 0 l.quantum pc

/-- The lowest free image slot of a launch (R308). -/
def State.freeSlot (s : State) (lid : Nat) : Nat :=
  let used := (s.blocks.filter fun e => decide (e.2.lid = lid)).map (·.2.slot)
  ((seqFrom 0 (used.length + 1)).find? fun i => !used.contains i).getD 0

/-- A block starts on a core. -/
def State.startBlock (s : State) (lid bid pid core : Nat) : State :=
  let l := s.launch lid
  let bk := s.nextBlk
  let b := { Block.empty with
    lid := lid, bid := bid, pid := pid, ctx := l.ctx, core := core, origin := (s.findOrigin core l.scratch).getD 0
    ngroups := l.groups, scratch := l.scratch, party := l.party, demand := l.demand, regsLog2 := l.regsLog2
    slot := s.freeSlot lid }
  let gs := (seqFrom 0 l.groups).map fun i => (bk * 32 + i, newGroup l bk bid i)
  let s : State := { s with nextBlk := bk + 1, blocks := mapPut s.blocks bk b }
  placeWindows (gs.map fun e => (e.1, core)) (gs.foldl (fun s e => s.putGroup e.1 e.2) s)

/-- The number of blocks of a launch. -/
def Launch.total (l : Launch) : Nat := l.gx * l.gy * l.gz

/-- R307, R312: the launch before it in its queue has finished, its dependence is satisfied and its context may run. -/
def State.eligible (s : State) (lid : Nat) : Bool :=
  let l := s.launch lid
  let c := s.context l.ctx
  c.live && !c.stopped && !c.failed && (match l.dep with
    | some d => d.satisfied
    | none => true) &&
    !(s.launches.any fun e => decide (e.2.seq < l.seq) && decide (e.2.ctx = l.ctx) && decide (e.2.queue = l.queue))

/-- The started and unfinished blocks of a launch. -/
def State.startedBlocks (s : State) (lid : Nat) : List (Nat × Block) := s.blocks.filter fun e => decide (e.2.lid = lid) && !e.2.control

/-- R320: the next block of an ordered launch may enter its place at this boundary. -/
def State.placeFree (s : State) (lid : Nat) : Bool :=
  let l := s.launch lid
  l.boundary && !((s.startedBlocks lid).any fun e => decide (e.2.bid + l.width ≤ l.next + l.party - 1))

/-- The launch has an unstarted block, or party, that may be placed now (R314). -/
def State.offers (s : State) (lid : Nat) : Bool :=
  let l := s.launch lid
  s.eligible lid && decide (l.next < l.total) && decide ((s.startedBlocks lid).length + l.party ≤ l.live) &&
    (decide (l.q = 0) || s.placeFree lid)

/-- What each block of a launch needs. -/
def Launch.need (l : Launch) : Need :=
  { groups := l.groups, lines := l.groups * minLines (2 ^ l.regsLog2), scratch := l.scratch, demand := l.demand, entered := 0 }

/-- The next unstarted block or party of a launch is placed, if it fits. -/
def State.placeNext (s : State) (lid : Nat) : State × Bool :=
  let l := s.launch lid
  match s.chooseCores l.ctx lid ((seqFrom 0 (max 1 l.party)).map fun _ => l.need) with
  | none => (s, false)
  | some cores =>
    match s.dispatch (clusterOf (cores.headD 0)) with
    | (s, false) => (s, false)
    | (s, true) =>
      let ms := (seqFrom 0 cores.length).zip cores
      let s := ms.foldl (fun s m => s.startBlock lid (l.next + m.1) m.1 m.2) s
      let places := ms.foldl (fun p m => if l.q = 0 then p else mapPut p ((l.next + m.1) % max 1 l.width) (l.next + m.1)) l.places
      (s.putLaunch lid { s.launch lid with next := l.next + cores.length, places := places, st := .running }, true)

/-- Blocks of one launch start in index order while they fit. -/
def placeMany (lid : Nat) : Nat → State → State
  | 0, s => s
  | n + 1, s =>
    if s.offers lid then
      match s.placeNext lid with
      | (s, true) => placeMany lid n s
      | (s, false) => s
    else s

/-! ### Blocks that come back (R286, R288, R307, R315) -/

/-- R315: the started block of its launch with the smallest index. -/
def State.isLowest (s : State) (bk : Nat) : Bool :=
  let b := s.block bk
  !b.control && !((s.startedBlocks b.lid).any fun e => decide (e.2.bid < b.bid))

/-- A party may be re-admitted: one of its blocks is Ready and none is still on a core. -/
def State.partyReady (s : State) (bk : Nat) : Bool :=
  let ps := s.partyOf bk
  let c := s.context (s.block bk).ctx
  c.live && !c.stopped && !c.failed && (ps.any fun k => decide ((s.block k).st = .ready)) &&
    ps.all fun k => decide ((s.block k).st = .ready) || decide ((s.block k).st = .absent)

/-- The parties that wait to be re-admitted, each by its first block. -/
def State.readyParties (s : State) : List Nat :=
  (s.blocks.filter fun e => !e.2.control && s.partyReady e.1 && decide ((s.partyOf e.1).head? = some e.1)).map (·.1)

/-- What a swapped-out block needs of its new core. -/
def State.needOf (s : State) (bk : Nat) : Need :=
  let b := s.block bk
  let gs := ((s.groupsOf bk).map s.group).filter (·.live)
  { groups := gs.length, lines := (gs.map fun g => minLines g.alloc).sum, scratch := b.scratch, demand := b.demand
    entered := gs.foldl (fun m g => m ||| g.entered) 0 }

/-- The scratchpad waits of a party follow their blocks to the new cores (R202). -/
def movePlace (moves : List (Nat × Nat × Nat × Nat × Nat)) (p : Place) : Place :=
  match p with
  | .scr c a =>
    match moves.find? fun m => decide (m.1 = c) && decide (m.2.1 ≤ a) && decide (a < m.2.1 + m.2.2.1) with
    | some (_, o, _, c', o') => .scr c' (o' + (a - o))
    | none => p
  | _ => p

/-- The scratchpad places that a group's wait (R202) and its held accesses (R323) name follow. -/
def moveGroup (moves : List (Nat × Nat × Nat × Nat × Nat)) (g : Group) : Group :=
  { g with
    wait := g.wait.map fun r => { r with place := movePlace moves r.place }
    splits := g.splits.map fun e => match e.2.st with
      | .stalled (.passed n (some a)) =>
        (e.1, { e.2 with st := .stalled (.passed n (some { a with lanes := a.lanes.map fun x => (x.1, x.2.1, movePlace moves x.2.2) })) })
      | _ => e }

/-- The cores for a party that comes back, if it fits anywhere. -/
def State.readyCores (s : State) (bk : Nat) : Option (List Nat) :=
  let ps := s.partyOf bk
  let b := s.block bk
  let needs := ps.map s.needOf
  if ps.any fun k => (s.block k).thermal then s.coolestCores b.ctx b.lid needs else s.chooseCores b.ctx b.lid needs

/-- A party is placed: its blocks enter Restoring. -/
def State.placeReady (s : State) (bk : Nat) : State × Bool :=
  let ps := s.partyOf bk
  match s.readyCores bk with
  | none => (s, false)
  | some cores =>
    match s.dispatch (clusterOf (cores.headD 0)) with
    | (s, false) => (s, false)
    | (s, true) =>
      let ms := ps.zip cores
      let moves := ms.map fun m =>
        let x := s.block m.1
        (x.core, x.origin, x.scratch, m.2, (s.findOrigin m.2 x.scratch).getD 0)
      let s := ms.foldl (fun s m =>
        let x := s.block m.1
        s.putBlock m.1 { x with st := .restoring, core := m.2, thermal := false, origin := (s.findOrigin m.2 x.scratch).getD 0 }) s
      let s := placeWindows (ms.flatMap fun m => ((s.groupsOf m.1).filter fun k => (s.group k).live).map fun k => (k, m.2)) s
      let s := (ps.flatMap s.groupsOf).foldl (fun s k => s.putGroup k (moveGroup moves (s.group k))) s
      (s, true)

/-- R315: room is made for a Ready lowest block: the next victim's party goes through the migration path. -/
def State.makeRoomFor (s : State) (bk : Nat) : State :=
  let part := s.partCores (s.block bk).ctx
  let busy := s.blocks.any fun e => part.contains e.2.core && decide (e.2.reason = 2) && e.2.onCore
  if busy then s
  else
    let victims := s.blocks.filter fun e =>
      !e.2.control && decide (e.2.st = .resident) && part.contains e.2.core && !(s.context e.2.ctx).stopped &&
        !((s.partyOf e.1).any s.isLowest) && s.budgetAllows (s.partyOf e.1)
    match leastBy (fun (e : Nat × Block) => (s.launch e.2.lid).prio * 2 ^ 32 + (2 ^ 32 - 1 - e.2.bid)) victims with
    | some (k, _) => (s.partyOf k).foldl (fun s k => s.stopBlock k 2) s
    | none => s

/-! ### Admission (R314, R315, R320) -/

/-- Some block of an ordered launch could enter its place at this boundary and has not been placed. -/
def State.entryDue (s : State) (lid : Nat) : Bool :=
  let l := s.launch lid
  decide (l.next < l.total) && s.placeFree lid

/-- R174, R320, R328: the next quantum may begin: every due block is placed, every block with a place is resident, blocks that have
exited have finished too, and every command of the last quantum has completed. -/
def State.quantumReady (s : State) (lid : Nat) : Bool :=
  let l := s.launch lid
  let bs := s.startedBlocks lid
  decide (l.q ≠ 0) && l.boundary && !bs.isEmpty && !s.entryDue lid && !(s.context l.ctx).stopped &&
    !(s.context l.ctx).failed && (bs.all fun e => decide (e.2.st = .resident) && !e.2.exited) &&
    !(s.commands.any fun c => decide ((s.block (s.group c.g).blk).lid = lid))

/-- The next quantum begins, if it may, and with it the first round of every core (R320); what has retired since the last one ended counts in it
(R327). -/
def State.beginQuantum (s : State) (lid : Nat) : State :=
  let l := s.launch lid
  let bs := s.startedBlocks lid
  if !s.quantumReady lid then s
  else
    let s := s.putLaunch lid { l with boundary := false, rounds := [] }
    (bs.flatMap fun e => s.groupsOf e.1).foldl (fun s k =>
      let g := s.group k
      if g.live then releaseHeld (s.putGroup k { g with qended := false, qcount := g.qcount + g.qcarry, qcarry := 0 }) k else s) s

/-- Anything waits for placement (R285, R314). -/
def State.anyWaiting (s : State) : Bool := !s.readyParties.isEmpty || s.launches.any fun e => s.offers e.1

/-- R315: this party has made room for a Ready lowest block of cores that it could take, and that block has not been placed. -/
def State.makesRoom (s : State) (low : List Nat) (bk : Nat) : Bool :=
  decide ((s.block bk).reason = 2) &&
    low.any fun k => s.partyReady k && (s.partCores (s.block k).ctx).any fun c => (s.partCores (s.block bk).ctx).contains c

/-- ADMISSION_PASS (R314): Ready lowest blocks, then by priority Ready blocks before unstarted ones. The victims of R315 stay out until the
block that they made room for has been placed. -/
def execAdmissionPass (s : State) : Out :=
  let ready := s.readyParties
  let low := sortBy (fun k => (s.block k).readyAt) (ready.filter fun k => (s.partyOf k).any s.isLowest)
  let s1 := low.foldl (fun s k =>
    match s.readyCores k with
    | some _ => (s.placeReady k).1
    | none => s.makeRoomFor k) s
  let others := (ready.filter fun k => !low.contains k).map fun k => (false, k)
  let news := (s.launches.filter fun e => s.offers e.1).map fun e => (true, e.1)
  let key := fun (x : Bool × Nat) =>
    let lid := if x.1 then x.2 else (s.block x.2).lid
    ((3 - (s.launch lid).prio) * 2 + (if x.1 then 1 else 0)) * 2 ^ 32 + lid
  let s2 := (sortBy key (others ++ news)).foldl (fun s x =>
    if x.1 then placeMany x.2 12288 s
    else if s.makesRoom low x.2 then s
    else (s.placeReady x.2).1) s1
  .next ((s2.launches.foldl (fun s e => s.beginQuantum e.1) s2).testDrains)

/-! ### Parking (R284, R285) -/

/-- The parked groups of a block. -/
def State.parkedOf (s : State) (bk : Nat) : List Group :=
  ((s.groupsOf bk).map s.group).filter fun g => match g.wait with
    | some r => r.park && r.ended.isNone
    | none => false

/-- R284: a trigger of the block holds. -/
def State.parkTriggered (s : State) (bk : Nat) : Bool :=
  let b := s.block bk
  let c := s.context b.ctx
  let gs := s.parkedOf bk
  let n := if c.parkn = 0 then ceilDiv (s.launch b.lid).groups 2 else c.parkn.toNat
  decide (n ≤ gs.length) && decide (0 < gs.length) ||
    (decide (c.parkt ≠ 0) && gs.any fun g => match g.wait with
      | some r => decide (r.since + c.parkt.toNat ≤ s.now)
      | none => false)

/-- R285: a triggered block may be swapped out. -/
def State.parkAllowed (s : State) (bk : Nat) : Bool :=
  let b := s.block bk
  let c := s.context b.ctx
  let ps := s.partyOf bk
  let span := if c.parkt = 0 then 60000 else c.parkt.toNat
  !b.control && !(ps.any s.isLowest) && s.anyWaiting && s.budgetAllows ps &&
    (ps.all fun k => match (s.block k).readmitted with
      | some t => decide (t + span ≤ s.now)
      | none => true) &&
    (decide ((s.launch b.lid).q = 0) || (s.launch b.lid).boundary)

/-- The triggers of a block are tested, and its party may enter Stopping. -/
def State.parkTest (s : State) (bk : Nat) : State :=
  if (s.block bk).st = .resident ∧ s.parkTriggered bk = true ∧ s.parkAllowed bk = true then
    (s.partyOf bk).foldl (fun s k => s.stopBlock k 1) s
  else s

/-- PARK_TRIGGER (R284). -/
def execParkTrigger (blk : Nat) (s : State) : Out := .next (s.parkTest blk)

/-- PARK_TIME_EXPIRE (R284). -/
def execParkTimeExpire (g : Nat) (s : State) : Out := .next (s.parkTest (s.group g).blk)

/-! ### Drain, save and restore (R175, R286-R288) -/

/-- R287: a split in supervisor mode has parked, or cannot go on before the restore. In a pre-emption a `gsvc` that waits for room is not
waited for (R295). -/
def splitDrained (preempt : Bool) (sp : Split) : Bool :=
  !sp.sup || (match sp.st with
    | .waiting => true
    | .atBar _ => true
    | .atPbar _ => true
    | .atJoin => true
    | .heldFault => true
    | .halted => true
    | .stalled .service => preempt
    | _ => false)

/-- R287: the drain conditions of a group. -/
def Group.drained (g : Group) (preempt : Bool) : Bool :=
  g.ploads.isEmpty && (g.pstores.all (·.buffered)) && g.hsts.isEmpty && g.tokens.isEmpty && g.pends.isEmpty &&
    decide (g.neng = 0) && decide (g.ntile = 0) && g.splits.all fun e => splitDrained preempt e.2

/-- R287: a block has drained, its bundle requests, those of exited groups too, among the rest (R194). -/
def State.blockDrained (s : State) (bk : Nat) : Bool :=
  let b := s.block bk
  ((s.groupsOf bk).all fun g => (s.group g).drained (decide (b.reason = 3))) &&
    !((s.core b.core).fills.any fun f => (s.groupsOf bk).contains f.g)

/-- BLOCK_DRAIN_COMPLETE (R286, R287): a party whose every block has drained goes to Saving. -/
def execBlockDrainComplete (blk : Nat) (s : State) : Out :=
  let ps := s.partyOf blk
  let done := ps.all fun k => decide ((s.block k).st = .stopping) && s.blockDrained k
  .next (if done then ps.foldl (fun s k => s.putBlock k { s.block k with st := .saving }) s else s)

/-- The bundles that nobody of a core is inside any more become Resident, as far as `K_BCAP` allows (R179), or go (R187, R189). -/
def State.departBundles (s : State) (core : Nat) : State :=
  let co := s.core core
  let out := co.bundles.filter fun b => decide (b.st = .entered) && !s.insideAny core b.lid b.id
  let co := out.foldl (fun co b =>
    let keep := match s.bundleOf b.lid b.id with
      | some d => !d.dropping
      | none => false
    if keep then Core.trimBcap b.ctx (s.context b.ctx).bcap.toNat { co with bundles := co.bundles.map fun x =>
        if x.lid = b.lid ∧ x.id = b.id then { x with st := .resident, leave := s.now } else x }
    else Core.evict co b.lid b.id) co
  s.putCore core co

/-- A wait that holds an entry at a slice or in a monitor table: those of ordered launches hold none (R326). -/
def State.waitRegistered (s : State) (gk : Nat) : Bool := (s.group gk).wait.isSome && decide (s.ordQ gk = 0)

/-- A wait of a block has ended. -/
def State.waitEnded (s : State) (bk : Nat) : Bool :=
  (s.groupsOf bk).any fun k => (s.group k).live && match (s.group k).wait with
    | some r => r.ended.isSome
    | none => false

/-- R286: a block goes from Saving to Ready where a wake has ended an entry or none is registered, and to Absent otherwise. -/
def State.savedState (s : State) (bk : Nat) (woke : Bool) : BlockState :=
  let gs := (s.groupsOf bk).filter fun k => (s.group k).live
  if woke || s.waitEnded bk || !gs.any s.waitRegistered then .ready else .absent

/-- One block leaves its core: its images are written (R291, R292), and its place in R286 follows from its waits, those among them that a
pre-emption drops (R290, R295). -/
def State.saveBlock (s : State) (bk : Nat) : State :=
  let b := s.block bk
  let woke := s.waitEnded bk
  let s := if b.reason = 3 then s.preemptBlock bk else if s.trims bk then s.trimWaits bk else s
  let gs := (s.groupsOf bk).filter fun k => (s.group k).live
  let s := gs.foldl (fun s k =>
    let base := s.imageBase k
    let s := s.flushChains k
    let s := s.writeImage b.ctx base (s.group k)
    let g := s.afterSave b.ctx base (s.group k)
    s.putGroup k { g with chains := g.chains.map (s.leaveEngine b.ctx base) }) s
  let st := s.savedState bk woke
  let s := s.writeBlockImage bk st
  let co := s.core b.core
  let mine := fun (a : Nat) => decide (b.origin ≤ a) && decide (a < b.origin + b.scratch)
  let s := s.putCore b.core { co with
    l1 := co.l1.filter fun l => decide (l.ctx ≠ b.ctx), spoison := co.spoison.filter fun e => !mine (4 * e.1) }
  let s := s.putBlock bk { b with
    st := st, readyAt := s.now
    saved := (co.scratch.filter fun e => mine e.1).map fun e => (e.1 - b.origin, e.2)
    spois := (co.spoison.filter fun e => mine (4 * e.1)).map fun e => (e.1 - b.origin / 4, e.2) }
  s.departBundles b.core

/-- The physical pages of the image slot of a block (R308). -/
def State.slotPages (s : State) (bk : Nat) : List Nat :=
  let b := s.block bk
  let l := s.launch b.lid
  (seqFrom (s.slotBase bk / 65536) (ceilDiv (slotBytes l.scratch l.groups) 65536)).filterMap fun p => (s.pageLeaf b.ctx p).map (·.1)

/-- A line of a block's image, the walk of one of its pages, or a row of its scratchpad is under test (R159). -/
def State.imageTested (s : State) (bk : Nat) : Bool :=
  let b := s.block bk
  let l := s.launch b.lid
  !s.march.isEmpty && (s.rangesTested [{ core := b.core, lo := b.origin, hi := b.origin + b.scratch }] (s.slotPages bk) ||
    (seqFrom (s.slotBase bk / 65536) (ceilDiv (slotBytes l.scratch l.groups) 65536)).any fun p => s.walkBusy b.ctx (p * 65536))

/-- BLOCK_SAVE_COMPLETE (R286): nothing of its images is under test (R159). -/
def execBlockSaveComplete (blk : Nat) (s : State) : Out :=
  let ps := (s.partyOf blk).filter fun k => decide ((s.block k).st = .saving)
  .next (if ps.any s.imageTested then s else (ps.foldl (fun s k => s.saveBlock k) s).testDrains)

/-- R175: a saved bundle is entered again with a fresh snapshot, or its group is marked where a line does not translate. Lines that another
Entered bundle of the core shares keep its copies (R171, R182). -/
def State.reenter (s : State) (bk i : Nat) : State :=
  let b := s.block bk
  let ks := (s.groupsOf bk).filter fun k => (s.group k).entered.getLsbD i
  let ext := ((s.bundleOf b.lid i).map (·.ext)).getD []
  let (s, lines) := s.bundleLines b.core b.ctx ext
  let good := lines.filterMap fun x => match x.2 with
    | .ok pl => some (x.1, pl)
    | .error _ => none
  if good.length ≠ lines.length then
    ks.foldl (fun s k =>
      s.putGroup k ((s.group k).revoke i ext)) s
  else if (match (s.core b.core).bundle b.lid i with
    | some x => x.held
    | none => false) then s
  else
    let req : List ReqBundle := [{ id := i, joined := false, lines := lines }]
    let s := match ks with
      | k :: _ => s.makeRoom k req
      | [] => s
    let co := s.core b.core
    let shared := pinnedLines (co.bundles.filter fun x => decide (x.st = .entered))
    let lines := good.filter fun x => !shared.contains x.2
    let pls := lines.map (·.2)
    let new : BundleAt := { lid := b.lid, id := i, ctx := b.ctx, st := .entered, leave := 0, pls := (good.map (·.2)).eraseDups }
    s.putCore b.core (Core.trimL1 { co with
      bundles := (co.bundles.filter fun x => !(decide (x.lid = b.lid) && decide (x.id = i))) ++ [new]
      pins := (co.pins.filter fun p => !pls.contains p.pl) ++ lines.map fun x => s.pinOf b.ctx x.1 x.2
      l1 := co.l1.filter fun l => !pls.contains l.pl })

/-- R202, R288: a restored group's ended wait is written, and a scratchpad wait is registered again by a fresh read. -/
def State.resumeWait (s : State) (gk : Nat) : State :=
  match (s.group gk).wait with
  | none => s
  | some r =>
    match r.ended, r.place with
    | some (w, st), _ => (s.touch gk [r.dl, r.dh]).finishWait gk r w st
    | none, .scr _ _ =>
      let w : Word := BitVec.ofNat 32 (s.numAt r.place 4)
      if s.ordQ gk = 0 ∧ waitHolds r.m w r.y r.mask then (s.touch gk [r.dl, r.dh]).finishWait gk r w 1 else s
    | none, _ => s

/-- Some bundle that a block comes back into is being filled on its core, and the restore waits for it (R175). -/
def State.entersFilling (s : State) (bk : Nat) : Bool :=
  let b := s.block bk
  (s.groupsOf bk).any fun k => (lanesOf (s.group k).entered).any fun i =>
    match (s.core b.core).bundle b.lid i with
    | some x => decide (x.st = .filling)
    | none => false

/-- A line of a bundle that a block comes back into waits: its walk or its row is under test (R159), or a strong store to it is still held on the core
(R163). -/
def State.entersBusy (s : State) (bk : Nat) : Bool :=
  let b := s.block bk
  let mask := (s.groupsOf bk).foldl (fun m k => m ||| (s.group k).entered) 0
  (lanesOf mask).any fun i =>
    let ext := ((s.bundleOf b.lid i).map (·.ext)).getD []
    ((s.bundleLines b.core b.ctx ext).2).any fun x => match x.2 with
      | .ok pl => s.underTest b.core [.glob (pl * 128) (x.1 * 128)] || s.heldAtPlaces b.core [.glob (pl * 128) (x.1 * 128)] 4
      | .error f => decide (f = .busy)

/-- The images of a block are read, and it is on its core (R288). No line of its context is left in the core's L1 from before (R163,
R175). -/
def State.restoreBlock (s : State) (bk : Nat) : State :=
  let b := s.block bk
  let ks := (s.groupsOf bk).filter fun k => (s.group k).live
  let s := ks.foldl (fun s k => s.putGroup k (s.readImage b.ctx (s.imageBase k) (s.group k))) s
  let co := s.core b.core
  let mine := fun (a : Nat) => decide (b.origin ≤ a) && decide (a < b.origin + b.scratch)
  let keep := co.scratch.filter fun e => !mine e.1
  let sc := s.readScratch bk
  let scr := (seqFrom 0 b.scratch).foldl (fun m a => mapSet zeroByte m (b.origin + a) (mapGet zeroByte sc a)) keep
  let pois := b.spois.foldl (fun m e => mapSet 0 m (b.origin / 4 + e.1) e.2) (co.spoison.filter fun e => !mine (4 * e.1))
  let s := s.putCore b.core { co with scratch := scr, spoison := pois, l1 := co.l1.filter fun l => decide (l.ctx ≠ b.ctx) }
  s.putBlock bk { b with st := .resident, readmitted := some s.now, reason := 0, saved := [], spois := [] }

/-- The splits of a restored group go on: what waited in the bundle queue executes again (R184), ended waits are written and held faults
taken (R287, R288). -/
def State.resumeGroup (s : State) (gk : Nat) : State :=
  let g := s.group gk
  let s := s.putGroup gk { g with splits := g.splits.map fun e =>
    (e.1, if e.2.st = .bundleQueue then { e.2 with st := SplitState.running } else e.2) }
  releaseHeld (s.resumeWait gk) gk

/-- BLOCK_RESTORE_COMPLETE (R24, R202, R286, R288): a party comes back whole: its images are read, then its bundles entered, and then its waits
written or registered again. -/
def execBlockRestoreComplete (blk : Nat) (s : State) : Out :=
  let ps := s.partyOf blk
  if (s.block blk).st ≠ .restoring ∨ !ps.all (fun k => decide ((s.block k).st = .restoring)) ∨ ps.any s.entersFilling ∨
      ps.any s.imageTested ∨ ps.any s.entersBusy then .next s
  else
    let s := ps.foldl State.restoreBlock s
    let ks := ps.flatMap fun k => (s.groupsOf k).filter fun g => (s.group g).live
    let s := ps.foldl (fun s k =>
      let ids := (s.groupsOf k).foldl (fun m g => m ||| (s.group g).entered) 0
      ((lanesOf ids).foldl (fun s i => s.reenter k i) s).sweepDropped (s.block k).lid) s
    let s := ks.foldl State.resumeGroup s
    .next (if (s.context (s.block blk).ctx).stopped then ps.foldl (fun s k => s.stopBlock k 3) s else s)

end Sys2Proof.Machine
end

