-- ==== Sys2Proof/Machine/Engines.lean ====
section
/-! DEFINITION. Copy, gather and scatter-add commands and the prefetch (spec/13_async_engines.md R214-R229): opcodes 0xC0-0xC2 and 0xC6, and
the events ENGINE_COMMAND_START and ENGINE_COMMAND_COMPLETE; and what every command shares: its fork (R168, R217), the range
scoreboard (R223), its writes (R168, R225) and its completion (R221, R222, R226). -/
namespace Sys2Proof.Machine
open Sys2Proof

/-! ### Queues and the scoreboard of R223 -/

/-- The queues of a core: 0 copy, 1 Rill, 2 Cascade, 3 matrix. -/
def Core.queue (co : Core) (k : Nat) : List Cmd :=
  match k with
  | 0 => co.copyq
  | 1 => co.rillq
  | 2 => co.cascq
  | _ => co.matq

/-- A queue is replaced. -/
def Core.setQueue (co : Core) (k : Nat) (q : List Cmd) : Core :=
  match k with
  | 0 => { co with copyq := q }
  | 1 => { co with rillq := q }
  | 2 => { co with cascq := q }
  | _ => { co with matq := q }

/-- The entries of a core's scoreboard: its commands from fork to completion. -/
def State.scoreboard (s : State) (core : Nat) : List Cmd := s.commands.filter fun c => decide (c.core = core)

/-- Two ranges conflict. -/
def rangesConflict (a b : ScrRange) : Bool := decide (a.core = b.core) && decide (a.lo < b.hi) && decide (b.lo < a.hi)

/-- Some range of one list conflicts with one of the other. -/
def anyConflict (xs ys : List ScrRange) : Bool := xs.any fun x => ys.any (rangesConflict x)

/-- R223: RAW, WAW and WAR against the commands issued earlier on the same core. -/
def State.cmdBlocked (s : State) (c : Cmd) : Bool :=
  (s.scoreboard c.core).any fun e => decide (e.id < c.id) && (anyConflict e.wr (c.rd ++ c.wr) || anyConflict e.rd c.wr)

/-- R217, R224: the engine's queue and the scoreboard have a free entry. The command that runs keeps its entry of the queue until it completes
(log entry 72). -/
def State.queueReady (s : State) (queued counter : Nat) : Except Stop Unit :=
  if 16 ≤ queued ∨ 64 ≤ (s.scoreboard s.curCore).length then .error (.stall .queue)
  else if 2064 ≤ counter then .error (.stall .full)
  else .ok ()

/-! ### Descriptors and sides (R215-R217) -/

/-- The address of a descriptor, for `K_FADDR` (R271). -/
def descAddr (hnum o : Nat) (p : Place) : Nat :=
  match p with
  | .glob _ va => va
  | _ => handleAddr hnum o

/-- The bytes of a descriptor, read at issue from space 0 or 1; `code` names the fault of a wrong space (R217, R251). -/
def State.cmdDesc (s : State) (code reason hnum o align n : Nat) : State × Except Stop (Nat × List Byte) :=
  let (s, r) := accessCheck s hnum .desc align [(s.leader, o)]
  match r with
  | .error e => (s, .error e)
  | .ok (e, as) =>
    let p := (as.map (·.place)).headD (.host 0)
    let addr := descAddr hnum o p
    if 2 ≤ e.space then (s, .error (.trap (mkTrap code reason addr s.leaderMask)))
    else
      match s.ownReadWaits p n with
      | some w => (s, .error (.stall w))
      | none =>
        if s.poisoned p n then (s, .error (.trap (mkTrap fMemerr 6 addr s.leaderMask)))
        else (s, .ok (addr, s.bytesAt p n))

/-- A side or array of a descriptor, with what its kind needs of it. -/
structure Side where
  hnum : Nat
  off : Nat
  n : Nat
  stride : Nat
  rwords : Nat
  r : Bool
  w : Bool
  a : Bool
  spaces : List Nat
  deriving DecidableEq, Repr

/-- The length of an extent in bytes (R216). -/
def Side.len (x : Side) : Nat := if x.n = 0 then 0 else (x.n - 1) * x.stride + 4 * x.rwords

/-- A side after its checks: where its byte 0 lies, and its hull if it is in a scratchpad (R216, R223). -/
structure SideAt where
  space : Nat
  base : SideBase
  hull : List ScrRange
  deriving DecidableEq, Repr

/-- The base of a side in the space of its entry. -/
def State.sideBase (s : State) (e : Entry) (off : Nat) : SideBase :=
  if e.space = 0 then .glob s.curCtx (e.base + off)
  else
    match s.placeOf e off with
    | .scr c a => .scr c a
    | .host a => .host a
    | .glob _ va => .glob s.curCtx va

/-- The checks of one handle (R217), in their order; `bad` is the fault of a space that the command does not allow. The member that an empty
extent of space 2 names is tested too (log entry 72). A table entry whose row is under test is waited for (R159). -/
def State.sideCheck (s : State) (bad : Stop) (x : Side) : State × Except Stop SideAt :=
  let wait := s.curHandleTested x.hnum
  let (s, e) := s.curHandle x.hnum
  let fault := fun (code detail : Nat) => Stop.trap (mkTrap code detail (handleAddr x.hnum x.off) s.leaderMask)
  if wait then (s, .error (.stall .full))
  else if !e.usable then (s, .error (fault fHandle 1))
  else if !x.spaces.contains e.space then (s, .error bad)
  else
    match if x.len = 0 then none else boundFault e s.curBlock x.off x.len with
    | some d => (s, .error (fault fHandle d))
    | none =>
      if (x.r && !e.pr) || (x.w && !e.pw) || (x.a && !e.pa) then (s, .error (fault fProt 1))
      else if e.space = 2 ∧ s.peerGone x.off = true then (s, .error (fault fPeergone (peerOf x.off)))
      else
        let b := s.sideBase e x.off
        let hull := match b with
          | .scr c a => if x.len = 0 then [] else [{ core := c, lo := a, hi := a + x.len : ScrRange }]
          | _ => []
        (s, .ok { space := e.space, base := b, hull := hull })

/-- The checks of several handles, in order. -/
def State.sideChecks (s : State) (bad : Stop) : List Side → State × Except Stop (List SideAt)
  | [] => (s, .ok [])
  | x :: rest =>
    let (s, r) := s.sideCheck bad x
    match r with
    | .error e => (s, .error e)
    | .ok a =>
      let (s, rs) := s.sideChecks bad rest
      match rs with
      | .error e => (s, .error e)
      | .ok as => (s, .ok (a :: as))

/-- Each page of a global byte range is translated, in rising order: (virtual, physical) pages, or the first fault (R217). -/
def State.transPages (s : State) (va len : Nat) (r w : Bool) : List Nat → State × Except Stop (List (Nat × Nat))
  | [] => (s, .ok [])
  | p :: rest =>
    let a := max va (p * 65536)
    let (s, t) := s.transCheck s.curCore s.curCtx a r w
    match t with
    | .error e => (s, .error (transStop e a 5 s.leaderMask))
    | .ok pa =>
      let (s, ts) := s.transPages va len r w rest
      match ts with
      | .error e => (s, .error e)
      | .ok xs => (s, .ok ((p, pa / 65536) :: xs))

/-- `transPages` for a side; nothing where it is not global. -/
def State.transSide (s : State) (b : SideBase) (len : Nat) (r w : Bool) : State × Except Stop (List (Nat × Nat)) :=
  match b with
  | .glob _ va =>
    if len = 0 then (s, .ok [])
    else s.transPages va len r w (seqFrom (va / 65536) ((va + len - 1) / 65536 + 1 - va / 65536))
  | _ => (s, .ok [])

/-- The barrier object of an `.arr` command, checked as an 8-byte atomic: its place and scope (R213, R217). A page fault has the detail of an
atomic, where R271 would let it have that of engine issue (log entry 23); a revocation mark does not stop it, as R217 has no such fault (R10). -/
def State.arrCheck (s : State) (arr : Bool) (b : Reg) : State × Except Stop (Option (Place × Nat)) :=
  if arr then
    let (s, r) := accessCheck s (s.u b).toNat .object 8 [(s.leader, (s.u (b + 1)).toNat)]
    match r with
    | .error e => (s, .error e)
    | .ok (e, as) => (s, .ok (some ((as.map (·.place)).headD (.host 0), e.scope)))
  else (s, .ok none)

/-! ### The fork (R168, R217, R222) -/

/-- A command as it is forked by the current split. -/
def State.newCmd (s : State) (op : CmdOp) (tok : Option Reg) (rd wr : List ScrRange) (xl : List (Nat × Nat))
    (arr : Option (Place × Nat)) : Cmd :=
  let ap := match arr with
    | some (p, _) => pagesOf [p]
    | none => []
  { id := s.nextCmd, g := s.cg, core := s.curCore, lanes := s.csp.members, tok := tok.map (s.cur.loc s.csp), op := op
    rd := rd, wr := wr, pages := xl.map (·.1) ++ ap, xl := xl, arr := arr, started := false, sent := false, token := 0, ct := 0
    poison := false, flags := 0, outs := [], slots := [], rows := [], lost := [], due := 0, unsent := [], flying := [], waitCommit := decide (s.curLaunch.q ≠ 0) }

/-- The fork: the group's counter rises, its token register is scoreboarded for the whole group, and in ordered mode its quantum
ends (R173). The caller has put the command into its queue. -/
def State.forked (s : State) (c : Cmd) (tile : Bool) : State :=
  let g := s.cur
  let toks : List Token := match c.tok with
    | some loc => [{ id := c.id, cmd := true, loc := loc, lanes := BitVec.ofNat 32 (2 ^ 32 - 1) }]
    | none => []
  let g := if tile then { g with ntile := g.ntile + 1 } else { g with neng := g.neng + 1 }
  let s := { s with nextCmd := s.nextCmd + 1 }
  let s := s.advanceClose
  s.putCur { s.cur with
    ntile := g.ntile, neng := g.neng, tokens := s.cur.tokens ++ toks, qended := s.cur.qended || c.waitCommit }

/-- A command joins a queue of the current core, and forks. -/
def State.forkTo (s : State) (k : Nat) (c : Cmd) : State :=
  let co := s.core s.curCore
  (s.putCore s.curCore (co.setQueue k (co.queue k ++ [c]))).forked c (decide (k = 3))

/-! ### Reads and writes of a command (R168, R218, R225) -/

/-- Byte `off` of a side, translated through the pages of the issue or, for a row of the Rill or the Cascade, now (R219, R225). A page of such
a row that lacks the permission, is executable or lies beyond the memory fails translation too (log entry 72). -/
def State.sideAt (s : State) (c : Cmd) (w : Bool) (b : SideBase) (off : Nat) : State × Option Place :=
  match b with
  | .scr co a => (s, some (.scr co (a + off)))
  | .host a => (s, some (.host (a + off)))
  | .glob ctx va =>
    match c.xl.find? fun p => decide (p.1 = (va + off) / 65536) with
    | some p => (s, some (.glob (p.2 * 65536 + (va + off) % 65536) (va + off)))
    | none =>
      match s.transCheck c.core ctx (va + off) true w with
      | (s, .ok pa) => (s, some (.glob pa (va + off)))
      | (s, .error _) => (s, none)

/-- The words of a row; none where one of its pages fails translation. -/
def State.sideRow (s : State) (c : Cmd) (w : Bool) (b : SideBase) (off : Nat) : Nat → State × Option (List Place)
  | 0 => (s, some [])
  | n + 1 =>
    match s.sideAt c w b off with
    | (s, none) => (s, none)
    | (s, some p) =>
      let (s, ps) := s.sideRow c w b (off + 4) n
      (s, ps.map (p :: ·))

/-- A word and whether it is poisoned (R160). -/
def State.wordAt (s : State) (p : Place) : Word × Bool := (BitVec.ofNat 32 (s.numAt p 4), s.poisoned p 4)

/-- A scratchpad word of an array at byte `off`. -/
def State.arrayWord (s : State) (c : Cmd) (b : SideBase) (off : Nat) : State × Word × Bool :=
  match s.sideAt c false b off with
  | (s, some p) => (s, s.wordAt p)
  | (s, none) => (s, 0, true)

/-- The write without its poison. -/
def CmdWrite.plain (w : CmdWrite) : ByteWrite := { place := w.place, bytes := w.bytes }

/-- The write of a whole word. -/
def wordWrite (p : Place) (v : Word) (bad : Bool) : CmdWrite := { place := p, bytes := leBytes 4 v.toNat, bad := bad }

/-- A word becomes poisoned (R160, R225). -/
def State.poisonWord (s : State) (p : Place) : State :=
  match p with
  | .glob pa _ => { s with poison := { base := pa, size := 4, left := 15 } :: s.poison }
  | .scr c a =>
    let co := s.core c
    s.putCore c { co with spoison := mapSet 0 co.spoison (a / 4) 15 }
  | .host _ => s

/-- A word that a command poisons is poisoned in its core's L1 copies too (R160, R168). -/
def State.poisonCopies (s : State) (core : Nat) (p : Place) : State :=
  match p with
  | .glob pa _ =>
    let co := s.core core
    if co.l1.any fun l => decide (l.pl = pa / 128) then
      s.putCore core { co with l1 := co.l1.map fun l =>
        if l.pl = pa / 128 then { l with bad := { base := pa, size := 4, left := 15 } :: l.bad } else l }
    else s
  | _ => s

/-- One write of a command is performed: unpinned L1 copies of its core follow (R168), poison spreads (R225), and the monitors meet it
(R196, R198). -/
def State.cmdWrite (c : Cmd) (s : State) (w : CmdWrite) : State :=
  let s := s.pokeBytes w.place w.bytes
  let s := match w.place with
    | .glob pa _ => s.updateCopies c.core false pa w.bytes
    | _ => s
  let s := if w.bad then (s.poisonWord w.place).poisonCopies c.core w.place else s
  evalMonitors s [w.plain]

/-- What a command has written is kept until device time has passed its completion time, for the splits that join it (R168). -/
def State.join (s : State) (cmd ct : Nat) (ws : List ByteWrite) : State :=
  if ct < s.now then s else { s with joins := s.joins ++ [{ cmd := cmd, ct := ct, writes := ws }] }

/-- A command's writes are performed, in order. An element that is narrower than its word leaves the poison that another element of the
command has put there (R246). -/
def State.cmdWrites (s : State) (c : Cmd) (ws : List CmdWrite) : State × Nat :=
  let ct := max c.ct (s.completionOf (ws.map (·.plain)))
  let s := ws.foldl (State.cmdWrite c) s
  let s := (ws.filter fun w => w.bad && decide (w.bytes.length < 4)).foldl (fun s w => s.poisonWord w.place) s
  (s.join c.id ct (ws.map (·.plain)), ct)

/-- What the data of a command has come to: its writes and their completion time, the places that it has read and written, the first flagged
position, and the token's flags (R221). -/
structure CmdRun where
  writes : List ByteWrite
  ct : Nat
  touched : List Place
  first : Option Nat
  bound : Bool
  page : Bool
  poison : Bool
  /-- A row's translation walks through a row under test (R159). -/
  busy : Bool
  deriving DecidableEq, Repr

/-- A run without writes and flags. -/
def CmdRun.start : CmdRun :=
  { writes := [], ct := 0, touched := [], first := none, bound := false, page := false, poison := false, busy := false }

/-- The translation of some of these `n` words of a side, which the issue has not made, waits for a row under test (R159). -/
def State.rowBusy (s : State) (c : Cmd) (b : SideBase) (off n : Nat) : Bool :=
  match b with
  | .glob ctx va => !s.march.isEmpty && (seqFrom 0 n).any fun i =>
      !(c.xl.any fun p => decide (p.1 = (va + off + 4 * i) / 65536)) && s.walkTested c.core ctx (va + off + 4 * i)
  | _ => false

/-- A row has met a walk that waits. -/
def CmdRun.meet (r : CmdRun) (busy : Bool) : CmdRun := { r with busy := r.busy || busy }

/-- A position is flagged. -/
def CmdRun.flag (r : CmdRun) (pos : Nat) (page : Bool) : CmdRun :=
  { r with first := some (r.first.getD pos), bound := r.bound || !page, page := r.page || page }

/-- Places are read. -/
def CmdRun.read (r : CmdRun) (ps : List Place) : CmdRun := { r with touched := r.touched ++ ps }

/-- A word is written. -/
def CmdRun.write (c : Cmd) (acc : State × CmdRun) (w : CmdWrite) : State × CmdRun :=
  let r := acc.2
  (acc.1.cmdWrite c w, { r with
    writes := r.writes ++ [w.plain], ct := max r.ct (acc.1.completionAt w.place), touched := r.touched ++ [w.place], poison := r.poison || w.bad })

/-- The token of R221, without noarr. -/
def CmdRun.token (r : CmdRun) : Word :=
  BitVec.ofNat 32 (r.first.getD 0xFFFF * 65536 + (if r.page then 8 else 0) + (if r.bound then 4 else 0) +
    (if r.poison then 2 else 0) + 1)

/-- Words go to the words of a row of side B. -/
def State.rowWrites (s : State) (c : Cmd) (b : SideBase) (off : Nat) (ws : List (Word × Bool)) (r : CmdRun) : State × CmdRun :=
  match s.sideRow c true b off ws.length with
  | (s, none) => (s, r)
  | (s, some ps) => (ps.zip ws).foldl (fun acc x => CmdRun.write c acc (wordWrite x.1 x.2.1 x.2.2)) (s, r)

/-- One row of a copy (R218). -/
def State.copyRow (c : Cmd) (d : DataCmd) (acc : State × CmdRun) (r : Nat) : State × CmdRun :=
  match acc.1.sideRow c false d.a (r * d.astride) d.rwords with
  | (s, none) => (s, acc.2)
  | (s, some ps) => s.rowWrites c d.b (r * d.bstride) (ps.map s.wordAt) (acc.2.read ps)

/-- One row of a gather (R219, R225). It reads after the rows before it have been written. -/
def State.gatherRow (c : Cmd) (d : DataCmd) (acc : State × CmdRun) (r : Nat) : State × CmdRun :=
  let (s, t, bad) := acc.1.arrayWord c (d.idx.getD d.a) (4 * r)
  let zeros := (seqFrom 0 d.rwords).map fun _ => ((0 : Word), false)
  if bad then (s, { acc.2.flag r false with poison := true })
  else if d.bound ≤ t.toNat then s.rowWrites c d.b (r * d.bstride) zeros (acc.2.flag r false)
  else
    match s.sideRow c false d.a (t.toNat * d.astride) d.rwords with
    | (s, none) => s.rowWrites c d.b (r * d.bstride) zeros ((acc.2.flag r true).meet (s.rowBusy c d.a (t.toNat * d.astride) d.rwords))
    | (s, some ps) => s.rowWrites c d.b (r * d.bstride) (ps.map s.wordAt) (acc.2.read ps)

/-- One contribution to a destination word: weight, source and poison. -/
structure Contrib where
  w : Word
  x : Word
  bad : Bool
  deriving DecidableEq, Repr

/-- A number for the word at a place (R301): two virtual names of one word have one. -/
def placeKey (p : Place) : Nat :=
  match p with
  | .glob pa _ => 3 * pa
  | .scr c a => 3 * (c * 2 ^ 21 + a) + 1
  | .host a => 3 * a + 2

/-- The contributions by destination word, in source order. -/
abbrev Folds := SMap (Place × List Contrib)

/-- One contribution of a scatter-add (R220, R225). Every source word is read before the command writes; where side A meets side B, R220 does
not say so (log entry 64). A poisoned source index counts even where the destination index skips the contribution (log entry 72). -/
def State.scatterOne (c : Cmd) (d : DataCmd) (acc : State × CmdRun × Folds) (j : Nat) : State × CmdRun × Folds :=
  let (s, t, bad1) := acc.1.arrayWord c (d.idx.getD d.a) (4 * j)
  let (s, src, bad2) := match d.sidx with
    | some b => s.arrayWord c b (4 * j)
    | none => (s, BitVec.ofNat 32 j, false)
  let (s, w, badw) := match d.wgt with
    | some b => s.arrayWord c b (4 * j)
    | none => (s, 0x3F800000, false)
  let run := acc.2.1
  let folds := acc.2.2
  if bad1 || bad2 then (s, { run.flag j false with poison := true }, folds)
  else if t = 0xFFFFFFFF then (s, run, folds)
  else if d.bound ≤ t.toNat || (d.sidx.isSome && decide (d.sbound ≤ src.toNat)) then (s, run.flag j false, folds)
  else
    match s.sideRow c true d.b (t.toNat * d.bstride) d.rwords, s.sideRow c false d.a (src.toNat * d.astride) d.rwords with
    | (s, some ps), (_, some xs) =>
      let folds := ((seqFrom 0 d.rwords).zip (ps.zip xs)).foldl (fun m e =>
        let key := placeKey e.2.1
        let x := s.wordAt e.2.2
        let old := match mapFind m key with
          | some o => o.2
          | none => []
        mapPut m key (e.2.1, old ++ [{ w := w, x := x.1, bad := x.2 || badw }])) folds
      (s, run.read xs, folds)
    | (s, _), _ => (s, (run.flag j true).meet (s.rowBusy c d.b (t.toNat * d.bstride) d.rwords), folds)

/-- `add` of R220. -/
def foldAdd (etype : Nat) (v w x : Word) : Word :=
  match etype with
  | 0 => (roundW 0 0 (fFma false (f32v w) (f32v x) (f32v v))).1
  | 1 => v + x
  | _ => resAdd v x

/-- The fold of one destination word. -/
def State.foldWord (s : State) (etype : Nat) (p : Place) (cs : List Contrib) : CmdWrite :=
  let b := s.wordAt p
  wordWrite p (cs.foldl (fun v x => foldAdd etype v x.w x.x) b.1) (b.2 || cs.any (·.bad))

/-- The data of a command (R218-R220). -/
def State.runData (s : State) (c : Cmd) (d : DataCmd) : State × CmdRun :=
  match d.kind with
  | 0 => (seqFrom 0 d.rows).foldl (State.copyRow c d) (s, CmdRun.start)
  | 1 => (seqFrom 0 d.rows).foldl (State.gatherRow c d) (s, CmdRun.start)
  | _ =>
    let (s, run, folds) := (seqFrom 0 d.rows).foldl (State.scatterOne c d) (s, CmdRun.start, [])
    folds.foldl (fun acc e => CmdRun.write c acc (s.foldWord d.etype e.2.1 e.2.2)) (s, run)

/-- The nominal run time of a command (R224), with the acknowledgement of its last write. -/
def DataCmd.time (d : DataCmd) : Nat := 8 + ceilDiv (d.rows * d.rwords * 4) 128 + ceilDiv d.rows 32 + 250

/-! ### Issue of the data engines (R214-R217) -/

/-- The sides and arrays of a descriptor, in the order of R217. -/
def dataSides (kind : Nat) (f : Nat → Nat) : List Side :=
  let rw := bitsOf (f 5) 31 16
  let rows := bitsOf (f 5) 15 0
  let ssi := (f 0).testBit 24
  let ah := bitsOf (f 0) 23 12
  let bh := bitsOf (f 0) 11 0
  let array := fun (h off : Nat) =>
    ({ hnum := bitsOf h 31 20, off := off, n := rows, stride := 4, rwords := 1, r := true, w := false, a := false
       spaces := [1] } : Side)
  match kind with
  | 0 =>
    [{ hnum := ah, off := f 1, n := rows, stride := f 3, rwords := rw, r := true, w := false, a := false, spaces := [0, 1, 2, 3] },
     { hnum := bh, off := f 2, n := rows, stride := f 4, rwords := rw, r := false, w := true, a := false, spaces := [0, 1, 2, 3] }]
  | 1 =>
    [{ hnum := ah, off := f 1, n := f 12, stride := f 3, rwords := rw, r := true, w := false, a := false, spaces := [0, 1, 2] },
     { hnum := bh, off := f 2, n := rows, stride := f 4, rwords := rw, r := false, w := true, a := false, spaces := [1, 2] },
     array (f 6) (f 7)]
  | _ =>
    [{ hnum := ah, off := f 1, n := if ssi then f 13 else rows, stride := f 3, rwords := rw, r := true, w := false, a := false
       spaces := [1] },
     { hnum := bh, off := f 2, n := f 12, stride := f 4, rwords := rw, r := true, w := true, a := true, spaces := [0, 1, 2] },
     array (f 6) (f 7)] ++ (if ssi then [array (f 8) (f 9)] else []) ++
      (if (f 0).testBit 25 then [array (f 10) (f 11)] else [])

/-- The reason for which a descriptor's own fields are refused (R217), 0 for none. -/
def descReason (kind : Nat) (f : Nat → Nat) : Nat :=
  let etype := bitsOf (f 0) 27 26
  if bitsOf (f 0) 31 28 ≠ kind ∨ bitsOf (f 5) 31 16 = 0 ∨ bitsOf (f 5) 15 0 = 0 ∨
      (kind = 2 ∧ (etype = 3 ∨ ((f 0).testBit 25 = true ∧ etype ≠ 0))) then 1
  else if (dataSides kind f).any fun x => decide (x.off % 4 ≠ 0) || decide (x.stride % 4 ≠ 0) then 3
  else 0

/-- The command of a checked descriptor. -/
def dataCmdOf (kind : Nat) (f : Nat → Nat) (as : List SideAt) : DataCmd :=
  let base := fun (i : Nat) => (as[i]?).map (·.base)
  let ssi := kind = 2 ∧ (f 0).testBit 24 = true
  let swt := kind = 2 ∧ (f 0).testBit 25 = true
  { kind := kind, etype := bitsOf (f 0) 27 26, a := (base 0).getD (.host 0), b := (base 1).getD (.host 0), idx := base 2
    sidx := if ssi then base 3 else none
    wgt := if swt then (if ssi then base 4 else base 3) else none
    astride := f 3, bstride := f 4, rwords := bitsOf (f 5) 31 16, rows := bitsOf (f 5) 15 0, bound := f 12, sbound := f 13 }

/-- `gcopy`, `ggather` and `gscadd` by kind 0, 1, 2: the issue procedure of R217. -/
def dataIssue (s : State) (kind : Nat) (d a b : Reg) (m : BitVec 3) : Out :=
  let nt := m.getLsbD 1
  let arr := m.getLsbD 0
  match s.groupRegs (if nt then [] else [d]) ([a, a + 1] ++ (if arr then [b, b + 1] else [])) with
  | .error e => settle s.openRegion (.error e)
  | .ok _ =>
    let s := s.openRegion
    match andThen s.forkReady (s.queueReady ((s.core s.curCore).queue kind).length s.cur.neng) with
    | .error e => settle s (.error e)
    | .ok _ =>
      let (s, r) := s.cmdDesc fEngine 2 (s.u a).toNat (s.u (a + 1)).toNat 64 64
      match r with
      | .error e => settle s (.error e)
      | .ok (addr, bs) =>
        let f := recWord (recWords bs)
        let bad := fun (reason : Nat) => Stop.trap (mkTrap fEngine reason addr s.leaderMask)
        if descReason kind f ≠ 0 then settle s (.error (bad (descReason kind f)))
        else
          let (s, r) := s.sideChecks (bad 2) (dataSides kind f)
          match r with
          | .error e => settle s (.error e)
          | .ok as =>
            let hull := fun (i : Nat) => ((as[i]?).map (·.hull)).getD []
            let mem := fun (i : Nat) => match (as[i]?).map (·.space) with
              | some sp => sp = 0 || sp = 3
              | none => false
            if kind = 0 ∧ mem 0 = true ∧ mem 1 = true then settle s (.error (bad 2))
            else if kind = 0 ∧ anyConflict (hull 0) (hull 1) = true then settle s (.error (bad 4))
            else
              let (s, r) := s.arrCheck arr b
              match r with
              | .error e => settle s (.error e)
              | .ok obj =>
                let dc := dataCmdOf kind f as
                let lens := (dataSides kind f).map (·.len)
                let (s, ra) := if kind = 0 then s.transSide dc.a ((lens[0]?).getD 0) true false else (s, .ok [])
                match ra with
                | .error e => settle s (.error e)
                | .ok xa =>
                  let (s, rb) := if kind = 0 then s.transSide dc.b ((lens[1]?).getD 0) false true else (s, .ok [])
                  match rb with
                  | .error e => settle s (.error e)
                  | .ok xb =>
                    let reads := (hull 0) ++ ((as.drop 2).flatMap (·.hull)) ++ (if kind = 2 then hull 1 else [])
                    let c := s.newCmd (.data dc) (if nt then none else some d) reads (hull 1) (xa ++ xb) obj
                    .next (s.forkTo kind c)

/-- GCOPY. -/
def execGcopy (d a b : Reg) (m : BitVec 3) (s : State) : Out := dataIssue s 0 d a b m
/-- GGATHER. -/
def execGgather (d a b : Reg) (m : BitVec 3) (s : State) : Out := dataIssue s 1 d a b m
/-- GSCADD. -/
def execGscadd (d a b : Reg) (m : BitVec 3) (s : State) : Out := dataIssue s 2 d a b m

/-! ### Start and completion -/

/-- The queue of a data engine. -/
def engineQueue (e : DataEngine) : Nat :=
  match e with
  | .copy => 0
  | .rill => 1
  | .cascade => 2

/-- The global lines of the places that a command has touched in order, each run of accesses to one line as one request (R224). -/
def lineRuns (ps : List Place) : List Nat :=
  (ps.foldl (fun (acc : List Nat) p =>
    match p with
    | .glob pa _ => if acc.head? = some (2 * (pa / 128)) then acc else 2 * (pa / 128) :: acc
    | _ => acc) []).reverse

/-- The head of an engine's queue starts once nothing earlier conflicts with it (R223, R224), and in ordered mode not before its group's
commit (R174), and none of its rows is under test (R159). Its data moves in this step. -/
def State.startEngine (s : State) (core : Nat) (e : DataEngine) : State :=
  let k := engineQueue e
  match (s.core core).queue k with
  | [] => s
  | c :: rest =>
    if c.started || c.waitCommit || s.cmdBlocked c then s
    else
      match c.op with
      | .data d =>
        let (s1, run) := s.runData c d
        if s.rangesTested (c.rd ++ c.wr) [] || s.underTest noCore run.touched || run.busy then s
        else
          let s1 := s1.join c.id run.ct run.writes
          let c := { c with
            started := true, token := run.token, ct := run.ct, poison := run.poison, due := s1.now + d.time, unsent := lineRuns run.touched }
          s1.putCore core ((s1.core core).setQueue k (c :: rest))
      | _ => s

/-- A running data command receives the responses that are due and sends its next line request: one each cycle once it has started, at most
256 outstanding, and only where the HBM bank of the line has room (R22, R224, log entry 74). -/
def Cmd.sendLine (now : Nat) (used : List Nat) (c : Cmd) : Cmd :=
  let flying := c.flying.filter fun x => decide (now < x.2)
  let begun := match c.op with
    | .data d => decide (c.due + 8 ≤ now + d.time)
    | _ => false
  match c.unsent with
  | l :: rest =>
    if begun && decide (flying.length < 256) && bankRoom used l then { c with unsent := rest, flying := flying ++ [(l, now + 250)] }
    else { c with flying := flying }
  | [] => { c with flying := flying }

/-- The command has requests to send or under way. -/
def Cmd.requesting (c : Cmd) : Bool := !c.unsent.isEmpty || !c.flying.isEmpty

/-- The engines of every core go on with their line requests (R224). -/
def State.sendLines (s : State) : State :=
  (s.cores.filter fun e => (e.2.copyq ++ e.2.rillq ++ e.2.cascq).any Cmd.requesting).foldl (fun (s : State) e =>
    (seqFrom 0 3).foldl (fun (s : State) k =>
      let used := s.bankUse e.1
      let co := s.core e.1
      s.putCore e.1 (co.setQueue k ((co.queue k).map fun c => if c.requesting then c.sendLine s.now used else c))) s) s

/-- ENGINE_COMMAND_START. -/
def execEngineCommandStart (core : Nat) (e : DataEngine) (s : State) : Out := .next (s.startEngine core e)

/-- R226: an arrival at `.pty` or wider waits until device time has passed the completion times of the command's writes. -/
def State.arrReady (s : State) (c : Cmd) : Bool :=
  match c.arr with
  | some (_, scope) => decide (scope < 2) || decide (c.ct < s.now)
  | none => true

/-- A command of the engine counter completes (R221, R222, R226): its arrival, its token, its group's counter and completion time.
`noarr` is the token bit of a refused arrival. -/
def State.finishCmd (s : State) (c : Cmd) (noarr : Word) : State :=
  let (s, tok, ct) := match c.arr with
    | none => (s, c.token, c.ct)
    | some (p, _) =>
      match s.arrive c.core false p 1 with
      | (t, none) => (t, c.token ||| noarr, c.ct)
      | (t, some (_, ct)) => (t.join c.id (max c.ct ct) [{ place := p, bytes := leBytes 8 0 }], c.token, max c.ct ct)
  let g := s.group c.g
  let s := s.putGroup c.g { g with
    neng := g.neng - 1, ct := max g.ct ct, tokens := g.tokens.filter fun t => !t.cmd || decide (t.id ≠ c.id) }
  match c.tok with
  | some loc => s.deliver c.g loc c.lanes tok
  | none => s

/-- ENGINE_COMMAND_COMPLETE (R222). -/
def execEngineCommandComplete (core id : Nat) (s : State) : Out :=
  match (seqFrom 0 3).find? fun k => ((s.core core).queue k).any fun c => decide (c.id = id) && c.started with
  | none => .next s
  | some k =>
    let q := (s.core core).queue k
    match q.find? fun c => decide (c.id = id) with
    | none => .next s
    | some c =>
      if s.arrReady c then
        .next ((s.putCore core ((s.core core).setQueue k (q.filter fun x => decide (x.id ≠ id)))).finishCmd c 16)
      else .next s

/-! ### gpref (R229) -/

/-- One line of a prefetch: under `.l1` a fill of the L1, which neither a pinned copy nor an unexpired lease serves (R155); in its slice the line
changes nothing that the model holds. -/
def State.prefLine (s : State) (e : Entry) (l1 : Bool) (off : Nat) : State :=
  let va := e.base + off
  match s.transCheck s.curCore s.curCtx va true false with
  | (s, .ok pa) => if l1 && !e.bypass && !s.l1Serves e (.glob pa va) then s.fillLine s.curCtx va pa e.lease else s
  | (s, .error _) => s

/-- A line of a prefetch, or the walk to it, waits for a row under test (R159). -/
def State.prefTested (s : State) (e : Entry) (off : Nat) : Bool :=
  let va := e.base + off
  !s.march.isEmpty && (match (s.transCheck s.curCore s.curCtx va true false).2 with
    | .ok pa => s.underTest s.curCore [.glob pa va]
    | .error f => decide (f = .busy))

/-- GPREF. -/
def execGpref (a b : Reg) (m : BitVec 3) (s : State) : Out :=
  match s.groupRegs [] [a, a + 1, b] with
  | .error e => settle s (.error e)
  | .ok _ =>
    let n := min (s.u b).toNat 256
    let o := (s.u (a + 1)).toNat / 128 * 128
    if s.curHandleTested (s.u a).toNat then settle s (.error (.stall .full))
    else
      let (s, e) := s.curHandle (s.u a).toNat
      let offs := ((seqFrom 0 n).map fun i => o + 128 * i).filter fun x => decide (x < e.limit)
      if !(e.usable && decide (e.space = 0) && e.pr) then .next s.advance
      else if offs.any (s.prefTested e) then settle s (.error (.stall .full))
      else .next (offs.foldl (fun s x => s.prefLine e (decide (m = 1)) x) s).advance

end Sys2Proof.Machine
end

