-- ==== Sys2Proof/Machine/Tiles.lean ====
section
/-! DEFINITION. Tile and matrix instructions (spec/14_matrix.md R230-R248): opcodes 0xE0-0xE7, and the events TILE_COMMAND_START and
TILE_COMMAND_COMPLETE. -/
namespace Sys2Proof.Machine
open Sys2Proof

/-! ### Tile descriptors (R230-R232) -/

/-- A tile descriptor. -/
structure Tile where
  stride : Nat
  fmt : Nat
  rows : Nat
  cols : Nat
  base : Nat
  deriving DecidableEq, Repr

/-- The fields of R230, with R(T) and C(T). -/
def tileOf (t : Dword) : Tile :=
  let v := t.toNat
  { stride := bitsOf v 63 48, fmt := bitsOf v 47 44, rows := bitsOf v 43 36 + 1, cols := bitsOf v 35 28 + 1, base := bitsOf v 20 0 }

/-- R231: the element size of a format. -/
def esize (fmt : Nat) : Nat :=
  match fmt with
  | 0 => 4
  | 1 => 2
  | 2 => 2
  | 3 => 1
  | 4 => 1
  | 5 => 1
  | _ => 4

/-- R231: the float format of a code below 5. -/
def tileFmt (fmt : Nat) : Fmt :=
  match fmt with
  | 0 => f32F
  | 1 => f16F
  | 2 => bf16F
  | 3 => e4m3F
  | _ => e5m2F

/-- rb(T) of R232. -/
def Tile.rowBytes (t : Tile) : Nat := 4 * ceilDiv (t.cols * esize t.fmt) 4
/-- The length of hull(T). -/
def Tile.ext (t : Tile) : Nat := 4 * t.stride * (t.rows - 1) + t.cols * esize t.fmt
/-- ok(T), in a scratchpad of `size` bytes. -/
def Tile.ok (size : Nat) (t : Tile) : Bool :=
  decide (t.base % 4 = 0) && decide (t.rowBytes ≤ 4 * t.stride) && decide (t.base + t.ext ≤ size)
/-- The block-relative address of elem(T, i, j). -/
def Tile.addr (t : Tile) (i j : Nat) : Nat := t.base + 4 * t.stride * i + esize t.fmt * j
/-- Two hulls meet. -/
def Tile.meets (a b : Tile) : Bool := decide (a.base < b.base + b.ext) && decide (b.base < a.base + a.ext)

/-- Tile register `n` of a group; a tile number has bits 6:4 zero. -/
def Group.tile (g : Group) (n : Reg) : Dword := mapGet 0 g.tiles (n.toNat % 16)

/-! ### gtile and gtileg (R233) -/

/-- `F_ENGINE` of a tile instruction. -/
def State.tileFault (s : State) (reason : Nat) : Stop := .trap (mkTrap fEngine reason 0 s.leaderMask)

/-- A field of a descriptor is replaced. -/
def putField (t : Dword) (hi lo v : Nat) : Dword :=
  BitVec.ofNat 64 (t.toNat / 2 ^ (hi + 1) * 2 ^ (hi + 1) + v % 2 ^ (hi + 1 - lo) * 2 ^ lo + t.toNat % 2 ^ lo)

/-- The descriptor after a `gtile`, or none for reason 16. -/
def gtileNew (sel v : Nat) (t : Dword) : Option Dword :=
  match sel with
  | 0 => if v % 4 = 0 ∧ v < 0x180000 then some (putField t 20 0 v) else none
  | 1 => if v ≤ 7 then some (putField t 47 44 v) else none
  | 2 => if 1 ≤ v ∧ v ≤ 256 then some (putField t 43 36 (v - 1)) else none
  | 3 => if 1 ≤ v ∧ v ≤ 256 then some (putField t 35 28 (v - 1)) else none
  | 4 => if v % 4 = 0 ∧ v ≤ 262140 then some (putField t 63 48 (v / 4)) else none
  | 5 => some (putField (putField t 31 28 (v / 2 ^ 28)) 20 0 v)
  | 6 => some (putField t 63 32 v)
  | _ => none

/-- GTILE. -/
def execGtile (d a : Reg) (i : BitVec 10) (s : State) : Out :=
  match s.groupRegs [] [a] with
  | .error e => settle s (.error e)
  | .ok _ =>
    match gtileNew i.toNat (s.u a).toNat (s.cur.tile d) with
    | none => settle s (.error (s.tileFault 16))
    | some t => .next (s.putCur { s.cur with tiles := mapSet 0 s.cur.tiles (d.toNat % 16) t }).advance

/-- What `gtileg` returns, or none for reason 16. -/
def gtileGet (sel : Nat) (d : Dword) : Option Nat :=
  let t := tileOf d
  match sel with
  | 0 => some t.base
  | 1 => some t.fmt
  | 2 => some t.rows
  | 3 => some t.cols
  | 4 => some (4 * t.stride)
  | 5 => some (d.toNat % 2 ^ 32)
  | 6 => some (d.toNat / 2 ^ 32)
  | 7 => some (if 7 < t.fmt then 0 else t.ext)
  | _ => none

/-- GTILEG. -/
def execGtileg (d a : Reg) (i : BitVec 10) (s : State) : Out :=
  match s.groupRegs [d] [] with
  | .error e => settle s (.error e)
  | .ok _ =>
    match gtileGet i.toNat (s.cur.tile a) with
    | none => settle s (.error (s.tileFault 16))
    | some v => .next (s.put d (BitVec.ofNat 32 v)).advance

/-! ### Issue of tile commands (R234, R235, R237) -/

/-- The scoreboard range of a tile of the current block. -/
def State.tileRange (s : State) (t : Tile) : ScrRange :=
  let b := s.curBlock
  { core := b.core, lo := b.origin + t.base, hi := b.origin + t.base + t.ext }

/-- The first reason of R237 whose condition holds. -/
def firstReason : List (Nat × Bool) → Option Nat
  | [] => none
  | (r, bad) :: rest => if bad then some r else firstReason rest

/-- A format that its operand may have. -/
def badFmt (t : Tile) : Bool := decide (7 < t.fmt)

/-- The descriptors of the tiles that a command names, as it captured them when it first issued (R234). -/
def State.captured (s : State) (ns : List Reg) : List Dword :=
  if s.csp.caps.length = ns.length then s.csp.caps else ns.map s.cur.tile

/-- The current split holds no captured descriptors. -/
def State.dropCaps (s : State) : State := s.putCsp { s.csp with caps := [] }

/-- A tile command that does not fork: only one that stalls keeps what it has captured. -/
def settleTile (s : State) (e : Stop) : Out :=
  match e with
  | .stall _ => settle s (.error e)
  | _ => settle s.dropCaps (.error e)

/-- One of them. -/
def State.capturedAt (s : State) (ns : List Reg) (i : Nat) : Dword := ((s.captured ns)[i]?).getD 0

/-- The procedure of R234 for a command that names the tiles `ns`: `checks` are the card's, in its order; then the command forks, and `after`
changes the group. -/
def tileIssue (s : State) (ns writes reads : List Reg) (checks : List (Nat × Bool)) (op : CmdOp) (tok : Option Reg)
    (rd wr : List Tile) (after : Nat → Group → Group) : Out :=
  match s.groupRegs writes reads with
  | .error e => settleTile s.openRegion e
  | .ok _ =>
    let caps := s.captured ns
    let s := s.openRegion
    match andThen s.forkReady (s.queueReady (s.core s.curCore).matq.length s.cur.ntile) with
    | .error e => settleTile (s.putCsp { s.csp with caps := caps }) e
    | .ok _ =>
      match firstReason checks with
      | some r => settleTile s (s.tileFault r)
      | none =>
        let c := s.newCmd op tok (rd.map s.tileRange) (wr.map s.tileRange) [] none
        let s1 := (s.forkTo 3 c).dropCaps
        .next (s1.putCur (after c.id s1.cur))

/-- A command that leaves the group's chain as it is. -/
def sameGroup (_ : Nat) (g : Group) : Group := g

/-- The open chain of the current group. -/
def State.openChain (s : State) : Option Chain := s.cur.chains.find? fun c => decide (s.cur.chain = some c.num)

/-- The formats that a product may have (R240). -/
def mmaFmts (a b d : Tile) : Bool :=
  let narrow := fun (t : Tile) => decide (t.fmt = 3) || decide (t.fmt = 4)
  (narrow a && narrow b && decide (d.fmt = 0)) || (decide (a.fmt = 2) && decide (b.fmt = 2) && decide (d.fmt = 0)) ||
    (decide (a.fmt = 1) && decide (b.fmt = 1) && decide (d.fmt = 0)) ||
    (decide (a.fmt = 7) && decide (b.fmt = 7) && decide (d.fmt = 7))

/-- MMA (R240). -/
def execMma (d a b : Reg) (m : BitVec 3) (s : State) : Out :=
  let z := m.getLsbD 0
  let tb := m.getLsbD 1
  let ch := s.openChain
  let cap := s.capturedAt [d, a, b]
  let ta := tileOf (cap 1)
  let tB := tileOf (cap 2)
  let dd := match ch with
    | some c => c.td
    | none => cap 0
  let td := tileOf dd
  let size := s.curBlock.scratch
  let n := if tb then tB.rows else tB.cols
  let kb := if tb then tB.cols else tB.rows
  let inside := ch.isSome
  let wrongChain := match ch with
    | some c => decide (d.toNat % 16 ≠ c.tile) || z
    | none => false
  tileIssue s [d, a, b] [] []
    [(20, wrongChain), (17, !mmaFmts ta tB td), (19, !(ta.ok size && tB.ok size && td.ok size)),
     (18, decide (kb ≠ ta.cols) || decide (td.rows ≠ ta.rows) || decide (td.cols ≠ n)),
     (21, !inside && (td.meets ta || td.meets tB))]
    (.mma z tb (ch.map (·.num)) (cap 1) (cap 2) dd) none
    ([ta, tB] ++ (if inside || z then [] else [td])) (if inside then [] else [td]) sameGroup

/-- MCHAIN (R239): the chain counts as held from the fork. -/
def execMchain (d : Reg) (m : BitVec 3) (s : State) : Out :=
  let dd := s.capturedAt [d] 0
  let td := tileOf dd
  let z := m.getLsbD 1
  let ordered := m.getLsbD 0 || decide (s.curLaunch.q ≠ 0)
  tileIssue s [d] [] []
    [(20, s.cur.chain.isSome), (17, decide (td.fmt ≠ 0) && decide (td.fmt ≠ 7)), (19, !td.ok s.curBlock.scratch)]
    (.mchain z) none (if z then [] else [td]) []
    fun id g => { g with
      chain := some id
      chains := g.chains ++ [{ num := id, td := dd, tile := d.toNat % 16, ordered := ordered, acc := [], sums := [], bad := []
                               lastUse := id, resident := false }] }

/-- MEND (R242): the group holds no chain from the fork on. -/
def execMend (d a : Reg) (m : BitVec 3) (s : State) : Out :=
  let ch := s.openChain
  let disc := decide (m = 1)
  let td := tileOf ((ch.map (·.td)).getD 0)
  let bad := match ch with
    | some c => decide (a.toNat % 16 ≠ c.tile)
    | none => true
  tileIssue s [] [d] [] [(20, bad)] (.mend disc ((ch.map (·.num)).getD 0)) (some d) [] (if disc then [] else [td])
    fun _ g => { g with chain := none }

/-- MSACC (R243). -/
def execMsacc (d a b : Reg) (m : BitVec 3) (s : State) : Out :=
  let cap := s.capturedAt [d, a, b]
  let td := tileOf (cap 0)
  let tp := tileOf (cap 1)
  let ts := tileOf (cap 2)
  let size := s.curBlock.scratch
  let z := decide (m = 1)
  tileIssue s [d, a, b] [] []
    [(17, decide (td.fmt ≠ 0) || decide (tp.fmt ≠ 0) || decide (ts.fmt ≠ 0)), (19, !(td.ok size && tp.ok size && ts.ok size)),
     (18, decide (tp.rows ≠ td.rows) || decide (tp.cols ≠ td.cols) || decide (ts.rows ≠ 2) ||
        decide (ts.cols < max td.rows td.cols)),
     (21, td.meets tp || td.meets ts)]
    (.msacc z (cap 0) (cap 1) (cap 2)) none ([tp, ts] ++ (if z then [] else [td])) [td] sameGroup

/-- TCVT (R244). -/
def execTcvt (d a : Reg) (m : BitVec 3) (s : State) : Out :=
  let cap := s.capturedAt [d, a]
  let td := tileOf (cap 0)
  let ta := tileOf (cap 1)
  let size := s.curBlock.scratch
  let same := decide (td.base = ta.base) && decide (td.stride = ta.stride) && decide (esize td.fmt = esize ta.fmt)
  tileIssue s [d, a] [] []
    [(17, badFmt td || badFmt ta), (19, !(td.ok size && ta.ok size)),
     (18, decide (td.rows ≠ ta.rows) || decide (td.cols ≠ ta.cols)), (21, td.meets ta && !same)]
    (.tcvt m.toNat (cap 0) (cap 1)) none [ta] [td] sameGroup

/-- TFILL (R245). It raises no `F_MEMERR` (R246): from a poisoned register line it writes poisoned elements (log entry 63). -/
def execTfill (d a : Reg) (m : BitVec 3) (s : State) : Out :=
  let dd := s.capturedAt [d] 0
  let td := tileOf dd
  let x := if td.fmt = 7 then resCanon (s.u a) else s.u a
  let bad := (poisonedReg s.cur s.csp [a]).isSome
  tileIssue s [d] [a] [] [(17, badFmt td), (19, !td.ok s.curBlock.scratch)] (.tfill (decide (m = 1)) dd x bad) none [] [td] sameGroup

/-! ### What the commands compute -/

/-- The scratchpad place of a block-relative address, for a command's block. -/
def State.tilePlace (s : State) (c : Cmd) (a : Nat) : Place := .scr c.core ((s.block (s.group c.g).blk).origin + a)

/-- The bits of an element, and whether its word is poisoned. -/
def State.elem (s : State) (c : Cmd) (t : Tile) (i j : Nat) : Nat × Bool :=
  let p := s.tilePlace c (t.addr i j)
  (s.numAt p (esize t.fmt), s.poisoned p (esize t.fmt))

/-- A `f32` or `res` element as a word. -/
def State.elemW (s : State) (c : Cmd) (t : Tile) (i j : Nat) : Word × Bool :=
  let e := s.elem c t i j
  (BitVec.ofNat 32 e.1, e.2)

/-- The (i, j) of a tile, row by row. -/
def Tile.cells (t : Tile) : List (Nat × Nat) := (seqFrom 0 t.rows).flatMap fun i => (seqFrom 0 t.cols).map fun j => (i, j)

/-- The write of an element's bits. -/
def State.elemWrite (s : State) (c : Cmd) (t : Tile) (i j : Nat) (bits : Nat) (bad : Bool) : CmdWrite :=
  { place := s.tilePlace c (t.addr i j), bytes := leBytes (esize t.fmt) bits, bad := bad }

/-- The block sums of one accumulator (R63, R64; `res` by channel, R61), in ascending k-blocks, with poison. -/
def blockSums (res : Bool) (fa fb : Fmt) (ps : List ((Nat × Bool) × Nat × Bool)) : Nat → List (Word × Bool)
  | 0 => []
  | n + 1 =>
    if ps.isEmpty then []
    else
      let blk := ps.take 32
      let bad := blk.any fun p => p.1.2 || p.2.2
      let sum : Word :=
        if res then blk.foldl (fun a p => resAdd a (resMul (BitVec.ofNat 32 p.1.1) (BitVec.ofNat 32 p.2.1))) 0
        else (roundW 0 0 (exactSum (blk.map fun p => fMul (fval fa p.1.1) (fval fb p.2.1)))).1
      (sum, bad) :: blockSums res fa fb (ps.drop 32) n

/-- The block sums of element (i, j) of a product. -/
def State.mmaSums (s : State) (c : Cmd) (tb : Bool) (a b : Tile) (i j : Nat) : List (Word × Bool) :=
  let ps := (seqFrom 0 a.cols).map fun k => (s.elem c a i k, if tb then s.elem c b j k else s.elem c b k j)
  blockSums (decide (a.fmt = 7)) (tileFmt a.fmt) (tileFmt b.fmt) ps 8

/-- One addition to an accumulator. -/
def accStep (res : Bool) (v x : Word) : Word := if res then resAdd v x else accAdd v x

/-- Ordered additions, with poison. -/
def accFold (res : Bool) (init : Word × Bool) (xs : List (Word × Bool)) : Word × Bool :=
  xs.foldl (fun v x => (accStep res v.1 x.1, v.2 || x.2)) init

/-- R240, R241: the products of a command join the accumulators of its chain. -/
def State.chainMma (s : State) (cm : Cmd) (tb : Bool) (a b : Tile) (c : Chain) : Chain :=
  let td := tileOf c.td
  let res := decide (td.fmt = 7)
  td.cells.foldl (fun c e =>
    let k := e.1 * td.cols + e.2
    let xs := s.mmaSums cm tb a b e.1 e.2
    let c := if xs.any (·.2) then { c with bad := k :: c.bad } else c
    if c.ordered || res then { c with acc := mapSet 0 c.acc k (accFold res (mapGet 0 c.acc k, false) xs).1 }
    else { c with sums := mapPut c.sums k (((mapFind c.sums k).getD []) ++ xs.map (·.1)) }) c

/-- A chain of a group is replaced. -/
def Group.putChain (g : Group) (c : Chain) : Group :=
  { g with chains := g.chains.map fun x => if x.num = c.num then c else x }

/-- A chain of a group by number. -/
def Group.chainOf (g : Group) (num : Nat) : Option Chain := g.chains.find? fun c => decide (c.num = num)

/-- R244: the value of an element: a float, or an integer. -/
def tileVal (fmt bits : Nat) : FVal ⊕ Int :=
  match fmt with
  | 5 => .inr (sInt 8 bits)
  | 6 => .inr (sInt 32 bits)
  | 7 => .inr (resCrt (BitVec.ofNat 32 bits))
  | f => .inl (fval (tileFmt f) bits)

/-- R244: the bits of a converted element. -/
def tcvtBits (m fmt : Nat) (v : FVal ⊕ Int) : Nat :=
  let fv := match v with
    | .inl x => x
    | .inr k => FVal.ofInt k 0
  let mode := m % 4
  match fmt with
  | 5 => (wordOfInt (roundInt (-128) 127 mode 0 fv).1).toNat % 256
  | 6 => (wordOfInt (roundInt (-(2 ^ 31)) (2 ^ 31 - 1) mode 0 fv).1).toNat
  | 7 =>
    match v with
    | .inr k => (resEnc k).toNat
    | .inl x => (resEnc (max (-8388480) (min (roundInt (-(2 ^ 31)) (2 ^ 31 - 1) mode 0 x).1 8388479))).toNat
  | f => (roundF (tileFmt f) mode (decide (f = 4) && m.testBit 2) 0 fv).1

/-- R243: one element of `msacc`. -/
def msaccVal (z : Bool) (d p r c : Word) : Word :=
  let t := (roundW 0 0 (fMul (fMul (f32v p) (f32v r)) (f32v c))).1
  if z then t else accAdd d t

/-- The writes of a command: of one that holds no chain (R240, R243-R245), and of a `mend`, whose chain's accumulators go to D (R242). -/
def State.tileWrites (s : State) (c : Cmd) : List CmdWrite :=
  match c.op with
  | .mma z tb none a b d =>
    let td := tileOf d
    let res := decide (td.fmt = 7)
    td.cells.map fun e =>
      let init := if z then (0, false) else s.elemW c td e.1 e.2
      let v := accFold res init (s.mmaSums c tb (tileOf a) (tileOf b) e.1 e.2)
      s.elemWrite c td e.1 e.2 v.1.toNat v.2
  | .msacc z d p t =>
    let td := tileOf d
    td.cells.map fun e =>
      let vd := if z then (0, false) else s.elemW c td e.1 e.2
      let vp := s.elemW c (tileOf p) e.1 e.2
      let vr := s.elemW c (tileOf t) 0 e.1
      let vc := s.elemW c (tileOf t) 1 e.2
      s.elemWrite c td e.1 e.2 (msaccVal z vd.1 vp.1 vr.1 vc.1).toNat (vd.2 || vp.2 || vr.2 || vc.2)
  | .tcvt m d a =>
    let td := tileOf d
    td.cells.map fun e =>
      let v := s.elem c (tileOf a) e.1 e.2
      s.elemWrite c td e.1 e.2 (tcvtBits m td.fmt (tileVal (tileOf a).fmt v.1)) v.2
  | .tfill diag d x bad =>
    let td := tileOf d
    td.cells.map fun e => if diag && decide (e.1 ≠ e.2) then s.elemWrite c td e.1 e.2 0 false else s.elemWrite c td e.1 e.2 x.toNat bad
  | .mend false num =>
    match ((s.flushChains c.g).group c.g).chainOf num with
    | none => []
    | some ch =>
      let td := tileOf ch.td
      td.cells.map fun e =>
        let k := e.1 * td.cols + e.2
        s.elemWrite c td e.1 e.2 (mapGet 0 ch.acc k).toNat (ch.bad.contains k)
  | _ => []

/-! ### Residency of chains (R238) -/

/-- The resident chains of a core, with their groups. -/
def State.residentChains (s : State) (core : Nat) : List (Nat × Chain) :=
  s.groups.flatMap fun e =>
    if (s.block e.2.blk).core = core then (e.2.chains.filter (·.resident)).map fun c => (e.1, c) else []

/-- One resident chain is written to the chain area of its group's image. -/
def State.evictChain (s : State) (gk num : Nat) : State :=
  let s := s.flushChains gk
  let g := s.group gk
  let b := s.block g.blk
  match g.chainOf num with
  | none => s
  | some c => (s.writeChainAt b.ctx (s.imageBase gk) c).putGroup gk (g.putChain (s.leaveEngine b.ctx (s.imageBase gk) c))

/-- Least recently used chains go until one of `size` accumulators fits. -/
def chainRoom (core size : Nat) : Nat → State → State
  | 0, s => s
  | n + 1, s =>
    let rs := s.residentChains core
    if rs.length < 4 ∧ (rs.map fun r => r.2.size).sum + size ≤ 65536 then s
    else
      match leastBy (fun (r : Nat × Chain) => r.2.lastUse) rs with
      | some r => chainRoom core size n (s.evictChain r.1 r.2.num)
      | none => s

/-- The chain of a command becomes resident: room is made, and one that has left the engine comes back from its image (R238, R247). -/
def State.touchChain (s : State) (c : Cmd) (num : Nat) : State :=
  match (s.group c.g).chainOf num with
  | none => s
  | some ch =>
    let s := if ch.resident then s else chainRoom c.core ch.size 64 s
    let g := s.group c.g
    match g.chainOf num with
    | none => s
    | some ch =>
      let ch := if ch.resident || decide (num = c.id) then ch else s.readChain (s.block g.blk).ctx (s.imageBase c.g) ch
      s.putGroup c.g (g.putChain { ch with resident := true, lastUse := c.id })

/-! ### Start and completion -/

/-- The command at the head of the matrix queue runs: the state, with its token's bit 1 for a `mend` (R242, R246). -/
def State.runTile (s : State) (c : Cmd) : State × Bool :=
  match c.op with
  | .mchain z =>
    let s := s.touchChain c c.id
    match (s.group c.g).chainOf c.id with
    | none => (s, false)
    | some ch =>
      let td := tileOf ch.td
      let ch := if z then ch
        else td.cells.foldl (fun ch e =>
          let k := e.1 * td.cols + e.2
          let v := s.elemW c td e.1 e.2
          { ch with
            acc := mapSet 0 ch.acc k (if td.fmt = 7 then resCanon v.1 else (roundW 0 0 (f32v v.1)).1)
            bad := if v.2 then k :: ch.bad else ch.bad }) ch
      (s.putGroup c.g ((s.group c.g).putChain ch), false)
  | .mma _ tb (some num) a b _ =>
    let s := s.touchChain c num
    match (s.group c.g).chainOf num with
    | none => (s, false)
    | some ch => (s.putGroup c.g ((s.group c.g).putChain (s.chainMma c tb (tileOf a) (tileOf b) ch)), false)
  | .mend _ num =>
    let s := s.touchChain c num
    let ws := s.tileWrites c
    let s := s.flushChains c.g
    let g := s.group c.g
    let s := s.putGroup c.g { g with chains := g.chains.filter fun x => decide (x.num ≠ num) }
    ((s.cmdWrites c ws).1, ws.any (·.bad))
  | _ => ((s.cmdWrites c (s.tileWrites c)).1, false)

/-- w of R236. -/
def Tile.words (t : Tile) : Nat := ceilDiv (4 * t.rows * t.cols) 1536

/-- The run time of a command, but for chain moves (R236). -/
def State.tileTime (s : State) (c : Cmd) : Nat :=
  let td := fun (num : Nat) => tileOf (((s.group c.g).chainOf num).map (·.td) |>.getD 0)
  match c.op with
  | .mma z _ ch a _ d =>
    let ta := tileOf a
    let t := tileOf d
    let u := ceilDiv t.rows 32 * ceilDiv t.cols 32 * ceilDiv ta.cols 32
    let u := if ta.fmt = 1 ∨ ta.fmt = 2 then 2 * u else u
    16 + u + (if ch.isSome then 0 else if z then t.words else 2 * t.words)
  | .mchain z => 8 + (if z then 0 else (td c.id).words)
  | .mend disc num => 8 + (if disc then 0 else (td num).words)
  | .msacc _ d _ _ => 16 + ceilDiv ((tileOf d).rows * (tileOf d).cols) 128
  | .tcvt _ d _ => 16 + ceilDiv ((tileOf d).rows * (tileOf d).cols) 128
  | .tfill _ d _ _ => 8 + ceilDiv ((tileOf d).rows * (tileOf d).cols) 256
  | _ => 8

/-- The time of one chain move (R238): a class D latency, and 128 bytes per cycle. -/
def moveTime (size : Nat) : Nat := 700 + ceilDiv (4 * size) 128

/-- The chain that a command's start finds evicted and loads back. -/
def State.reloaded (s : State) (c : Cmd) : Option Chain :=
  let num := match c.op with
    | .mma _ _ ch _ _ _ => ch
    | .mend _ n => some n
    | _ => none
  num.bind fun n => ((s.group c.g).chainOf n).bind fun ch => if ch.resident then none else some ch

/-- The time of the chain moves between the state before and the state after a command's start: the chains that left, and the command's
own if it came back. -/
def moveTimes (before after : State) (c : Cmd) : Nat :=
  let there := (after.residentChains c.core).map fun r => r.2.num
  let gone := (before.residentChains c.core).filter fun r => !there.contains r.2.num && ((after.group r.1).chainOf r.2.num).isSome
  ((gone.map (·.2) ++ (before.reloaded c).toList).map fun ch => moveTime ch.size).sum

/-- The head of the matrix queue starts once the one before it has completed, nothing earlier conflicts with it and, in ordered mode, its
group has committed (R174, R223, R236), and no row of it is under test (R159). -/
def State.startTile (s : State) (core : Nat) : State :=
  match (s.core core).matq with
  | [] => s
  | c :: rest =>
    if c.started || c.waitCommit || s.cmdBlocked c || s.rangesTested (c.rd ++ c.wr) [] then s
    else
      let time := s.tileTime c
      let (t, bad) := s.runTile c
      let c := { c with started := true, token := if bad then 3 else 1, due := s.now + time + moveTimes s t c }
      let s := t
      s.putCore core ((s.core core).setQueue 3 (c :: rest))

/-- TILE_COMMAND_START. -/
def execTileCommandStart (core : Nat) (s : State) : Out := .next (s.startTile core)

/-- TILE_COMMAND_COMPLETE (R234, R242): the tile counter falls, and a `mend` writes its token. -/
def execTileCommandComplete (core id : Nat) (s : State) : Out :=
  let q := (s.core core).matq
  match q.find? fun c => decide (c.id = id) && c.started with
  | none => .next s
  | some c =>
    let s := s.putCore core ((s.core core).setQueue 3 (q.filter fun x => decide (x.id ≠ id)))
    let g := s.group c.g
    let s := s.putGroup c.g { g with
      ntile := g.ntile - 1, tokens := g.tokens.filter fun t => !t.cmd || decide (t.id ≠ id) }
    .next (match c.tok with
      | some loc => s.deliver c.g loc c.lanes c.token
      | none => s)

end Sys2Proof.Machine
end

