-- ==== Sys2Proof/Machine/Sluice.lean ====
section
/-! DEFINITION. Routing commands (spec/15_routing.md R249-R268): opcodes 0xC3-0xC5, and the events SLUICE_COMMAND_START, ROUTE_ROWS_SENT,
SLUICE_COMMAND_COMPLETE, ROW_RETRANSMIT, ROW_ARRIVAL, ROW_ACK_ARRIVAL, ROUTE_CLOSE_NOTICE, FILTER_ENTRY_EXPIRE and
DEVICE_UNREACHABLE. -/
namespace Sys2Proof.Machine
open Sys2Proof

/-- The device's own Vrel number, bits 11:0 of vrelnum (R332, R337). -/
def State.vrelDev (s : State) : Nat := s.vrelnum.toNat % 4096

/-! ### Open routes (R265) -/

/-- The open routes of contexts that have not been destroyed: with its context a route is removed (R265). -/
def State.liveRoutes (s : State) : List OpenRoute := s.openRoutes.filter fun r => (s.context r.ctx).live

/-- The open route of a context with this id. -/
def State.openRoute (s : State) (ctx rid : Nat) : Option OpenRoute :=
  s.liveRoutes.find? fun r => decide (r.ctx = ctx) && decide (r.rid = rid)

/-- The open route that a command opened or uses; its id may have been closed and opened again since. -/
def State.ownRoute (s : State) (ctx : Nat) (r : RouteCmd) : Option OpenRoute :=
  match s.openRoute ctx r.rid with
  | some o => if o.inst = r.inst then some o else none
  | none => none

/-- An open route is replaced. -/
def State.putRoute (s : State) (r : OpenRoute) : State :=
  { s with openRoutes := s.openRoutes.map fun x => if x.ctx = r.ctx ∧ x.rid = r.rid then r else x }

/-- The route of a command closes, if it is still open, and its destination devices are told. -/
def State.closeRoute (s : State) (ctx : Nat) (r : RouteCmd) : State :=
  match s.ownRoute ctx r with
  | none => s
  | some o =>
    { s with
      openRoutes := s.openRoutes.filter fun x => !(decide (x.ctx = ctx) && decide (x.rid = r.rid))
      vout := s.vout ++ o.devs.map fun d => VrelOut.closed d ctx r.rid }

/-- A port has heard from a device (R337). -/
def State.hearFrom (s : State) (dev : Nat) : State := { s with heard := mapPut s.heard dev s.now }

/-! ### The descriptor (R252-R256) -/

/-- The fields of a route descriptor that size the command. -/
structure RouteHead where
  k : Nat
  wt : Bool
  inv : Nat
  pk : Bool
  rec' : Bool
  ntok : Nat
  nexp : Nat
  rwords : Nat
  rid : Nat
  deriving DecidableEq, Repr

/-- The words of a descriptor of 128 bytes. -/
def routeWords (bs : List Byte) : List Nat := (seqFrom 0 32).map fun i => leNat ((bs.drop (4 * i)).take 4)

/-- The head of a `groute`. -/
def routeHead (f : Nat → Nat) : RouteHead :=
  { k := bitsOf (f 0) 27 24, wt := (f 0).testBit 23, inv := bitsOf (f 0) 22 21, pk := (f 0).testBit 20, rec' := (f 0).testBit 19
    ntok := bitsOf (f 2) 31 16, nexp := bitsOf (f 2) 12 0, rwords := bitsOf (f 5) 10 0, rid := bitsOf (f 23) 31 16 }

/-- Words of a routed row. -/
def RouteHead.row (h : RouteHead) : Nat := h.rwords + (if h.wt then 1 else 0)

/-- An array of words that is read, or written. -/
def wordSide (hword off n : Nat) (w : Bool) : Side :=
  { hnum := bitsOf hword 31 20, off := off, n := n, stride := 4, rwords := 1, r := !w, w := w, a := false, spaces := [0, 1] }

/-- The sides before the destination table, and the table: choices and source rows (R252 order), the table last. -/
def routeReads (h : RouteHead) (f : Nat → Nat) (retry : Bool) : List Side :=
  (if retry then [] else [{ wordSide 0 (f 1) (h.ntok * h.k) false with hnum := bitsOf (f 0) 11 0 }]) ++
    (if h.wt then [wordSide (f 3) (f 4) (h.ntok * h.k) false] else []) ++
    [{ hnum := bitsOf (f 5) 31 20, off := f 6, n := h.ntok, stride := f 7, rwords := h.rwords, r := true, w := false, a := false
       spaces := [0, 1, 2] },
     { hnum := bitsOf (f 8) 31 20, off := f 9, n := h.nexp, stride := 16, rwords := 4, r := true, w := false, a := false
       spaces := [0, 1] }]

/-- The sides behind the table: packed buffer, outputs, inverse, records and tags. -/
def routeOuts (h : RouteHead) (f : Nat → Nat) (retry remote : Bool) (capSum : Nat) : List Side :=
  (if h.pk && !retry then
    [{ hnum := bitsOf (f 10) 31 20, off := f 11, n := capSum, stride := f 12, rwords := h.row, r := false, w := true, a := false
       spaces := [0, 1, 2] }] else []) ++
    (if retry then [wordSide (f 13) (f 14 + 8 * h.nexp + 8) 1 true] else [wordSide (f 13) (f 14) (2 * h.nexp + 4) true]) ++
    (if h.inv ≠ 0 ∧ retry = false then [wordSide (f 15) (f 16) (h.ntok * h.k * (if h.inv = 3 then 2 else 1)) true] else []) ++
    (if h.rec' && !retry then [{ wordSide (f 17) (f 18) (f 19) true with stride := 8, rwords := 2 }] else []) ++
    (if remote then [{ wordSide (f 20) (f 21) (f 22) true with stride := 8, rwords := 2 }] else [])

/-- Reasons 1 and 3 on the descriptor's own fields (R251), 0 for none. -/
def routeReason (h : RouteHead) (f : Nat → Nat) (retry : Bool) : Nat :=
  let counts := retry || (decide (1 ≤ h.k) && decide (h.k ≤ 8) && decide (1 ≤ h.ntok) && decide (1 ≤ h.nexp) &&
    decide (h.nexp ≤ 4096) && !(decide (2 ≤ h.inv) && !h.pk))
  let offs := (routeReads h f retry ++ routeOuts h f retry retry 0).any fun x => decide (x.off % 4 ≠ 0) || decide (x.stride % 4 ≠ 0)
  if bitsOf (f 0) 31 28 ≠ 0xA ∨ h.rwords = 0 ∨ 1024 < h.rwords ∨ counts = false then 1
  else if offs || decide (f 9 % 16 ≠ 0) || (h.pk && !retry && decide (f 12 < 4 * h.row)) then 3
  else 0

/-- An entry of the destination table (R254). -/
structure TableEnt where
  remote : Bool
  dev : Nat
  hnd : Nat
  cap : Nat
  stride : Nat
  off : Nat
  deriving DecidableEq, Repr

/-- The entries of a table's bytes. -/
def tableEnts (bs : List Byte) (n : Nat) : List TableEnt :=
  (seqFrom 0 n).map fun e =>
    let v := leNat ((bs.drop (16 * e)).take 16)
    { remote := v.testBit 127, dev := bitsOf v 126 115, hnd := bitsOf v 114 103, cap := bitsOf v 83 64, stride := bitsOf v 63 32
      off := bitsOf v 31 0 }

/-- The bytes of a side whose pages are known. -/
def State.sideBytes (s : State) (b : SideBase) (xl : List (Nat × Nat)) (n : Nat) : List Byte :=
  (seqFrom 0 n).map fun i =>
    match b with
    | .scr c a => s.byteAt (.scr c (a + i)) 0
    | .host a => s.byteAt (.host (a + i)) 0
    | .glob _ va =>
      match xl.find? fun p => decide (p.1 = (va + i) / 65536) with
      | some p => s.byteAt (.glob (p.2 * 65536 + (va + i) % 65536) 0) 0
      | none => zeroByte

/-- Some word of a side is poisoned. -/
def State.sidePoisoned (s : State) (b : SideBase) (xl : List (Nat × Nat)) (n : Nat) : Bool :=
  match b with
  | .scr c a => s.poisoned (.scr c a) n
  | .host _ => false
  | .glob _ va => (seqFrom 0 (n / 4)).any fun i =>
    match xl.find? fun p => decide (p.1 = (va + 4 * i) / 65536) with
    | some p => s.poisoned (.glob (p.2 * 65536 + (va + 4 * i) % 65536) 0) 4
    | none => false

/-! ### Issue (R250) -/

/-- The `F_ROUTE` of a reason. -/
def routeFault (s : State) (addr reason : Nat) : Stop := .trap (mkTrap fRoute reason addr s.leaderMask)

/-- Step 5 of R250: each entry of the table, in ascending e, with the side of a local one. -/
def State.checkEnts (s : State) (bad : Nat → Stop) (h : RouteHead) : List TableEnt → State × Except Stop (List (RouteDest × List ScrRange))
  | [] => (s, .ok [])
  | e :: rest =>
    let here : State × Except Stop (RouteDest × List ScrRange) :=
      if e.remote then
        if h.pk || decide (h.rid = 0) || decide (e.dev = s.vrelDev) then (s, .error (bad 4))
        else (s, .ok ({ remote := true, dev := e.dev, hnd := e.hnd, base := .host 0, cap := e.cap, stride := 0, row0 := e.off }, []))
      else if h.pk then
        (s, .ok ({ remote := false, dev := 0, hnd := 0, base := .host 0, cap := e.cap, stride := 0, row0 := 0 }, []))
      else if e.off % 4 ≠ 0 ∨ e.stride % 4 ≠ 0 ∨ e.stride < 4 * h.row then (s, .error (bad 3))
      else
        match s.sideCheck (bad 2) { hnum := e.hnd, off := e.off, n := e.cap, stride := e.stride, rwords := h.row, r := false
                                    w := true, a := false, spaces := [0, 1, 2] } with
        | (s, .error f) => (s, .error f)
        | (s, .ok a) =>
          (s, .ok ({ remote := false, dev := 0, hnd := e.hnd, base := a.base, cap := e.cap, stride := e.stride, row0 := 0 }, a.hull))
    match here with
    | (s, .error f) => (s, .error f)
    | (s, .ok d) =>
      match s.checkEnts bad h rest with
      | (s, .error f) => (s, .error f)
      | (s, .ok ds) => (s, .ok (d :: ds))

/-- Step 8 of R250: pages of several sides, in order: base, length, read, write. -/
def State.transSides (s : State) : List (SideBase × Nat × Bool × Bool) → State × Except Stop (List (Nat × Nat))
  | [] => (s, .ok [])
  | (b, len, r, w) :: rest =>
    match s.transSide b len r w with
    | (s, .error e) => (s, .error e)
    | (s, .ok xs) =>
      match s.transSides rest with
      | (s, .error e) => (s, .error e)
      | (s, .ok ys) => (s, .ok (xs ++ ys))

/-- The sum of the capacities of a table. -/
def capSum (es : List TableEnt) : Nat := (es.map (·.cap)).sum

/-- Some written hull meets a read hull or another written one (R251 reason 5). -/
def hullsClash (rd : List ScrRange) : List ScrRange → Bool
  | [] => false
  | w :: rest => (rd ++ rest).any (rangesConflict w) || hullsClash rd rest

/-- What the checks of a route yield. -/
structure RouteChecked where
  reads : List SideAt
  outs : List SideAt
  dests : List (RouteDest × List ScrRange)
  rd : List ScrRange
  remote : Bool
  deriving DecidableEq, Repr

/-- A pair of checks: the first failure, or both results. -/
def thenCheck {α β : Type} (x : State × Except Stop α) (k : State → α → State × Except Stop β) : State × Except Stop β :=
  match x with
  | (s, .error e) => (s, .error e)
  | (s, .ok a) => k s a

/-- The read of a route's table waits, as that of a descriptor does (R159, R163). -/
def State.tableWaits (s : State) (b : SideBase) (xl : List (Nat × Nat)) (n : Nat) : Option StallWhy :=
  match b with
  | .scr c a => s.ownReadWaits (.scr c a) n
  | .host a => s.ownReadWaits (.host a) n
  | .glob _ va => xl.findSome? fun p =>
      let lo := max va (p.1 * 65536)
      let hi := min (va + n) (p.1 * 65536 + 65536)
      s.ownReadWaits (.glob (p.2 * 65536 + lo % 65536) lo) (hi - lo)

/-- The table of a route is read (R250), in the same way as the descriptor: its entries. -/
def State.readTable (s : State) (hnum : Nat) (b : SideBase) (off n : Nat) : State × Except Stop (List TableEnt) :=
  thenCheck (s.transSide b (16 * n) true false) fun s xl =>
    let addr := match b with
      | .glob _ va => va
      | _ => handleAddr hnum off
    match s.tableWaits b xl (16 * n) with
    | some w => (s, .error (.stall w))
    | none =>
    if s.sidePoisoned b xl (16 * n) then (s, .error (.trap (mkTrap fMemerr 6 addr s.leaderMask)))
    else (s, .ok (tableEnts (s.sideBytes b xl (16 * n)) n))

/-- The hulls that a route reads (R255): a `grretry` records none for its weights. -/
def readHulls (h : RouteHead) (retry : Bool) (reads : List SideAt) : List ScrRange :=
  (if retry && h.wt then reads.drop 1 else reads).flatMap (·.hull)

/-- Some entry of a route's table is remote, as far as the table can be read; nothing is kept of the look. The descriptor's own fields are
checked before its handles (R250), and its tag list is one of them where an entry is remote. -/
def State.peekRemote (s : State) (bad : Nat → Stop) (h : RouteHead) (f : Nat → Nat) (retry : Bool) : Bool :=
  match (routeReads h f retry).getLast? with
  | none => false
  | some x =>
    match s.sideCheck (bad 2) x with
    | (t, .ok a) =>
      match (t.readTable (bitsOf (f 8) 31 20) a.base (f 9) h.nexp).2 with
      | .ok es => es.any (·.remote)
      | .error _ => false
    | _ => false

/-- Steps 4-8 of R250, but for the object; the table is looked at when its handle has passed, since it sizes what follows, and waited for there. -/
def State.checkRoute (s : State) (bad : Nat → Stop) (h : RouteHead) (f : Nat → Nat) (retry : Bool) :
    State × Except Stop RouteChecked :=
  let rs := routeReads h f retry
  thenCheck (s.sideChecks (bad 2) rs) fun s reads =>
    let tbase := ((reads.getLast?).map (·.base)).getD (.host 0)
    let (s, tab) := s.readTable (bitsOf (f 8) 31 20) tbase (f 9) h.nexp
    let es := match tab with
      | .ok es => es
      | .error _ => []
    let waits := match tab with
      | .error (.stall w) => Except.error (Stop.stall w)
      | _ => Except.ok ()
    let remote := retry || es.any (·.remote)
    let os := routeOuts h f retry remote (capSum es)
    thenCheck (s, waits) fun s _ => thenCheck (s.sideChecks (bad 2) os) fun s outs =>
      thenCheck (s, tab) fun s es =>
        thenCheck (s.checkEnts bad h es) fun s dests =>
          let rd := readHulls h retry reads
          let wr := (if retry then [] else dests.flatMap (·.2)) ++ outs.flatMap (·.hull)
          let rid := h.rid
          if hullsClash rd wr then (s, .error (bad 5))
          else if remote && !retry && (s.openRoute s.curCtx rid).isSome then (s, .error (bad 6))
          else if remote && !retry && decide (256 ≤ s.liveRoutes.length) then (s, .error (bad 7))
          else (s, .ok { reads := reads, outs := outs, dests := dests, rd := rd, remote := remote })

/-- The pages that a checked route touches (step 8): the arrays that it reads, then its local destinations, then what it writes (log entry
73). -/
def State.routePages (s : State) (h : RouteHead) (f : Nat → Nat) (retry : Bool) (r : RouteChecked) :
    State × Except Stop (List (Nat × Nat)) :=
  let rl := (r.reads.zip (routeReads h f retry)).map fun x => (x.1.base, x.2.len, true, false)
  let caps := (r.dests.map fun d => d.1.cap).sum
  let ol := (r.outs.zip (routeOuts h f retry r.remote caps)).map fun x => (x.1.base, x.2.len, false, true)
  let dl := if retry then []
    else (r.dests.filter fun d => !d.1.remote && !h.pk).map fun d =>
      (d.1.base, if d.1.cap = 0 then 0 else (d.1.cap - 1) * d.1.stride + 4 * h.row, false, true)
  s.transSides (rl ++ dl ++ ol)

/-- The command of a checked route. -/
def routeCmdOf (h : RouteHead) (f : Nat → Nat) (retry : Bool) (r : RouteChecked) (inst : Nat) : RouteCmd :=
  let base := fun (xs : List SideAt) (i : Nat) => ((xs[i]?).map (·.base)).getD (.host 0)
  let i0 := if retry then 0 else 1
  let i1 := if h.wt then i0 + 1 else i0
  let o0 := if h.pk && !retry then 1 else 0
  let o1 := if h.inv ≠ 0 ∧ retry = false then o0 + 2 else o0 + 1
  let o2 := if h.rec' && !retry then o1 + 1 else o1
  { k := h.k, wt := h.wt, inv := if retry then 0 else h.inv, pk := h.pk && !retry, rec' := h.rec' && !retry, ntok := h.ntok
    nexp := h.nexp, rwords := h.rwords, choices := base r.reads 0, weights := base r.reads i0, src := base r.reads i1
    sstride := f 7, dests := r.dests.map (·.1), packed := base r.outs 0, pstride := f 12, outs := base r.outs o0
    inverse := base r.outs (o0 + 1), recs := base r.outs o1, rcap := f 19, tags := base r.outs o2, acap := f 22, rid := h.rid, inst := inst }

/-- A Sluice command joins its cluster's queue, and forks. -/
def State.forkSluice (s : State) (c : Cmd) : State :=
  let cl := clusterOf s.curCore
  let k := s.cluster cl
  (s.putCluster cl { k with sluice := k.sluice ++ [c] }).forked c false

/-- The common start of the three commands: registers, fork conditions, queue (R249, R250). -/
def sluiceReady (s : State) (d a b : Reg) (m : BitVec 3) : Except Stop Unit :=
  s.groupRegs (if m.getLsbD 1 then [] else [d]) ([a, a + 1] ++ (if m.getLsbD 0 then [b, b + 1] else []))

/-- The queue and scoreboard conditions. A command keeps its entry of the queue until it completes, a route that only waits for
acknowledgements among the rest (log entry 73). -/
def State.sluiceRoom (s : State) : Except Stop Unit :=
  andThen s.forkReady (s.queueReady (s.cluster (clusterOf s.curCore)).sluice.length s.cur.neng)

/-- `groute` and `grretry`. A `grretry` uses its route from its fork on (log entry 73). -/
def routeIssue (s : State) (retry : Bool) (d a b : Reg) (m : BitVec 3) : Out :=
  match sluiceReady s d a b m with
  | .error e => settle s.openRegion (.error e)
  | .ok _ =>
    let s := s.openRegion
    match s.sluiceRoom with
    | .error e => settle s (.error e)
    | .ok _ =>
      let (s, r) : State × Except Stop (RouteCmd × RouteChecked × Option (Place × Nat) × List (Nat × Nat)) :=
       thenCheck (s.cmdDesc fRoute 2 (s.u a).toNat (s.u (a + 1)).toNat 128 128) fun s x =>
        let f := recWord (routeWords x.2)
        let bad := routeFault s x.1
        let h := routeHead f
        let open' := s.openRoute s.curCtx h.rid
        let h := match retry, open' with
          | true, some r => { h with k := r.k, ntok := r.ntok, nexp := r.nexp, inv := 0, pk := false, rec' := false }
          | _, _ => h
        let taken := match open' with
          | none => true
          | some r => match r.busy with
            | some cl => decide (cl ≠ clusterOf s.curCore)
            | none => false
        if retry && taken then (s, .error (bad 8))
        else if routeReason h f retry ≠ 0 then (s, .error (bad (routeReason h f retry)))
        else if decide (f 21 % 4 ≠ 0) && s.peekRemote bad h f retry then (s, .error (bad 3))
        else
          thenCheck (s.checkRoute bad h f retry) fun s rc =>
            thenCheck (s.arrCheck (m.getLsbD 0) b) fun s obj =>
              thenCheck (s.routePages h f retry rc) fun s xl =>
                (s, Except.ok (routeCmdOf h f retry rc ((open'.map (·.inst)).getD s.nextCmd), rc, obj, xl))
      match r with
      | .error e => settle s (.error e)
      | .ok (rc, ck, obj, xl) =>
        let op := if retry then CmdOp.retry (m.getLsbD 2) rc else CmdOp.route rc
        let wr := (if retry then [] else ck.dests.flatMap (·.2)) ++ ck.outs.flatMap (·.hull)
        let c := s.newCmd op (if m.getLsbD 1 then none else some d) ck.rd wr xl obj
        let devs := ((rc.dests.filter fun (d : RouteDest) => d.remote).map fun (d : RouteDest) => d.dev).eraseDups
        let s1 := match retry, s.openRoute s.curCtx rc.rid with
          | true, some r => s.putRoute { r with busy := some (clusterOf s.curCore), devs := (r.devs ++ devs).eraseDups }
          | _, _ =>
            if ck.remote then
              let o : OpenRoute :=
                { ctx := s.curCtx, rid := rc.rid, inst := rc.inst, ntok := rc.ntok, k := rc.k, nexp := rc.nexp, rows := [], devs := devs, busy := none }
              ({ s with openRoutes := s.openRoutes ++ [o] } : State)
            else s
        .next (s1.forkSluice c)

/-- GROUTE. -/
def execGroute (d a b : Reg) (m : BitVec 3) (s : State) : Out := routeIssue s false d a b m
/-- GRRETRY. -/
def execGrretry (d a b : Reg) (m : BitVec 3) (s : State) : Out := routeIssue s true d a b m

/-- The sides of a `grsel` (R262). Its score matrix lies in space 0 or 1, as the other arrays of R256 (log entry 73). -/
def selSides (f : Nat → Nat) : List Side :=
  let kc := bitsOf (f 0) 27 24
  let ntok := bitsOf (f 3) 31 16
  let nexp := bitsOf (f 3) 12 0
  let cc := bitsOf (f 4) 31 16
  [{ hnum := bitsOf (f 0) 11 0, off := f 1, n := ntok, stride := f 2, rwords := nexp, r := true, w := false, a := false, spaces := [0, 1] },
   wordSide (f 5) (f 6) (nexp * cc) true] ++ (if kc = 0 then [] else [wordSide (f 7) (f 8) (ntok * kc) true]) ++
    (if kc ≠ 0 ∧ (f 0).testBit 23 = true then [wordSide (f 9) (f 10) (ntok * kc) true] else [])

/-- Reasons 1 and 3 of a `grsel`. -/
def selReason (f : Nat → Nat) : Nat :=
  let ntok := bitsOf (f 3) 31 16
  let nexp := bitsOf (f 3) 12 0
  let cc := bitsOf (f 4) 31 16
  if bitsOf (f 0) 31 28 ≠ 0xB ∨ 8 < bitsOf (f 0) 27 24 ∨ ntok = 0 ∨ nexp = 0 ∨ 4096 < nexp ∨ cc = 0 ∨ ntok < cc then 1
  else if ((selSides f).any fun x => decide (x.off % 4 ≠ 0) || decide (x.stride % 4 ≠ 0)) || decide (f 2 < 4 * nexp) then 3
  else 0

/-- GRSEL. -/
def execGrsel (d a b : Reg) (m : BitVec 3) (s : State) : Out :=
  match sluiceReady s d a b m with
  | .error e => settle s.openRegion (.error e)
  | .ok _ =>
    let s := s.openRegion
    match s.sluiceRoom with
    | .error e => settle s (.error e)
    | .ok _ =>
      let (s, r) := thenCheck (s.cmdDesc fRoute 2 (s.u a).toNat (s.u (a + 1)).toNat 64 64) fun s x =>
        let f := recWord (recWords x.2)
        let bad := routeFault s x.1
        if selReason f ≠ 0 then (s, .error (bad (selReason f)))
        else
          thenCheck (s.sideChecks (bad 2) (selSides f)) fun s as =>
            if hullsClash (((as.take 1)).flatMap (·.hull)) ((as.drop 1).flatMap (·.hull)) then (s, .error (bad 5))
            else
              thenCheck (s.arrCheck (m.getLsbD 0) b) fun s obj =>
                let ls := (as.zip (selSides f)).map fun x => (x.1.base, x.2.len, x.2.r, x.2.w)
                thenCheck (s.transSides ls) fun s xl => (s, Except.ok (f, as, obj, xl))
      match r with
      | .error e => settle s (.error e)
      | .ok (f, as, obj, xl) =>
        let base := fun (i : Nat) => ((as[i]?).map (·.base)).getD (.host 0)
        let op : SelCmd :=
          { kc := bitsOf (f 0) 27 24, wo := (f 0).testBit 23, scores := base 0, xstride := f 2, ntok := bitsOf (f 3) 31 16
            nexp := bitsOf (f 3) 12 0, c := bitsOf (f 4) 31 16, lists := base 1, choices := base 2, weights := base 3 }
        let c := s.newCmd (.sel op) (if m.getLsbD 1 then none else some d) ((as.take 1).flatMap (·.hull))
          ((as.drop 1).flatMap (·.hull)) xl obj
        .next (s.forkSluice c)

/-! ### Pass 1 and the outputs (R257-R260) -/

/-- A word of a side at byte `off`, for a command whose pages are known; a word that cannot be reached reads as poisoned. -/
def State.sideWord (s : State) (c : Cmd) (b : SideBase) (off : Nat) : Word × Bool :=
  match (s.sideAt c false b off).2 with
  | some p => s.wordAt p
  | none => (0, true)

/-- A write of one word of a side. -/
def State.sidePut (s : State) (c : Cmd) (b : SideBase) (off : Nat) (v : Word) (bad : Bool) : List CmdWrite :=
  match (s.sideAt c true b off).2 with
  | some p => [wordWrite p v bad]
  | none => []

/-- Consecutive words of a side. -/
def State.sidePuts (s : State) (c : Cmd) (b : SideBase) (off : Nat) : List Word → List CmdWrite
  | [] => []
  | v :: rest => s.sidePut c b off v false ++ s.sidePuts c b (off + 4) rest

/-- The assignment of one choice: its expert and row, or dropped; and the reason of a drop record. -/
structure Assigned where
  i : Nat
  e : Word
  slot : Option (Nat × Nat)
  reason : Nat
  deriving DecidableEq, Repr

/-- Pass 1 (R257), in ascending i. -/
def State.pass1 (s : State) (c : Cmd) (r : RouteCmd) : List Assigned × SMap Nat :=
  (seqFrom 0 (r.ntok * r.k)).foldl (fun (acc : List Assigned × SMap Nat) i =>
    let (e, bad) := s.sideWord c r.choices (4 * i)
    let n := mapGet 0 acc.2 e.toNat
    let cap := ((r.dests[e.toNat]?).map (·.cap)).getD 0
    let drop := fun (why : Nat) => (acc.1 ++ [{ i := i, e := e, slot := none, reason := why : Assigned }], acc.2)
    if e = 0xFFFFFFFF then drop 0
    else if bad then drop 3
    else if r.nexp ≤ e.toNat then drop 2
    else if cap ≤ n then drop 1
    else (acc.1 ++ [{ i := i, e := e, slot := some (e.toNat, n), reason := 0 }], mapSet 0 acc.2 e.toNat (n + 1))) ([], [])

/-- The counts of the experts, and their exclusive prefix sums. -/
def countsOf (n : Nat) (m : SMap Nat) : List Nat := (seqFrom 0 n).map (mapGet 0 m)
def prefixSums : Nat → List Nat → List Nat
  | _, [] => []
  | t, x :: r => t :: prefixSums (t + x) r

/-- A drop record or tag as two words (R260). -/
def recordWords (reason row t slot e : Nat) : List Word :=
  [BitVec.ofNat 32 (t % 65536 * 65536 + slot % 16 * 4096 + e % 4096), BitVec.ofNat 32 (reason * 2 ^ 28 + row % 2 ^ 20)]

/-- The words of a route's row for choice `i`, with poison (R257). -/
def State.routeRow (s : State) (c : Cmd) (r : RouteCmd) (i : Nat) : List (Word × Bool) :=
  ((seqFrom 0 r.rwords).map fun j => s.sideWord c r.src (i / r.k * r.sstride + 4 * j)) ++
    (if r.wt then [s.sideWord c r.weights (4 * i)] else [])

/-- The writes of a local row. -/
def State.localRow (s : State) (c : Cmd) (b : SideBase) (off : Nat) (ws : List (Word × Bool)) : List CmdWrite :=
  ((seqFrom 0 ws.length).zip ws).flatMap fun x => s.sidePut c b (off + 4 * x.1) x.2.1 x.2.2

/-- Pass 2's local rows: choice, expert, and row of the destination or of the packed buffer (R257). -/
def localSlots (r : RouteCmd) (as : List Assigned) (pre : List Nat) : List (Nat × Nat × Nat) :=
  as.filterMap fun x =>
    match x.slot with
    | none => none
    | some (e, row) =>
      if r.pk then some (x.i, e, (pre[e]?).getD 0 + row)
      else
        match r.dests[e]? with
        | none => none
        | some d => if d.remote then none else some (x.i, e, row)

/-- The writes of the local rows (R257). -/
def State.localRows (s : State) (c : Cmd) (r : RouteCmd) : List CmdWrite :=
  c.slots.flatMap fun x =>
    if r.pk then s.localRow c r.packed (x.2.2 * r.pstride) (s.routeRow c r x.1)
    else
      match r.dests[x.2.1]? with
      | none => []
      | some d => s.localRow c d.base (x.2.2 * d.stride) (s.routeRow c r x.1)

/-- Pass 2's remote rows, not yet sent. -/
def remoteRows (r : RouteCmd) (as : List Assigned) : List SentRow :=
  as.filterMap fun x =>
    match x.slot with
    | none => none
    | some (e, row) =>
      match r.dests[e]? with
      | none => none
      | some d =>
        if d.remote then
          some { t := x.i / r.k, slot := x.i % r.k, e := e, row := row, dev := d.dev, buf := d.hnd, idx := d.row0 + row, sends := 0, at' := 0 }
        else none

/-- The outputs of R253, R258-R260 that follow the last row, and whether drop records were left out. -/
def State.routeOutputs (s : State) (c : Cmd) (r : RouteCmd) (as : List Assigned) (cnt pre : List Nat) : List CmdWrite × Bool :=
  let w := fun (n : Nat) => (BitVec.ofNat 32 n : Word)
  let drops := as.filter fun x => decide (x.reason ≠ 0)
  let head := (cnt.map w) ++ (pre.map w) ++ [w cnt.sum, w drops.length]
  let invs := as.map fun x =>
    match x.slot with
    | none => (0xFFFFFFFF : Word)
    | some (e, row) => if r.inv = 1 then w (e * 2 ^ 20 + row) else w ((pre[e]?).getD 0 + row)
  let toks := as.map fun x => if x.slot.isSome then w (x.i / r.k) else 0xFFFFFFFF
  let inv := if r.inv = 0 then [] else if r.inv = 3 then invs ++ toks else invs
  let recs := (drops.take r.rcap).flatMap fun x => recordWords x.reason 0 (x.i / r.k) (x.i % r.k) x.e.toNat
  (s.sidePuts c r.outs 0 head ++ s.sidePuts c r.outs (8 * r.nexp + 12) [0] ++ s.sidePuts c r.inverse 0 inv ++
    (if r.rec' then s.sidePuts c r.recs 0 recs else []), r.rec' && decide (r.rcap < drops.length))

/-! ### Selection (R262) -/

/-- The tokens of a column in rank order. -/
def columnOrder (codes : List Nat) : List Nat :=
  sortBy (fun t => 2 ^ 32 - (codes[t]?).getD 0) (seqFrom 0 codes.length)

/-- A `grsel` in whole: its writes, the omitted selections, and poison. -/
def State.runSel (s : State) (c : Cmd) (d : SelCmd) : List CmdWrite × Nat × Bool :=
  let score := fun (t e : Nat) => s.sideWord c d.scores (t * d.xstride + 4 * e)
  let code := fun (t e : Nat) => if (score t e).2 then 0 else keyCode 2 (score t e).1
  let lists := (seqFrom 0 d.nexp).map fun e => (columnOrder ((seqFrom 0 d.ntok).map fun t => code t e)).take d.c
  let mine := fun (t : Nat) => (seqFrom 0 d.nexp).filter fun e => ((lists[e]?).getD []).contains t
  let w := fun (n : Nat) => (BitVec.ofNat 32 n : Word)
  let rows := (seqFrom 0 d.ntok).map fun t => (seqFrom 0 d.kc).map fun j =>
    match (mine t)[j]? with
    | none => ((0xFFFFFFFF : Word), (0 : Word))
    | some e => (w e, if (score t e).2 || (f32v (score t e).1).isNan then 0x7FC00000 else (score t e).1)
  let omitted := ((seqFrom 0 d.ntok).map fun t => (mine t).length - d.kc).sum
  let bad := (seqFrom 0 d.ntok).any fun t => (seqFrom 0 d.nexp).any fun e => (score t e).2
  (s.sidePuts c d.lists 0 (lists.flatten.map w) ++ s.sidePuts c d.choices 0 (rows.flatten.map (·.1)) ++
    (if d.wo then s.sidePuts c d.weights 0 (rows.flatten.map (·.2)) else []), omitted, bad)

/-! ### Start, send and complete (R258, R263-R266, R268) -/

/-- A command of a cluster's queue is replaced. -/
def State.putSluice (s : State) (cl : Nat) (c : Cmd) : State :=
  let k := s.cluster cl
  s.putCluster cl { k with sluice := k.sluice.map fun x => if x.id = c.id then c else x }

/-- The context of a command. -/
def State.cmdCtx (s : State) (c : Cmd) : Nat := (s.block (s.group c.g).blk).ctx

/-- The destination of an unacknowledged row under the table of a `grretry` (R266). A row whose entry is local there is not sent, and counts
as unacknowledged at once (log entry 73). -/
def retryRow (r : RouteCmd) (x : SentRow) : Option SentRow :=
  match r.dests[x.e]? with
  | none => none
  | some d => if d.remote then some { x with dev := d.dev, buf := d.hnd, idx := d.row0 + x.row, sends := 0, at' := 0 } else none

/-- The command may start: the Sluice is free, nothing earlier conflicts, and no row of it is under test (R159). -/
def State.sluiceFree (s : State) (cl : Nat) (c : Cmd) : Bool :=
  let q := (s.cluster cl).sluice
  !(q.any fun x => x.started && !x.sent) && !c.waitCommit && !s.cmdBlocked c && !s.rangesTested (c.rd ++ c.wr) (c.xl.map (·.2))

/-- The next command of a Sluice's queue starts (R257, R262, R266, R268): pass 1 of a route, and what a `grretry` finds unacknowledged. -/
def State.startSluice (s : State) (cl : Nat) : State :=
  match (s.cluster cl).sluice.find? fun c => !c.started with
  | none => s
  | some c =>
    if !s.sluiceFree cl c then s
    else
      match c.op with
      | .route r =>
        let (as, m) := s.pass1 c r
        let cnt := countsOf r.nexp m
        let pre := prefixSums 0 cnt
        let (outs, rtrunc) := s.routeOutputs c r as cnt pre
        let rows := remoteRows r as
        let s := match s.ownRoute (s.cmdCtx c) r with
          | some o => if rows.isEmpty then s else s.putRoute { o with rows := rows }
          | none => s
        s.putSluice cl { c with
          started := true, outs := outs, slots := localSlots r as pre, rows := rows, flags := if rtrunc then 2 ^ 26 else 0
          due := s.now + 17 + ceilDiv (r.ntok * r.k) 16 + ceilDiv r.nexp 32 + as.length }
      | .retry cls r =>
        let u := match s.ownRoute (s.cmdCtx c) r with
          | some o => o.rows
          | none => []
        let rows := if cls then [] else u.filterMap (retryRow r)
        let lost := if cls then u else u.filter fun x => (retryRow r x).isNone
        s.putSluice cl { c with started := true, rows := rows, lost := lost, due := s.now + 16 }
      | .sel d =>
        let (ws, omitted, bad) := s.runSel c d
        let (s, ct) := s.cmdWrites c ws
        s.putSluice cl { c with
          started := true, ct := ct, poison := bad, flags := omitted % 2 ^ 24
          due := s.now + 266 + ceilDiv (d.ntok * d.nexp) 16 + ceilDiv (d.nexp * d.c) 16 }
      | _ => s

/-- SLUICE_COMMAND_START. -/
def execSluiceCommandStart (cl : Nat) (s : State) : Out := .next (s.startSluice cl)

/-- A row is sent: its source words as they are now (R263). -/
def State.sendRow (s : State) (c : Cmd) (r : RouteCmd) (x : SentRow) : State × SentRow × Bool :=
  let ws := s.routeRow c r (x.t * r.k + x.slot)
  let tag : VrelTag := { dev := s.vrelDev, ctx := s.cmdCtx c, rid := r.rid, t := x.t, slot := x.slot }
  ({ s with vout := s.vout ++ [.row x.dev { tag := tag, buf := x.buf, idx := x.idx, words := ws.map (·.1)
                                            bad := (seqFrom 0 ws.length).filter fun j => ((ws[j]?).map (·.2)).getD false }] },
    { x with sends := x.sends + 1, at' := s.now }, ws.any (·.2))

/-- Every row of a list is sent. -/
def State.sendRows (s : State) (c : Cmd) (r : RouteCmd) : List SentRow → State × List SentRow × Bool
  | [] => (s, [], false)
  | x :: rest =>
    let (s, x, b) := s.sendRow c r x
    let (s, xs, b') := s.sendRows c r rest
    (s, x :: xs, b || b')

/-- Fewer than 8 routes of the cluster wait for acknowledgements, or this command has no row to send (R268). A `grretry` counts as a route
(log entry 73). -/
def State.pass2Free (s : State) (cl : Nat) (c : Cmd) : Bool :=
  c.rows.isEmpty || decide (((s.cluster cl).sluice.filter fun x => x.sent && !x.rows.isEmpty).length < 8)

/-- ROUTE_ROWS_SENT (R257, R258, R263): pass 2. The local rows are written and the remote rows leave, and then the outputs are written.
Every local row is read before any is written, and the remote rows are read after that (log entry 73). -/
def execRouteRowsSent (cl id : Nat) (s : State) : Out :=
  match (s.cluster cl).sluice.find? fun c => decide (c.id = id) && c.started && !c.sent with
  | none => .next s
  | some c =>
    let send := fun (r : RouteCmd) =>
      let ws := s.localRows c r
      let (s, ct) := s.cmdWrites c ws
      let (s, rows, bad) := s.sendRows c r c.rows
      let (s, ct) := s.cmdWrites { c with ct := ct } c.outs
      Host.Outcome.next (s.putSluice cl { c with sent := true, slots := [], rows := rows, outs := [], ct := ct
                                                 poison := c.poison || bad || ws.any (·.bad), due := s.now + 250 })
    if !s.pass2Free cl c then .next s
    else
      match c.op with
      | .route r => send r
      | .retry _ r => send r
      | _ => .next s

/-- R263, R266: a command that resolves its rows, closes or leaves its route: the tag list and summary word 2 are written, and the
token's value is known. -/
def State.closeOut (s : State) (cl : Nat) (c : Cmd) : State × Cmd :=
  let ctx := s.cmdCtx c
  let fin := fun (s : State) (r : RouteCmd) (cls : Bool) (sumOff : Nat) =>
    let un := sortBy (fun (x : SentRow) => x.t * 16 + x.slot) c.lost
    let tags := (un.take r.acap).flatMap fun x => recordWords 0 x.row x.t x.slot x.e
    let ws := s.sidePuts c r.tags 0 tags ++ s.sidePuts c r.outs sumOff [BitVec.ofNat 32 un.length]
    let (s, ct) := s.cmdWrites c ws
    let status := if cls then 3 else if un.isEmpty then 1 else 2
    let remote := match c.op with
      | .route r => r.dests.any (·.remote)
      | _ => true
    let others := (s.cluster cl).sluice.any fun x => decide (x.id ≠ c.id) && decide (s.cmdCtx x = ctx) && (match x.op with
      | .retry _ y => decide (y.rid = r.rid)
      | _ => false)
    let s := if !remote then s
      else if status ≠ 2 then s.closeRoute ctx r
      else
        match c.op, s.ownRoute ctx r with
        | .retry _ _, some o => if others then s else s.putRoute { o with busy := none }
        | _, _ => s
    let flags := c.flags + (if r.acap < un.length then 2 ^ 25 else 0) + (if c.poison then 2 ^ 27 else 0)
    (s, { c with token := BitVec.ofNat 32 (status * 2 ^ 28 + flags + un.length % 2 ^ 24), ct := ct })
  match c.op with
  | .route r => fin s r false (8 * r.nexp + 8)
  | .retry cls r => fin s r cls 0
  | _ => (s, { c with token := BitVec.ofNat 32 (2 ^ 28 + c.flags + (if c.poison then 2 ^ 27 else 0)) })

/-- Every remote row of the command is acknowledged or counts as unacknowledged (R263). -/
def Cmd.resolved (c : Cmd) : Bool :=
  match c.op with
  | .sel _ => c.started
  | _ => c.started && c.sent && c.rows.isEmpty

/-- SLUICE_COMMAND_COMPLETE (R258, R261, R266). -/
def execSluiceCommandComplete (cl id : Nat) (s : State) : Out :=
  match (s.cluster cl).sluice.find? fun c => decide (c.id = id) && c.resolved with
  | none => .next s
  | some c =>
    let (s, c) := if c.token = 0 then s.closeOut cl c else (s, c)
    if s.arrReady c then
      let k := s.cluster cl
      .next ((s.putCluster cl { k with sluice := k.sluice.filter fun x => decide (x.id ≠ id) }).finishCmd c (2 ^ 24))
    else .next (s.putSluice cl c)

/-- The time after which an unacknowledged row is sent again (R263): 32 µs. -/
def resendTicks : Nat := 38400

/-- ROW_RETRANSMIT (R263): a row is sent again, or after its fourth send counts as unacknowledged. -/
def execRowRetransmit (cl id t slot : Nat) (s : State) : Out :=
  match (s.cluster cl).sluice.find? fun c => decide (c.id = id) && c.sent with
  | none => .next s
  | some c =>
    let same := fun (x : SentRow) => decide (x.t = t) && decide (x.slot = slot)
    let go := fun (r : RouteCmd) =>
      match c.rows.find? same with
      | none => Host.Outcome.next s
      | some x =>
        if s.now < x.at' + resendTicks then .next s
        else if 4 ≤ x.sends then .next (s.putSluice cl { c with rows := c.rows.filter (fun y => !same y), lost := c.lost ++ [x] })
        else
          let (s, x, bad) := s.sendRow c r x
          .next (s.putSluice cl { c with rows := c.rows.map (fun y => if same y then x else y), poison := c.poison || bad })
    match c.op with
    | .route r => go r
    | .retry _ r => go r
    | _ => .next s

/-! ### The other side, and messages (R264, R265, R267) -/

/-- Every cluster's Sluice commands change. -/
def State.mapSluice (s : State) (f : Cmd → Cmd) : State :=
  { s with clusters := s.clusters.map fun (c : Nat × Cluster) => (c.1, { c.2 with sluice := c.2.sluice.map f }) }

/-- A word of an arriving row is written, poisoned if poison feeds it (R258), but for a word of an executable or frozen page (R47). -/
def State.rowWord (s : State) (w : CmdWrite) : State :=
  let exec' := match w.place with
    | .glob pa _ => s.execPage pa
    | _ => false
  if exec' then s
  else
    let s := s.pokeBytes w.place w.bytes
    evalMonitors (if w.bad then s.poisonWord w.place else s) [w.plain]

/-- ROW_ARRIVAL (R264): buffer check, duplicate check, write. The row is counted and acknowledged by `flushRx`. -/
def execRowArrival (row : VrelRow) (s : State) : Out :=
  let s := s.hearFrom row.tag.dev
  match mapFind s.rx row.buf with
  | none => .next s
  | some b =>
    if b.count ≤ row.idx then .next s
    else if s.filter.any fun e => decide (e.1 = row.tag) then .next { s with vout := s.vout ++ [.ack row.tag] }
    else if 65536 ≤ s.filter.length then .next s
    else
      let ws : List CmdWrite := ((seqFrom 0 row.words.length).zip row.words).map fun x =>
        wordWrite (.glob (b.base + row.idx * b.stride + 4 * x.1) 0) x.2 (row.bad.contains x.1)
      let ct := s.completionOf (ws.map (·.plain))
      let s := ws.foldl State.rowWord s
      .next { s with filter := s.filter ++ [(row.tag, none)], rxWait := s.rxWait ++ [{ tag := row.tag, ctr := b.ctr, ct := ct }] }

/-- R264: rows whose completion times have passed are counted at scope `.sys` and acknowledged. -/
def State.flushRx (s : State) : State :=
  let due := s.rxWait.filter fun r => decide (r.ct < s.now)
  due.foldl (fun s r =>
    let v := (s.physNum r.ctr 4 + 1) % 2 ^ 32
    let s := if s.poisoned (.glob r.ctr 0) 4 then s
      else s.devPut [{ place := .glob r.ctr 0, bytes := leBytes 4 v }]
    { s with vout := s.vout ++ [.ack r.tag] }) { s with rxWait := s.rxWait.filter fun r => decide (s.now ≤ r.ct) }

/-- The row that a tag stands for, among the commands that wait for it and the open routes. -/
def State.ackedRow (s : State) (tag : VrelTag) : Option SentRow :=
  let mine := fun (x : SentRow) => decide (x.t = tag.t) && decide (x.slot = tag.slot)
  let of' := fun (c : Cmd) => match c.op with
    | .route r => decide (r.rid = tag.rid) && decide (s.cmdCtx c = tag.ctx)
    | .retry _ r => decide (r.rid = tag.rid) && decide (s.cmdCtx c = tag.ctx)
    | _ => false
  match (s.clusters.flatMap fun e => (e.2.sluice.filter of').flatMap fun c => c.rows ++ c.lost).find? mine with
  | some x => some x
  | none => ((s.openRoute tag.ctx tag.rid).map (·.rows)).getD [] |>.find? mine

/-- ROW_ACK_ARRIVAL (R263, R266, R267): the tag leaves the open route, and whichever command waits for it. -/
def execRowAckArrival (tag : VrelTag) (s : State) : Out :=
  if tag.dev ≠ s.vrelDev then .next s
  else
    let keep := fun (x : SentRow) => !(decide (x.t = tag.t) && decide (x.slot = tag.slot))
    let s := match s.ackedRow tag with
      | some x => s.hearFrom x.dev
      | none => s
    let s1 := match s.openRoute tag.ctx tag.rid with
      | some o => s.putRoute { o with rows := o.rows.filter keep }
      | none => s
    .next (s1.mapSluice fun c =>
      let mine := fun (r : RouteCmd) => decide (r.rid = tag.rid) && decide (s.cmdCtx c = tag.ctx)
      match c.op with
      | .route r => if mine r then { c with rows := c.rows.filter keep, lost := c.lost.filter keep } else c
      | .retry false r => if mine r then { c with rows := c.rows.filter keep, lost := c.lost.filter keep } else c
      | _ => c)

/-- ROUTE_CLOSE_NOTICE (R265): the filter entries of a closed route are kept for 1 ms more. -/
def execRouteCloseNotice (dev ctx rid : Nat) (s : State) : Out :=
  let s := s.hearFrom dev
  .next { s with filter := s.filter.map fun e =>
    if e.1.dev = dev ∧ e.1.ctx = ctx ∧ e.1.rid = rid then (e.1, some (s.now + 1200000)) else e }

/-- FILTER_ENTRY_EXPIRE (R265). -/
def execFilterEntryExpire (dev ctx rid : Nat) (s : State) : Out :=
  .next { s with filter := s.filter.filter fun e =>
    !(decide (e.1.dev = dev) && decide (e.1.ctx = ctx) && decide (e.1.rid = rid) && (match e.2 with
      | some t => decide (t ≤ s.now)
      | none => false)) }

/-- 100 µs, in ticks (R337). -/
def silenceTicks : Nat := 120000

/-- DEVICE_UNREACHABLE (R263): where no port has heard from the device for 100 µs (R337), the rows to it count as unacknowledged at once. -/
def execDeviceUnreachable (dev : Nat) (s : State) : Out :=
  if s.now < mapGet 0 s.heard dev + silenceTicks then .next s
  else
    .next (s.mapSluice fun c =>
      if c.sent then
        { c with rows := c.rows.filter (fun x => decide (x.dev ≠ dev)), lost := c.lost ++ c.rows.filter fun x => decide (x.dev = dev) }
      else c)

end Sys2Proof.Machine
end

