-- ==== Sys2Proof/Machine/Ordered.lean ====
section
/-! DEFINITION. The end of a quantum (spec/09_ordering.md R173, R174; spec/12_waiting_barriers.md R210; spec/19_scheduling.md R320;
spec/22_program_ordered_lock.md R325-R328): the event QUANTUM_END. -/
namespace Sys2Proof.Machine
open Sys2Proof

/-! ### When a quantum is over (R173) -/

/-- A `gwaitc` whose limits can be met only by a commit or by a command that starts at one. -/
def State.commitOnly (s : State) (gk : Nat) (j : BitVec 17) : Bool :=
  let g := s.group gk
  let held := s.commands.filter fun c => decide (c.g = gk) && c.waitCommit
  let tiles := held.filter fun c => match c.op with
    | .mma _ _ _ _ _ _ => true
    | .mchain _ => true
    | .mend _ _ => true
    | .msacc _ _ _ _ => true
    | .tcvt _ _ _ => true
    | .tfill _ _ _ _ => true
    | _ => false
  !(({ g with nld := 0, nst := (g.pstores.filter (·.buffered)).length, neng := held.length - tiles.length
              ntile := tiles.length } : Group).limitsMet j)

/-- No command of a core's queues, or of its cluster's Sluice, can start or complete before a commit (R174). -/
def State.queuesHeld (s : State) (core : Nat) : Bool :=
  let co := s.core core
  [co.copyq, co.rillq, co.cascq, co.matq, (s.cluster (clusterOf core)).sluice].all fun q =>
    match q with
    | [] => true
    | c :: _ => c.waitCommit

/-- Every exited group of a core that holds a retirement-tracker entry waits for a commit. -/
def State.trackerHeld (s : State) (core : Nat) : Bool :=
  s.groups.all fun e =>
    !e.2.draining || decide ((s.block e.2.blk).core ≠ core) || !e.2.qbuf.isEmpty || e.2.closing.isSome ||
      s.commands.any fun c => decide (c.g = e.1) && c.waitCommit

/-- The `ginval` that holds a split waits for what only a commit performs, or for bundles that no request is filling any more. -/
def State.invalHeld (s : State) (gk i : Nat) : Bool :=
  match (s.group gk).heldPend i with
  | some p =>
    match p.op with
    | .inval kind a n _ (some d) =>
      let d := s.drainLeft d
      let ctx := (s.block (s.group gk).blk).ctx
      d.accs.any (fun x =>
        ((s.group x.1).pstores.any fun p => p.buffered && decide (p.id = x.2)) || (s.group x.1).closing.any fun c => decide (c.id = x.2)) ||
        d.cmds.any (fun i => s.commands.any fun c => decide (c.id = i) && c.waitCommit) ||
        (d.over && decide (kind = 0) && s.bundleOpen ctx a n && (s.openFills ctx a n).isEmpty)
    | _ => false
  | none => false

/-- A split that cannot issue again before the quantum ends. -/
def State.splitWaits (s : State) (gk i : Nat) (sp : Split) : Bool :=
  match sp.st with
  | .atJoin => true
  | .atBar _ => true
  | .atPbar _ => true
  | .waiting => true
  | .bundleQueue => true
  | .heldFault => true
  | .halted => true
  | .stalled .oneWait => (s.group gk).wait.isSome || (s.group gk).splits.any fun x => decide (x.2.st = .bundleQueue)
  | .stalled .queue => s.queuesHeld (s.block (s.group gk).blk).core
  | .stalled .retirement => s.trackerHeld (s.block (s.group gk).blk).core
  | .stalled (.counters j) => s.commitOnly gk j
  | .stalled (.drained n) => (s.group gk).pstores.any fun p => p.buffered && decide (p.id < n)
  | .awaiting => s.invalHeld gk i
  | _ => false

/-- A group has ended its quantum, waits or has exited, and none of its own accesses is still on its way. -/
def State.groupOver (s : State) (gk : Nat) : Bool :=
  let g := s.group gk
  g.ploads.isEmpty && g.hsts.isEmpty && (g.pstores.all (·.buffered)) &&
    (!g.live || g.qended || g.splits.all fun e => s.splitWaits gk e.1 e.2)

/-- The groups of a launch's places. -/
def State.launchGroups (s : State) (lid : Nat) : List Nat := (s.startedBlocks lid).flatMap fun e => s.groupsOf e.1

/-- The quantum of a launch is over. -/
def State.quantumOver (s : State) (lid : Nat) : Bool :=
  let l := s.launch lid
  decide (l.q ≠ 0) && !l.boundary && l.ending.isNone && (s.launchGroups lid).all s.groupOver

/-- The commit position of a group of an ordered launch (R320). -/
def State.position (s : State) (lid gk : Nat) : Nat :=
  let l := s.launch lid
  let g := s.group gk
  (s.block g.blk).bid % max 1 l.width * max 1 l.groups + g.gid

/-- The groups of a launch in commit order: positions from q mod N on, with wrap (R320). -/
def State.commitOrder (s : State) (lid : Nat) : List Nat :=
  let l := s.launch lid
  let n := max 1 l.width * max 1 l.groups
  sortBy (fun k => (s.position lid k + n - l.quantum % n) % n) (s.launchGroups lid)

/-! ### Commits -/

/-- The requests of an access that a group commits, one for each line (R144). -/
def commitReqs (as : List LaneAddr) : List LineReq := lineReqs ackTime as

/-- The request tracker and the HBM banks have room for what a core commits (R22, R144). -/
def State.commitRoom (s : State) (core : Nat) (as : List LaneAddr) : Bool :=
  let reqs := commitReqs as
  decide ((s.tracker core).length + reqs.length ≤ 2048) && (sendReqs s.now (s.bankUse core) reqs).1.isEmpty

/-- The requests of a commit take their tracker entries until their responses come (R144). -/
def State.takeCommit (s : State) (core : Nat) (as : List LaneAddr) : State :=
  let co := s.core core
  s.putCore core { co with commits := co.commits ++ (commitReqs as).map fun r => (r.line, s.now + r.time) }

/-- The first `n` writes of a group's buffer, which are one store's, are performed; `rest` are the stores behind it. -/
def State.performBuffered (s : State) (gk n : Nat) (rest : List (Nat × Nat)) : State :=
  let g := s.group gk
  let ws := g.qbuf.take n
  let ct := s.completionOf ws
  let s := (s.takeCommit (s.block g.blk).core (writeAddrs ws)).perform (some (s.block g.blk).core) true ws
  let g := s.group gk
  s.putGroup gk { g with
    ct := max g.ct ct, hpages := g.hpages ++ hostPages 0 (some (s.now + hostTicks)) ws, qbuf := g.qbuf.drop n, qrel := rest }

/-- The buffered stores of a group are acknowledged. -/
def Group.ackBuffered (g : Group) : Group :=
  { g with
    qbuf := [], qrel := [], nst := g.nst - (g.pstores.filter (·.buffered)).length, pstores := g.pstores.filter fun p => !p.buffered }

/-- The buffered stores of a group are performed in program order, a strong one once its release is met (R153), and none while a row that it
reaches is under test (R159) or before the tracker and the banks have room for it (R22, R144); whether all have been. -/
def drainStores (gk : Nat) : List (Nat × Nat) → State → State × Bool
  | [], s => (s.putGroup gk (s.group gk).ackBuffered, true)
  | (i, sc) :: rest, s =>
    let g := s.group gk
    let n := match rest with
      | (j, _) :: _ => j - i
      | [] => g.qbuf.length
    if s.releaseMet g sc g.nextId && !s.writesTested (s.block g.blk).core (g.qbuf.take n) &&
        s.commitRoom (s.block g.blk).core (writeAddrs (g.qbuf.take n)) then
      drainStores gk rest (s.performBuffered gk n rest)
    else (s, false)

/-- The lanes of a closing atomic with their operands. -/
def closingLanes (c : Closing) : List (LaneAddr × Word × Word) :=
  c.lanes.map fun l => ({ lane := l.lane, off := 0, place := .glob l.pa l.va }, l.x, l.x2)

/-- The addresses of a closing atomic or arrival. -/
def closingAddrs (c : Closing) : List LaneAddr := (closingLanes c).map (·.1)

/-- The closing atomic of a group is performed (R154, R160, R173, R212). -/
def State.closeAtomic (s : State) (gk : Nat) : State × List Closed :=
  let g := s.group gk
  match g.closing with
  | none => (s, [])
  | some c =>
    let s := (s.putGroup gk { g with closing := none }).takeCommit (s.block g.blk).core (closingAddrs c)
    if c.op = 0xB3 then
      match c.lanes with
      | l :: _ =>
        match s.arrive (s.block g.blk).core true (.glob l.pa l.va) l.x.toNat with
        | (s, some (old, ct)) =>
          let g := s.group gk
          let ws := (lanesOf (g.split c.sp).members).map fun i =>
            { lane := i, loc := c.d, val := BitVec.ofNat 32 (old / 2 ^ 32) : LaneWrite }
          (s.putGroup gk { g with ct := max g.ct ct }, [{ g := gk, sp := c.sp, writes := ws, trap := none }])
        | (s, none) =>
          (s, [{ g := gk, sp := c.sp, writes := [], trap := some (mkTrap fMemerr 2 l.va (oneLane l.lane)) }])
      | [] => (s, [])
    else
      let (s, rs) := s.atomLanes gk c.op (closingLanes c)
      let bad := (rs.filter fun x => x.2.isNone).map (·.1)
      let good := rs.filter fun x => x.2.isSome
      let ws := good.flatMap fun x =>
        let vs := oldWords (x.2.getD 0)
        { lane := x.1.lane, loc := c.d, val := (vs[0]?).getD 0 : LaneWrite } ::
          (if c.op = 0x79 then [{ lane := x.1.lane, loc := c.d2, val := (vs[1]?).getD 0 : LaneWrite }] else [])
      let trap := if bad.isEmpty then none else some (memerr 0 2 (!good.isEmpty) bad)
      (s, [{ g := gk, sp := c.sp, writes := ws, trap := trap }])

/-- The heads of a core's queues, and of its cluster's Sluice, start where they may. -/
def State.startHeads (s : State) (core : Nat) : State :=
  let s := s.startEngine core .copy
  let s := s.startEngine core .rill
  let s := s.startEngine core .cascade
  let s := s.startTile core
  s.startSluice (clusterOf core)

/-- The commands that a group issued in the quantum start at its commit, after its stores (R174). -/
def State.releaseCmds (s : State) (gk : Nat) : State :=
  if s.commands.any fun c => decide (c.g = gk) && c.waitCommit then
    let go := fun (q : List Cmd) => q.map fun (c : Cmd) => if c.g = gk then { c with waitCommit := false } else c
    let s : State := { s with
      cores := s.cores.map fun (e : Nat × Core) =>
        (e.1, { e.2 with copyq := go e.2.copyq, rillq := go e.2.rillq, cascq := go e.2.cascq, matq := go e.2.matq })
      clusters := s.clusters.map fun (e : Nat × Cluster) => (e.1, { e.2 with sluice := go e.2.sluice }) }
    s.startHeads (s.block (s.group gk).blk).core
  else s

/-- The closing atomic's release is met (R153, R154), none of its rows is under test (R159), and its requests have room (R22, R144). -/
def State.closingMet (s : State) (gk : Nat) : Bool :=
  let g := s.group gk
  match g.closing with
  | some c =>
    let core := (s.block g.blk).core
    s.releaseMet g c.scope g.nextId && !s.underTest core ((closingAddrs c).map (·.place)) && s.commitRoom core (closingAddrs c)
  | none => true

/-- Step 1 of R325 for one group: what its closing atomic left, or none while a release of it still waits. -/
def State.commit (s : State) (gk : Nat) : State × Option (List Closed) :=
  match drainStores gk (s.group gk).qrel s with
  | (s, false) => (s, none)
  | (s, true) =>
    if s.closingMet gk then
      let (s, cs) := s.closeAtomic gk
      (s.releaseCmds gk, some cs)
    else (s, none)

/-- Step 1: the groups in order, until one has to wait; the groups that are left, and what the atomics left. -/
def commits : List Nat → List Closed → State → State × List Nat × List Closed
  | [], cs, s => (s, [], cs)
  | k :: rest, cs, s =>
    match s.commit k with
    | (s, none) => (s, k :: rest, cs)
    | (s, some ds) => commits rest (cs ++ ds) s

/-- Step 2: old values reach their registers; the fault of a poisoned atomic is held, and enters in the next quantum (R173). -/
def State.closedWrite (s : State) (c : Closed) : State :=
  let q := s.quantumOf c.g
  let s := s.touch c.g (c.writes.map (·.loc))
  let g := c.writes.foldl (fun (g : Group) w => if g.exited.getLsbD w.lane then g else g.wr w.loc [(w.lane, w.val)]) (s.group c.g)
  match c.trap with
  | none => s.putGroup c.g (passOn g c.sp q)
  | some t =>
    let s := s.putGroup c.g (g.unretire (g.split c.sp) (s.ordQ c.g))
    if (g.split c.sp).sup then (doubleFault s c.g c.sp).flushSvc else holdFault s c.g c.sp t

/-! ### Waits (R326) -/

/-- The block whose scratchpad holds a place, among the party of a block. -/
def State.scratchOwner (s : State) (bk : Nat) (p : Place) : Option Nat :=
  match p with
  | .scr c a => (s.partyOf bk).find? fun k =>
    let b := s.block k
    decide (b.core = c) && decide (b.origin ≤ a) && decide (a < b.origin + b.scratch)
  | _ => some bk

/-- Step 3 for one group. -/
def State.waitStep (s : State) (gk : Nat) : State :=
  let g := s.group gk
  match g.wait with
  | none => s
  | some r =>
    if r.ended.isSome then s
    else if s.poisoned r.place 4 then faultWait s gk 7
    else
      let w : Word := BitVec.ofNat 32 (s.numAt r.place 4)
      let gone := match s.scratchOwner g.blk r.place with
        | some k => decide (k ≠ g.blk) && (s.block k).exited
        | none => true
      if waitHolds r.m w r.y r.mask then (s.touch gk [r.dl, r.dh]).finishWait gk r w 1
      else if gone then
        let g := g.unretire (g.split r.sp) (s.ordQ gk)
        takeFault (s.putGroup gk { g with wait := none }) gk r.sp
          (mkTrap fPeergone (peerOf r.off) (handleAddr r.hnum r.off) (oneLane (g.leader (g.split r.sp))))
      else
        match r.deadline with
        | some t => if t ≤ s.quantumOf gk + 1 then (s.touch gk [r.dl, r.dh]).finishWait gk r w 0 else s
        | none => s

/-- Step 3 for the splits of a group that stall in a `gwaitc`: one whose limits hold now goes on in the next quantum (log entry 56). -/
def State.countersStep (s : State) (gk : Nat) : State :=
  let g := s.group gk
  let q := s.ordQ gk
  s.putGroup gk (g.splits.foldl (fun (g : Group) e =>
    match e.2.st with
    | .stalled (.counters j) =>
      if g.limitsMet j then (g.retire e.2 q).putSplit e.1 { e.2 with pc := e.2.pc + 4, st := .running } else g
    | _ => g) g)

/-! ### QUANTUM_END -/

/-- Every unexited group of a party waits at one of its barriers, and device time has still to pass the CT of one (R170, R209). -/
def State.partyHeld (s : State) (bk : Nat) : Bool :=
  (seqFrom 0 4).any fun i => s.barrierFull (s.partyOf bk) (.atPbar i) && !s.barrierPast (s.partyOf bk)

/-- Step 4: barriers release (R210). -/
def State.quantumBars (s : State) (bk : Nat) : State :=
  let s := (seqFrom 0 16).foldl (fun s i => s.testBarrier [bk] (.atBar i) false) s
  (seqFrom 0 4).foldl (fun s i => s.testBarrier (s.partyOf bk) (.atPbar i) true) s

/-- The launch stands at the boundary before its next quantum: stop requests are taken and parking is tested (R174, R325 step 5). -/
def State.atBoundary (s : State) (lid : Nat) : State :=
  let l := s.launch lid
  let s := s.putLaunch lid { l with quantum := l.quantum + 1, boundary := true, ending := none }
  let bs := (s.startedBlocks lid).map (·.1)
  let s := bs.foldl (fun s k =>
    let b := s.block k
    if (s.context b.ctx).stopped then s.stopBlock k 3 else if b.reason ≠ 0 then s.stopBlock k b.reason else s) s
  let s := bs.foldl (fun s k => s.parkTest k) s
  bs.foldl (fun s k => s.blockFinish k) s

/-- Where the end of a launch's quantum stands. -/
def State.putEnding (s : State) (lid : Nat) (e : Ending) : State := s.putLaunch lid { s.launch lid with ending := some e }

/-- Steps 4 and 5: barriers release once device time has passed what they wait for, and the quantum is over. -/
def State.endBars (s : State) (lid : Nat) : State :=
  let bs := (s.startedBlocks lid).map (·.1)
  if bs.any s.partyHeld then s.putEnding lid { rest := [], closed := [], bars := true }
  else ((bs.foldl (fun s k => s.quantumBars k) s).atBoundary lid).beginQuantum lid

/-- The steps of R325 in order, as far as they come now: a release of step 1 or a barrier of step 4 may wait for device time. What a group
retires from step 3 on counts in the next quantum (R327). -/
def State.endStep (s : State) (lid : Nat) (e : Ending) : State :=
  if e.bars then s.endBars lid
  else
    match commits e.rest e.closed s with
    | (s, k :: rest, cs) => s.putEnding lid { rest := k :: rest, closed := cs, bars := false }
    | (s, [], cs) =>
      let s := cs.foldl State.closedWrite s
      let s := ((s.startedBlocks lid).map (·.1)).foldl (fun s k => s.blockExit k) s
      let order := s.commitOrder lid
      let s := order.foldl (fun s k => s.putGroup k { s.group k with qcount := 0 }) s
      let s := order.foldl (fun s k => (s.waitStep k).countersStep k) s
      s.endBars lid

/-- QUANTUM_END (R325). -/
def execQuantumEnd (lid : Nat) (s : State) : Out :=
  match (s.launch lid).ending with
  | some e => .next (s.endStep lid e)
  | none => .next (if s.quantumOver lid then s.endStep lid { rest := s.commitOrder lid, closed := [], bars := false } else s)

end Sys2Proof.Machine
end

