-- ==== Sys2Proof/Machine/Power.lean ====
section
/-! DEFINITION. Power allowance, sensors and power gating (spec/19_scheduling.md R317-R319; spec/23_host_boot_power.md R339, R340): the events
POWER_ALLOWANCE_CYCLE, SENSOR_SAMPLE, POWER_GATE_BEGIN, POWER_GATE_COMMIT and CLUSTER_WAKE_COMPLETE. -/
namespace Sys2Proof.Machine
open Sys2Proof

/-! ### The power allowance (R317) -/

/-- The draw of an instruction by its opcode byte: group forms 1; lane forms by issue class. -/
def drawUnits (op : Nat) : Nat :=
  if 0x80 ≤ op then 1
  else if op = 0x03 ∨ op = 0x04 ∨ op = 0x1F then 3
  else if op < 0x30 then 2
  else if 0x37 ≤ op ∧ op ≤ 0x3C then 4
  else if op < 0x50 then 3
  else if op < 0x60 then 4
  else 3

/-- A cluster is charged for an issued instruction. -/
def State.charge (s : State) (cl op : Nat) : State :=
  let c := s.cluster cl
  s.putCluster cl { c with draw := c.draw + drawUnits op }

/-- The cores of a cluster. -/
def coresOf (cl : Nat) : List Nat := if cl = 48 then seqFrom 192 4 else seqFrom (4 * cl) 4

/-- A command runs in this cycle. -/
def Cmd.running (now : Nat) (c : Cmd) : Bool := c.started && (decide (now < c.due) || c.requesting)

/-- What the running engines of a cluster would draw in a cycle. -/
def State.engineDraw (s : State) (cl : Nat) : Nat :=
  let one := fun (q : List Cmd) (n : Nat) => if q.any (Cmd.running s.now) then n else 0
  ((coresOf cl).map fun k =>
    let co := s.core k
    one co.copyq 6 + one co.rillq 6 + one co.cascq 6 + one co.matq 48).sum + one (s.cluster cl).sluice 6

/-- An engine that draws `n` per cycle runs on, if `avail` covers it; otherwise its commands pause for this cycle. -/
def powerQueue (now n : Nat) (q : List Cmd) (avail : Nat) : List Cmd × Nat :=
  if !q.any (Cmd.running now) then (q, avail)
  else if n ≤ avail then (q, avail - n)
  else (q.map fun c => if c.running now then { c with due := c.due + 1 } else c, avail)

/-- The engines of a core draw on what is left of the allowance. -/
def State.powerCore (x : State × Nat) (k : Nat) : State × Nat :=
  let (s, avail) := x
  let co := s.core k
  let (cq, avail) := powerQueue s.now 6 co.copyq avail
  let (rq, avail) := powerQueue s.now 6 co.rillq avail
  let (sq, avail) := powerQueue s.now 6 co.cascq avail
  let (mq, avail) := powerQueue s.now 48 co.matq avail
  (s.putCore k { co with copyq := cq, rillq := rq, cascq := sq, matq := mq }, avail)

/-- The engines of a cluster draw on its allowance in this cycle, in the order of its cores, the Sluice last (log entry 67); what is left. -/
def State.powerEngines (s : State) (cl avail : Nat) : State × Nat :=
  let busy := (coresOf cl).filter fun k =>
    let co := s.core k
    [co.copyq, co.rillq, co.cascq, co.matq].any fun q => q.any (Cmd.running s.now)
  let (s, avail) := busy.foldl State.powerCore (s, avail)
  let c := s.cluster cl
  let (q, avail) := powerQueue s.now 6 c.sluice avail
  (s.putCluster cl { c with sluice := q }, avail)

/-- The order in which groups of a cluster are withheld: lowest priority, then youngest; the lowest unfinished blocks last. -/
def State.withholdNext (s : State) (cl : Nat) : Option Nat :=
  let held := (s.cluster cl).withheld
  let gs := s.groups.filter fun e =>
    e.2.live && decide (clusterOf (s.block e.2.blk).core = cl) && (s.block e.2.blk).onCore && !held.contains e.1
  let age := fun (g : Group) => g.splits.foldl (fun t e => max t e.2.age) 0
  (leastBy (fun (e : Nat × Group) =>
    ((if s.isLowest e.2.blk then 1 else 0) * 4 + (s.launch (s.block e.2.blk).lid).prio) * 2 ^ 64 + (2 ^ 64 - 1 - age e.2)) gs).map (·.1)

/-- POWER_ALLOWANCE_CYCLE (R317): the counter is charged and refilled; an engine whose draw it does not cover pauses; below the low mark one
more group is withheld, and above the high mark the last one is released. -/
def execPowerAllowanceCycle (cl : Nat) (s : State) : Out :=
  let (s, left) := s.powerEngines cl ((s.cluster cl).allow - (s.cluster cl).draw)
  let c := s.cluster cl
  let refill := if s.halved then c.refill / 2 else c.refill
  let allow := min 65535 (left + refill)
  let held := if allow < c.low then
      (match s.withholdNext cl with
       | some k => c.withheld ++ [k]
       | none => c.withheld)
    else if c.high < allow then c.withheld.dropLast
    else c.withheld
  .next (s.putCluster cl { c with allow := allow, draw := 0, withheld := held })

/-! ### Sensors (R318, R340) -/

/-- R318: the block that leaves a hot core; it may be on its way already, and no other is taken then (R321). -/
def State.hotVictim (s : State) (core : Nat) : Option Nat :=
  let bs := s.blocks.filter fun e =>
    !e.2.control && (decide (e.2.st = .resident) || decide (e.2.st = .stopping)) && decide (e.2.core = core) && !(s.context e.2.ctx).stopped &&
      !((s.partyOf e.1).any s.isLowest)
  (leastBy (fun (e : Nat × Block) => (s.launch e.2.lid).prio * 2 ^ 32 + (2 ^ 32 - 1 - e.2.bid)) bs).map (·.1)

/-- R318: a migration starts, if the party fits on other cores and the budget of R203 allows it. -/
def State.migrate (s : State) (bk : Nat) : State :=
  let ps := s.partyOf bk
  let b := s.block bk
  let old := ps.map fun k => (s.block k).core
  let fits := (s.coreChoices b.ctx b.lid (ps.map s.needOf)).any fun cs => cs.all fun c => !old.contains c
  if fits && decide (b.st = .resident) && s.budgetAllows ps then
    ps.foldl (fun s k =>
      let s := s.putBlock k { s.block k with thermal := true }
      s.stopBlock k 2) s
  else s

/-- The hottest engine: its code and the lowest core that has it. -/
def hottestOf (codes : List (Nat × Nat)) : Nat × Nat :=
  codes.foldl (fun acc e => if acc.2 < e.2 then e else acc) (0, 0)

/-- SENSOR_SAMPLE (R318, R340). -/
def execSensorSample (codes : List (Nat × Nat)) (s : State) : Out :=
  let (core, code) := hottestOf codes
  let s : State := { s with
    codes := codes.foldl (fun m e => mapSet 0 m e.1 e.2) s.codes
    hottest := BitVec.ofNat 32 (code % 1024 * 2 ^ 16 + core % 256) }
  let s := if s.trip ≤ code then
      (match s.hotVictim core with
       | some k => s.migrate k
       | none => s)
    else s
  let s := if s.critical ≤ code then
      (if s.halved then s else ({ s with halved := true } : State).logRecord 6 code core 0)
    else if code + 40 ≤ s.critical then { s with halved := false }
    else s
  .next (if s.shutdown ≤ code then
      { s with shut := true, contexts := s.contexts.map fun (e : Nat × Context) => (e.1, { e.2 with failed := true }) }
    else s)

/-! ### Power gating (R319) -/

/-- The cluster holds a block, or its Sluice runs. -/
def State.clusterBusy (s : State) (cl : Nat) : Bool :=
  (s.blocks.any fun e => e.2.placed && decide (clusterOf e.2.core = cl)) || !(s.cluster cl).sluice.isEmpty

/-- POWER_GATE_BEGIN. -/
def execPowerGateBegin (cl : Nat) (s : State) : Out :=
  let c := s.cluster cl
  if c.gate = .on ∧ cl < 48 ∧ s.clusterBusy cl = false ∧ c.idleSince + 12000 ≤ s.now then
    .next (s.putCluster cl { c with gate := .gating s.now })
  else .next s

/-- POWER_GATE_COMMIT: the 64 abortable cycles have passed. -/
def execPowerGateCommit (cl : Nat) (s : State) : Out :=
  let c := s.cluster cl
  match c.gate with
  | .gating t => .next (if t + 64 ≤ s.now then s.putCluster cl { c with gate := .gated } else s)
  | _ => .next s

/-- CLUSTER_WAKE_COMPLETE: 6,000 ticks after the dispatch. -/
def execClusterWakeComplete (cl : Nat) (s : State) : Out :=
  let c := s.cluster cl
  match c.gate with
  | .waking t => .next (if t + 6000 ≤ s.now then s.putCluster cl { c with gate := .on, idleSince := s.now } else s)
  | _ => .next s

end Sys2Proof.Machine
end

