-- ==== Sys2Proof/Machine/Storage.lean ====
section
/-! DEFINITION. Storage protection (spec/08_memory_access.md R158-R161; spec/23_host_boot_power.md R341): the events STORAGE_ERROR_DETECTED and
MARCH_TEST_COMPLETE. -/
namespace Sys2Proof.Machine
open Sys2Proof

/-! ### D_READY (R333) -/

/-- A bit of `D_READY` rises. -/
def raiseBit (w : Word) (i : Nat) : Word := w ||| BitVec.ofNat 32 (2 ^ i)
/-- A bit of `D_READY` falls. -/
def lowerBit (w : Word) (i : Nat) : Word := w &&& ~~~ BitVec.ofNat 32 (2 ^ i)
/-- Some bit of a range is set. -/
def anyBit (w : Word) (lo n : Nat) : Bool := (seqFrom lo n).any fun i => w.getLsbD i

/-- The last image has failed: nothing but `link` is set until another one verifies (R335). -/
def State.imageFailed (s : State) : Bool := !s.fw && decide (s.bootcode ≠ 0)

/-- The bits of functions that are up, and those that follow from others: window, mailbox, launch, Vrel, checkpoint and attestation rise when
their conditions hold. -/
def State.readyWord (s : State) : Word :=
  let w := s.dready ||| s.hwready
  let fw := w.getLsbD 3
  let hbm := anyBit w 13 8
  let port := anyBit w 21 4
  let put := fun (w : Word) (i : Nat) (c : Bool) => if c then raiseBit w i else w
  let w := put w 1 hbm
  let w := put w 2 (fw && hbm)
  let w := put w 4 (fw && hbm && anyBit w 5 4)
  let w := put w 25 (fw && port && s.vrelnum.getLsbD 31)
  let w := put w 26 (fw && port)
  put w 27 fw

/-- Bits of `D_READY` rise. -/
def State.refreshReady (s : State) : State := if s.imageFailed then s else { s with dready := s.readyWord }

/-- A function comes up. -/
def State.functionUp (s : State) (i : Nat) : State := ({ s with hwready := raiseBit s.hwready i } : State).refreshReady

/-- A function is taken out of service or its link is lost: its bit falls, and a record with this unit number says so. -/
def State.bitDown (s : State) (i unit : Nat) : State :=
  if s.dready.getLsbD i then ({ s with dready := lowerBit s.dready i } : State).logRecord 5 0 unit 0 else s

/-- The same for a function of the hardware. -/
def State.functionDown (s : State) (i unit : Nat) : State := ({ s with hwready := lowerBit s.hwready i } : State).bitDown i unit

/-! ### Errors (R158, R160, R204) -/

/-- A counter of the status block that saturates (R332). -/
def satInc (n : Nat) : Nat := min (n + 1) 0xFFFFFFFF

/-- The unit number of a fault log record (R334). -/
def State.unitNo (s : State) (u : StorageUnit) : Nat :=
  match u with
  | .l1Line c _ _ => c
  | .sliceClean pl => s.sliceOf pl
  | .sliceDirty pl => s.sliceOf pl
  | .hbm pa => stackOf (pa / 128)
  | .scratch c _ => c
  | .register g _ => (s.block (s.group g).blk).core
  | .basin g =>
    match (s.group g).wait with
    | some r => (match r.place with
      | .glob pa _ => s.sliceOf (pa / 128)
      | _ => 0xFFFF)
    | none => 0xFFFF
  | .accumulator g _ => (s.block (s.group g).blk).core
  | .tlb _ _ _ => 0xFFFF
  | .lltlb _ _ _ => 0xFFFF
  | .coreUnit c => c
  | .sliceUnit n => n

/-- The physical address of a fault log record. -/
def unitPa (u : StorageUnit) : Nat :=
  match u with
  | .sliceClean pl => pl * 128
  | .sliceDirty pl => pl * 128
  | .hbm pa => pa / 32 * 32
  | _ => 0

/-- Storage under parity, whose line is dropped and fetched again. -/
def parityUnit (u : StorageUnit) : Bool :=
  match u with
  | .l1Line _ _ _ => true
  | .sliceClean _ => true
  | .tlb _ _ _ => true
  | .lltlb _ _ _ => true
  | _ => false

/-- The entries of a TLB that do not translate this page of a context. -/
def dropPage (ctx vp : Nat) (t : List TlbEnt) : List TlbEnt :=
  t.filter fun e => !(decide (e.ctx = ctx) && decide (e.vpn ≤ vp) && decide (vp < e.vpn + e.pages))

/-- R158: a line under parity is dropped and fetched again. A pinned line is read again at its slice at once, and so it takes the
slice's value (R176) although R171 names no such change of a pinned copy (log entry 54). A translation whose TLB entry has been dropped walks
again, past the last-level TLB too (R298). -/
def State.dropUnit (s : State) (u : StorageUnit) : State :=
  match u with
  | .l1Line c ctx vl =>
    let co := s.core c
    let mine := fun (x v : Nat) => decide (x = ctx) && decide (v = vl)
    s.putCore c { co with
      l1 := co.l1.eraseP fun l => mine l.ctx l.vl
      pins := if co.l1.any fun l => mine l.ctx l.vl then co.pins
        else co.pins.map fun p => if mine p.ctx p.vl then { s.pinOf p.ctx p.vl p.pl with tagged := p.tagged } else p }
  | .tlb cl ctx vp =>
    let k := s.cluster cl
    let s := s.putCluster cl { k with tlb := dropPage ctx vp k.tlb }
    { s with lltlb := s.lltlb.map fun e => if e.1 = chipletOf (4 * cl) then (e.1, dropPage ctx vp e.2) else e }
  | .lltlb chip ctx vp => { s with lltlb := s.lltlb.map fun e => if e.1 = chip then (e.1, dropPage ctx vp e.2) else e }
  | _ => s

/-- Accumulator `i` of a group's resident chains, counted through them in their order, becomes poisoned (R246). -/
def poisonAcc (i : Nat) : List Chain → List Chain
  | [] => []
  | c :: rest =>
    if !c.resident then c :: poisonAcc i rest
    else if i < c.size then { c with bad := i :: c.bad } :: rest
    else c :: poisonAcc (i - c.size) rest

/-- R160, R204, R246: an uncorrectable error poisons its unit. A wait of an ordered launch has no entry (R326). -/
def State.poisonUnit (s : State) (u : StorageUnit) : State :=
  match u with
  | .sliceDirty pl => { s with poison := { base := pl * 128, size := 128, left := 2 ^ 128 - 1 } :: s.poison }
  | .hbm pa => { s with poison := { base := pa / 32 * 32, size := 32, left := 2 ^ 32 - 1 } :: s.poison }
  | .scratch c w => s.poisonWord (.scr c (4 * w))
  | .register g n =>
    let r := s.group g
    s.putGroup g { r with rpoison := mapSet 0 r.rpoison n (BitVec.ofNat 32 (2 ^ 32 - 1)) }
  | .basin g => if s.ordQ g = 0 then faultWait s g 3 else s
  | .accumulator g i =>
    let r := s.group g
    s.putGroup g { r with chains := poisonAcc i r.chains }
  | _ => s

/-- R204: waits that watch a word that has become poisoned take their fault. -/
def State.checkWatched (s : State) : State :=
  s.groups.foldl (fun s e =>
    match e.2.wait with
    | some r =>
      if r.ended.isNone && decide (s.ordQ e.1 = 0) && s.watched e.1 r.place && s.poisoned r.place 4 then faultWait s e.1 7 else s
    | none => s) s

/-- STORAGE_ERROR_DETECTED (R158, R159): the error is counted and reported, and a march test of its row begins. -/
def execStorageErrorDetected (e : StorageError) (s : State) : Out :=
  let no := s.unitNo e.unit
  let s : State := { s with march := s.march ++ [{ unit := e.unit, since := s.now, no := no }] }
  if parityUnit e.unit then .next ((({ s with corrected := satInc s.corrected } : State).logRecord 1 0 no (unitPa e.unit)).dropUnit e.unit)
  else if e.dbl then
    let s := ({ s with uncorrected := satInc s.uncorrected } : State).logRecord 2 0 no (unitPa e.unit)
    .next (s.poisonUnit e.unit).checkWatched
  else .next (({ s with corrected := satInc s.corrected } : State).logRecord 1 0 no (unitPa e.unit))

/-- A block whose restore has not completed waits for another placement; its image still holds it. -/
def State.restoreBack (s : State) (bk : Nat) : State :=
  let b := s.block bk
  if b.st = .restoring then s.putBlock bk { b with st := .ready, readyAt := s.now } else s

/-- R161: a core is taken out of service, and its blocks go through the swap path: those that are on it, and those on their way to
it. -/
def State.coreOut (s : State) (core : Nat) : State :=
  let s := ({ s with coresOut := (core :: s.coresOut).eraseDups } : State).putCore core { s.core core with inService := false }
  let bs := (s.blocks.filter fun e => decide (e.2.core = core) && decide (e.2.st = .resident)).map (·.1)
  let s := bs.foldl (fun s k => (s.partyOf k).foldl (fun s k => s.stopBlock k 2) s) s
  let back := (s.blocks.filter fun e => decide (e.2.core = core) && decide (e.2.st = .restoring)).map (·.1)
  let s := back.foldl (fun s k => (s.partyOf k).foldl (fun s k => s.restoreBack k) s) s
  let chip := core / 48
  if core < 192 ∧ ((seqFrom (48 * chip) 48).all fun c => !(s.core c).inService) then s.functionDown (5 + chip) core else s

/-- The entries beyond the 512 that a slice holds on chip move to the overflow area (R201). -/
def spillAll (sl : Nat) : Nat → State → State
  | 0, s => s
  | n + 1, s => spillAll sl n (s.spill sl none)

/-- A slice goes out of service, and its neighbour takes its lines and its Basin entries (R143, R161, R201); with the last slice of a cache
chiplet its function is down (R333). -/
def State.sliceGone (s : State) (n : Nat) : State :=
  let s : State := { s with sliceOut := (n :: s.sliceOut).eraseDups }
  let s := spillAll (n ^^^ 1) (s.onChip (n ^^^ 1)).length s
  let chip := n / 32
  if (seqFrom (32 * chip) 32).all fun k => s.sliceOut.contains k then s.functionDown (9 + chip) n else s

/-- What a lasting fault takes out (R161); `no` is the unit number that its records bear. -/
def State.takeOut (s : State) (u : StorageUnit) (no : Nat) : State :=
  match u with
  | .l1Line c _ _ => s.coreOut c
  | .scratch c _ => s.coreOut c
  | .coreUnit c => s.coreOut c
  | .register _ _ => s.coreOut no
  | .accumulator _ _ => s.coreOut no
  | .sliceClean _ => s.sliceGone no
  | .sliceDirty _ => s.sliceGone no
  | .basin _ => if no = 0xFFFF then s else s.sliceGone no
  | .sliceUnit n => s.sliceGone n
  | .hbm _ => s
  | .tlb _ _ _ => s
  | .lltlb _ _ _ => s

/-- The march test of reset that covers a unit, of a core or a slice, still runs (R341). -/
def State.resetTest (s : State) (u : StorageUnit) : Bool :=
  match u with
  | .coreUnit c => s.coreTests.getLsbD c
  | .scratch c _ => s.coreTests.getLsbD c
  | .l1Line c _ _ => s.coreTests.getLsbD c
  | .sliceUnit n => s.sliceTests.getLsbD n
  | _ => false

/-- The march test of reset of a core or a slice is over (R341). -/
def State.testOver (s : State) (u : StorageUnit) : State :=
  match u with
  | .coreUnit c => { s with coreTests := s.coreTests &&& ~~~ BitVec.ofNat 192 (2 ^ c) }
  | .sliceUnit n => { s with sliceTests := s.sliceTests &&& ~~~ BitVec.ofNat 128 (2 ^ n) }
  | _ => s

/-- A compute core or a slice whose march test has passed comes into service, a core with its chiplet's bit, unless a lasting fault has taken
it out since reset (R333, R341). -/
def State.unitReady (s : State) (u : StorageUnit) : State :=
  match u with
  | .coreUnit c =>
    if c < 192 ∧ s.coresOut.contains c = false then
      (s.putCore c { s.core c with inService := true }).functionUp (5 + c / 48)
    else s
  | .sliceUnit n =>
    if s.sliceOut.contains n then s else { s with slicesIn := s.slicesIn ||| BitVec.ofNat 128 (2 ^ n) }
  | _ => s

/-- The length of a march test in ticks (R159): 2 µs for a scratchpad row or an L1 set, 8 µs for a slice set; the others have none. -/
def marchTicks (u : StorageUnit) : Nat :=
  match u with
  | .scratch _ _ => 2400
  | .l1Line _ _ _ => 2400
  | .sliceClean _ => 9600
  | .sliceDirty _ => 9600
  | _ => 0

/-- The oldest running test of a unit; a test at reset (R341) has no record of its own. -/
def State.marchOf (s : State) (u : StorageUnit) : MarchTest :=
  (s.march.find? fun t => decide (t.unit = u)).getD { unit := u, since := 0, no := s.unitNo u }

/-- MARCH_TEST_COMPLETE (R159, R341): once the time of a running test is over, the row returns to use, or its fault is lasting. -/
def execMarchTestComplete (u : StorageUnit) (ok : Bool) (s : State) : Out :=
  let t := s.marchOf u
  let running := s.march.contains t
  if !running && !s.resetTest u || running && decide (s.now < t.since + marchTicks u) then .next s
  else
    let s := ({ s with march := s.march.erase t } : State).testOver u
    if ok then .next (s.unitReady u)
    else .next ((({ s with lasting := s.lasting + 1 } : State).logRecord 3 0 t.no (unitPa u)).takeOut u t.no)

end Sys2Proof.Machine
end

