-- ==== Sys2Proof/Machine/HostIf.lean ====
section
/-! DEFINITION. Host, links, boot, attestation and checkpoint (spec/23_host_boot_power.md R329-R338; spec/09_ordering.md R176): the events
DEVICE_RESET, IMAGE_VERIFY, PCIE_LINK_CHANGE, ETH_PORT_CHANGE, HBM_TRAINING_DONE, SLICE_TRAINING_DONE, HOST_BAR0_READ, HOST_BAR0_WRITE,
HOST_BAR2_READ, HOST_MAILBOX_WRITE, HOST_UNSUPPORTED_REQUEST, ATTESTATION_REQUEST, CHECKPOINT_START and CHECKPOINT_REGION_ACK. -/
namespace Sys2Proof.Machine
open Sys2Proof

/-! ### Reset and boot (R335, R341) -/

/-- DEVICE_RESET (R335, R341): the state after reset; the host's memory and the LMS counter, which is nonvolatile (R336), stay. -/
def execDeviceReset (s : State) : Out := .next { State.reset with hmem := s.hmem, lms := s.lms, free := s.free }

/-- The failing step of the boot ROM (R335), 0 for none. -/
def bootFailure (i : ImageCheck) : Nat :=
  if !i.headerOk || decide (2 ^ 26 < i.bytes) then 1
  else if !i.keyHashOk then 2
  else if i.version < i.minVersion then 3
  else if !i.ecdsaOk then 4
  else if !i.lmsOk then 5
  else 0

/-- The verified firmware starts on control core `k` (R20): one group of 32 lanes at the image's entry, in its context. Block number and
generator seed are the model's (log entry 33). -/
def State.startFirmware (i : ImageCheck) (s : State) (k : Nat) : State :=
  let bk := s.nextBlk
  let b := { Block.empty with ctx := i.ctx, bid := k, core := 192 + k, ngroups := 1, regsLog2 := 9, control := true }
  let lanes : LaneMask := BitVec.allOnes 32
  let g := { Group.empty with blk := bk, live := true, launched := lanes, alloc := 512, gen := firstGen s.dseed k 0 }
  let sp := { Split.none with pc := i.entry, members := lanes, region := i.entry, age := bk * 32 }
  let s : State := { s with nextBlk := bk + 1 }
  (s.putBlock bk b).putGroup (bk * 32) (setRegionOf (g.putSplit 0 sp) 0 0 i.entry)

/-- The firmware starts on the four control cores (R20), and its context is live. -/
def State.startAll (s : State) (i : ImageCheck) : State :=
  (seqFrom 0 4).foldl (State.startFirmware i) (s.putContext i.ctx { s.context i.ctx with live := true })

/-- The unit number in the record of a function that is down: a port's or a stack's, and else 0xFFFF (R334). -/
def bitUnit (i : Nat) : Nat := if 21 ≤ i ∧ i < 25 then i - 21 else if 13 ≤ i ∧ i < 21 then i - 13 else 0xFFFF

/-- IMAGE_VERIFY (R335). The firmware of the first image that verifies starts; after a failure only `link` stays set, and nothing issues until
an image verifies. -/
def execImageVerify (img : ImageCheck) (s : State) : Out :=
  match bootFailure img with
  | 0 =>
    let s := { s with
      bootcode := 0x8000, fw := true, dready := raiseBit s.dready 3, images := s.images ++ [img.digest], fused := img.minVersion : State }
    .next (if s.blocks.any fun e => e.2.control then s else s.startAll img).refreshReady
  | n =>
    let s : State := { s with bootcode := n, fw := false }
    .next ((seqFrom 1 27).foldl (fun s i => s.bitDown i (bitUnit i)) s)

/-- PCIE_LINK_CHANGE (R333). -/
def execPcieLinkChange (up : Bool) (s : State) : Out :=
  if up then .next { s with dready := raiseBit s.dready 0 }
  else .next (s.bitDown 0 0xFFFF)

/-- The Ethernet ports that are up. -/
def State.portsUp (s : State) : List Nat := (seqFrom 0 4).filter fun p => s.hwready.getLsbD (21 + p)

/-- R338: the unacknowledged regions of a lost port are sent again over the ports that are still up, in rotation. -/
def resendRegions (c : Checkpoint) (lost : Nat) (up : List Nat) : Checkpoint :=
  if up.isEmpty then c
  else { c with sent := (c.sent.foldl (fun (acc : List (Nat × Nat) × Nat) e =>
    if e.2 = lost then (acc.1 ++ [(e.1, (up[acc.2 % up.length]?).getD 0)], acc.2 + 1) else (acc.1 ++ [e], acc.2)) ([], 0)).1 }

/-- The number of 64 MiB regions of device memory. -/
def regionCount : Nat := 8192

/-- R338: a port that comes up takes the regions that wait because no port was up, and, where it carries none, the next region. -/
def joinCheckpoint (c : Checkpoint) (p : Nat) (up : List Nat) : Checkpoint :=
  let sent := c.sent.map fun e => if up.contains e.2 then e else (e.1, p)
  if sent.any (fun e => decide (e.2 = p)) || decide (regionCount ≤ c.next) then { c with sent := sent }
  else { c with sent := sent ++ [(c.next, p)], next := c.next + 1 }

/-- ETH_PORT_CHANGE (R333, R337, R338). -/
def execEthPortChange (p : Nat) (up : Bool) (s : State) : Out :=
  if 4 ≤ p then .next s
  else if up then
    let s := s.functionUp (21 + p)
    .next { s with ckpt := s.ckpt.map fun c => joinCheckpoint c p s.portsUp }
  else if !s.hwready.getLsbD (21 + p) then .next s
  else
    let s := s.functionDown (21 + p) p
    let s : State := { s with ckpt := s.ckpt.map fun c => resendRegions c p s.portsUp }
    .next (if s.portsUp.isEmpty then (s.bitDown 25 0xFFFF).bitDown 26 0xFFFF else s)

/-- HBM_TRAINING_DONE (R333): a stack that fails stays absent, and a record names it. -/
def execHbmTrainingDone (k : Nat) (ok : Bool) (s : State) : Out :=
  if 8 ≤ k then .next s
  else if ok then .next (s.functionUp (13 + k))
  else .next (s.logRecord 5 0 k 0)

/-- SLICE_TRAINING_DONE (R333). -/
def execSliceTrainingDone (c : Nat) (s : State) : Out :=
  if 4 ≤ c then .next s else .next (s.functionUp (9 + c))

/-! ### The host's requests (R176, R329-R332) -/

/-- R329, R330, R333: a request through BAR0 that the port supports. -/
def State.bar0Ok (s : State) (a n : Nat) : Bool :=
  decide (1 ≤ n) && decide (n ≤ 128) && decide (a / 128 = (a + n - 1) / 128) && decide (a + n ≤ Config.memBytes) &&
    s.dready.getLsbD 0 && s.dready.getLsbD (13 + stackOf (a / 128))

/-- The byte of device memory at which a waiting request begins. -/
def State.hostAddr (s : State) (r : HostWait) : Nat :=
  match r with
  | .read a _ => a
  | .write a _ => a
  | .mail n _ _ => s.mbase + 4 * n

/-- A request waits while its row is under test (R159), and behind an earlier one for its line. -/
def State.hostHeld (s : State) (before : List HostWait) (r : HostWait) : Bool :=
  s.underTest noCore [.glob (s.hostAddr r) 0] || before.any fun x => decide (s.hostAddr x / 128 = s.hostAddr r / 128)

/-- A read through the window is performed at its slice (R176). -/
def State.hostRead (s : State) (a n : Nat) : State :=
  { s with hostOut := some (.data (s.bytesAt (.glob a 0) n) (s.poisoned (.glob a 0) n)) }

/-- HOST_BAR0_READ (R330). -/
def execHostBar0Read (a n : Nat) (s : State) : Out :=
  if !s.bar0Ok a n then .next { s with hostOut := some .unsupported }
  else if s.hostHeld s.hostq (.read a n) then .next { s with hostq := s.hostq ++ [.read a n], hostOut := none }
  else .next (s.hostRead a n)

/-- A host write to an executable or frozen page is refused: it is counted and logged (R47, R330). -/
def State.refuseWrite (s : State) (a : Nat) : State := ({ s with hostRefused := s.hostRefused + 1 } : State).logRecord 4 0 0xFFFF a

/-- A write through the window is performed at its slice, unless its page is executable or frozen (R47, R176); its completion time. -/
def State.hostWrite (s : State) (a : Nat) (bs : List Byte) : State × Nat :=
  if s.execPage a || s.execPage (a + bs.length - 1) then ({ s.refuseWrite a with hostOut := some .refusedWrite }, 0)
  else
    let ws : List ByteWrite := [{ place := .glob a 0, bytes := bs }]
    let ct := s.completionOf ws
    ({ s.perform none false ws with hostCt := max s.hostCt ct }, ct)

/-- HOST_BAR0_WRITE (R176, R330). -/
def execHostBar0Write (a : Nat) (bs : List Byte) (s : State) : Out :=
  if !s.bar0Ok a bs.length then .next { s with hostOut := some .unsupported }
  else if s.hostHeld s.hostq (.write a bs) then .next { s with hostq := s.hostq ++ [.write a bs], hostOut := none }
  else .next (({ s with hostOut := none } : State).hostWrite a bs).1

/-- The number in some bits of a mask list. -/
def maskNat (n : Nat) (p : Nat → Bool) : Nat := (seqFrom 0 n).foldl (fun t i => if p i then t + 2 ^ i else t) 0

/-- A word of the fault log (R334). -/
def logWord (r : LogRec) (i : Nat) : Nat :=
  match i with
  | 0 => r.kind % 256 * 2 ^ 24 + r.detail % 65536
  | 1 => r.unit
  | 2 => r.time % 2 ^ 32
  | 3 => r.time / 2 ^ 32
  | 4 => r.pa % 2 ^ 32
  | 5 => r.pa / 2 ^ 32
  | _ => 0

/-- A word of the status block, by offset (R332). -/
def State.statusWord (s : State) (o : Nat) : Nat :=
  let inCore := fun c => (s.core c).inService
  let inSlice := fun c => s.dready.getLsbD (9 + c / 32) && s.slicesIn.getLsbD c && !s.sliceOut.contains c
  let dom := (seqFrom 0 48).foldl (fun t c => t + (s.cluster c).domain % 4 * 4 ^ c) 0
  let part := fun (v lo : Nat) => v / 2 ^ (8 * (o - lo)) % 2 ^ 32
  if o = 0 then s.dready.toNat
  else if o = 4 then s.bootcode % 65536 * 65536 + ((seqFrom 0 192).filter inCore).length
  else if o = 8 then ((seqFrom 0 128).filter inSlice).length
  else if 0x10 ≤ o ∧ o < 0x18 then part s.mbase 0x10
  else if o = 0x18 then s.corrected
  else if o = 0x1C then s.uncorrected
  else if o = 0x20 then s.lasting % 2 ^ 32
  else if o = 0x24 then s.hostRefused % 2 ^ 32
  else if o = 0x28 then s.logtail % 2 ^ 32
  else if 0x40 ≤ o ∧ o < 0x58 then part (maskNat 192 inCore) 0x40
  else if 0x60 ≤ o ∧ o < 0x70 then part (maskNat 128 inSlice) 0x60
  else if 0x80 ≤ o ∧ o < 0x8C then part dom 0x80
  else if o = 0xA0 then s.hottest.toNat
  else if o = 0xA4 then s.vrelnum.toNat
  else 0

/-- The offsets of the status block that its table names. -/
def statusOffset (o : Nat) : Bool :=
  decide (o < 0x0C) || (decide (0x10 ≤ o) && decide (o < 0x2C)) || (decide (0x40 ≤ o) && decide (o < 0x58)) ||
    (decide (0x60 ≤ o) && decide (o < 0x70)) || (decide (0x80 ≤ o) && decide (o < 0xA8))

/-- HOST_BAR2_READ (R330-R332, R334): a 32-bit word of the status block, a mailbox word with its poison, or a word of the fault log. -/
def execHostBar2Read (o : Nat) (s : State) : Out :=
  let reply := fun (r : HostReply) => Host.Outcome.next { s with hostOut := some r }
  let word := fun (n : Nat) => reply (.word (BitVec.ofNat 32 n) false)
  if !s.dready.getLsbD 0 || decide (o % 4 ≠ 0) then reply .unsupported
  else if statusOffset o then word (s.statusWord o)
  else if 0x1000 ≤ o ∧ o < 0x1100 then
    let a := s.mbase + (o - 0x1000)
    if s.dready.getLsbD 2 then reply (.word (BitVec.ofNat 32 (s.physNum a 4)) (s.poisoned (.glob a 0) 4)) else reply .unsupported
  else if 0x2000 ≤ o ∧ o < 0x4000 then
    match mapFind s.log ((o - 0x2000) / 32) with
    | some r => word (logWord r ((o - 0x2000) / 4 % 8))
    | none => word 0
  else reply .unsupported

/-- A mailbox write is performed, at scope `.sys` (R331), unless its page is executable or frozen (R47); its completion time. -/
def State.mailbox (s : State) (n : Nat) (v : Word) : State × Nat :=
  let a := s.mbase + 4 * n
  if s.execPage a then (s.refuseWrite a, 0)
  else
    let ws : List ByteWrite := [{ place := .glob a 0, bytes := leBytes 4 v.toNat }]
    let ct := s.completionOf ws
    ({ s.perform none false ws with hostCt := max s.hostCt ct }, ct)

/-- A mailbox write waits for every host write before it, and for their completion times (R331). -/
def mailHeld (now ct : Nat) (before : List HostWait) : Bool :=
  decide (now ≤ ct) || before.any fun x => match x with
    | .read _ _ => false
    | _ => true

/-- The waiting host requests that may go are performed, oldest first, of the reads one in a cycle; `kept` wait on, and `low` is the completion time
of those that came before. -/
def flushHost : List HostWait → List HostWait → Nat → Bool → State → State
  | [], kept, _, _, s => { s with hostq := kept }
  | .read a n :: rest, kept, low, done, s =>
    if done || s.hostHeld kept (.read a n) then flushHost rest (kept ++ [.read a n]) low done s
    else flushHost rest kept low true (s.hostRead a n)
  | .write a bs :: rest, kept, low, done, s =>
    if s.hostHeld kept (.write a bs) then flushHost rest (kept ++ [.write a bs]) low done s
    else
      let (s, c) := s.hostWrite a bs
      flushHost rest kept (max low c) done s
  | .mail n v ct :: rest, kept, low, done, s =>
    if mailHeld s.now (max ct low) kept || s.hostHeld kept (.mail n v ct) then flushHost rest (kept ++ [.mail n v (max ct low)]) low done s
    else
      let (s, c) := s.mailbox n v
      flushHost rest kept (max low c) done s

/-- HOST_MAILBOX_WRITE (R331): it waits for the completion times of the host writes that came before it. -/
def execHostMailboxWrite (n : Nat) (v : Word) (s : State) : Out :=
  if !s.dready.getLsbD 0 || !s.dready.getLsbD 2 || decide (64 ≤ n) then .next { s with hostOut := some .unsupported }
  else .next (flushHost (s.hostq ++ [.mail n v s.hostCt]) [] 0 true { s with hostOut := none })

/-- HOST_UNSUPPORTED_REQUEST (R329, R330): nothing is performed. -/
def execHostUnsupportedRequest (_ : HostRequest) (s : State) : Out := .next { s with hostOut := some .unsupported }

/-! ### Attestation and checkpoint (R336, R338) -/

/-- The numbers of a report, which its signatures are over. -/
def Report.numbers (r : Report) : List Nat :=
  [r.nonce.toNat] ++ r.images.map (·.toNat) ++ [r.version] ++ r.counters.map (·.toNat)

/-- The report that answers a nonce. -/
def State.report (s : State) (nonce : BitVec 256) : Report :=
  { nonce := nonce, images := s.images, version := s.fused
    counters := [s.corrected, s.uncorrected, s.lasting, s.hostRefused, s.logtail].map (BitVec.ofNat 32) }

/-- ATTESTATION_REQUEST (R336): the LMS counter advances before the report is released, which both keys sign (log entry 34). -/
def execAttestationRequest (nonce : BitVec 256) (s : State) : Out :=
  let r := s.report nonce
  if !s.dready.getLsbD 27 then .next s
  else if 2 ^ 20 ≤ s.lms then .next { s with attest := some (.refused 3) }
  else .next { s with lms := s.lms + 1, attest := some (.report r s.lms (Config.ecdsaSign r.numbers) (Config.lmsSign s.lms r.numbers)) }

/-- CHECKPOINT_START (R338): firmware starts it once every context has stopped and drained (R311); the first regions leave, one over each port that is
up, from the lowest. -/
def execCheckpointStart (s : State) : Out :=
  let up := s.portsUp
  if !s.dready.getLsbD 26 || s.ckpt.isSome || s.contexts.any (fun e => e.2.live && (!e.2.stopped || e.2.stopPending)) then .next s
  else
    .next { s with ckpt := some { sent := (seqFrom 0 up.length).zip up, acked := [], next := up.length, since := s.now } }

/-- CHECKPOINT_REGION_ACK (R338): the region counts as done, and the next one leaves over the next port that is up, in rotation from the
lowest. -/
def execCheckpointRegionAck (r : Nat) (s : State) : Out :=
  match s.ckpt with
  | none => .next s
  | some c =>
    match c.sent.find? fun e => decide (e.1 = r) with
    | none => .next s
    | some _ =>
      let up := s.portsUp
      let port := up[c.next % max 1 up.length]?
      let sent := c.sent.filter fun x => decide (x.1 ≠ r)
      let acked := insertBy id r c.acked
      let c : Checkpoint := { c with sent := sent, acked := acked }
      if c.next < regionCount then
        .next { s with ckpt := some (match port with
          | some p => { c with sent := sent ++ [(c.next, p)], next := c.next + 1 }
          | none => c) }
      else if sent.isEmpty then .next { s with ckpt := none }
      else .next { s with ckpt := some c }

end Sys2Proof.Machine
end

