-- ==== Sys2Proof/Machine/Dispatch.lean ====
section
/-! DEFINITION. One arm for each constructor of Instr: a direct call of its meaning. -/
namespace Sys2Proof.Machine
open Sys2Proof

def exec (i : Instr) (s : State) : Host.Outcome State Fault Refusal :=
  match i with
  | .add d a b m => Sys2Proof.Machine.execAdd d a b m s
  | .sub d a b m => Sys2Proof.Machine.execSub d a b m s
  | .mul d a b m => Sys2Proof.Machine.execMul d a b m s
  | .mad d a b m => Sys2Proof.Machine.execMad d a b m s
  | .min d a b m => Sys2Proof.Machine.execMin d a b m s
  | .max d a b m => Sys2Proof.Machine.execMax d a b m s
  | .and d a b => Sys2Proof.Machine.execAnd d a b s
  | .or d a b => Sys2Proof.Machine.execOr d a b s
  | .xor d a b => Sys2Proof.Machine.execXor d a b s
  | .andn d a b => Sys2Proof.Machine.execAndn d a b s
  | .shl d a b => Sys2Proof.Machine.execShl d a b s
  | .shr d a b m => Sys2Proof.Machine.execShr d a b m s
  | .rot d a b m => Sys2Proof.Machine.execRot d a b m s
  | .bfe d a b m => Sys2Proof.Machine.execBfe d a b m s
  | .bfi d a b => Sys2Proof.Machine.execBfi d a b s
  | .bitc d a m => Sys2Proof.Machine.execBitc d a m s
  | .sel d a b => Sys2Proof.Machine.execSel d a b s
  | .cmp d a b m => Sys2Proof.Machine.execCmp d a b m s
  | .addi d a imm => Sys2Proof.Machine.execAddi d a imm s
  | .andi d a imm => Sys2Proof.Machine.execAndi d a imm s
  | .ori d a imm => Sys2Proof.Machine.execOri d a imm s
  | .xori d a imm => Sys2Proof.Machine.execXori d a imm s
  | .shli d a imm => Sys2Proof.Machine.execShli d a imm s
  | .shri d a imm => Sys2Proof.Machine.execShri d a imm s
  | .cmpi d a imm => Sys2Proof.Machine.execCmpi d a imm s
  | .movi d imm => Sys2Proof.Machine.execMovi d imm s
  | .lid d m => Sys2Proof.Machine.execLid d m s
  | .mov d a => Sys2Proof.Machine.execMov d a s
  | .lea d h a o => Sys2Proof.Machine.execLea d h a o s
  | .laneIf a m => Sys2Proof.Machine.execLaneIf a m s
  | .laneIfi a imm => Sys2Proof.Machine.execLaneIfi a imm s
  | .laneElse => Sys2Proof.Machine.execLaneElse s
  | .endif => Sys2Proof.Machine.execEndif s
  | .lbeg => Sys2Proof.Machine.execLbeg s
  | .brk a imm => Sys2Proof.Machine.execBrk a imm s
  | .cont a imm => Sys2Proof.Machine.execCont a imm s
  | .lnext => Sys2Proof.Machine.execLnext s
  | .lend => Sys2Proof.Machine.execLend s
  | .lexit a m => Sys2Proof.Machine.execLexit a m s
  | .fadd d a b m => Sys2Proof.Machine.execFadd d a b m s
  | .fsub d a b m => Sys2Proof.Machine.execFsub d a b m s
  | .fmul d a b m => Sys2Proof.Machine.execFmul d a b m s
  | .ffma d a b m => Sys2Proof.Machine.execFfma d a b m s
  | .fmin d a b => Sys2Proof.Machine.execFmin d a b s
  | .fmax d a b => Sys2Proof.Machine.execFmax d a b s
  | .fcmp d a b m => Sys2Proof.Machine.execFcmp d a b m s
  | .frcp d a m => Sys2Proof.Machine.execFrcp d a m s
  | .frsq d a => Sys2Proof.Machine.execFrsq d a s
  | .fsqrt d a m => Sys2Proof.Machine.execFsqrt d a m s
  | .fexp2 d a => Sys2Proof.Machine.execFexp2 d a s
  | .flog2 d a => Sys2Proof.Machine.execFlog2 d a s
  | .fsinpi d a => Sys2Proof.Machine.execFsinpi d a s
  | .fsgn d a b m => Sys2Proof.Machine.execFsgn d a b m s
  | .fclass d a => Sys2Proof.Machine.execFclass d a s
  | .frnd d a m => Sys2Proof.Machine.execFrnd d a m s
  | .i2f d a b m => Sys2Proof.Machine.execI2f d a b m s
  | .f2i d a b m => Sys2Proof.Machine.execF2i d a b m s
  | .pkh d a b m => Sys2Proof.Machine.execPkh d a b m s
  | .pkb d a b m => Sys2Proof.Machine.execPkb d a b m s
  | .pk8 d a b m => Sys2Proof.Machine.execPk8 d a b m s
  | .unpk d a b => Sys2Proof.Machine.execUnpk d a b s
  | .hfma2 d a b m => Sys2Proof.Machine.execHfma2 d a b m s
  | .hadd2 d a b m => Sys2Proof.Machine.execHadd2 d a b m s
  | .hmul2 d a b m => Sys2Proof.Machine.execHmul2 d a b m s
  | .rnd d m => Sys2Proof.Machine.execRnd d m s
  | .hcmp2 d a b m => Sys2Proof.Machine.execHcmp2 d a b m s
  | .shfl d a b m => Sys2Proof.Machine.execShfl d a b m s
  | .shfli d a imm => Sys2Proof.Machine.execShfli d a imm s
  | .vote d a m => Sys2Proof.Machine.execVote d a m s
  | .scan d a b m => Sys2Proof.Machine.execScan d a b m s
  | .red d a b => Sys2Proof.Machine.execRed d a b s
  | .topk d a b m => Sys2Proof.Machine.execTopk d a b m s
  | .sort d a b m => Sys2Proof.Machine.execSort d a b m s
  | .matchLanes d a m => Sys2Proof.Machine.execMatchLanes d a m s
  | .ldN8 d h a o => Sys2Proof.Machine.execLdN8 d h a o s
  | .ldI8 d h a o => Sys2Proof.Machine.execLdI8 d h a o s
  | .ldN16 d h a o => Sys2Proof.Machine.execLdN16 d h a o s
  | .ldI16 d h a o => Sys2Proof.Machine.execLdI16 d h a o s
  | .ldB32 d h a o => Sys2Proof.Machine.execLdB32 d h a o s
  | .ldB64 d h a o => Sys2Proof.Machine.execLdB64 d h a o s
  | .ldB128 d h a o => Sys2Proof.Machine.execLdB128 d h a o s
  | .ldsB32 d h a o => Sys2Proof.Machine.execLdsB32 d h a o s
  | .ldsB64 d h a o => Sys2Proof.Machine.execLdsB64 d h a o s
  | .stB8 d h a o => Sys2Proof.Machine.execStB8 d h a o s
  | .stB16 d h a o => Sys2Proof.Machine.execStB16 d h a o s
  | .stB32 d h a o => Sys2Proof.Machine.execStB32 d h a o s
  | .stB64 d h a o => Sys2Proof.Machine.execStB64 d h a o s
  | .stB128 d h a o => Sys2Proof.Machine.execStB128 d h a o s
  | .stsB32 d h a o => Sys2Proof.Machine.execStsB32 d h a o s
  | .stsB64 d h a o => Sys2Proof.Machine.execStsB64 d h a o s
  | .aadd d h a o => Sys2Proof.Machine.execAadd d h a o s
  | .afadd d h a o => Sys2Proof.Machine.execAfadd d h a o s
  | .amin d h a o => Sys2Proof.Machine.execAmin d h a o s
  | .amax d h a o => Sys2Proof.Machine.execAmax d h a o s
  | .aand d h a o => Sys2Proof.Machine.execAand d h a o s
  | .aor d h a o => Sys2Proof.Machine.execAor d h a o s
  | .axor d h a o => Sys2Proof.Machine.execAxor d h a o s
  | .axch d h a o => Sys2Proof.Machine.execAxch d h a o s
  | .acas d h a o => Sys2Proof.Machine.execAcas d h a o s
  | .aadd64 d h a o => Sys2Proof.Machine.execAadd64 d h a o s
  | .gnop => Sys2Proof.Machine.execGnop s
  | .gadd d a b m => Sys2Proof.Machine.execGadd d a b m s
  | .gsub d a b m => Sys2Proof.Machine.execGsub d a b m s
  | .gmul d a b m => Sys2Proof.Machine.execGmul d a b m s
  | .gand d a b => Sys2Proof.Machine.execGand d a b s
  | .gor d a b => Sys2Proof.Machine.execGor d a b s
  | .gxor d a b => Sys2Proof.Machine.execGxor d a b s
  | .gshl d a b => Sys2Proof.Machine.execGshl d a b s
  | .gshr d a b m => Sys2Proof.Machine.execGshr d a b m s
  | .gmin d a b m => Sys2Proof.Machine.execGmin d a b m s
  | .gmax d a b m => Sys2Proof.Machine.execGmax d a b m s
  | .gcmp d a b m => Sys2Proof.Machine.execGcmp d a b m s
  | .gsel d a b => Sys2Proof.Machine.execGsel d a b s
  | .gaddi d a imm => Sys2Proof.Machine.execGaddi d a imm s
  | .gandi d a imm => Sys2Proof.Machine.execGandi d a imm s
  | .gori d a imm => Sys2Proof.Machine.execGori d a imm s
  | .gcmpi d a imm => Sys2Proof.Machine.execGcmpi d a imm s
  | .gset d j => Sys2Proof.Machine.execGset d j s
  | .gseth d j => Sys2Proof.Machine.execGseth d j s
  | .gmov d a => Sys2Proof.Machine.execGmov d a s
  | .grdc d imm => Sys2Proof.Machine.execGrdc d imm s
  | .gwrc a imm => Sys2Proof.Machine.execGwrc a imm s
  | .glea d a b m => Sys2Proof.Machine.execGlea d a b m s
  | .gclock d m => Sys2Proof.Machine.execGclock d m s
  | .gbitc d a m => Sys2Proof.Machine.execGbitc d a m s
  | .gid d m => Sys2Proof.Machine.execGid d m s
  | .gbfe d a b m => Sys2Proof.Machine.execGbfe d a b m s
  | .gmad d a b => Sys2Proof.Machine.execGmad d a b s
  | .gbr f => Sys2Proof.Machine.execGbr f s
  | .gbc a c f => Sys2Proof.Machine.execGbc a c f s
  | .gbrd a c f => Sys2Proof.Machine.execGbrd a c f s
  | .gjoin m => Sys2Proof.Machine.execGjoin m s
  | .gcall a f => Sys2Proof.Machine.execGcall a f s
  | .gret a => Sys2Proof.Machine.execGret a s
  | .gjr a => Sys2Proof.Machine.execGjr a s
  | .gregion => Sys2Proof.Machine.execGregion s
  | .gexit => Sys2Proof.Machine.execGexit s
  | .gtrap j => Sys2Proof.Machine.execGtrap j s
  | .gresume m => Sys2Proof.Machine.execGresume m s
  | .gpark d a b m => Sys2Proof.Machine.execGpark d a b m s
  | .gmap d a b m => Sys2Proof.Machine.execGmap d a b m s
  | .gsplinter d a m => Sys2Proof.Machine.execGsplinter d a m s
  | .ginvalPg d a b => Sys2Proof.Machine.execGinvalPg d a b s
  | .ginvalHnd d a b => Sys2Proof.Machine.execGinvalHnd d a b s
  | .ginvalXon d a b => Sys2Proof.Machine.execGinvalXon d a b s
  | .ginvalXoff d a b => Sys2Proof.Machine.execGinvalXoff d a b s
  | .ginvalRvk d a b => Sys2Proof.Machine.execGinvalRvk d a b s
  | .gfence m => Sys2Proof.Machine.execGfence m s
  | .gbar imm => Sys2Proof.Machine.execGbar imm s
  | .gpbar imm => Sys2Proof.Machine.execGpbar imm s
  | .garrive d a b => Sys2Proof.Machine.execGarrive d a b s
  | .gwaitu d a b m => Sys2Proof.Machine.execGwaitu d a b m s
  | .gwaitc j => Sys2Proof.Machine.execGwaitc j s
  | .gyield => Sys2Proof.Machine.execGyield s
  | .gcopy d a b m => Sys2Proof.Machine.execGcopy d a b m s
  | .ggather d a b m => Sys2Proof.Machine.execGgather d a b m s
  | .gscadd d a b m => Sys2Proof.Machine.execGscadd d a b m s
  | .groute d a b m => Sys2Proof.Machine.execGroute d a b m s
  | .grsel d a b m => Sys2Proof.Machine.execGrsel d a b m s
  | .grretry d a b m => Sys2Proof.Machine.execGrretry d a b m s
  | .gpref a b m => Sys2Proof.Machine.execGpref a b m s
  | .gbdecl d a b => Sys2Proof.Machine.execGbdecl d a b s
  | .gbenter d a => Sys2Proof.Machine.execGbenter d a s
  | .gbleave d a => Sys2Proof.Machine.execGbleave d a s
  | .gbquery d a m => Sys2Proof.Machine.execGbquery d a m s
  | .gbdrop d a => Sys2Proof.Machine.execGbdrop d a s
  | .gtile d a imm => Sys2Proof.Machine.execGtile d a imm s
  | .gtileg d a imm => Sys2Proof.Machine.execGtileg d a imm s
  | .mma d a b m => Sys2Proof.Machine.execMma d a b m s
  | .mchain d m => Sys2Proof.Machine.execMchain d m s
  | .mend d a m => Sys2Proof.Machine.execMend d a m s
  | .msacc d a b m => Sys2Proof.Machine.execMsacc d a b m s
  | .tcvt d a m => Sys2Proof.Machine.execTcvt d a m s
  | .tfill d a m => Sys2Proof.Machine.execTfill d a m s
  | .glaunch d a => Sys2Proof.Machine.execGlaunch d a s
  | .gqend d a => Sys2Proof.Machine.execGqend d a s
  | .galloc d a imm => Sys2Proof.Machine.execGalloc d a imm s
  | .gdrainWait d a => Sys2Proof.Machine.execGdrainWait d a s
  | .gdrainStop d a => Sys2Proof.Machine.execGdrainStop d a s
  | .gdrainRun d a => Sys2Proof.Machine.execGdrainRun d a s
  | .gsvc j => Sys2Proof.Machine.execGsvc j s
  | .gqcfg d a b m => Sys2Proof.Machine.execGqcfg d a b m s
  | .kBcapWrite ctx v => Sys2Proof.Machine.execKBcapWrite ctx v s
  | .loadDataReturn g id => Sys2Proof.Machine.execLoadDataReturn g id s
  | .storeAck g id => Sys2Proof.Machine.execStoreAck g id s
  | .windowMissFill g n => Sys2Proof.Machine.execWindowMissFill g n s
  | .compactorStep core => Sys2Proof.Machine.execCompactorStep core s
  | .bankStarvePromote core bank who => Sys2Proof.Machine.execBankStarvePromote core bank who s
  | .engineCommandStart core e => Sys2Proof.Machine.execEngineCommandStart core e s
  | .engineCommandComplete core id => Sys2Proof.Machine.execEngineCommandComplete core id s
  | .tileCommandStart core => Sys2Proof.Machine.execTileCommandStart core s
  | .tileCommandComplete core id => Sys2Proof.Machine.execTileCommandComplete core id s
  | .sluiceCommandStart cl => Sys2Proof.Machine.execSluiceCommandStart cl s
  | .routeRowsSent cl id => Sys2Proof.Machine.execRouteRowsSent cl id s
  | .sluiceCommandComplete cl id => Sys2Proof.Machine.execSluiceCommandComplete cl id s
  | .rowRetransmit cl id t slot => Sys2Proof.Machine.execRowRetransmit cl id t slot s
  | .rowArrival row => Sys2Proof.Machine.execRowArrival row s
  | .rowAckArrival tag => Sys2Proof.Machine.execRowAckArrival tag s
  | .routeCloseNotice dev ctx rid => Sys2Proof.Machine.execRouteCloseNotice dev ctx rid s
  | .filterEntryExpire dev ctx rid => Sys2Proof.Machine.execFilterEntryExpire dev ctx rid s
  | .deviceUnreachable dev => Sys2Proof.Machine.execDeviceUnreachable dev s
  | .bundleFillComplete core id => Sys2Proof.Machine.execBundleFillComplete core id s
  | .bundleQueueGrant core => Sys2Proof.Machine.execBundleQueueGrant core s
  | .gbdeclDone g id => Sys2Proof.Machine.execGbdeclDone g id s
  | .waitWake g => Sys2Proof.Machine.execWaitWake g s
  | .waitTimeout g => Sys2Proof.Machine.execWaitTimeout g s
  | .gbarRelease blk id => Sys2Proof.Machine.execGbarRelease blk id s
  | .gpbarRelease blk id => Sys2Proof.Machine.execGpbarRelease blk id s
  | .yieldExpire g sp => Sys2Proof.Machine.execYieldExpire g sp s
  | .invalidationComplete g sp => Sys2Proof.Machine.execInvalidationComplete g sp s
  | .gmapDone g id => Sys2Proof.Machine.execGmapDone g id s
  | .gsplinterDone g sp => Sys2Proof.Machine.execGsplinterDone g sp s
  | .glaunchDone g sp => Sys2Proof.Machine.execGlaunchDone g sp s
  | .retirementDrain g => Sys2Proof.Machine.execRetirementDrain g s
  | .launchFinish lid => Sys2Proof.Machine.execLaunchFinish lid s
  | .parkTrigger blk => Sys2Proof.Machine.execParkTrigger blk s
  | .parkTimeExpire g => Sys2Proof.Machine.execParkTimeExpire g s
  | .blockDrainComplete blk => Sys2Proof.Machine.execBlockDrainComplete blk s
  | .blockSaveComplete blk => Sys2Proof.Machine.execBlockSaveComplete blk s
  | .blockRestoreComplete blk => Sys2Proof.Machine.execBlockRestoreComplete blk s
  | .preemptStopRequest ctx => Sys2Proof.Machine.execPreemptStopRequest ctx s
  | .quantumEnd lid => Sys2Proof.Machine.execQuantumEnd lid s
  | .powerAllowanceCycle cl => Sys2Proof.Machine.execPowerAllowanceCycle cl s
  | .sensorSample codes => Sys2Proof.Machine.execSensorSample codes s
  | .powerGateBegin cl => Sys2Proof.Machine.execPowerGateBegin cl s
  | .powerGateCommit cl => Sys2Proof.Machine.execPowerGateCommit cl s
  | .clusterWakeComplete cl => Sys2Proof.Machine.execClusterWakeComplete cl s
  | .storageErrorDetected e => Sys2Proof.Machine.execStorageErrorDetected e s
  | .marchTestComplete u ok => Sys2Proof.Machine.execMarchTestComplete u ok s
  | .imageVerify img => Sys2Proof.Machine.execImageVerify img s
  | .pcieLinkChange up => Sys2Proof.Machine.execPcieLinkChange up s
  | .ethPortChange p up => Sys2Proof.Machine.execEthPortChange p up s
  | .hbmTrainingDone k ok => Sys2Proof.Machine.execHbmTrainingDone k ok s
  | .hostBar0Read a n => Sys2Proof.Machine.execHostBar0Read a n s
  | .hostBar0Write a bs => Sys2Proof.Machine.execHostBar0Write a bs s
  | .hostBar2Read o => Sys2Proof.Machine.execHostBar2Read o s
  | .hostMailboxWrite n v => Sys2Proof.Machine.execHostMailboxWrite n v s
  | .hostUnsupportedRequest r => Sys2Proof.Machine.execHostUnsupportedRequest r s
  | .attestationRequest nonce => Sys2Proof.Machine.execAttestationRequest nonce s
  | .checkpointRegionAck r => Sys2Proof.Machine.execCheckpointRegionAck r s
  | .completionTimeReached g => Sys2Proof.Machine.execCompletionTimeReached g s
  | .pcieReadCompletion page => Sys2Proof.Machine.execPcieReadCompletion page s
  | .sliceTrainingDone c => Sys2Proof.Machine.execSliceTrainingDone c s
  | .admissionPass => Sys2Proof.Machine.execAdmissionPass s
  | .deviceReset => Sys2Proof.Machine.execDeviceReset s
  | .checkpointStart => Sys2Proof.Machine.execCheckpointStart s

end Sys2Proof.Machine
end

