-- ==== Sys2Proof/Machine/Fetch.lean ====
section
/-! DEFINITION. Fetching an instruction word (spec/02_instruction_words.md R29, R44, R48; spec/17_system.md R270, R276;
spec/18_translation.md R303) and placing one where the next fetch reads it. -/
namespace Sys2Proof.Machine
open Sys2Proof

/-- A fault of a fetch at the current split's PC: it names the address, and its mask is the leader's bit (log entry 14). -/
def State.fetchTrap (s : State) (code detail : Nat) : Stop := .trap (mkTrap code detail s.csp.pc.toNat s.leaderMask)

/-- R44: the fetched word with the launch's patch of this word, if the PC lies in the code of the launch's own kernel object. A
handler and a control core fetch without overlays (R270). -/
def State.patched (s : State) (w : Word) : Word :=
  let l := s.curLaunch
  let first := l.kernel + 4 * (8 + l.patches.length)
  let pc := s.csp.pc.toNat
  if s.privileged || decide (pc < first) || decide (first + 4 * l.codeWords ≤ pc) then w
  else
    match l.patches.find? fun p => decide (p.1 = (pc - first) / 4) with
    | some (_, kind, pword) => overlay w ((l.params[pword]?).getD 0) kind
    | none => w

/-- The physical address that the current split fetches from, if the fetch is permitted (R296, R297, R303). -/
def State.fetchAddr (s : State) : State × Except Stop Nat :=
  if s.walkTested s.curCore s.curCtx s.csp.pc.toNat then (s, .error (.stall .full))
  else
  let (s1, r) := s.translate s.curCore s.curCtx s.csp.pc.toNat
  match r with
  | none => (s1, .error (s.fetchTrap fPage 4))
  | some (pa, leaf) =>
    if !leaf.testBit 59 || decide (mapGet 0 s.xcount (pa / 65536) = 0) then (s1, .error (s.fetchTrap fProt 5))
    else if Config.memBytes ≤ pa then (s1, .error (.absent (.noSuchAddress pa)))
    else (s1, .ok pa)

/-- The word that the current split fetches, once its row is not under test (R159): a poisoned word faults (R276), and so does a marker (R48). -/
def State.fetchWord (s : State) : State × Except Stop Word :=
  match s.fetchAddr with
  | (s1, .error e) => (s1, .error e)
  | (s1, .ok pa) =>
    if s1.underTest noCore [.glob pa 0] then (s1, .error (.stall .full))
    else if s1.poisoned (.glob pa 0) 4 then (s1, .error (s.fetchTrap fMemerr 5))
    else
      let w : Word := BitVec.ofNat 32 (s1.physNum pa 4)
      if wOp w = 0 then (s1, .error (s.fetchTrap fExecreject 0)) else (s1, .ok (s.patched w))

/-- Device memory with a word stored, as a loader writes it: nothing else changes. -/
def State.placeWord (s : State) (pa : Nat) (w : Word) : State := { s with mem := putBytes s.mem pa (leBytes 4 w.toNat) }

end Sys2Proof.Machine
end

