-- ==== Sys2Proof/Machine/Plan.lean ====
section
/-! DEFINITION. What the device does next (spec/07_cross_lane.md R126; spec/19_scheduling.md R316, R320, R321): the splits that may
issue, the pick of each core, and the events whose time has come. `State.agenda` holds what is left of the present cycle. Events
that the outside world causes are never planned here: whoever puts them on the agenda is the outside world (log entry 5). -/
namespace Sys2Proof.Machine
open Sys2Proof

/-! ### One instruction -/

/-- What an instruction that did not stall leaves behind beside its effect: its draw (R317) and the turns of ordered mode (R126, R320). -/
def State.noted (s : State) (gk i cl core op : Nat) : State :=
  match mapFind s.groups gk with
  | none => s.charge cl op
  | some g =>
    match (g.split i).st with
    | .stalled _ => s
    | _ =>
      let g := match mapFind g.splits i with
        | some sp => g.putSplit i { sp with issued := s.now }
        | none => g
      let s := (s.putGroup gk { g with turn := i }).charge cl op
      let lid := (s.block g.blk).lid
      match mapFind s.launches lid with
      | none => s
      | some l =>
        if l.q = 0 then s else s.putLaunch lid { l with rounds := mapPut l.rounds core (s.position lid gk + 1) }

/-- The locations of the registers that a word names (R37, R38). -/
def State.named (s : State) (i : Instr) : List RegLoc :=
  (regSpans i).flatMap fun r => (seqFrom 0 r.2).map fun k => s.cur.loc s.csp (r.1 + BitVec.ofNat 7 k)

/-- The current split issues: it fetches, decodes and executes one instruction, whose registers are in its group's window by then (R67). -/
def issueCur (s : State) : Out :=
  match s.fetchWord with
  | (s1, .error e) => settle s1 (.error e)
  | (s1, .ok w) =>
    match decode w with
    | .error _ => .refused (.unacceptedWord w)
    | .ok i =>
      match exec i (s1.touch s1.cg (s1.named i)) with
      | .next s2 => .next ((s2.settleRegs s.cg (s1.named i)).noted s.cg s.cs (clusterOf s.curCore) s.curCore (wOp w).toNat)
      | .fault f => .fault f
      | .refused r => .refused r

/-- Split `sp` of group `g` issues, if it still may. Withholding that began in this cycle does not take its pick away (R321). -/
def issue (g sp : Nat) (s : State) : Out :=
  if s.mayIssue g sp then issueCur { s with cg := g, cs := sp } else .next s

/-- Why a split of a group is held at its instruction. -/
def State.heldAt (s : State) (g sp : Nat) : Option StallWhy :=
  match ((s.group g).split sp).st with
  | .stalled w => some w
  | _ => none

/-- Why the next instruction of a split would not issue (R316): the stall that it would meet. -/
def State.stallOf (s : State) (g sp : Nat) : Option StallWhy :=
  match issue g sp s with
  | .next t => t.heldAt g sp
  | _ => none

/-- A split reaches an instruction that stalls; one that would not stall waits for its pick. -/
def probe (g sp : Nat) (s : State) : Out :=
  match s.stallOf g sp with
  | some _ => issue g sp s
  | none => .next s

/-! ### Turns in ordered mode (R126, R320) -/

/-- The split waits for the status of its instruction, or for a bank that holds its requests back (R22): it keeps its turn, as no `gjoin`
and no parking holds it. -/
def State.keepsTurn (s : State) (gk i : Nat) : Bool :=
  let g := s.group gk
  let sp := g.split i
  (decide (sp.st = .awaiting) || (sp.st.tries && g.heldBack sp.members)) && g.live && g.closing.isNone && s.blockLets gk sp

/-- The split keeps a turn: a wait that only a commit can end loses it; withholding does not (R320). -/
def State.takesTurn (s : State) (gk i : Nat) : Bool :=
  (s.mayIssue gk i || s.keepsTurn gk i) && !s.splitWaits gk i ((s.group gk).split i)

/-- The split of a group whose turn it is: the next index after the last one that issued, with wrap. -/
def State.turnOf (s : State) (gk : Nat) : Option Nat :=
  let last := (s.group gk).turn
  ((seqFrom 1 4).map fun k => (last + k) % 4).find? fun i => s.takesTurn gk i

/-- The group of an ordered launch on a core whose turn it is: the next position after the last one that issued there, with wrap. -/
def State.roundTurn (s : State) (lid core : Nat) : Option (Nat × Nat) :=
  let l := s.launch lid
  let last := mapGet 0 l.rounds core
  let n := max 1 l.width * max 1 l.groups
  let gs := sortBy (fun k => (s.position lid k + n - last % n) % n)
    ((s.launchGroups lid).filter fun k => decide ((s.block (s.group k).blk).core = core))
  gs.findSome? fun k => (s.turnOf k).map fun i => (k, i)

/-! ### The issue pick (R316) -/

/-- What a core has issued in a cycle: the free lane pipes, an L-mem, group forms, a command. -/
structure Slots where
  pipes : List Nat
  mem : Bool
  group : Nat
  eng : Bool
  deriving DecidableEq, Repr

/-- One more issue, if it is possible. -/
def Slots.take (k : Slots) (op : Nat) : Option Slots :=
  if 0x80 ≤ op then
    let eng := decide (0xC0 ≤ op) && decide (op ≤ 0xC5)
    if 2 ≤ k.group ∨ (eng && k.eng) = true then none else some { k with group := k.group + 1, eng := k.eng || eng }
  else
    let isMem := decide (0x60 ≤ op)
    if isMem && k.mem then none
    else
      let pipe := if 0x50 ≤ op ∧ op < 0x60 then k.pipes.find? fun p => decide (p < 2) else k.pipes.getLast?
      match pipe with
      | none => none
      | some p => some { k with pipes := k.pipes.filter fun q => decide (q ≠ p), mem := k.mem || isMem }

/-- The candidates of a core in pick order: of an ordered launch only the split whose turn it is. -/
def State.candidates (s : State) (core : Nat) : List (Nat × Nat) :=
  let gs := (s.groupsOn core).filter fun e => e.2.live
  let ls := (gs.map fun e => (s.block e.2.blk).lid).eraseDups
  let turns := (ls.filterMap fun lid => if (s.launch lid).q = 0 then none else s.roundTurn lid core).filter fun c => s.canIssue c.1 c.2
  let free := gs.flatMap fun e =>
    if s.ordQ e.1 = 0 then (e.2.splits.filter fun x => s.canIssue e.1 x.1).map fun x => (e.1, x.1) else []
  let key := fun (c : Nat × Nat) =>
    let g := s.group c.1
    let b := s.block g.blk
    (((3 - (s.launch b.lid).prio) * 2 + (if s.isLowest g.blk then 0 else 1)) * 2 ^ 64 + (g.split c.2).age) * 4 + c.2
  sortBy key (turns ++ free)

/-- A candidate with the word that it would issue, 0x80000000 for a fetch that faults, and the stall that it would meet. -/
structure Look where
  g : Nat
  sp : Nat
  word : Word
  stall : Option StallWhy
  deriving DecidableEq, Repr

/-- The opcode byte of a candidate. -/
def Look.op (c : Look) : Nat := (wOp c.word).toNat

/-- A candidate is looked at. -/
def State.look (s : State) (c : Nat × Nat) : Look :=
  let w := match ({ s with cg := c.1, cs := c.2 } : State).fetchWord.2 with
    | .ok w => w
    | .error _ => 0x80000000
  { g := c.1, sp := c.2, word := w, stall := s.stallOf c.1 c.2 }

/-- The splits that begin to wait for entries of the request tracker wait for them. -/
def State.trackerWaits (s : State) (fresh : List Look) : State :=
  fresh.foldl (fun s c =>
    let g := s.group c.g
    s.putGroup c.g (g.putSplit c.sp { g.split c.sp with st := .stalled .tracker })) s

/-- The candidates of a core as they look in this cycle; what issues then has no older split that waits for the tracker, one that begins to
do so in this cycle included (R144). -/
def State.looks (s : State) (core : Nat) : List Look :=
  let ls := (s.candidates core).map s.look
  let fresh := ls.filter fun c => decide (c.stall = some .tracker) && decide (s.heldAt c.g c.sp ≠ some .tracker)
  if fresh.isEmpty then ls
  else
    let t := s.trackerWaits fresh
    ls.map fun c => if c.stall.isNone then t.look (c.g, c.sp) else c

/-! ### The active set (R91) -/

/-- A group with a ready split enters the active set. Where the set is full, the group leaves it that has been unable to issue for the
longest time; while each of its groups can issue, none leaves. -/
def enterActive (now : Nat) (ready : List Nat) (act : SMap Nat) (g : Nat) : SMap Nat :=
  if (mapFind act g).isSome then act
  else if act.length < 16 then mapPut act g now
  else
    match leastBy (fun (e : Nat × Nat) => e.2) (act.filter fun e => !ready.contains e.1) with
    | some v => mapPut (mapDel act v.1) g now
    | none => act

/-- The active set of a core in this cycle. -/
def State.activeNow (s : State) (core : Nat) (ls : List Look) : SMap Nat :=
  let ready := ((ls.filter fun c => c.stall.isNone).map (·.g)).eraseDups
  let on := (s.groupsOn core).filter fun e => e.2.live
  let old := ((s.core core).active.filter fun e => on.any fun x => decide (x.1 = e.1)).map fun e =>
    if ready.contains e.1 then (e.1, s.now) else e
  ready.foldl (enterActive s.now ready) old

/-! ### Picks and the power allowance (R316, R317) -/

/-- R316, R317: the picks of one core after `draw` units of its cluster, and what the cluster has drawn after them. -/
def corePicks (allow draw : Nat) (act : SMap Nat) (ls : List Look) : List Look × Nat :=
  let out := ls.foldl (fun (acc : Slots × Nat × List Look) c =>
    if c.stall.isSome || (decide (c.op < 0x80) && (mapFind act c.g).isNone) || decide (allow < acc.2.1 + drawUnits c.op) then acc
    else
      match acc.1.take c.op with
      | none => acc
      | some k => (k, acc.2.1 + drawUnits c.op, acc.2.2 ++ [c]))
    ({ pipes := [0, 1, 2, 3], mem := false, group := 0, eng := false }, draw, [])
  (out.2.2, out.2.1)

/-- The cores that hold a live group. -/
def State.busyCores (s : State) : List Nat :=
  sortBy id ((s.groups.filter fun e => e.2.live && (s.block e.2.blk).onCore).map fun e => (s.block e.2.blk).core).eraseDups

/-- The picks of a cluster: its cores in rotation from the cycle number mod 4 on, as far as the allowance covers them (R317). -/
def State.clusterPicks (s : State) (looks : SMap (List Look)) (cl : Nat) : List Look :=
  let c := s.cluster cl
  let cores := (seqFrom 0 4).map fun k => (coresOf cl).headD 0 + (s.now + k) % 4
  (cores.foldl (fun (acc : List Look × Nat) k =>
    let (ps, n) := corePicks c.allow acc.2 (s.core k).active (mapGet [] looks k)
    (acc.1 ++ ps, n)) ([], c.draw)).1

/-- The picks of one group in ascending split index (R234, R241, R248). -/
def byGroup (ps : List Look) : List Look :=
  ((ps.map (·.g)).eraseDups).flatMap fun g => sortBy (·.sp) (ps.filter fun c => decide (c.g = g))

/-- The bytes that an access by opcode makes in each lane. -/
def accessSize (op : Nat) : Nat :=
  match op with
  | 0x60 => 1
  | 0x61 => 1
  | 0x62 => 2
  | 0x63 => 2
  | 0x65 => 8
  | 0x66 => 16
  | 0x68 => 8
  | 0x69 => 1
  | 0x6A => 2
  | 0x6C => 8
  | 0x6D => 16
  | 0x6F => 8
  | 0xB3 => 8
  | n => if 0x70 ≤ n ∧ n < 0x80 then atomSize n else 4

/-- The places at which a picked lane form, wait or arrival reaches scratchpads. -/
def State.lookPlaces (s : State) (c : Look) : List LaneAddr :=
  let t : State := { s with cg := c.g, cs := c.sp }
  let at' := fun (hnum : Nat) (offs : List (Nat × Nat)) =>
    let e := (t.curHandle hnum).2
    if e.space = 1 ∨ e.space = 2 then offs.map fun x => { lane := x.1, off := x.2, place := t.placeOf e x.2 : LaneAddr } else []
  match t.heldAcc with
  | some a => a.lanes.map fun x => { lane := x.1, off := x.2.1, place := x.2.2 }
  | none =>
    if 0x60 ≤ c.op ∧ c.op < 0x80 then at' (t.slotHandle (wH c.word)) (t.laneOffs (wMA c.word) (wO c.word) (accessSize c.op))
    else if [0xAB, 0xB3, 0xB4].contains c.op then at' (t.u (wA c.word)).toNat [(t.leader, (t.u (wA c.word + 1)).toNat)]
    else []

/-- The banks of scratchpads that a picked access reaches, each as core and bank. -/
def State.lookBanks (s : State) (c : Look) : List (Nat × Nat) :=
  (bankRows (s.lookPlaces c) (accessSize c.op)).map fun x => (x.1, x.2.1)

/-- A requester stands at the front of the order of one of these banks in this cycle (R146). -/
def State.promoted (s : State) (who : BankReq) (banks : List (Nat × Nat)) : Bool := banks.any fun x => (s.core x.1).front.contains (x.2, who)

/-- The place of a pick among the picks of its cycle. A `gbleave` comes before a `gbenter` (R187), those in the order of the bundle queue
(R186), and a `gbquery` of the queue after them (R195); launches in ascending control core (R321); Sluice commands in the order of their
cores (R19); accesses to the own scratchpad, through a peer handle too (R140), before those that reach a peer's, the lowest member first, unless
one stands at the front of the order of a bank that it reaches (R146); and a write of `D_SEED` last (R58). -/
def State.pickKey (s : State) (c : Look) : Nat :=
  let b := s.block (s.group c.g).blk
  let at' := fun (rank sub : Nat) => rank * 2 ^ 128 + sub
  match decode c.word with
  | .ok (.gbleave _ _) => at' 0 0
  | .ok (.glaunch _ _) => at' 1 b.core
  | .ok (.gbenter _ _) => at' 5 (s.queueKey c.g c.sp)
  | .ok (.gbquery _ _ m) => at' (if m = 5 then 6 else 3) 0
  | .ok (.gwrc _ i) => at' (if i = 0x3F0 then 7 else 3) 0
  | _ =>
    let banks := s.lookBanks c
    if banks.any fun x => decide (x.1 ≠ b.core) then at' (if s.promoted .peer banks then 2 else 4) (1 + b.pid)
    else if s.promoted .lane banks then at' 2 0
    else at' 3 (if 0xC3 ≤ c.op ∧ c.op ≤ 0xC5 then 1 + b.core else 0)

/-- The picks of a cycle with the splits that reach an instruction on which they stall, those of one group in the order of its splits
(R248). -/
def State.picks (s : State) (looks : SMap (List Look)) : List Look :=
  let stuck := (looks.flatMap (·.2)).filter fun c => c.stall.isSome && decide (c.stall ≠ s.heldAt c.g c.sp)
  let ps := ((s.busyCores.map clusterOf).eraseDups).flatMap fun cl => s.clusterPicks looks cl
  sortBy s.pickKey (byGroup (ps ++ stuck))

/-- A pick as a move. -/
def Look.move (c : Look) : Move := if c.stall.isSome then .probe c.g c.sp else .issue c.g c.sp

/-- The rank of a pick in `pickKey`. -/
def State.pickRank (s : State) (c : Look) : Nat := s.pickKey c / 2 ^ 128

/-- The picks of a cycle as moves. An instruction before the `gbenter`s can have made room: before each of them the heads of its core's bundle
queue that come before it in the order are tested again, and after all of them the others (R186). -/
def State.pickMoves (s : State) (ps : List Look) : List Move :=
  let enter := fun (c : Look) => [Move.grants (s.block (s.group c.g).blk).core (s.queueKey c.g c.sp), c.move]
  let grants := (s.cores.filter fun e => !e.2.bqueue.isEmpty).map fun e => Move.event (.bundleQueueGrant e.1)
  (ps.filter fun c => decide (s.pickRank c < 5)).map Look.move ++ (ps.filter fun c => decide (s.pickRank c = 5)).flatMap enter ++ grants ++
    (ps.filter fun c => decide (5 < s.pickRank c)).map Look.move

/-! ### Events whose time has come -/

/-- The events of one group's own accesses, operations and waits. -/
def State.groupEvents (s : State) (k : Nat) (g : Group) : List Instr :=
  let due := fun (t : Nat) => decide (t ≤ s.now)
  ((g.ploads.filter fun p => p.unsent.isEmpty && due p.due).map fun p => .loadDataReturn k p.id) ++
    ((g.pstores.filter fun p => !p.buffered && p.unsent.isEmpty && due p.due).map fun p => .storeAck k p.id) ++
    (if g.hsts.isEmpty then [] else [.completionTimeReached k]) ++
    ((g.hpages.filter fun p => p.reached p.page s.now).map fun p => .pcieReadCompletion p.page) ++
    ((g.pends.filter fun p => due p.due).filterMap fun p =>
      match p.op with
      | .decl _ => some (.gbdeclDone k p.id)
      | .map _ _ => some (.gmapDone k p.id)
      | .splinter _ _ => some (.gsplinterDone k p.sp)
      | .inval _ _ _ _ _ => some (.invalidationComplete k p.sp)
      | .launch _ => some (.glaunchDone k p.sp)
      | _ => none) ++
    (match g.wait with
     | some r => (if r.ended.isSome then [.waitWake k] else []) ++ (match r.deadline with
        | some t => if r.ended.isNone && due t then [.waitTimeout k] else []
        | none => [])
     | none => []) ++
    (g.splits.flatMap fun e => match e.2.st with
      | .atBar i => [.gbarRelease g.blk i]
      | .atPbar i => [.gpbarRelease g.blk i]
      | _ => if s.now < e.2.notBefore ∧ s.yieldOver k e.1 = true then [.yieldExpire k e.1] else []) ++
    (if g.draining && !g.outstanding then [.retirementDrain k] else [])

/-- The events of one block. -/
def State.blockEvents (s : State) (k : Nat) (b : Block) : List Instr :=
  match b.st with
  | .resident => if s.parkTriggered k && s.parkAllowed k then [.parkTrigger k] else []
  | .stopping => [.blockDrainComplete k]
  | .saving => [.blockSaveComplete k]
  | .restoring => [.blockRestoreComplete k]
  | _ => []

/-- The events of one launch. -/
def State.launchEvents (s : State) (k : Nat) (l : Launch) : List Instr :=
  (if l.st = .finishing ∧ l.ct < s.now then [.launchFinish k] else []) ++ (if s.quantumOver k || l.ending.isSome then [.quantumEnd k] else [])

/-- The start or completion of the head of a queue, with the command. -/
def headEvent (now : Nat) (q : List Cmd) (start : Instr) (done : Nat → Instr) : List (Cmd × Instr) :=
  match q with
  | [] => []
  | c :: _ => if c.started then (if decide (c.due ≤ now) && !c.requesting then [(c, done c.id)] else []) else [(c, start)]

/-- The events of one core's engines, each with its requester in the order of R146 and its command. -/
def Core.engineEvents (now k : Nat) (c : Core) : List (BankReq × Cmd × Instr) :=
  (headEvent now c.matq (.tileCommandStart k) (.tileCommandComplete k)).map (fun x => (.matrix, x)) ++
    (headEvent now c.copyq (.engineCommandStart k .copy) (.engineCommandComplete k)).map (fun x => (.copy, x)) ++
    (headEvent now c.rillq (.engineCommandStart k .rill) (.engineCommandComplete k)).map (fun x => (.rill, x)) ++
    (headEvent now c.cascq (.engineCommandStart k .cascade) (.engineCommandComplete k)).map fun x => (.cascade, x)

/-- The bundle fills of one core. -/
def Core.fillEvents (now k : Nat) (c : Core) : List Instr :=
  (c.fills.filter fun f => f.unsent.isEmpty && decide (f.due ≤ now)).map fun f => .bundleFillComplete k f.id

/-- The events of one cluster's Sluice, each with its command. -/
def Cluster.sluiceEvents (now k : Nat) (c : Cluster) : List (Cmd × Instr) :=
  (c.sluice.flatMap fun x =>
    let is : List Instr := (if x.started && !x.sent && decide (x.due ≤ now) then (match x.op with
      | .sel _ => []
      | _ => [.routeRowsSent k x.id]) else []) ++
      (x.rows.filterMap fun r => if x.sent && decide (r.at' + resendTicks ≤ now) then some (.rowRetransmit k x.id r.t r.slot) else none) ++
      (if x.resolved && decide (x.due ≤ now) then [.sluiceCommandComplete k x.id] else [])
    is.map fun i => (x, i)) ++
    ((c.sluice.find? fun x => !x.started).toList.map fun x => (x, .sluiceCommandStart k))

/-- The power gating of one cluster (R319). -/
def State.gateEvents (s : State) (k : Nat) : List Instr :=
  let c := s.cluster k
  match c.gate with
  | .on => if k < 48 ∧ c.idleSince + 12000 ≤ s.now ∧ s.clusterBusy k = false then [.powerGateBegin k] else []
  | .gating t => if t + 64 ≤ s.now then [.powerGateCommit k] else []
  | .waking t => if t + 6000 ≤ s.now then [.clusterWakeComplete k] else []
  | .gated => []

/-- The end of the cycle of one cluster's power allowance (R317): where nothing can draw on it and it is full, nothing happens. -/
def State.powerEvents (s : State) (ps : List Look) (k : Nat) : List Instr :=
  let c := s.cluster k
  let cores := (coresOf k).map s.core
  let idle := !(ps.any fun x => decide (clusterOf (s.block (s.group x.g).blk).core = k)) && decide (c.draw = 0) && c.withheld.isEmpty &&
    decide (c.allow = 65535) && c.sluice.isEmpty && cores.all fun co => (co.copyq ++ co.rillq ++ co.cascq ++ co.matq).isEmpty
  if idle then [] else [.powerAllowanceCycle k]

/-- The events of the launch unit and of the duplicate filter. -/
def State.unitEvents (s : State) : List Instr :=
  (if s.anyWaiting || s.launches.any (fun e => s.quantumReady e.1) then [.admissionPass] else []) ++
    (s.filter.filterMap fun e => match e.2 with
      | some t => if t ≤ s.now then some (.filterEntryExpire e.1.dev e.1.ctx e.1.rid) else none
      | none => none)

/-- Windows of this core that may grow. -/
def State.growth (s : State) (core : Nat) : List Instr :=
  if (s.slotHolders core).any fun e => decide (2 * 2 ^ e.2.win.log2 ≤ e.2.alloc) then [.compactorStep core] else []

/-- The banks that a command reaches include this one of a core. -/
def Cmd.reaches (c : Cmd) (core bank : Nat) : Bool :=
  (c.rd ++ c.wr).any fun r => decide (r.core = core) && decide (r.lo < r.hi) &&
    decide ((bank + 384 - bankOf r.lo) % 384 ≤ (r.hi - 1) / 4 - r.lo / 4)

/-- A command's engine stands at the front of the order of a bank that the command reaches (R146). -/
def State.frontCmd (s : State) (who : BankReq) (c : Cmd) : Bool :=
  s.cores.any fun e => e.2.front.any fun x => decide (x.2 = who) && c.reaches e.1 x.1

/-- What the engines do in this cycle, in the order of R146. Those that stand at the front of the order of a bank that they reach come before
the lanes (log entry 66). -/
def State.bankMoves (s : State) (front : Bool) : List Move :=
  let cores := s.cores.flatMap fun e => ((e.2.engineEvents s.now e.1).filter fun x => s.frontCmd x.1 x.2.1 = front).map fun x => Move.event x.2.2
  let sluices := s.clusters.flatMap fun e =>
    ((e.2.sluiceEvents s.now e.1).filter fun x => s.frontCmd .sluice x.1 = front).map fun x => Move.event x.2
  cores ++ sluices

/-- The next cycle begins with the events that are due; then come the engines at the front of an order of R146, the picks, which see what the
events have done (R142), and the tick. -/
def State.plan (s : State) : List Move :=
  let events := (s.groups.flatMap fun e => s.groupEvents e.1 e.2) ++ (s.cores.flatMap fun e => e.2.fillEvents s.now e.1) ++
    ((seqFrom 0 49).flatMap s.gateEvents) ++ (s.blocks.flatMap fun e => s.blockEvents e.1 e.2) ++
    (s.launches.flatMap fun e => s.launchEvents e.1 e.2) ++ s.unitEvents ++ s.busyCores.flatMap s.growth
  events.map .event ++ s.bankMoves true ++ [.picks, .tick]

/-- The next cycle begins. -/
def State.beginCycle (s : State) : State := { s with agenda := s.plan }

/-- The cores pick: the active sets, the picks of every core, what the other engines do, and the draw of the cycle (R317). -/
def State.pickCycle (s : State) : State :=
  let looks := s.busyCores.map fun k => (k, s.looks k)
  let s := looks.foldl (fun (t : State) e => t.putCore e.1 { t.core e.1 with active := s.activeNow e.1 e.2 }) s
  let ps := s.picks looks
  { s with agenda := s.pickMoves ps ++ s.bankMoves false ++ ((seqFrom 0 49).flatMap (s.powerEvents ps)).map .event ++ s.agenda }

/-! ### Registers that events write -/

/-- The groups and locations that an event brings values to. -/
def State.lands (s : State) (i : Instr) : List (Nat × List RegLoc) :=
  let pend := fun (g : Nat) (o : Option Pend) => o.toList.map fun p => (g, [p.loc])
  let cmd := fun (cs : List Cmd) (id : Nat) => (cs.filter fun c => decide (c.id = id)).filterMap fun c => c.tok.map fun l => (c.g, [l])
  match i with
  | .loadDataReturn g id => ((s.group g).ploads.filter fun p => decide (p.id = id)).map fun p => (g, p.locs)
  | .gbdeclDone g id => pend g ((s.group g).pendOf id)
  | .gmapDone g id => pend g ((s.group g).pendOf id)
  | .gsplinterDone g sp => pend g ((s.group g).heldPend sp)
  | .glaunchDone g sp => pend g ((s.group g).heldPend sp)
  | .invalidationComplete g sp => pend g ((s.group g).heldPend sp)
  | .waitWake g => (s.group g).wait.toList.map fun r => (g, [r.dl, r.dh])
  | .bundleFillComplete core id => ((s.core core).fills.filter fun f => decide (f.id = id)).map fun f => (f.g, [f.loc])
  | .engineCommandComplete core id => cmd ((s.core core).copyq ++ (s.core core).rillq ++ (s.core core).cascq) id
  | .tileCommandComplete core id => cmd (s.core core).matq id
  | .sluiceCommandComplete cl id => cmd (s.cluster cl).sluice id
  | _ => []

/-- The registers that an event writes are in their groups' windows when it takes place (R67). -/
def State.readied (s : State) (i : Instr) : State := (s.lands i).foldl (fun s x => s.touch x.1 x.2) s

/-! ### The end of a cycle -/

/-- The oldest service record whose release is met is counted: the control cores see the record before the tail (R153, R281). -/
def State.flushTail (s : State) : State :=
  match s.svcPosts with
  | [] => s
  | p :: rest =>
    if p.due ≤ s.now ∧ p.ct < s.now ∧ s.releaseMet (s.group p.g) 4 p.upto = true then
      ({ s with svcPosts := rest } : State).devPut
        [{ place := .glob s.svcTail 0, bytes := leBytes 4 ((s.physNum s.svcTail 4 + 1) % 2 ^ 32) }]
    else s

/-- Device time advances by one tick (R15), and what waits for time alone goes on (R22, R224, R263, R281, R311, R331). -/
def State.tick (s : State) : State :=
  let s : State := { s with
    now := s.now + 1
    cores := s.cores.map fun (e : Nat × Core) =>
      (e.1, { e.2 with starved := [], front := e.2.starved, commits := e.2.commits.filter fun x => decide (s.now + 1 < x.2) })
    openRoutes := s.liveRoutes
    joins := s.joins.filter fun j => decide (s.now + 1 ≤ j.ct)
    clusters := ((seqFrom 0 49).filter s.clusterBusy).foldl (fun m k =>
      mapPut m k { mapGet Cluster.empty m k with idleSince := s.now + 1 }) s.clusters }
  let s := s.sendRequests.sendFills.sendLines.blockEnds.flushTail.flushSvc.flushRx.registerDeps
  (flushHost s.hostq [] 0 false s).testDrains

/-! ### A word for the next fetch -/

/-- A page of code for `placeFetch`: its 512 MiB leaf lies at 512 MiB, the tables above it at 1 MiB (log entry 6). -/
def bootPages (m : SMap Byte) : SMap Byte :=
  putBytes (putBytes m 0x100000 (leBytes 8 (2 ^ 63 + 0x110000))) 0x110000 (leBytes 8 (2 ^ 63 + 2 ^ 62 + 2 ^ 61 + 2 ^ 59 + 2 ^ 29))

/-- A machine with one group on core 0 that is about to fetch `w` at virtual address 0x10020: what a loader, a context and a launch
would have made (log entry 6). -/
def State.bootWord (s : State) (w : Word) : State :=
  let l : Launch := { Launch.empty with
    ctx := 1, kernel := 0x10000, codeWords := 0x2000, gx := 1, gy := 1, gz := 1, live := 1, width := 1, st := .running, next := 1 }
  let b : Block := { Block.empty with lid := 1, ctx := 1, core := 0, ngroups := 1 }
  let c : Context := { Context.empty with live := true, root := 0x100000, part := 1 }
  { s with
    agenda := [.issue 32 0], cg := 32, cs := 0, groups := mapPut s.groups 32 (newGroup l 1 0 0), blocks := mapPut s.blocks 1 b
    launches := mapPut s.launches 1 l, contexts := mapPut s.contexts 1 c, cores := mapPut s.cores 0 { Core.empty with inService := true }, clusters := mapDel s.clusters 0
    lltlb := mapDel s.lltlb 0, mem := putBytes (bootPages s.mem) 0x20010020 (leBytes 4 w.toNat), poison := []
    xcount := mapSet 0 s.xcount 0x2001 1, nextLid := max 2 s.nextLid, nextBlk := max 2 s.nextBlk, shut := false, fw := true }

/-- `w` is stored where the next fetch reads it; where the next move is no fetch that would run it, at the canonical place. -/
def State.placeFetch (s : State) (w : Word) : State :=
  match s.agenda with
  | .issue g sp :: _ =>
    let t : State := { s with cg := g, cs := sp }
    match t.fetchAddr with
    | (t1, .ok pa) =>
      if s.canIssue g sp && !t1.poisoned (.glob pa 0) 4 && decide (t1.patched w = w) then s.placeWord pa w else s.bootWord w
    | _ => s.bootWord w
  | _ => s.bootWord w

end Sys2Proof.Machine
end

