-- ==== Sys2Proof/Machine/Step.lean ====
section
/-! DEFINITION. One step of the device: the next move of the agenda, or, where none is left, the plan of the next cycle. -/
namespace Sys2Proof.Machine
open Sys2Proof

/-- One step. -/
def step (s : State) : Host.Outcome State Fault Refusal :=
  match s.agenda with
  | [] => .next s.beginCycle
  | .tick :: rest => .next (State.tick { s with agenda := rest })
  | .picks :: rest => .next (State.pickCycle { s with agenda := rest })
  | .event i :: rest => exec i (({ s with agenda := rest } : State).readied i)
  | .issue g sp :: rest => issue g sp { s with agenda := rest }
  | .probe g sp :: rest => probe g sp { s with agenda := rest }
  | .grants core key :: rest => grantBefore core (some key) { s with agenda := rest }

/-- The state in which `step` fetches and runs the instruction whose bits are `w`, by its own fetch. -/
def State.withFetchWord (s : State) (nbits w : Nat) : State := s.placeFetch (BitVec.ofNat 32 (w % 2 ^ nbits))

end Sys2Proof.Machine
end

