-- ==== Sys2Proof/Safety.lean ====
section
/-! DEFINITION. The terms in which claims about the machine are made: the canonical form of its memories, registers that can be
read and written, what an instruction may change, and runs that do not stop. -/
namespace Sys2Proof.Machine
open Sys2Proof

/-! ### Memory -/

/-- The canonical form of a memory: rising addresses, and no byte listed that equals what an unlisted address reads as. -/
def Memory.wf (m : List Host.Cell) : Bool := mapWf zeroByte m

/-- Device memory and host memory are canonical. -/
def State.memWf (s : State) : Bool := Memory.wf s.mem && Memory.wf s.hmem

/-- Every byte of device memory, of every scratchpad and of host memory reads as before. -/
def SameMemory (s t : State) : Prop := ∀ q : Place, t.byteAt q 0 = s.byteAt q 0

/-- Byte `q` lies in none of these writes. -/
def Outside (ws : List ByteWrite) (q : Place) : Prop := ∀ w ∈ ws, placesMeet w.place w.bytes.length q 1 = false

/-- Every byte outside these writes reads as before. -/
def SameOutside (ws : List ByteWrite) (s t : State) : Prop := ∀ q : Place, Outside ws q → t.byteAt q 0 = s.byteAt q 0

/-- The byte that a write leaves at `q`, if it covers it. -/
def byteOf (w : ByteWrite) (q : Place) : Option Byte :=
  match w.place, q with
  | .glob a _, .glob b _ => if a ≤ b ∧ b < a + w.bytes.length then some (w.bytes.getD (b - a) 0) else none
  | .scr c a, .scr d b => if c = d ∧ a ≤ b ∧ b < a + w.bytes.length then some (w.bytes.getD (b - a) 0) else none
  | .host a, .host b => if a ≤ b ∧ b < a + w.bytes.length then some (w.bytes.getD (b - a) 0) else none
  | _, _ => none

/-- The byte that a run of writes leaves at `q`: the last write that covers it decides (R150). -/
def byteAfter (ws : List ByteWrite) (q : Place) : Option Byte :=
  match ws with
  | [] => none
  | w :: r =>
    match byteAfter r q with
    | some b => some b
    | none => byteOf w q

/-- Memory after these writes: every byte is that of the last write that covers it, and else what it was. -/
def MemoryAfter (ws : List ByteWrite) (s t : State) : Prop := ∀ q : Place, t.byteAt q 0 = (byteAfter ws q).getD (s.byteAt q 0)

/-- Only translation and handle caches are filled (R139, R298): what an access leaves behind beside its effect. -/
def CachesFilled (s t : State) : Prop :=
  t = { s with cores := t.cores, clusters := t.clusters, lltlb := t.lltlb } ∧
  (∀ k, t.core k = { s.core k with hcache := (t.core k).hcache }) ∧
  ∀ k, t.cluster k = { s.cluster k with tlb := (t.cluster k).tlb }

/-! ### Registers -/

/-- The number of a register traps nowhere (R65, R89). -/
def regOk (g : Group) (sp : Split) (r : Reg) : Bool :=
  match effReg g sp r with
  | .ok _ => true
  | .error _ => false

/-- The line of a register holds poison (R160). -/
def linePoisoned (g : Group) (loc : RegLoc) : Bool :=
  match loc with
  | .reg n => decide (mapGet 0 g.rpoison n ≠ 0)
  | _ => false

/-- Every named register has a number that does not trap and waits for no pending write (R149) and for no march test (R159), and no source
is poisoned (R276). -/
def State.regsReady (s : State) (writes reads : List Reg) : Bool :=
  ((writes ++ reads).all fun r =>
    regOk s.cur s.csp r && (!s.cur.busy s.csp.members (s.cur.loc s.csp r) && !s.rowTested (s.cur.loc s.csp r))) &&
    reads.all fun r => !linePoisoned s.cur (s.cur.loc s.csp r)

/-- The value in a lane at the location of a register of the current split. -/
def State.regAt (s t : State) (r : Reg) (lane : Nat) : Word := t.cur.rd (s.cur.loc s.csp r) lane

/-- What is read back after a value was written to a register: a register beyond the allocation discards it (R270). -/
def State.kept (s : State) (r : Reg) (v : Word) : Word := if s.cur.loc s.csp r = .off then 0 else v

/-! ### What an instruction may change -/

/-- Nothing but the groups changes, and of these only the current one. -/
def OnlyGroup (s t : State) : Prop := t = { s with groups := t.groups } ∧ ∀ k, k ≠ s.cg → t.group k = s.group k

/-- `K_RETIRED` counts the instruction in user mode (R86, R270). -/
def Retired (s t : State) : Prop := t.cur.retired = if s.csp.sup then s.cur.retired else s.cur.retired + 1

/-- The frame of an instruction that writes registers `ds` in the lanes `m` and goes on at `pc`: of the device only the current group
changes, of that group only its registers, its count of retired instructions and its quantum's, and of its splits only the
current one's PC and state. -/
def RegisterStep (s t : State) (ds : List Reg) (m : LaneMask) (pc : Dword) : Prop :=
  OnlyGroup s t ∧ SameMemory s t ∧ Retired s t ∧
  (t.cur = { s.cur with
    regs := t.cur.regs, hregs := t.cur.hregs, rpoison := t.cur.rpoison, dirty := t.cur.dirty
    retired := t.cur.retired, qcount := t.cur.qcount, qended := t.cur.qended, splits := t.cur.splits }) ∧
  t.csp = { s.csp with pc := pc, st := .running } ∧
  (∀ i, i ≠ s.cs → t.cur.split i = s.cur.split i) ∧
  ∀ loc lane, lane < 32 → (loc ∉ ds.map (s.cur.loc s.csp) ∨ m.getLsbD lane = false) → t.cur.rd loc lane = s.cur.rd loc lane

/-- `RegisterStep` for an instruction that may also move the generators of the lanes `m` (R57). -/
def GeneratorStep (s t : State) (ds : List Reg) (m : LaneMask) (pc : Dword) : Prop :=
  OnlyGroup s t ∧ SameMemory s t ∧ Retired s t ∧
  (t.cur = { s.cur with
    regs := t.cur.regs, hregs := t.cur.hregs, rpoison := t.cur.rpoison, dirty := t.cur.dirty, gen := t.cur.gen
    retired := t.cur.retired, qcount := t.cur.qcount, qended := t.cur.qended, splits := t.cur.splits }) ∧
  t.csp = { s.csp with pc := pc, st := .running } ∧
  (∀ i, i ≠ s.cs → t.cur.split i = s.cur.split i) ∧
  (∀ lane, m.getLsbD lane = false → t.genOf lane = s.genOf lane) ∧
  ∀ loc lane, lane < 32 → (loc ∉ ds.map (s.cur.loc s.csp) ∨ m.getLsbD lane = false) → t.cur.rd loc lane = s.cur.rd loc lane

/-- The frame of an instruction that changes nesting counters and no register (R97, R100). -/
def CounterStep (s t : State) (pc : Dword) : Prop :=
  OnlyGroup s t ∧ SameMemory s t ∧ Retired s t ∧
  (t.cur = { s.cur with
    cnt := t.cur.cnt, retired := t.cur.retired, qcount := t.cur.qcount, qended := t.cur.qended, splits := t.cur.splits }) ∧
  t.csp = { s.csp with pc := pc, st := .running } ∧
  (∀ i, i ≠ s.cs → t.cur.split i = s.cur.split i) ∧
  ∀ lane, s.csp.members.getLsbD lane = false → t.cur.counter lane = s.cur.counter lane

/-! ### Runs -/

/-- The machine makes `n` steps from `s` without stopping: each answers a next state. -/
def RunsFor (n : Nat) (s : State) : Prop := ∃ t, Host.Core.run Sys2Proof.core n s = .next t

end Sys2Proof.Machine
end

