-- ==== Sys2Proof/Certificates/Slice0/Obligations.lean ====
section
/-! DEFINITION. The statements for the provers: what the numbered rules of the specification say of the machine. Beside them stand, in
the namespace Sys2Proof.Rule, the tables and conditions that several statements share. -/
open Sys2Proof Sys2Proof.Machine

/-- R29, R342: a word that encodes a well-formed instruction decodes to that instruction, every operand at every value. -/
def Obligations.DecodeEncode : Prop := ∀ i w, encode i = some w → i.wf = true → decode w = .ok i

/-! ### Register instructions: what they compute -/

namespace Sys2Proof.Rule
open Sys2Proof Sys2Proof.Machine

/-- What a register instruction writes: its destination, the registers it reads, and the value of a lane. -/
structure Result where
  dest : Reg
  reads : List Reg
  value : Nat → Word

/-- The instruction completes: its result reaches its destination in every lane of `m`, its split goes on at PC + 4, and nothing
else changes. -/
def Writes (i : Instr) (s : State) (m : LaneMask) (r : Result) : Prop :=
  ∃ t, exec i s = .next t ∧ RegisterStep s t [r.dest] m (s.csp.pc + 4) ∧
    ∀ lane, m.getLsbD lane = true → s.regAt t r.dest lane = s.kept r.dest (r.value lane)

/-- R65, R89, R160, R271, R276: a register instruction that names a register it cannot use faults, for the lanes `m` that would read, and
writes nothing: `F_REGINDEX` at the first number that traps; and where none does and no register waits, `F_MEMERR` with detail 4 at the
first source whose line is poisoned. -/
def RegisterTraps (i : Instr) (s : State) (m : LaneMask) (d : Reg) (reads : List Reg) : Prop :=
  ∀ n : Nat,
    let trap := fun (code detail : Nat) => s.trapCur { code := code, detail := detail, addr := BitVec.ofNat 64 n, mask := m, part := false }
    (badReg s.cur s.csp (d :: reads) = some n → exec i s = .next (trap 2 0)) ∧
    (badReg s.cur s.csp (d :: reads) = none →
      (∀ r ∈ d :: reads, s.cur.busy s.csp.members (s.cur.loc s.csp r) = false ∧ s.rowTested (s.cur.loc s.csp r) = false) →
      poisonedReg s.cur s.csp reads = some n → m ≠ 0 → exec i s = .next (trap 12 4))

/-- The rows of R93, R94 and R95: r in a lane, from the lane's own sources. -/
def laneInteger (s : State) (i : Instr) : Option Result :=
  match i with
  | .add d a b m => some ⟨d, [a, b], fun l => addOp m.toNat (s.x l a) (s.x l b)⟩
  | .sub d a b m => some ⟨d, [a, b], fun l => subOp m.toNat (s.x l a) (s.x l b)⟩
  | .mul d a b m => some ⟨d, [a, b], fun l => mulOp m.toNat (s.x l a) (s.x l b)⟩
  | .mad d a b m => some ⟨d, [a, b, d], fun l => madOp m.toNat (s.x l a) (s.x l b) (s.x l d)⟩
  | .min d a b m => some ⟨d, [a, b], fun l => minOp m.toNat (s.x l a) (s.x l b)⟩
  | .max d a b m => some ⟨d, [a, b], fun l => maxOp m.toNat (s.x l a) (s.x l b)⟩
  | .and d a b => some ⟨d, [a, b], fun l => s.x l a &&& s.x l b⟩
  | .or d a b => some ⟨d, [a, b], fun l => s.x l a ||| s.x l b⟩
  | .xor d a b => some ⟨d, [a, b], fun l => s.x l a ^^^ s.x l b⟩
  | .andn d a b => some ⟨d, [a, b], fun l => s.x l a &&& ~~~ s.x l b⟩
  | .shl d a b => some ⟨d, [a, b], fun l => shlOp (s.x l a) (s.x l b).toNat⟩
  | .shr d a b m => some ⟨d, [a, b], fun l => (if m = 0 then shrOp else asrOp) (s.x l a) (s.x l b).toNat⟩
  | .rot d a b m => some ⟨d, [a, b], fun l => rotOp m.toNat (s.x l a) (s.x l b)⟩
  | .bfe d a b m => some ⟨d, [a, b], fun l => bfeOp m.toNat (s.x l a) (s.x l b)⟩
  | .bfi d a b => some ⟨d, [a, b, d], fun l => bfiOp (s.x l a) (s.x l b) (s.x l d)⟩
  | .bitc d a m => some ⟨d, [a], fun l => bitcOp m.toNat (s.x l a)⟩
  | .sel d a b => some ⟨d, [a, b, d], fun l => if s.x l d = 0 then s.x l b else s.x l a⟩
  | .cmp d a b m => some ⟨d, [a, b], fun l => if intCmp m.toNat (s.x l a) (s.x l b) = true then 1 else 0⟩
  | .addi d a i => some ⟨d, [a], fun l => s.x l a + i.signExtend 32⟩
  | .andi d a i => some ⟨d, [a], fun l => s.x l a &&& i.signExtend 32⟩
  | .ori d a i => some ⟨d, [a], fun l => s.x l a ||| i.setWidth 32⟩
  | .xori d a i => some ⟨d, [a], fun l => s.x l a ^^^ i.signExtend 32⟩
  | .shli d a i => some ⟨d, [a], fun l => shlOp (s.x l a) i.toNat⟩
  | .shri d a i =>
    some ⟨d, [a], fun l => (if i.getLsbD 9 = true then asrOp else shrOp) (s.x l a) (i.extractLsb' 0 9).toNat⟩
  | .cmpi d a i =>
    some ⟨d, [a], fun l => if (s.x l a).toInt < i.toInt then -1 else if (s.x l a).toInt = i.toInt then 0 else 1⟩
  | .movi d i => some ⟨d, [], fun _ => i.signExtend 32⟩
  | .mov d a => some ⟨d, [a], fun l => s.x l a⟩
  | .lid d m =>
    some ⟨d, [], fun l => BitVec.ofNat 32
      (if m = 0 then l else if m = 1 then s.cur.gid * 32 + l else s.curBlock.bid * 1024 + s.cur.gid * 32 + l)⟩
  | _ => none

/-- The rows of R83, R84, R85 and R88: r from the leader's registers. -/
def groupInteger (s : State) (i : Instr) : Option Result :=
  match i with
  | .gadd d a b m => some ⟨d, [a, b], fun _ => addOp m.toNat (s.u a) (s.u b)⟩
  | .gsub d a b m => some ⟨d, [a, b], fun _ => subOp m.toNat (s.u a) (s.u b)⟩
  | .gmul d a b m => some ⟨d, [a, b], fun _ => mulOp m.toNat (s.u a) (s.u b)⟩
  | .gand d a b => some ⟨d, [a, b], fun _ => s.u a &&& s.u b⟩
  | .gor d a b => some ⟨d, [a, b], fun _ => s.u a ||| s.u b⟩
  | .gxor d a b => some ⟨d, [a, b], fun _ => s.u a ^^^ s.u b⟩
  | .gshl d a b => some ⟨d, [a, b], fun _ => shlOp (s.u a) (s.u b).toNat⟩
  | .gshr d a b m => some ⟨d, [a, b], fun _ => (if m = 0 then shrOp else asrOp) (s.u a) (s.u b).toNat⟩
  | .gmin d a b m => some ⟨d, [a, b], fun _ => minOp m.toNat (s.u a) (s.u b)⟩
  | .gmax d a b m => some ⟨d, [a, b], fun _ => maxOp m.toNat (s.u a) (s.u b)⟩
  | .gcmp d a b m => some ⟨d, [a, b], fun _ => if intCmp m.toNat (s.u a) (s.u b) = true then 1 else 0⟩
  | .gsel d a b => some ⟨d, [a, b, d], fun _ => if s.u d = 0 then s.u b else s.u a⟩
  | .gmov d a => some ⟨d, [a], fun _ => s.u a⟩
  | .gbitc d a m => some ⟨d, [a], fun _ => bitcOp m.toNat (s.u a)⟩
  | .gbfe d a b m => some ⟨d, [a, b], fun _ => bfeOp m.toNat (s.u a) (s.u b)⟩
  | .gmad d a b => some ⟨d, [a, b, d], fun _ => s.u a * s.u b + s.u d⟩
  | .gaddi d a i => some ⟨d, [a], fun _ => s.u a + i.signExtend 32⟩
  | .gandi d a i => some ⟨d, [a], fun _ => s.u a &&& i.signExtend 32⟩
  | .gori d a i => some ⟨d, [a], fun _ => s.u a ||| i.setWidth 32⟩
  | .gcmpi d a i =>
    some ⟨d, [a], fun _ => if (s.u a).toInt < i.toInt then -1 else if (s.u a).toInt = i.toInt then 0 else 1⟩
  | .gset d j => some ⟨d, [], fun _ => j.signExtend 32⟩
  | .gseth d j => some ⟨d, [d], fun _ => BitVec.ofNat 32 (j.toNat % 2 ^ 15 * 2 ^ 17 + (s.u d).toNat % 2 ^ 17)⟩
  | .gclock d m =>
    some ⟨d, [], fun _ =>
      let v : Dword := if s.curLaunch.q = 0 then BitVec.ofNat 64 s.now else s.cur.retired
      if m = 0 then v.extractLsb' 0 32 else v.extractLsb' 32 32⟩
  | .gid d m =>
    some ⟨d, [], fun _ =>
      if m = 0 then s.csp.members else if m = 1 then s.active
      else BitVec.ofNat 32
        (if m = 2 then s.cs else if m = 3 then s.leader else s.cur.splits.length + s.cur.stack.length)⟩
  | _ => none

end Sys2Proof.Rule

/-- R89, R93-R95: a lane-form integer instruction writes r in every active lane, each from that lane's own sources, and changes
no other register and no memory; a register that it cannot use faults. That d comes before the sources, a bad number before poison, and the
active lanes make up the mask is the model's reading, named in log entry 40. -/
def Obligations.LaneIntegerWrites : Prop :=
  ∀ (i : Instr) (s : State) (r : Rule.Result), Rule.laneInteger s i = some r →
    (s.regsReady [r.dest] r.reads = true → Rule.Writes i s s.active r) ∧ Rule.RegisterTraps i s s.active r.dest r.reads

/-- R65, R83-R85, R88: a group-form arithmetic instruction writes r, computed from the leader's registers, in every member lane, and
changes no other register and no memory; a register that it cannot use faults, with the leader's bit as the mask. That d comes before the
sources, and a bad number before poison, is the model's reading, named in log entry 40. -/
def Obligations.GroupIntegerWrites : Prop :=
  ∀ (i : Instr) (s : State) (r : Rule.Result), Rule.groupInteger s i = some r →
    (s.regsReady [r.dest] r.reads = true → Rule.Writes i s s.csp.members r) ∧ Rule.RegisterTraps i s s.leaderMask r.dest r.reads

/-- R83, R93: the sums and products with their saturating forms, and the high words of a product. -/
def Sys2Proof.Rule.IntegerSums : Prop :=
  ∀ x y z : Word,
    addOp 0 x y = x + y ∧ subOp 0 x y = x - y ∧ mulOp 0 x y = x * y ∧ madOp 0 x y z = x * y + z ∧
    (addOp 1 x y).toInt = max (-2 ^ 31) (min (x.toInt + y.toInt) (2 ^ 31 - 1)) ∧
    (subOp 1 x y).toInt = max (-2 ^ 31) (min (x.toInt - y.toInt) (2 ^ 31 - 1)) ∧
    (madOp 1 x y z).toInt = max (-2 ^ 31) (min (x.toInt * y.toInt + z.toInt) (2 ^ 31 - 1)) ∧
    (addOp 2 x y).toNat = min (x.toNat + y.toNat) (2 ^ 32 - 1) ∧
    (subOp 2 x y).toNat = x.toNat - y.toNat ∧
    (madOp 2 x y z).toNat = min (x.toNat * y.toNat + z.toNat) (2 ^ 32 - 1) ∧
    mulOp 1 x y = (x.signExtend 64 * y.signExtend 64).extractLsb' 32 32 ∧
    mulOp 2 x y = (x.setWidth 64 * y.setWidth 64).extractLsb' 32 32

/-- R93: the bits of the shifts, rotations, field operations and of `.brev`. -/
def Sys2Proof.Rule.IntegerBits : Prop :=
  ∀ (x y z : Word) (n k : Nat), k < 32 →
    (shlOp x n).getLsbD k = (decide (n ≤ k) && x.getLsbD (k - n)) ∧
    (shrOp x n).getLsbD k = x.getLsbD (k + n) ∧
    (asrOp x n).getLsbD k = x.getLsbD (min (k + n) 31) ∧
    (rotOp 0 x y).getLsbD k = x.getLsbD ((k + 32 - y.toNat % 32) % 32) ∧
    (rotOp 1 x y).getLsbD k = x.getLsbD ((k + y.toNat) % 32) ∧
    (bfeOp 0 x y).getLsbD k = (decide (k < fieldWidth y) && x.getLsbD (fieldPos y + k)) ∧
    (bfeOp 1 x y).getLsbD k = x.getLsbD (fieldPos y + min k (fieldWidth y - 1)) ∧
    (bfiOp x y z).getLsbD k =
      (if fieldPos y ≤ k ∧ k < fieldPos y + fieldWidth y then x.getLsbD (k - fieldPos y) else z.getLsbD k) ∧
    (bitRev x).getLsbD k = x.getLsbD (31 - k)

/-- R93: `.min` and `.max` under both orders, and the bit counts. -/
def Sys2Proof.Rule.IntegerOrdersAndCounts : Prop :=
  ∀ x y : Word,
    (minOp 0 x y).toInt = min x.toInt y.toInt ∧ (maxOp 0 x y).toInt = max x.toInt y.toInt ∧
    (minOp 1 x y).toNat = min x.toNat y.toNat ∧ (maxOp 1 x y).toNat = max x.toNat y.toNat ∧
    popCount x = (List.range 32).countP (fun i => x.getLsbD i) ∧
    (∀ n, clzCount x = n ↔ n ≤ 32 ∧ (∀ i, i < n → x.getLsbD (31 - i) = false) ∧ (n < 32 → x.getLsbD (31 - n) = true)) ∧
    (∀ n, ctzCount x = n ↔ n ≤ 32 ∧ (∀ i, i < n → x.getLsbD i = false) ∧ (n < 32 → x.getLsbD n = true))

/-- R83, R93: which comparison and which count each m selects. -/
def Sys2Proof.Rule.IntegerSelections : Prop :=
  ∀ x y : Word,
    (intCmp 0 x y = true ↔ x.toNat = y.toNat) ∧ (intCmp 1 x y = true ↔ x.toNat ≠ y.toNat) ∧
    (intCmp 2 x y = true ↔ x.toInt < y.toInt) ∧ (intCmp 3 x y = true ↔ y.toInt ≤ x.toInt) ∧
    (intCmp 4 x y = true ↔ x.toNat < y.toNat) ∧ (intCmp 5 x y = true ↔ y.toNat ≤ x.toNat) ∧
    (bitcOp 0 x).toNat = (List.range 32).countP (fun i => x.getLsbD i) ∧ (bitcOp 1 x).toNat = clzCount x ∧
    (bitcOp 2 x).toNat = ctzCount x ∧ ∀ k, k < 32 → (bitcOp 3 x).getLsbD k = x.getLsbD (31 - k)

/-- R60-R62: the residue format. A word stands for the number of its range that has its residues, of which the first and the third are
reduced on input; encoding a number of the range and converting it back gives it again, and sums and products are those of the numbers,
encoded. -/
def Sys2Proof.Rule.Residues : Prop :=
  ∀ (v w : Word) (x : Int),
    (-8388480 ≤ resCrt w ∧ resCrt w ≤ 8388479 ∧ resCrt w % 255 = (w.toNat % 2 ^ 8 % 255 : Nat) ∧ resCrt w % 256 = (w.toNat / 2 ^ 8 % 2 ^ 8 : Nat) ∧
      resCrt w % 257 = (w.toNat / 2 ^ 16 % 2 ^ 9 % 257 : Nat)) ∧
    (-8388480 ≤ x → x ≤ 8388479 → resCrt (resEnc x) = x) ∧ (resEnc x).toNat < 2 ^ 25 ∧
    resAdd v w = resEnc (resCrt v + resCrt w) ∧ resMul v w = resEnc (resCrt v * resCrt w)

/-- R60-R62, R83, R93: the values of the integer rows: sums and products, shifts, rotates and bit fields bit by bit, orders, counts and
comparisons, and the residue format. -/
def Obligations.IntegerResults : Prop :=
  Rule.IntegerSums ∧ Rule.IntegerBits ∧ Rule.IntegerOrdersAndCounts ∧ Rule.IntegerSelections ∧ Rule.Residues

/-! ### Floating point and cross-lane -/

namespace Sys2Proof.Rule
open Sys2Proof Sys2Proof.Machine

/-- What a rounding instruction writes: a lane's result and its generator's new state, from the generator's present state. -/
structure Rounded where
  dest : Reg
  reads : List Reg
  value : Nat → Word → Word × Word

/-- The instruction completes: every active lane receives its result and its generator's new state, and nothing else changes. -/
def Rounds (i : Instr) (s : State) (r : Rounded) : Prop :=
  ∃ t, exec i s = .next t ∧ GeneratorStep s t [r.dest] s.active (s.csp.pc + 4) ∧
    ∀ lane, s.active.getLsbD lane = true →
      s.regAt t r.dest lane = s.kept r.dest (r.value lane (s.genOf lane)).1 ∧ t.genOf lane = (r.value lane (s.genOf lane)).2

/-- The rows whose results move no generator: R107, R108, R112 under nearest-even, R117 and R119. -/
def laneFloat (s : State) (i : Instr) : Option Result :=
  match i with
  | .fmin d a b => some ⟨d, [a, b], fun l => fminOp (s.x l a) (s.x l b)⟩
  | .fmax d a b => some ⟨d, [a, b], fun l => fmaxOp (s.x l a) (s.x l b)⟩
  | .fcmp d a b m => some ⟨d, [a, b], fun l => if fcmpOp m.toNat (f32v (s.x l a)) (f32v (s.x l b)) = true then 1 else 0⟩
  | .frsq d a => some ⟨d, [a], fun l => BitVec.ofNat 32 (rne f32F (fRsqV (f32v (s.x l a))))⟩
  | .fexp2 d a => some ⟨d, [a], fun l => BitVec.ofNat 32 (rne f32F (fExp2V (f32v (s.x l a))))⟩
  | .flog2 d a => some ⟨d, [a], fun l => BitVec.ofNat 32 (rne f32F (fLog2V (f32v (s.x l a))))⟩
  | .fsinpi d a => some ⟨d, [a], fun l => BitVec.ofNat 32 (rne f32F (fSinpiV (f32v (s.x l a))))⟩
  | .unpk d a b => some ⟨d, [a], fun l => BitVec.ofNat 32 (rne f32F (unpkVal b.toNat (s.x l a)))⟩
  | .hcmp2 d a b m => some ⟨d, [a, b], fun l => hcmp2Op m.toNat (s.x l a) (s.x l b)⟩
  | _ => none

/-- The rows that round by m: R106, R111-R116, R118 and R120. -/
def laneRounded (s : State) (i : Instr) : Option Rounded :=
  match i with
  | .fadd d a b m =>
    some ⟨d, [a, b], fun l st => roundW m.toNat st (fAdd (decide (m = 3)) (f32v (s.x l a)) (f32v (s.x l b)))⟩
  | .fsub d a b m =>
    some ⟨d, [a, b], fun l st => roundW m.toNat st (fAdd (decide (m = 3)) (f32v (s.x l a)) (fNeg (f32v (s.x l b))))⟩
  | .fmul d a b m => some ⟨d, [a, b], fun l st => roundW m.toNat st (fMul (f32v (s.x l a)) (f32v (s.x l b)))⟩
  | .ffma d a b m =>
    some ⟨d, [a, b, d], fun l st =>
      roundW m.toNat st (fFma (decide (m = 3)) (f32v (s.x l a)) (f32v (s.x l b)) (f32v (s.x l d)))⟩
  | .frcp d a m => some ⟨d, [a], fun l st => sfuW m.toNat st (fRcp (f32v (s.x l a)))⟩
  | .fsqrt d a m => some ⟨d, [a], fun l st => sfuW m.toNat st (fSqrtV (f32v (s.x l a)))⟩
  | .frnd d a m => some ⟨d, [a], fun l st => frndOp m.toNat (s.x l a) st⟩
  | .i2f d a b m => some ⟨d, [a], fun l st => roundW m.toNat st (i2fVal (b.toNat % 4) (s.x l a))⟩
  | .f2i d a b m => some ⟨d, [a], fun l st => f2iOp (b.toNat % 8) m.toNat (s.x l a) st⟩
  | .pkh d a b m => some ⟨d, [a, b], fun l st => pack2 f16F 16 m.toNat false (f32v (s.x l a)) (f32v (s.x l b)) st⟩
  | .pkb d a b m => some ⟨d, [a, b], fun l st => pack2 bf16F 16 m.toNat false (f32v (s.x l a)) (f32v (s.x l b)) st⟩
  | .pk8 d a b m =>
    some ⟨d, [a, b], fun l st =>
      pack2 (if m.getLsbD 1 = true then e5m2F else e4m3F) 8 (if m.getLsbD 0 = true then 4 else 0) (m.getLsbD 2)
        (f32v (s.x l a)) (f32v (s.x l b)) st⟩
  | .hadd2 d a b m =>
    some ⟨d, [a, b], fun l st =>
      pack2 (hFmt m.toNat) 16 (hMode m.toNat) false (fAdd false (hv m.toNat (s.x l a) 0) (hv m.toNat (s.x l b) 0))
        (fAdd false (hv m.toNat (s.x l a) 1) (hv m.toNat (s.x l b) 1)) st⟩
  | .hmul2 d a b m =>
    some ⟨d, [a, b], fun l st =>
      pack2 (hFmt m.toNat) 16 (hMode m.toNat) false (fMul (hv m.toNat (s.x l a) 0) (hv m.toNat (s.x l b) 0))
        (fMul (hv m.toNat (s.x l a) 1) (hv m.toNat (s.x l b) 1)) st⟩
  | .hfma2 d a b m =>
    some ⟨d, [a, b, d], fun l st =>
      pack2 (hFmt m.toNat) 16 (hMode m.toNat) false
        (fFma false (hv m.toNat (s.x l a) 0) (hv m.toNat (s.x l b) 0) (hv m.toNat (s.x l d) 0))
        (fFma false (hv m.toNat (s.x l a) 1) (hv m.toNat (s.x l b) 1) (hv m.toNat (s.x l d) 1)) st⟩
  | .rnd d m =>
    some ⟨d, [], fun _ st =>
      (if m = 0 then srStep st else BitVec.ofNat 32 (rne f32F (.exact false ((srStep st).toNat / 2 ^ 8) (-24))), srStep st)⟩
  | _ => none

/-- An encoding of a format with infinities is a NaN (R53). -/
def isNan (t : Fmt) (x : Nat) : Bool := decide ((2 ^ t.e - 1) * 2 ^ t.f < x % 2 ^ (t.e + t.f))
/-- An `f32` encoding is a NaN (R53). -/
def isNan32 (x : Word) : Bool := isNan f32F x.toNat
/-- The order of `f32` encodings that are no NaN, −0 below +0. -/
def order32 (x : Word) : Int := if x.getLsbD 31 = true then -1 - ((x.toNat % 2 ^ 31 : Nat) : Int) else ((x.toNat % 2 ^ 31 : Nat) : Int)
/-- The order of encodings that are no NaN, −0 equal to +0. -/
def valueOrder (t : Fmt) (x : Nat) : Int :=
  if x.testBit (t.e + t.f) = true then -((x % 2 ^ (t.e + t.f) : Nat) : Int) else ((x % 2 ^ (t.e + t.f) : Nat) : Int)

/-- The table of R108, on encodings of one format. -/
def compareAs (t : Fmt) (m x y : Nat) : Bool :=
  let ordered := !isNan t x && !isNan t y
  match m with
  | 0 => ordered && decide (valueOrder t x = valueOrder t y)
  | 1 => !ordered || decide (valueOrder t x ≠ valueOrder t y)
  | 2 => ordered && decide (valueOrder t x < valueOrder t y)
  | 3 => ordered && decide (valueOrder t x ≤ valueOrder t y)
  | 4 => ordered && decide (valueOrder t y < valueOrder t x)
  | 5 => ordered && decide (valueOrder t y ≤ valueOrder t x)
  | 6 => !ordered
  | _ => ordered

/-- R124: what a lane supplies to another. -/
def supplied (s : State) (lane : Nat) (a : Reg) : Word :=
  if s.cur.launched.getLsbD lane = true ∧ s.cur.exited.getLsbD lane = false then s.x lane a else 0

/-- The active lanes that hold a value with this property. -/
def holding (s : State) (a : Reg) (p : Word → Bool) : List Nat := (lanesOf s.active).filter fun l => p (s.x l a)

/-- The rows of R127-R133. -/
def crossLane (s : State) (i : Instr) : Option Result :=
  match i with
  | .shfl d a b m =>
    some ⟨d, [a, b], fun l =>
      let y := (s.x l b).toNat
      if m.getLsbD 2 = true ∧ (m.toNat % 4 = 1 ∧ l < y ∨ m.toNat % 4 = 2 ∧ 31 < l + y) then 0
      else supplied s (match m.toNat % 4 with
        | 0 => y % 32
        | 1 => (l + 32 - y % 32) % 32
        | 2 => (l + y % 32) % 32
        | _ => l ^^^ (y % 32)) a⟩
  | .shfli d a i =>
    some ⟨d, [a], fun l =>
      let k := i.toNat % 32
      let w := 2 ^ min (i.toNat / 32 % 8) 5
      supplied s (match i.toNat / 256 with
        | 0 => l / w * w + k % w
        | 1 => l / w * w + (l % w + w - k % w) % w
        | 2 => l / w * w + (l % w + k) % w
        | _ => l ^^^ (k % w)) a⟩
  | .vote d a m =>
    let set := holding s a fun x => decide (x ≠ 0)
    some ⟨d, [a], fun _ =>
      match m.toNat with
      | 0 => if set = [] then 0 else 1
      | 1 => if set = lanesOf s.active then 1 else 0
      | 2 => maskOf set
      | 3 => BitVec.ofNat 32 set.length
      | 4 => if ∀ l ∈ lanesOf s.active, ∀ k ∈ lanesOf s.active, s.x l a = s.x k a then 1 else 0
      | 5 => BitVec.ofNat 32 (set.length % 2)
      | _ => BitVec.ofNat 32 (set.headD 32)⟩
  | .scan d a b m =>
    some ⟨d, [a], fun l => reduceOp (b.toNat % 8)
      (((lanesOf s.active).filter fun k => if m = 0 then decide (k ≤ l) else decide (k < l)).map fun k => s.x k a)⟩
  | .red d a b => some ⟨d, [a], fun _ => reduceOp (b.toNat % 8) ((lanesOf s.active).map fun k => s.x k a)⟩
  | .matchLanes d a m =>
    some ⟨d, [a], fun l =>
      let eq := holding s a fun x => decide (x = s.x l a)
      match m.toNat with
      | 0 => maskOf eq
      | 1 => BitVec.ofNat 32 (eq.headD 0)
      | 2 => BitVec.ofNat 32 (eq.getLastD 0)
      | 3 => BitVec.ofNat 32 eq.length
      | 4 => BitVec.ofNat 32 (eq.filter fun k => decide (k < l)).length
      | _ => BitVec.ofNat 32 ((lanesOf s.active).map fun k => s.x k a).eraseDups.length⟩
  | _ => none

/-- The code of a key (R134), of types 0 `.i32`, 1 `.n32` and 2 `.f32`. -/
def keyOrder (ty : Nat) (x : Word) : Nat :=
  if ty = 0 then (x ^^^ 0x80000000).toNat
  else if ty = 1 then x.toNat
  else if isNan32 x then 0 else if x.getLsbD 31 = true then (~~~ x).toNat else (x ||| 0x80000000).toNat

/-- asc_rank and dsc_rank of R135 among the active lanes. -/
def rank (s : State) (a : Reg) (ty : Nat) (dsc : Bool) (l : Nat) : Nat :=
  let code := fun k => keyOrder ty (s.x k a)
  ((lanesOf s.active).filter fun k => (if dsc = true then decide (code l < code k) else decide (code k < code l)) ||
    (decide (code k = code l) && decide (k < l))).length

end Sys2Proof.Rule

/-- R89, R104, R107, R108, R112, R117, R119: the floating-point instructions that move no generator. It rests on choices of the model named
in log entry 48. A register that it cannot use faults; in which order its registers are tested, and the mask, are the model's reading, named in
log entry 40. -/
def Obligations.LaneFloatWrites : Prop :=
  ∀ (i : Instr) (s : State) (r : Rule.Result), Rule.laneFloat s i = some r →
    (s.regsReady [r.dest] r.reads = true → Rule.Writes i s s.active r) ∧ Rule.RegisterTraps i s s.active r.dest r.reads

/-- R104, R106, R111-R116, R118, R120: the instructions that round by m write each active lane's result and move that lane's
generator; the generators of the other lanes stay. A register that it cannot use faults. The generator's step after a result of `frcp` or
`fsqrt` is the model's reading of R57 and R104 beside R112, named in log entry 68; the order in which registers are tested, and the mask of
their fault, are its reading in log entry 40. -/
def Obligations.LaneRoundedWrites : Prop :=
  ∀ (i : Instr) (s : State) (r : Rule.Rounded), Rule.laneRounded s i = some r →
    (s.regsReady [r.dest] r.reads = true → Rule.Rounds i s r) ∧ Rule.RegisterTraps i s s.active r.dest r.reads

/-- R107: `fmin` and `fmax` choose one operand bit for bit; −0 is below +0, and a NaN gives way to a number. -/
def Sys2Proof.Rule.FloatSelects : Prop :=
  ∀ x y : Word,
    fminOp x y = (if Rule.isNan32 x ∧ Rule.isNan32 y then 0x7FC00000 else if Rule.isNan32 x then y else if Rule.isNan32 y then x
      else if Rule.order32 y < Rule.order32 x then y else x) ∧
    fmaxOp x y = (if Rule.isNan32 x ∧ Rule.isNan32 y then 0x7FC00000 else if Rule.isNan32 x then y else if Rule.isNan32 y then x
      else if Rule.order32 x < Rule.order32 y then y else x)

/-- R108: the eight comparisons; −0 equals +0 and the infinities compare as numbers. R119: the four of them on each pair of 16-bit
elements, which give a mask. -/
def Sys2Proof.Rule.FloatCompares : Prop :=
  ∀ (x y : Word) (m : Nat), m < 8 →
    fcmpOp m (f32v x) (f32v y) = Rule.compareAs f32F m x.toNat y.toNat ∧
    ∀ k, k < 32 → (hcmp2Op m x y).getLsbD k =
      let j := k / 16
      Rule.compareAs (if m < 4 then f16F else bf16F) (([0, 2, 3, 6] : List Nat).getD (m % 4) 0) (x.toNat / 2 ^ (16 * j) % 2 ^ 16)
        (y.toNat / 2 ^ (16 * j) % 2 ^ 16)

namespace Sys2Proof.Rule
open Sys2Proof Sys2Proof.Machine

/-- The formats of R52, each with the encodings of its largest number, of what a number beyond it becomes under nearest-even (R56), and of its
default NaN (R54). -/
def formats : List (Fmt × Nat × Nat × Nat) :=
  [(f32F, 0x7F7FFFFF, 0x7F800000, 0x7FC00000), (f16F, 0x7BFF, 0x7C00, 0x7E00), (bf16F, 0x7F7F, 0x7F80, 0x7FC0), (e5m2F, 0x7B, 0x7C, 0x7E),
    (e4m3F, 0x7E, 0x7E, 0x7F)]

/-- The value is the number x, with this sign. -/
def Is (v : FVal) (neg : Bool) (x : ℝ) : Prop :=
  ∃ man exp, v = .num neg man exp false ∧ (if neg = true then -1 else 1) * (man : ℝ) * 2 ^ (exp : Int) = x

/-- The magnitude of the number is x, or x lies between the mantissa and the next one, which no format tells apart. -/
def Near (v : FVal) (neg : Bool) (x : ℝ) : Prop :=
  ∃ man exp, (v = .num neg man exp false ∧ (man : ℝ) * 2 ^ (exp : Int) = x) ∨
    (v = .num neg man exp true ∧ 2 ^ 64 ≤ man ∧ (man : ℝ) * 2 ^ (exp : Int) < x ∧ x < ((man : ℝ) + 1) * 2 ^ (exp : Int))

/-- The `case MODE` of R55: a magnitude of k quanta and the fraction f of one becomes m quanta, and the generator's state `st'`. -/
def Quanta (mode : Nat) (neg : Bool) (st : Word) (k : Int) (f : ℝ) (m : Int) (st' : Word) : Prop :=
  let up : Prop := match mode with
    | 0 => 1 / 2 < f ∨ (f = 1 / 2 ∧ k % 2 = 1)
    | 1 => False
    | 2 => 0 < f ∧ neg = false
    | 3 => 0 < f ∧ neg = true
    | _ => 2 ^ 32 ≤ f * 2 ^ 32 + ((srStep st).toNat : ℝ)
  (up → m = k + 1) ∧ (¬ up → m = k) ∧ st' = if mode < 4 then st else srStep st

/-- `over` of R56, of a number. -/
def overflow (t : Fmt) (most past mode : Nat) (neg sat : Bool) : Nat :=
  (if neg = true then 2 ^ (t.e + t.f) else 0) +
    if sat = true ∨ mode = 1 ∨ (mode = 2 ∧ neg = true) ∨ (mode = 3 ∧ neg = false) then most else past

end Sys2Proof.Rule

/-- R52, R53: an encoding of a format stands for a NaN, an infinity, or the number of its fields. -/
def Sys2Proof.Rule.Encodings : Prop :=
  ∀ (t : Fmt) (most past nan x : Nat), (t, most, past, nan) ∈ Rule.formats → x < 2 ^ (1 + t.e + t.f) →
    let neg := x.testBit (t.e + t.f)
    let mag := x % 2 ^ (t.e + t.f)
    let e := mag / 2 ^ t.f
    let sgn : ℝ := if neg = true then -1 else 1
    fval t nan = .nan ∧
    (mag ≤ most → e = 0 → Rule.Is (fval t x) neg (sgn * (mag % 2 ^ t.f : Nat) * 2 ^ (1 - (t.bias : Int) - t.f))) ∧
    (mag ≤ most → e ≠ 0 → Rule.Is (fval t x) neg (sgn * (2 ^ t.f + mag % 2 ^ t.f : Nat) * 2 ^ ((e : Int) - t.bias - t.f))) ∧
    (most < mag → mag = past → fval t x = .inf neg) ∧ (most < mag → mag ≠ past → fval t x = .nan)

/-- R54-R56: rounding a number, a zero, an infinity and a NaN into a format, in each mode. -/
def Sys2Proof.Rule.RoundsToFormat : Prop :=
  ∀ (t : Fmt) (most past nan mode : Nat) (neg sat : Bool) (st : Word) (v : FVal), (t, most, past, nan) ∈ Rule.formats → mode < 5 →
    let sign := if neg = true then 2 ^ (t.e + t.f) else 0
    roundF t mode sat st .nan = (nan, st) ∧
    roundF t mode sat st (.inf neg) = (sign + if sat = true then most else past, st) ∧
    (∀ exp more, roundF t mode sat st (.num neg 0 exp more) = (sign, st)) ∧
    ∀ x : ℝ, Rule.Near v neg x → 0 < x →
      let q : ℝ := 2 ^ ((max (Int.log 2 x) (1 - (t.bias : Int))) - t.f)
      ∃ m st', Rule.Quanta mode neg st ⌊x / q⌋ (x / q - ⌊x / q⌋) m st' ∧ (roundF t mode sat st v).2 = st' ∧
        (∀ big : ℝ, Rule.Is (fval t most) false big →
          (big < m * q → (roundF t mode sat st v).1 = Rule.overflow t most past mode neg sat) ∧
          (m * q ≤ big → (roundF t mode sat st v).1 < 2 ^ (1 + t.e + t.f) ∧
            Rule.Is (fval t (roundF t mode sat st v).1) neg ((if neg = true then -1 else 1) * (m * q))))

/-- R55, R56: rounding to an integer type, whose overflow saturates; R57, R58: the generator. A state that is not 0 stays so, and no lane starts
at 0. -/
def Sys2Proof.Rule.RoundsToInteger : Prop :=
  ∀ (lo hi : Int) (mode : Nat) (neg : Bool) (st : Word) (v : FVal) (x : ℝ), lo ≤ 0 → 0 ≤ hi → mode < 5 →
    roundInt lo hi mode st .nan = (0, st) ∧ roundInt lo hi mode st (.inf neg) = (if neg = true then lo else hi, st) ∧
    (∀ exp more, roundInt lo hi mode st (.num neg 0 exp more) = (0, st)) ∧
    (Rule.Is v neg ((if neg = true then -1 else 1) * x) → 0 < x → ∃ m st', Rule.Quanta mode neg st ⌊x⌋ (x - ⌊x⌋) m st' ∧
      roundInt lo hi mode st v = (max lo (min (if neg = true then -m else m) hi), st')) ∧
    (let a := st.toNat ^^^ st.toNat * 2 ^ 13 % 2 ^ 32
      let b := a ^^^ a / 2 ^ 17
      (srStep st).toNat = b ^^^ b * 2 ^ 5 % 2 ^ 32) ∧
    (st ≠ 0 → srStep st ≠ 0) ∧ ∀ bid gid lane, srInit st bid gid lane ≠ 0

/-- R52-R58: the encodings of the floating formats, rounding into them and to integers, and the generator's step. -/
def Obligations.FloatRounding : Prop := Rule.Encodings ∧ Rule.RoundsToFormat ∧ Rule.RoundsToInteger

/-- R106: sums, products and sign changes: NaNs and infinities, and of numbers the exact value; a zero sum of operands that are not both zeros
of one sign has the sign of the mode, −0 toward −∞. -/
def Sys2Proof.Rule.FloatSums : Prop :=
  ∀ (dn a b n1 n2 : Bool) (m1 m2 : Nat) (e1 e2 : Int) (x y z : FVal) (p q : ℝ),
    let u : FVal := .num n1 m1 e1 false
    let w : FVal := .num n2 m2 e2 false
    fAdd dn .nan x = .nan ∧ fAdd dn x .nan = .nan ∧ fMul .nan x = .nan ∧ fMul x .nan = .nan ∧ fNeg .nan = .nan ∧
    fAdd dn (.inf a) (.inf b) = (if a = b then .inf a else .nan) ∧ fAdd dn (.inf a) u = .inf a ∧ fAdd dn u (.inf a) = .inf a ∧
    fMul (.inf a) (.inf b) = .inf (a != b) ∧ fMul (.inf a) u = (if m1 = 0 then .nan else .inf (a != n1)) ∧
    fMul u (.inf a) = (if m1 = 0 then .nan else .inf (n1 != a)) ∧ fNeg (.inf a) = .inf (!a) ∧ fFma dn x y z = fAdd dn (fMul x y) z ∧
    (Rule.Is u n1 p → Rule.Is w n2 q →
      Rule.Is (fNeg u) (!n1) (-p) ∧ Rule.Is (fMul u w) (n1 != n2) (p * q) ∧
      ∃ n, Rule.Is (fAdd dn u w) n (p + q) ∧ (p + q = 0 → n = if m1 = 0 ∧ m2 = 0 ∧ n1 = n2 then n1 else dn))

/-- R64, R130: the exact sum of a set of terms, before its one rounding. -/
def Sys2Proof.Rule.ExactSums : Prop :=
  ∀ (ps : List FVal) (a : Bool) (xs : List (Bool × ℝ)),
    (.nan ∈ ps ∨ (.inf true ∈ ps ∧ .inf false ∈ ps) → exactSum ps = .nan) ∧
    (.nan ∉ ps → .inf a ∈ ps → .inf (!a) ∉ ps → exactSum ps = .inf a) ∧
    (List.Forall₂ (fun v x => Rule.Is v x.1 x.2) ps xs →
      ∃ n, Rule.Is (exactSum ps) n (xs.map (·.2)).sum ∧
        ((xs.map (·.2)).sum = 0 → (n = true ↔ ps ≠ [] ∧ ∀ x ∈ xs, x.1 = true ∧ x.2 = 0)))

/-- R112: the reciprocal, the square root and the reciprocal square root of an `f32` number are the exact ones, as far as a rounding tells. -/
def Sys2Proof.Rule.Functions : Prop :=
  ∀ (neg : Bool) (man : Nat) (exp : Int), 0 < man → man < 2 ^ 24 →
    let v : FVal := .num neg man exp false
    let x : ℝ := (man : ℝ) * 2 ^ exp
    Rule.Near (fRcp v) neg (1 / x) ∧ (neg = false → Rule.Near (fSqrtV v) false (Real.sqrt x) ∧ Rule.Near (fRsqV v) false (1 / Real.sqrt x)) ∧
      (neg = true → fSqrtV v = .nan ∧ fRsqV v = .nan ∧ fLog2V v = .nan)

namespace Sys2Proof.Rule
open Sys2Proof Sys2Proof.Machine

/-- The functions of R112 in the order of their opcodes, and what they give for −∞, −0, +0, +∞ and a NaN. -/
def functions : List (FVal → FVal) := [fRcp, fRsqV, fSqrtV, fExp2V, fLog2V, fSinpiV]
def functionTable : List (Word × List Word) :=
  [(0xFF800000, [0x80000000, 0x7FC00000, 0x7FC00000, 0x00000000, 0x7FC00000, 0x7FC00000]),
    (0x80000000, [0xFF800000, 0xFF800000, 0x80000000, 0x3F800000, 0xFF800000, 0x80000000]),
    (0x00000000, [0x7F800000, 0x7F800000, 0x00000000, 0x3F800000, 0xFF800000, 0x00000000]),
    (0x7F800000, [0x00000000, 0x00000000, 0x7F800000, 0x7F800000, 0x7F800000, 0x7FC00000])]

/-- The `f32` word holds the number x. -/
def Reads32 (w : Word) (x : ℝ) : Prop := Is (f32v w) (w.getLsbD 31) x

end Sys2Proof.Rule

/-- R112: the special operands, and the operands whose results are exact. -/
def Sys2Proof.Rule.FunctionCases : Prop :=
  ∀ (x st : Word) (m : Nat) (n : Int), m < 5 →
    let out := fun (f : FVal → FVal) => (roundW 0 st (f (f32v x))).1
    roundW m st .nan = (0x7FC00000, st) ∧ (Rule.isNan32 x = true → Rule.functions.map out = List.replicate 6 0x7FC00000) ∧
    (∀ rs, (x, rs) ∈ Rule.functionTable → Rule.functions.map out = rs ∧
      roundW m st (fRcp (f32v x)) = (rs.getD 0 0, st) ∧ roundW m st (fSqrtV (f32v x)) = (rs.getD 2 0, st)) ∧
    (Rule.Reads32 x n → (-149 ≤ n → n ≤ 127 → Rule.Reads32 (out fExp2V) (2 ^ n)) ∧ (128 ≤ n → out fExp2V = 0x7F800000) ∧
      (n ≤ -150 → out fExp2V = 0) ∧ out fSinpiV = x &&& 0x80000000) ∧
    (Rule.Reads32 x (2 ^ n) → Rule.Reads32 (out fLog2V) n ∧ (n = 0 → out fLog2V = 0)) ∧
    (Rule.Reads32 x (n + 1 / 2) → out fSinpiV = if n % 2 = 0 then 0x3F800000 else 0xBF800000)

/-- R111, R113-R118: the conversions: what `i2f` and `unpk` read, the ranges of `f2i`, the integral values of `frnd`, and the elements that
are packed. -/
def Sys2Proof.Rule.Conversions : Prop :=
  ∀ (x st : Word) (b m : Nat) (v0 v1 : FVal), m < 5 →
    let byte : BitVec 8 := BitVec.ofNat 8 (x.toNat / 2 ^ (8 * (b / 8 % 4)))
    let half : BitVec 16 := BitVec.ofNat 16 (x.toNat / 2 ^ (16 * (b / 8 % 2)))
    let int := fun (v : FVal) (n : Int) => Rule.Is v (decide (n < 0)) n
    let into := fun (lo hi : Int) (v : FVal) => roundInt lo hi m st v
    let word := fun (r : Int × Word) => (BitVec.ofInt 32 r.1, r.2)
    int (i2fVal 0 x) x.toInt ∧ int (i2fVal 1 x) x.toNat ∧ int (i2fVal 2 x) (resCrt x) ∧
    Rule.Is (i2fVal 3 x) (decide (x.toInt < 0)) ((x.toInt : ℝ) / 2 ^ 16) ∧
    (∀ sel lo hi, (sel, lo, hi) ∈ ([(0, -2 ^ 31, 2 ^ 31 - 1), (1, 0, 2 ^ 32 - 1), (2, -2 ^ 15, 2 ^ 15 - 1), (3, 0, 2 ^ 16 - 1),
      (4, -2 ^ 7, 2 ^ 7 - 1), (5, 0, 2 ^ 8 - 1)] : List (Nat × Int × Int)) → f2iOp sel m x st = word (into lo hi (f32v x))) ∧
    (let r := into (-2 ^ 31) (2 ^ 31 - 1) (f32v x);
      f2iOp 6 m x st = (resEnc (max (-8388480) (min r.1 8388479)), r.2)) ∧
    f2iOp 7 m x st = word (into (-2 ^ 31) (2 ^ 31 - 1) (fMul (f32v x) (.exact false 1 16))) ∧
    (b % 8 = 0 → unpkVal b x = fval f16F half.toNat) ∧ (b % 8 = 1 → unpkVal b x = fval bf16F half.toNat) ∧
    (b % 8 = 2 → unpkVal b x = fval e4m3F byte.toNat) ∧ (b % 8 = 3 → unpkVal b x = fval e5m2F byte.toNat) ∧
    (b % 8 = 4 → int (unpkVal b x) byte.toInt) ∧ (b % 8 = 5 → int (unpkVal b x) byte.toNat) ∧
    (b % 8 = 6 → int (unpkVal b x) half.toInt) ∧ (b % 8 = 7 → int (unpkVal b x) half.toNat) ∧
    (let mag := x.toNat % 2 ^ 31
      let neg := x.getLsbD 31
      (Rule.isNan32 x = true → frndOp m x st = (0x7FC00000, st)) ∧
      (Rule.isNan32 x = false → mag = 0 ∨ 0x4B000000 ≤ mag → frndOp m x st = (x, st)) ∧
      (0 < mag → mag < 0x4B000000 → ∀ y : ℝ, Rule.Reads32 x ((if neg = true then -1 else 1) * y) →
        ∃ k st', Rule.Quanta m neg st ⌊y⌋ (y - ⌊y⌋) k st' ∧ (frndOp m x st).2 = st' ∧
          Rule.Is (f32v (frndOp m x st).1) neg ((if neg = true then -1 else 1) * k))) ∧
    (∀ t w sat, let r0 := roundF t m sat st v0
      let r1 := roundF t m sat r0.2 v1
      pack2 t w m sat v0 v1 st = (BitVec.ofNat 32 (r1.1 * 2 ^ w + r0.1), r1.2)) ∧
    [0, 1, 2, 3, 4, 5].map (fun k => (hFmt k, hMode k)) = [(f16F, 0), (f16F, 4), (bf16F, 0), (bf16F, 4), (f16F, 1), (bf16F, 1)]

/-- R64, R106-R108, R111-R119, R130: the values of the floating rows. Of `fexp2`, `flog2` and `fsinpi` it states the operands whose results R112
gives. -/
def Obligations.FloatResults : Prop :=
  Rule.FloatSelects ∧ Rule.FloatCompares ∧ Rule.FloatSums ∧ Rule.ExactSums ∧ Rule.Functions ∧ Rule.FunctionCases ∧ Rule.Conversions


/-- R109: `fsgn` writes x with its sign bit replaced, inverted, cleared or exchanged, and the default NaN for a NaN. Under `.neg`
and `.abs` field b is not read. -/
def Sys2Proof.Rule.FloatSigns : Prop :=
  ∀ (d a b : Reg) (m : BitVec 3) (s : State), m.toNat < 4 →
    let reads := if m = 1 ∨ m = 2 then [a] else [a, b]
    s.regsReady [d] reads = true →
      Rule.Writes (.fsgn d a b m) s s.active ⟨d, reads, fun l =>
        let x := s.x l a
        let top := (s.x l b).getLsbD 31
        let sign := match m.toNat with
          | 0 => top
          | 1 => !x.getLsbD 31
          | 2 => false
          | _ => Bool.xor (x.getLsbD 31) top
        if Rule.isNan32 x then 0x7FC00000 else BitVec.ofNat 32 ((if sign = true then 2 ^ 31 else 0) + x.toNat % 2 ^ 31)⟩

/-- R110: `fclass` writes the one bit of the class of its source. -/
def Sys2Proof.Rule.FloatClasses : Prop :=
  ∀ (d a : Reg) (s : State), s.regsReady [d] [a] = true →
    Rule.Writes (.fclass d a) s s.active ⟨d, [a], fun l =>
      let x := s.x l a
      let neg := x.getLsbD 31
      let mag := x.toNat % 2 ^ 31
      if 0x7F800000 < mag then 1
      else if mag = 0x7F800000 then (if neg = true then 2 else 256)
      else if mag = 0 then (if neg = true then 16 else 32)
      else if mag < 0x00800000 then (if neg = true then 8 else 64)
      else (if neg = true then 4 else 128)⟩

/-- R109, R110: opcodes 0x3D and 0x3E; the code scanner accepts no other m of `fsgn` than 0 to 3, and a register number that traps
faults `F_REGINDEX` with nothing written. -/
def Sys2Proof.Rule.FloatSignForms : Prop :=
  ∀ (d a b : Reg) (m : BitVec 3) (s : State) (n : Nat),
    let reads := if m = 1 ∨ m = 2 then [a] else [a, b]
    let regindex := fun (n : Nat) => s.trapCur { code := 2, detail := 0, addr := BitVec.ofNat 64 n, mask := s.active, part := false }
    (∃ w, encode (.fsgn d a b m) = some w ∧ wOp w = 0x3D) ∧ (∃ w, encode (.fclass d a) = some w ∧ wOp w = 0x3E) ∧
    (4 ≤ m.toNat → (Instr.fsgn d a b m).wf = false) ∧
    (m.toNat < 4 → badReg s.cur s.csp (d :: reads) = some n → exec (.fsgn d a b m) s = .next (regindex n)) ∧
    (badReg s.cur s.csp [d, a] = some n → exec (.fclass d a) s = .next (regindex n))

/-- R109 and R110: `fsgn` and `fclass`. That d comes before the sources, and that the active lanes make up the mask of `F_REGINDEX`, is the
model's reading, named in log entry 40. -/
def Obligations.FloatSignsAndClasses : Prop := Rule.FloatSigns ∧ Rule.FloatClasses ∧ Rule.FloatSignForms


/-- R122, R124, R127-R133: the cross-lane instructions but `sort` and `topk`, once no other split of the group has a register write
under way in ordered mode, nor waits for one (R126); until then they hold their split. A register that they cannot use faults. -/
def Sys2Proof.Rule.CrossLaneWrites : Prop :=
  ∀ (i : Instr) (s : State) (r : Rule.Result), Rule.crossLane s i = some r →
    (s.othersBusy = false → s.othersWait = false →
      (s.regsReady [r.dest] r.reads = true → Rule.Writes i s s.active r) ∧ Rule.RegisterTraps i s s.active r.dest r.reads) ∧
    (s.othersBusy = true → exec i s = .next (s.stallCur .scoreboard)) ∧
    (s.othersBusy = false → s.othersWait = true → exec i s = .next (s.stallCur .oneWait))

/-- R130: what a reduction or a scan makes of the values of its lanes. -/
def Sys2Proof.Rule.Reductions : Prop :=
  ∀ vs : List Word,
    (reduceOp 0 vs).toNat = (vs.map (·.toNat)).sum % 2 ^ 32 ∧
    (vs ≠ [] → reduceOp 1 vs = BitVec.ofNat 32 (roundF f32F 0 false 0 (exactSum (vs.map f32v))).1) ∧
    (vs ≠ [] → ∀ k, 2 ≤ k → k < 6 → reduceOp k vs ∈ vs) ∧
    (∀ v ∈ vs, (reduceOp 2 vs).toInt ≤ v.toInt ∧ v.toInt ≤ (reduceOp 3 vs).toInt ∧ (reduceOp 4 vs).toNat ≤ v.toNat ∧
      v.toNat ≤ (reduceOp 5 vs).toNat) ∧
    (∀ k, k < 32 → ((reduceOp 6 vs).getLsbD k = true ↔ ∃ v ∈ vs, v.getLsbD k = true) ∧
      ((reduceOp 7 vs).getLsbD k = true ↔ ∀ v ∈ vs, v.getLsbD k = true)) ∧
    (List.range 8).map (fun k => reduceOp k []) = [0, 0, 0x7FFFFFFF, 0x80000000, 0xFFFFFFFF, 0, 0, 0xFFFFFFFF]

/-- R134-R137: `sort` writes the key (or, for m odd, the lane) of rank k to the k-th active lane, and `topk` the comparison of a
lane's descending rank with its own vB, or that rank; a register that they cannot use faults. -/
def Sys2Proof.Rule.SortAndTopk : Prop :=
  ∀ (d a b : Reg) (m : BitVec 3) (s : State), s.othersBusy = false → s.othersWait = false →
    (s.regsReady [d] [a] = true →
      ∃ t, exec (.sort d a b m) s = .next t ∧ RegisterStep s t [d] s.active (s.csp.pc + 4) ∧
        ∀ src lane : Nat, s.active.getLsbD src = true →
          (lanesOf s.active)[Rule.rank s a (b.toNat % 4) (decide (2 ≤ m.toNat)) src]? = some lane →
          s.regAt t d lane = s.kept d (if m.toNat % 2 = 1 then BitVec.ofNat 32 src
            else if b.toNat % 4 = 2 ∧ Rule.isNan32 (s.x src a) then 0x7FC00000 else s.x src a)) ∧
    Rule.RegisterTraps (.sort d a b m) s s.active d [a] ∧
    Rule.RegisterTraps (.topk d a b m) s s.active d (if m.toNat < 4 then [a, b] else [a]) ∧
    (s.regsReady [d] (if m.toNat < 4 then [a, b] else [a]) = true →
      Rule.Writes (.topk d a b m) s s.active ⟨d, if m.toNat < 4 then [a, b] else [a], fun l =>
        let rank := Rule.rank s a (m.toNat % 4) true l
        if m.toNat < 4 then (if rank < (s.x l b).toNat then 1 else 0) else BitVec.ofNat 32 rank⟩)

/-- R122, R124, R126-R137: the cross-lane instructions, `sort` and `topk`. The order in which registers are tested, and the mask of their fault,
are the model's reading, named in log entry 40. -/
def Obligations.CrossLane : Prop := Rule.CrossLaneWrites ∧ Rule.Reductions ∧ Rule.SortAndTopk

/-! ### Nesting, branches, splits and control registers -/

namespace Sys2Proof.Rule
open Sys2Proof Sys2Proof.Machine

/-- The tests of cond3 1-4 (R33): `.z`, `.nz`, `.lt`, `.ge`. -/
def branchTest (c : Nat) (x : Word) : Bool :=
  match c with
  | 1 => decide (x = 0)
  | 2 => decide (x ≠ 0)
  | 3 => decide (x.toInt < 0)
  | _ => decide (0 ≤ x.toInt)

/-- cond(L) of `brk` and `cont` (R99) under the mode in bits 9:8. -/
def loopTest (i : BitVec 10) (x : Word) : Bool :=
  match (i.extractLsb' 8 2).toNat with
  | 0 => decide (x ≠ 0)
  | 1 => decide (x = 0)
  | 2 => true
  | _ => false

/-- The registers that `brk` and `cont` read (R98). -/
def loopReads (a : Reg) (i : BitVec 10) : List Reg := if (i.extractLsb' 8 2).toNat < 2 then [a] else []

/-- The rows of R99 and R100: the registers read, and c′ of a lane from its counter c. -/
def nesting (s : State) (i : Instr) : Option (List Reg × (Nat → Nat → Nat)) :=
  let enter := fun (cond : Nat → Bool) (l c : Nat) => if 0 < c then c + 1 else if cond l = true then 0 else 1
  match i with
  | .laneIf a m =>
    some ([a], enter fun l => match m.toNat with
      | 0 => decide (s.x l a ≠ 0)
      | 1 => decide (s.x l a = 0)
      | 2 => decide ((s.x l a).toInt < 0)
      | _ => decide (0 ≤ (s.x l a).toInt))
  | .laneIfi a i => some ([a], enter fun l => decide (s.x l a &&& i.setWidth 32 ≠ 0))
  | .laneElse => some ([], fun _ c => if c = 0 then 1 else if c = 1 then 0 else c)
  | .endif => some ([], fun _ c => c - 1)
  | .lbeg => some ([], fun _ c => if 0 < c then c + 2 else 0)
  | .brk a i =>
    some (loopReads a i, fun l c => if c = 0 ∧ loopTest i (s.x l a) = true then (i.extractLsb' 0 8).toNat + 2 else c)
  | .cont a i =>
    some (loopReads a i, fun l c => if c = 0 ∧ loopTest i (s.x l a) = true then (i.extractLsb' 0 8).toNat + 1 else c)
  | .lnext => some ([], fun _ c => if c = 1 then 0 else c)
  | .lend => some ([], fun _ c => if c = 2 then 0 else if 3 ≤ c then c - 2 else c)
  | _ => none

/-- The instruction completes and its split goes on at `pc`; no register, no counter and no memory changes. -/
def Jumps (i : Instr) (s : State) (pc : Dword) : Prop :=
  ∃ t, exec i s = .next t ∧ RegisterStep s t [] 0 pc

/-- The fault that a group-form instruction takes: its mask is the leader's bit (R271). -/
def leaderTrap (s : State) (code detail addr : Nat) : Trap :=
  { code := code, detail := detail, addr := BitVec.ofNat 64 addr, mask := s.leaderMask, part := false }

/-- The user-mode split `i` of group `k` may enter its handler: no other split of the group is in its own, the frame holds no fault that has
still to enter, and the block is resident (R273, R287). -/
def entersHandler (s : State) (k i : Nat) : Prop :=
  ((s.group k).split i).sup = false ∧ (s.group k).otherSup i = false ∧ (s.group k).framed = none ∧
    (s.block (s.group k).blk).st = .resident

end Sys2Proof.Rule

/-- R98-R100: a structured opcode gives every member lane its new counter and changes nothing else; where a counter would reach 256,
it raises `F_NEST` on those lanes instead. A register is read only where some lane's counter is 0, so its poison matters only there. -/
def Obligations.NestingCounters : Prop :=
  ∀ (i : Instr) (s : State) (reads : List Reg) (next : Nat → Nat → Nat), Rule.nesting s i = some (reads, next) →
    (s.regsReady [] reads = true ∨ s.regsReady reads [] = true ∧ s.active = 0) →
    ((∀ lane, s.csp.members.getLsbD lane = true → next lane (s.cur.counter lane) < 256) →
      ∃ t, exec i s = .next t ∧ CounterStep s t (s.csp.pc + 4) ∧
        ∀ lane, s.csp.members.getLsbD lane = true → t.cur.counter lane = next lane (s.cur.counter lane)) ∧
    ((∃ lane, s.csp.members.getLsbD lane = true ∧ 256 ≤ next lane (s.cur.counter lane)) →
      exec i s = .next (s.trapCur
        { code := 3, detail := 0, addr := 0, part := false
          mask := maskOf ((lanesOf s.csp.members).filter fun l => decide (256 ≤ next l (s.cur.counter l))) }))

/-- R77, R78: `gbr`, `gbc`, `gret` and `gjr` move the whole split; a register target that is not word-aligned faults `F_ALIGN` with
the target as its address. -/
def Sys2Proof.Rule.MovingBranches : Prop :=
  ∀ (s : State) (a : Reg) (c : BitVec 3) (f : BitVec 14),
    let target := s.csp.pc + 4 * f.signExtend 64
    let here : Dword := s.csp.pc.extractLsb' 32 32 ++ s.u a
    Rule.Jumps (.gbr f) s target ∧
    (1 ≤ c.toNat ∧ c.toNat ≤ 4 → s.regsReady [] [a] = true →
      Rule.Jumps (.gbc a c f) s (if Rule.branchTest c.toNat (s.u a) = true then target else s.csp.pc + 4)) ∧
    Rule.Jumps (.gbc a 5 f) s (if s.active ≠ 0 then target else s.csp.pc + 4) ∧
    Rule.Jumps (.gbc a 6 f) s (if s.active = 0 then target else s.csp.pc + 4) ∧
    (s.regsReady [] [a] = true →
      (if (s.u a).toNat % 4 = 0 then Rule.Jumps (.gret a) s here ∧ Rule.Jumps (.gjr a) s here
       else exec (.gret a) s = .next (s.trapCur (Rule.leaderTrap s 5 0 here.toNat)) ∧
         exec (.gjr a) s = .next (s.trapCur (Rule.leaderTrap s 5 0 here.toNat))))

/-- R77: `gcall` writes the low word of PC + 4 to its link register in every member lane and goes to its target. -/
def Sys2Proof.Rule.CallLinks : Prop :=
  ∀ (s : State) (a : Reg) (f : BitVec 14), s.regsReady [a] [] = true →
    ∃ t, exec (.gcall a f) s = .next t ∧ RegisterStep s t [a] s.csp.members (s.csp.pc + 4 * f.signExtend 64) ∧
      ∀ lane, s.csp.members.getLsbD lane = true → s.regAt t a lane = s.kept a ((s.csp.pc + 4).extractLsb' 0 32)

/-- R79: `gbrd` moves the split where its lanes agree; where they do not, the lanes that take the branch stay in it at the target,
the others form a split at PC + 4 under the lowest free index, or a pending record where none is free, and both parts have their
PC as region entry outside a handler. -/
def Sys2Proof.Rule.DividingBranch : Prop :=
  ∀ (s : State) (a : Reg) (c : BitVec 3) (f : BitVec 14), 1 ≤ c.toNat ∧ c.toNat ≤ 4 → s.regsReady [] [a] = true →
    let target := s.csp.pc + 4 * f.signExtend 64
    let taken := maskOf ((lanesOf s.active).filter fun l => Rule.branchTest c.toNat (s.x l a))
    let rest := s.csp.members &&& ~~~ taken
    (taken = 0 → Rule.Jumps (.gbrd a c f) s (s.csp.pc + 4)) ∧
    (taken ≠ 0 → rest = 0 → Rule.Jumps (.gbrd a c f) s target) ∧
    (taken ≠ 0 → rest ≠ 0 → mapFind s.cur.splits s.cs = some s.csp →
      ∃ t, exec (.gbrd a c f) s = .next t ∧ OnlyGroup s t ∧ SameMemory s t ∧ Retired s t ∧
        (∀ loc lane, t.cur.rd loc lane = s.cur.rd loc lane) ∧ t.cur.cnt = s.cur.cnt ∧
        t.csp.members = taken ∧ t.csp.pc = target ∧ t.csp.kix = s.csp.kix ∧ t.csp.sup = s.csp.sup ∧
        t.csp.region = (if s.csp.sup = true then s.csp.region else target) ∧
        (∀ i, freeIndex s.cur.splits = some i →
          (t.cur.split i).members = rest ∧ (t.cur.split i).pc = s.csp.pc + 4 ∧ (t.cur.split i).kix = s.csp.kix ∧
          (t.cur.split i).sup = s.csp.sup ∧ t.cur.stack = s.cur.stack ∧
          (t.cur.split i).region = (if s.csp.sup = true then s.csp.region else s.csp.pc + 4)) ∧
        (freeIndex s.cur.splits = none →
          ∃ r, t.cur.stack = r :: s.cur.stack ∧ r.barrier = false ∧ r.sp.members = rest ∧ r.sp.pc = s.csp.pc + 4 ∧
            r.sp.kix = s.csp.kix ∧ r.sp.sup = s.csp.sup ∧
            r.sp.region = (if s.csp.sup = true then s.csp.region else s.csp.pc + 4)))

/-- R76, R80: `gjoin` completes from every state and changes only its group; the only split of a group goes on at once, with PC + 4
as its region entry outside a handler; while the group has other splits that do not wait at a join, a waiting `gjoin` that
finds no partner waits. -/
def Sys2Proof.Rule.Join : Prop :=
  ∀ (s : State) (m : BitVec 3),
    (∃ t, exec (.gjoin m) s = .next t ∧ OnlyGroup s t ∧ SameMemory s t ∧ Retired s t ∧
      ∀ loc lane, t.cur.rd loc lane = s.cur.rd loc lane) ∧
    (∀ sp, s.cur.splits = [(s.cs, sp)] → s.cur.stack = [] →
      ∃ t, exec (.gjoin m) s = .next t ∧ t.csp.pc = s.csp.pc + 4 ∧ t.csp.st = .running ∧ t.csp.members = s.csp.members ∧
        (s.csp.sup = false → t.csp.region = s.csp.pc + 4)) ∧
    (m = 0 → s.cur.stack = [] → 1 < s.cur.splits.length → (∀ e ∈ s.cur.splits, e.2.st ≠ .atJoin) →
      ∃ t, exec (.gjoin m) s = .next t ∧ t.csp.st = .atJoin ∧ t.csp.pc = s.csp.pc)

/-- R66, R75, R76, R80: a split that reaches a `gjoin` where one of its mode waits merges with it: the lower index stays, with the lanes of both
and the `K_IX` of the part with the lowest lane. Under `.nw`, or as the only split of its group, it goes on; else it waits. The higher index
is freed for the newest pending record. Of splits that all wait, at several places, the one at the lowest goes on. -/
def Sys2Proof.Rule.Merge : Prop :=
  ∀ (s : State) (m : BitVec 3), mapFind s.cur.splits s.cs = some s.csp → mapSortedFrom 0 s.cur.splits = true →
    let pc := s.csp.pc
    let here := fun (sp : Split) => sp.st = .atJoin ∧ sp.pc = pc ∧ sp.sup = s.csp.sup
    (∀ j p, j ≠ s.cs → mapFind s.cur.splits j = some p → here p → (∀ e ∈ s.cur.splits, e.1 ≠ j → e.1 ≠ s.cs → ¬ here e.2) →
      let low := min s.cs j
      let high := max s.cs j
      let both := s.csp.members ||| p.members
      ∃ t, exec (.gjoin m) s = .next t ∧ mapSortedFrom 0 t.cur.splits = true ∧ t.cur.cnt = s.cur.cnt ∧ (t.cur.split low).members = both ∧
        (t.cur.split low).kix = (if lowestLane s.csp.members ≤ lowestLane p.members then s.csp.kix else p.kix) ∧
        (m = 1 ∨ (s.cur.splits.length = 2 ∧ s.cur.stack = []) →
          (t.cur.split low).pc = pc + 4 ∧ (t.cur.split low).st = .running ∧ ((s.cur.split low).sup = false → (t.cur.split low).region = pc + 4)) ∧
        (m ≠ 1 → (∃ e ∈ s.cur.splits, e.1 ≠ s.cs ∧ e.2.st ≠ .atJoin) ∨ (∃ r ∈ s.cur.stack, r.barrier = true) →
          (t.cur.split low).pc = pc ∧ (t.cur.split low).st = .atJoin) ∧
        (takePending s.cur.stack = none → mapFind t.cur.splits high = none ∧ t.cur.stack = s.cur.stack) ∧
        ∀ i r rest, takePending s.cur.stack = some (r, rest) → freeIndex (mapDel s.cur.splits high) = some i →
          t.cur.stack = rest ∧ (t.cur.split i).pc = r.pc ∧ (t.cur.split i).members = r.members ∧ (t.cur.split i).kix = r.kix ∧
          (t.cur.split i).st = .running ∧ (r.sup = false → (t.cur.split i).region = r.pc)) ∧
    (∀ k sp, m ≠ 1 → s.cur.stack = [] → (∀ e ∈ s.cur.splits, e.1 ≠ s.cs → e.2.st = .atJoin ∧ e.2.pc ≠ pc) →
      1 < s.cur.splits.length → mapFind s.cur.splits k = some sp → (∀ e ∈ s.cur.splits, e.1 ≠ k → sp.pc.toNat < e.2.pc.toNat) →
      ∃ t, exec (.gjoin m) s = .next t ∧ (t.cur.split k).pc = sp.pc + 4 ∧ (t.cur.split k).st = .running ∧
        ∀ e ∈ s.cur.splits, e.1 ≠ k → (t.cur.split e.1).st = .atJoin ∧ (t.cur.split e.1).pc = e.2.pc)

/-- R66, R75, R76, R79, R80: `gbrd` and `gjoin`. That a `gjoin` counts as retired at its issue, while it still waits, is the model's choice of log
entry 13. -/
def Obligations.SplitsAndJoins : Prop := Rule.DividingBranch ∧ Rule.Join ∧ Rule.Merge


/-- R81: `gregion` makes its own address the region entry of a user-mode split, and takes the region's snapshot (R277). -/
def Obligations.RegionEntry : Prop :=
  ∀ s : State,
    ∃ t, exec .gregion s = .next t ∧ OnlyGroup s t ∧ SameMemory s t ∧ Retired s t ∧ t.csp.pc = s.csp.pc + 4 ∧
      (∀ loc lane, t.cur.rd loc lane = s.cur.rd loc lane) ∧ t.cur.cnt = s.cur.cnt ∧
      t.csp.region = (if s.csp.sup = true then s.csp.region else s.csp.pc) ∧
      (s.csp.sup = false →
        t.csp.snap.kix = s.csp.kix ∧ t.csp.snap.retired = s.cur.retired ∧ t.csp.snap.quantum = s.curLaunch.quantum ∧
        t.csp.snap.fill = s.cur.qbuf.length ∧
        ∀ lane, s.csp.members.getLsbD lane = true →
          mapGet 0 t.csp.snap.cnt lane = mapGet 0 s.cur.cnt lane ∧ mapGet 0 t.csp.snap.gen lane = s.genOf lane)

/-- R39, R86: `grdc` reads a control register into d, a 64-bit one into d and d+1, in any mode. -/
def Sys2Proof.Rule.ControlReads : Prop :=
  ∀ (d : Reg) (i : BitVec 10) (s : State),
    if wideReg i.toNat = true then
      s.regsReady [d, d + 1] [] = true →
      ∃ t, exec (.grdc d i) s = .next t ∧ RegisterStep s t [d, d + 1] s.csp.members (s.csp.pc + 4) ∧
        ∀ lane, s.csp.members.getLsbD lane = true →
          s.regAt t d lane = s.kept d ((s.ctrl i.toNat).extractLsb' 0 32) ∧
          s.regAt t (d + 1) lane = s.kept (d + 1) ((s.ctrl i.toNat).extractLsb' 32 32)
    else
      s.regsReady [d] [] = true → Rule.Writes (.grdc d i) s s.csp.members ⟨d, [], fun _ => (s.ctrl i.toNat).extractLsb' 0 32⟩

/-- R86, R270: `gwrc` gives a control register the leader's value, for the split's next instruction; a supervisor register is
written with supervisor rights only, and else the instruction faults `F_PROT` with detail 4. -/
def Sys2Proof.Rule.ControlWrites : Prop :=
  ∀ (a : Reg) (i : BitVec 10) (s : State),
    let n := i.toNat
    let v : Dword := if wideReg n = true then s.u (a + 1) ++ s.u a else (s.u a).setWidth 64
    (s.regsReady [] (if wideReg n = true then [a, a + 1] else [a]) = true → supReg n = false ∨ s.privileged = true →
      exec (.gwrc a i) s = .next (s.advance.setCtrl n v)) ∧
    (supReg n = true → s.privileged = false →
      exec (.gwrc a i) s = .next (s.trapCur (Rule.leaderTrap s 7 4 0)))

/-- R39, R270: after a permitted `gwrc` the written register reads as the value written. -/
def Sys2Proof.Rule.ControlReadBack : Prop :=
  ∀ (s : State) (x : Word) (v : Dword),
    (∀ n ∈ [0x010, 0x011, 0x012, 0x030, 0x031, 0x033, 0x3F0], (s.setCtrl n (x.setWidth 64)).ctrl n = x.setWidth 64) ∧
    (s.setCtrl 0x032 (x.setWidth 64)).ctrl 0x032 = (clampBcap x).setWidth 64 ∧
    (s.setCtrl 0x020 v).ctrl 0x020 = v

/-- R86: a `gwrc` changes the control register it names and no other, no register of a lane, no nesting counter and no memory. -/
def Sys2Proof.Rule.ControlWriteFrame : Prop :=
  ∀ (s : State) (n : Nat) (v : Dword),
    (∀ k, k ≠ n → (s.setCtrl n v).ctrl k = s.ctrl k) ∧ SameMemory s (s.setCtrl n v) ∧ (s.setCtrl n v).cur.cnt = s.cur.cnt ∧
      ∀ loc lane, (s.setCtrl n v).cur.rd loc lane = s.cur.rd loc lane

/-- R39, R66, R270, R273, R293: what the control registers hold; `K_IX` reads in a handler as in the code that faulted. That a number which R39
does not assign reads 0 is the model's choice of log entry 65. -/
def Sys2Proof.Rule.ControlValues : Prop :=
  ∀ s : State,
    let b := s.curBlock
    let l := s.curLaunch
    let c := s.context b.ctx
    let w := fun (n : Nat) => BitVec.ofNat 64 n
    s.ctrl 0x000 = w s.cur.gid ∧ s.ctrl 0x001 = w b.bid ∧ s.ctrl 0x005 = w b.pid ∧ s.ctrl 0x006 = w b.lid ∧
    (0 < l.gx → 0 < l.gy → b.bid < 2 ^ 64 → (s.ctrl 0x002).toNat < l.gx ∧ (s.ctrl 0x003).toNat < l.gy ∧
      b.bid = (s.ctrl 0x002).toNat + l.gx * ((s.ctrl 0x003).toNat + l.gy * (s.ctrl 0x004).toNat)) ∧
    (s.csp.sup = false → s.ctrl 0x010 = s.csp.kix.setWidth 64) ∧
    (∀ f, s.csp.sup = true → s.cur.frame = some f → s.ctrl 0x010 = f.kix.setWidth 64) ∧
    s.ctrl 0x011 = s.cur.kwto.setWidth 64 ∧ s.ctrl 0x012 = s.cur.khwin.setWidth 64 ∧
    (b.core < 192 → s.ctrl 0x020 = c.fvec) ∧ (192 ≤ b.core → s.ctrl 0x020 = (s.core b.core).fvec) ∧
    s.ctrl 0x021 = s.cur.fcode.setWidth 64 ∧ s.ctrl 0x022 = s.cur.faddr ∧ s.ctrl 0x023 = s.cur.fmask.setWidth 64 ∧ s.ctrl 0x024 = s.cur.fregion ∧
    s.ctrl 0x030 = c.parkn.setWidth 64 ∧ s.ctrl 0x031 = c.parkt.setWidth 64 ∧ s.ctrl 0x032 = c.bcap.setWidth 64 ∧
    s.ctrl 0x033 = c.drain.setWidth 64 ∧ (l.q ≠ 0 → s.ctrl 0x040 = w l.quantum) ∧ (l.q = 0 → s.ctrl 0x040 = 0) ∧ s.ctrl 0x041 = w l.q ∧
    s.ctrl 0x042 = s.cur.retired ∧ s.ctrl 0x043 = w s.now ∧ s.ctrl 0x3F0 = s.dseed.setWidth 64 ∧ s.ctrl 0x3F1 = s.dready.setWidth 64 ∧
    ∀ n, n ∉ ([0x000, 0x001, 0x002, 0x003, 0x004, 0x005, 0x006, 0x010, 0x011, 0x012, 0x020, 0x021, 0x022, 0x023, 0x024, 0x030, 0x031, 0x032,
      0x033, 0x040, 0x041, 0x042, 0x043, 0x3F0, 0x3F1] : List Nat) → s.ctrl n = 0

/-- R39, R66, R86, R270: `grdc`, `gwrc` and the values of the control registers. That a `gwrc` of a number which R39 does not assign only retires,
and that such a number reads 0, is the model's choice of log entry 65. -/
def Obligations.ControlRegisters : Prop := Rule.ControlValues ∧ Rule.ControlReads ∧ Rule.ControlWrites ∧ Rule.ControlReadBack ∧ Rule.ControlWriteFrame


/-- R73: `galloc` sets the allocation to 2^k registers and writes the old one to d; registers that a shrink drops read 0, and a load, a token
or a status on its way to one of them is not written; the region entry becomes PC + 4. A size below the header's or above 512 registers faults
`F_REGINDEX` with k as its address. -/
def Obligations.Allocation : Prop :=
  ∀ (d a : Reg) (i : BitVec 10) (s : State), s.regsReady [] (if i = 0 then [a] else []) = true →
    let k := if i = 0 then (s.u a).toNat else i.toNat
    (s.curBlock.regsLog2 ≤ k ∧ k ≤ 9 → (s.putCur (s.cur.setAlloc k)).regsReady [d] [] = true →
      ∃ t, exec (.galloc d a i) s = .next t ∧ t = { s with groups := t.groups, cores := t.cores, clusters := t.clusters } ∧ SameMemory s t ∧
        (∀ j, j ≠ s.cg → t.group j = s.group j) ∧ (s.cur.alloc ≤ 2 ^ k → OnlyGroup s t) ∧ Retired s t ∧ t.cur.alloc = 2 ^ k ∧
        (2 ^ k < s.cur.alloc → ∀ n,
          ((∃ p ∈ t.cur.ploads, .reg n ∈ p.locs ∨ ∃ w ∈ p.writes, w.loc = .reg n) ∨ (∃ x ∈ t.cur.tokens, x.loc = .reg n) ∨
            ∃ p ∈ t.cur.pends, p.loc = .reg n) → n < 2 ^ k) ∧
        t.csp.pc = s.csp.pc + 4 ∧ (s.csp.sup = false → t.csp.region = s.csp.pc + 4) ∧ t.cur.cnt = s.cur.cnt ∧
        (∀ n lane, lane < 32 → RegLoc.reg n ≠ t.cur.loc s.csp d →
          t.cur.rd (.reg n) lane = if n < 2 ^ k then s.cur.rd (.reg n) lane else 0) ∧
        ∀ lane n, s.csp.members.getLsbD lane = true → t.cur.loc s.csp d = .reg n →
          t.cur.rd (.reg n) lane = BitVec.ofNat 32 s.cur.alloc) ∧
    (k < s.curBlock.regsLog2 ∨ 9 < k →
      exec (.galloc d a i) s = .next (s.openRegion.trapCur (Rule.leaderTrap s 2 0 k)))

/-- R96: `lea` writes the checked byte offset in each active lane and accesses no memory; an unusable entry or an offset beyond
the effective limit faults `F_HANDLE` and writes no lane. It waits while the row of its entry is under test (R159). -/
def Sys2Proof.Rule.LaneOffsets : Prop :=
  ∀ (d a : Reg) (h : BitVec 5) (o : BitVec 5) (s : State), s.regsReady [d] [a] = true →
    let hnum := s.cur.khwin.toNat + h.toNat
    let e := (s.curHandle hnum).2
    let s1 := (s.curHandle hnum).1
    let offset := fun l => (s.x l a).toNat + 4 * o.toNat
    (s.active = 0 → Rule.Jumps (.lea d h a o) s (s.csp.pc + 4)) ∧
    (s.active ≠ 0 → s.curHandleTested hnum = true → exec (.lea d h a o) s = .next (s.stallCur .full)) ∧
    (s.active ≠ 0 → s.curHandleTested hnum = false →
    (e.usable = true → (∀ l, s.active.getLsbD l = true → withinFault e s.curBlock (offset l) = none) →
      ∃ t, exec (.lea d h a o) s = .next t ∧ CachesFilled s s1 ∧ RegisterStep s1 t [d] s.active (s.csp.pc + 4) ∧
        ∀ lane, s.active.getLsbD lane = true → s.regAt t d lane = s.kept d (s.x lane a + 4 * o.setWidth 32)) ∧
    (e.usable = false →
      exec (.lea d h a o) s = .next (s1.trapCur
        { code := 4, detail := 1, addr := BitVec.ofNat 64 (handleAddr hnum (offset (lowestLane s.active)))
          mask := s.active, part := false })) ∧
    (∀ bad, bad = (lanesOf s.active).filter (fun l => (withinFault e s.curBlock (offset l)).isSome) → e.usable = true → bad ≠ [] →
      exec (.lea d h a o) s = .next (s1.trapCur
        { code := 4, detail := (withinFault e s.curBlock (offset (bad.headD 0))).getD 2
          addr := BitVec.ofNat 64 (handleAddr hnum (offset (bad.headD 0))), mask := maskOf bad, part := false })))

/-- R87: `glea` writes the checked offset and accesses no memory; an unusable entry or an offset beyond its
effective limit faults `F_HANDLE`. It waits while the row of its entry is under test (R159). -/
def Sys2Proof.Rule.GroupOffsets : Prop :=
  ∀ (d a b : Reg) (m : BitVec 3) (s : State), s.regsReady [d] [a, a + 1, b] = true →
    let hnum := (s.u a).toNat
    let off := (s.u (a + 1)).toNat + (s.u b).toNat * 2 ^ m.toNat
    let e := (s.curHandle hnum).2
    let s1 := (s.curHandle hnum).1
    (s.curHandleTested hnum = true → exec (.glea d a b m) s = .next (s.stallCur .full)) ∧
    (s.curHandleTested hnum = false →
    (e.usable = true → withinFault e s.curBlock off = none →
      ∃ t, exec (.glea d a b m) s = .next t ∧ CachesFilled s s1 ∧ RegisterStep s1 t [d] s.csp.members (s.csp.pc + 4) ∧
        ∀ lane, s.csp.members.getLsbD lane = true → s.regAt t d lane = s.kept d (BitVec.ofNat 32 off)) ∧
    (e.usable = false →
      exec (.glea d a b m) s = .next (s1.trapCur (Rule.leaderTrap s 4 1 (handleAddr hnum off)))) ∧
    (∀ detail, e.usable = true → withinFault e s.curBlock off = some detail →
      exec (.glea d a b m) s = .next (s1.trapCur (Rule.leaderTrap s 4 detail (handleAddr hnum off)))))

/-- R87, R96: `lea` and `glea`. -/
def Obligations.HandleOffsets : Prop := Rule.LaneOffsets ∧ Rule.GroupOffsets


/-- R88: `gnop` only advances its split. -/
def Sys2Proof.Rule.GroupNop : Prop := ∀ s : State, Rule.Jumps .gnop s (s.csp.pc + 4)

/-- R77, R78, R88: the branches that move a whole split, `gcall` and `gnop`. -/
def Obligations.Branches : Prop := Rule.MovingBranches ∧ Rule.CallLinks ∧ Rule.GroupNop


/-- R75, R82, R103: `gexit` and `lexit` complete in every mode and end lanes: an ended lane counts as exited, reads 0 in every register, and is a
member of no split, where no two splits had a lane in common; memory is unchanged. `gexit` frees its split's index, and the newest pending
record runs under the lowest free one; with the last split and record the group ends, and drains what it has outstanding. An exit that would
need a retirement-tracker entry while all 16 of the core are in use waits. -/
def Obligations.Exits : Prop :=
  ∀ (s : State) (a : Reg) (m : BitVec 3), mapFind s.groups s.cg = some s.cur → mapFind s.cur.splits s.cs = some s.csp →
    let who := maskOf ((lanesOf s.active).filter fun l =>
      match m.toNat with
      | 0 => true
      | 1 => decide (s.x l a ≠ 0)
      | _ => decide (s.x l a = 0))
    let apart := (∀ i, i ≠ s.cs → (s.cur.split i).members &&& s.csp.members = 0) ∧ ∀ r ∈ s.cur.stack, r.sp.members &&& s.csp.members = 0
    let left := fun (t : State) (gone : LaneMask) =>
      t.mem = s.mem ∧ t.hmem = s.hmem ∧ t.cg = s.cg ∧ (t.group s.cg).exited = s.cur.exited ||| gone ∧
        (∀ loc lane, gone.getLsbD lane = true → (t.group s.cg).rd loc lane = 0) ∧
        (apart → (∀ i, ((t.group s.cg).split i).members &&& gone = 0) ∧ ∀ r ∈ (t.group s.cg).stack, r.sp.members &&& gone = 0)
    (s.exitBlocked s.csp.members = false →
      ∃ t, exec .gexit s = .next t ∧ left t s.csp.members ∧
        (takePending s.cur.stack = none → mapFind (t.group s.cg).splits s.cs = none) ∧
        (∀ i r rest, takePending s.cur.stack = some (r, rest) → freeIndex (mapDel s.cur.splits s.cs) = some i →
          let x := (t.group s.cg).split i
          (t.group s.cg).stack = rest ∧ x.pc = r.pc ∧ x.members = r.members ∧ x.kix = r.kix ∧ x.st = .running ∧
            (r.sup = false → x.region = r.pc)) ∧
        (∀ sp, s.cur.splits = [(s.cs, sp)] → s.cur.stack = [] →
          (t.group s.cg).live = false ∧ (t.group s.cg).draining = s.cur.outstanding)) ∧
    (s.exitBlocked s.csp.members = true → exec .gexit s = .next (s.stallCur .retirement)) ∧
    (s.regsReady [] (if m = 0 then [] else [a]) = true →
      (s.exitBlocked who = false →
        ∃ t, exec (.lexit a m) s = .next t ∧ left t who ∧
          (s.csp.members &&& ~~~ who ≠ 0 →
            Retired s t ∧ t.csp.members = s.csp.members &&& ~~~ who ∧ t.csp.pc = s.csp.pc + 4 ∧
            ∀ lane, lane < 32 → who.getLsbD lane = false →
              t.cur.counter lane = s.cur.counter lane ∧ ∀ loc, t.cur.rd loc lane = s.cur.rd loc lane)) ∧
      (s.exitBlocked who = true → exec (.lexit a m) s = .next (s.stallCur .retirement)))

/-! ### Faults and handlers -/

/-- R272, R273: when an instruction of a user-mode split raises a fault and no other split of its group is in its handler, the fault
registers and the frame are written, every member lane becomes active, and the split enters its handler at `K_FVEC`. -/
def Sys2Proof.Rule.FaultEnters : Prop :=
  ∀ (s : State) (k i : Nat) (f : Trap), Rule.entersHandler s k i → i < 4 → f.detail < 256 → f.code < 256 →
    let t := takeFault s k i f
    let g := s.group k
    let sp := g.split i
    let g' := t.group k
    let sp' := g'.split i
    g'.fcode = BitVec.ofNat 32 (i * 2 ^ 18 + (if f.part = true then 2 ^ 16 else 0) + f.detail * 2 ^ 8 + f.code) ∧
    g'.faddr = f.addr ∧ g'.fmask = f.mask ∧ g'.fregion = sp'.region ∧
    sp'.region = (if f.part = true ∨ f.code = 0x0B then sp.pc + 4 else sp.region) ∧
    sp'.snap = (if f.part = true ∨ f.code = 0x0B then snapshotOf g sp (s.quantumOf k) else sp.snap) ∧
    sp'.sup = true ∧ sp'.pc = s.fvecOf k ∧ sp'.members = sp.members ∧ sp'.kix = sp.kix ∧
    (∃ fr, g'.frame = some fr ∧ fr.pc = sp.pc ∧ fr.kix = sp.kix ∧
      ∀ lane, sp.members.getLsbD lane = true → mapGet 0 fr.cnt lane = mapGet 0 g.cnt lane) ∧
    (∀ lane, g'.counter lane = if sp.members.getLsbD lane = true then 0 else g.counter lane) ∧
    (∀ j, j ≠ i → g'.split j = g.split j) ∧ (∀ loc lane, g'.rd loc lane = g.rd loc lane) ∧
    g'.retired = g.retired ∧ g'.held = g.held ∧ t = { s with groups := t.groups } ∧ ∀ j, j ≠ k → t.group j = s.group j

/-- R274: a held fault stands behind those raised earlier, or in the same cycle by a split of no higher index, and before the others. -/
def Sys2Proof.Rule.Queued (old : List HeldFault) (h : HeldFault) (new : List HeldFault) : Prop :=
  let first := fun (x : HeldFault) => x.since < h.since ∨ (x.since = h.since ∧ x.sp ≤ h.sp)
  ∃ front back, old = front ++ back ∧ new = front ++ h :: back ∧ (∀ x ∈ front, first x) ∧ ∀ x, back.head? = some x → ¬ first x

/-- R273, R287: while another split of the group is in its handler, or the frame holds a fault that has still to enter, the fault is held,
unless R274 lets it go first: its split is descheduled, and nothing but the group's list of held faults changes. -/
def Sys2Proof.Rule.FaultHeld : Prop :=
  ∀ (s : State) (k i : Nat) (f : Trap), ((s.group k).split i).sup = false → (s.group k).youngFrame i s.now = none →
    ((s.group k).otherSup i = true ∨ (s.group k).framed ≠ none) →
    let t := takeFault s k i f
    let g := s.group k
    let g' := t.group k
    Rule.Queued g.held { sp := i, trap := f, since := s.now } g'.held ∧ g'.split i = { g.split i with st := .heldFault } ∧
    (∀ j, j ≠ i → g'.split j = g.split j) ∧ g'.fcode = g.fcode ∧ g'.frame = g.frame ∧ g'.cnt = g.cnt ∧
    t = { s with groups := t.groups } ∧ ∀ j, j ≠ k → t.group j = s.group j

/-- R287: a fault that finds the frame free while its block is on its way off the core is recorded there, and its split waits at its
instruction. -/
def Sys2Proof.Rule.FaultRecorded : Prop :=
  ∀ (s : State) (k i : Nat) (f : Trap), ((s.group k).split i).sup = false → (s.group k).otherSup i = false → (s.group k).framed = none →
    (s.block (s.group k).blk).st ≠ .resident → i < 4 → f.detail < 256 → f.code < 256 →
    let t := takeFault s k i f
    let g := s.group k
    let g' := t.group k
    g'.fcode = BitVec.ofNat 32 (i * 2 ^ 18 + (if f.part = true then 2 ^ 16 else 0) + f.detail * 2 ^ 8 + f.code) ∧
    g'.faddr = f.addr ∧ g'.fmask = f.mask ∧ g'.held = g.held ∧ g'.cnt = g.cnt ∧
    (g'.split i).pc = (g.split i).pc ∧ (g'.split i).sup = false ∧ (g'.split i).st = .heldFault ∧
    (∃ fr, g'.frame = some fr ∧ fr.pc = (g.split i).pc ∧ fr.kix = (g.split i).kix) ∧
    (∀ j, j ≠ i → g'.split j = g.split j) ∧ t = { s with groups := t.groups } ∧ ∀ j, j ≠ k → t.group j = s.group j

/-- R274: of two faults of one cycle the lower split's enters first: the one that has entered is held, with its split back at the faulting
instruction. -/
def Sys2Proof.Rule.FaultOrder : Prop :=
  ∀ (s : State) (k i j : Nat) (f : Trap) (fr : Frame), ((s.group k).split i).sup = false → (s.group k).youngFrame i s.now = some j →
    (s.group k).frame = some fr → (s.block (s.group k).blk).st = .resident →
    let t := takeFault s k i f
    let g := s.group k
    let g' := t.group k
    i < j ∧ (g'.split i).sup = true ∧ (g'.split i).pc = s.fvecOf k ∧ g'.faddr = f.addr ∧ g'.fmask = f.mask ∧
    (∃ h, Rule.Queued g.held h g'.held ∧ h.sp = j ∧ h.since = fr.since ∧ h.trap.code = g.fcode.toNat % 256 ∧ h.trap.addr = g.faddr ∧
      h.trap.mask = g.fmask) ∧
    g'.split j = { g.split j with pc := fr.pc, kix := fr.kix, sup := false, st := .heldFault } ∧
    t = { s with groups := t.groups } ∧ ∀ n, n ≠ k → t.group n = s.group n

/-- R275, R354: a fault of a split that is in its handler is a double fault: the group stops, its wait and its requests in the bundle queue
with it, and a service record of kind 2 waits to be posted; on a compute core the context fails, and on a control core the record has the
context number 0xFFFFFFFF and the fault log receives a record of kind 7. -/
def Sys2Proof.Rule.DoubleFault : Prop :=
  ∀ (s : State) (k i : Nat) (f : Trap), ((s.group k).split i).sup = true →
    let t := takeFault s k i f
    let g := s.group k
    let b := s.block g.blk
    (∀ j sp, mapFind g.splits j = some sp → ((t.group k).split j).st = .halted) ∧
    (t.group k).wait = none ∧ (∀ q ∈ (t.core b.core).bqueue, q.g ≠ k) ∧
    (∃ r, t.svcWait = s.svcWait ++ [r] ∧ r.g = k ∧ r.upto = g.nextId ∧ r.words[0]? = some (BitVec.ofNat 32 (2 * 2 ^ 24)) ∧
      r.words[2]? = some (BitVec.ofNat 32 b.lid) ∧ r.words[3]? = some (BitVec.ofNat 32 b.bid) ∧ r.words[5]? = some g.fcode ∧
      r.words[1]? = some (if 192 ≤ b.core then 0xFFFFFFFF else BitVec.ofNat 32 b.ctx)) ∧
    (b.core < 192 → (t.context b.ctx).failed = true ∧ t.log = s.log) ∧
    (192 ≤ b.core → t.logtail = s.logtail + 1 ∧ (∃ r, mapFind t.log (s.logtail % 256) = some r ∧ r.kind = 7) ∧
      t.contexts = s.contexts) ∧
    SameMemory s t ∧ ∀ j, j ≠ k → t.group j = s.group j

/-- R272-R275, R287, R354: a fault enters its handler, is held, is recorded, gives way to a lower split's, or is a double fault. It rests on
choices of the model named in log entry 39. -/
def Obligations.FaultsTaken : Prop :=
  Rule.FaultEnters ∧ Rule.FaultHeld ∧ Rule.FaultRecorded ∧ Rule.FaultOrder ∧ Rule.DoubleFault


/-- R271, R280: `gtrap` takes the fault `F_TRAP`: its detail is imm17[7:0] and its address imm17; where its split may enter the
handler, it does so with PC + 4 as its region entry. In its handler the fault is a double fault. -/
def Obligations.DeliberateTrap : Prop :=
  ∀ (s : State) (j : BitVec 17),
    encode (.gtrap j) = some (0xA9000000 + j.setWidth 32) ∧
    exec (.gtrap j) s = .next (s.trapCur (Rule.leaderTrap s 0x0B (j.toNat % 256) j.toNat)) ∧
    (s.csp.sup = true → exec (.gtrap j) s = .next (doubleFault s s.cg s.cs).flushSvc) ∧
    (Rule.entersHandler s s.cg s.cs → s.svcWait = [] →
      ∃ t, exec (.gtrap j) s = .next t ∧ t.csp.sup = true ∧ t.csp.pc = s.fvecOf s.cg ∧ t.csp.region = s.csp.pc + 4 ∧
        t.cur.fregion = s.csp.pc + 4 ∧ t.cur.faddr = j.setWidth 64 ∧ t.cur.fmask = s.leaderMask ∧
        t.cur.fcode.extractLsb' 0 8 = 0x0B ∧ t.cur.fcode.extractLsb' 8 8 = j.setWidth 8)

/-- R270, R310, R311: the privileged instructions fault `F_PROT` with detail 4 in user mode on a compute core. -/
def Sys2Proof.Rule.PrivilegedTraps : Prop :=
  ∀ (s : State) (i : Instr), s.privileged = false →
    (∃ d a b m j, i ∈ [Instr.gmap d a b m, .gresume m, .gsvc j, .gqcfg d a b m, .gsplinter d a m, .ginvalPg d a b, .ginvalHnd d a b,
      .ginvalXon d a b, .ginvalXoff d a b, .ginvalRvk d a b, .glaunch d a, .gqend d a, .gdrainWait d a, .gdrainStop d a, .gdrainRun d a]) →
    exec i s = .next (s.trapCur (Rule.leaderTrap s 7 4 0))

/-- R279, R354: outside a handler `gresume` faults `F_PROT` with detail 4, on a control core too. -/
def Sys2Proof.Rule.ResumeOutsideHandler : Prop :=
  ∀ (s : State) (m : BitVec 3), s.csp.sup = false → exec (.gresume m) s = .next (s.trapCur (Rule.leaderTrap s 7 4 0))

/-- R270, R279: privileged instructions outside their mode. -/
def Obligations.Privilege : Prop := Rule.PrivilegedTraps ∧ Rule.ResumeOutsideHandler


/-- R278, R279: `gresume` returns the split to user mode. `.rgn` replays the region: its snapshot and its entry. `.next` restores
the frame and goes on behind the faulting instruction. With no fault held and no other split in a handler, the frame is freed.
Registers and memory stay. -/
def Sys2Proof.Rule.ResumeReturns : Prop :=
  ∀ (s : State) (m : BitVec 3) (fr : Frame), s.csp.sup = true → s.cur.frame = some fr → s.cur.held = [] →
    s.cur.framed = none → m = 0 ∨ m = 1 →
    ∃ t, exec (.gresume m) s = .next t ∧ OnlyGroup s t ∧ SameMemory s t ∧ t.csp.sup = false ∧ t.csp.st = .running ∧
      t.csp.members = s.csp.members ∧ t.csp.region = s.csp.region ∧
      (∀ loc lane, t.cur.rd loc lane = s.cur.rd loc lane) ∧ (∀ i, i ≠ s.cs → t.cur.split i = s.cur.split i) ∧
      (m = 0 → t.csp.pc = s.csp.region ∧ t.csp.kix = s.csp.snap.kix ∧
        ∀ lane, s.csp.members.getLsbD lane = true →
          mapGet 0 t.cur.cnt lane = mapGet 0 s.csp.snap.cnt lane ∧ t.genOf lane = mapGet 0 s.csp.snap.gen lane) ∧
      (m = 1 → t.csp.pc = fr.pc + 4 ∧ t.csp.kix = fr.kix ∧ t.cur.retired = s.cur.retired ∧
        ∀ lane, s.csp.members.getLsbD lane = true → mapGet 0 t.cur.cnt lane = mapGet 0 fr.cnt lane) ∧
      ((t.cur.splits.all fun e => !e.2.sup) = true → (t.cur.stack.all fun r => !r.sp.sup) = true → t.cur.frame = none)

/-- R279: `gresume.exit` ends every member lane: each counts as exited and reads 0 in every register, and memory stays. -/
def Sys2Proof.Rule.ResumeExits : Prop :=
  ∀ (s : State), s.csp.sup = true → s.exitBlocked s.csp.members = false →
    ∃ t, exec (.gresume 2) s = .next t ∧ t.mem = s.mem ∧ t.hmem = s.hmem ∧ (t.group s.cg).exited = s.cur.exited ||| s.csp.members ∧
      ∀ loc lane, s.csp.members.getLsbD lane = true → (t.group s.cg).rd loc lane = 0

/-- R279, R353: in a handler `gresume.rgn` and `gresume.next` complete whatever faults are held: the split is back in user mode with the
frame's `K_IX`, unless the group's next held fault is its own. -/
def Sys2Proof.Rule.ResumeCompletes : Prop :=
  ∀ (s : State) (m : BitVec 3), s.csp.sup = true → m = 0 ∨ m = 1 →
    ∃ t, exec (.gresume m) s = .next t ∧ OnlyGroup s t ∧ SameMemory s t ∧ t.csp.members = s.csp.members ∧
      (∀ loc lane, t.cur.rd loc lane = s.cur.rd loc lane) ∧
      ((∀ h ∈ s.cur.held, h.sp ≠ s.cs) → s.cur.framed = none → t.csp.sup = false ∧ t.csp.st = .running)

/-- R278, R279: `gresume`. -/
def Obligations.Resume : Prop := Rule.ResumeReturns ∧ Rule.ResumeExits ∧ Rule.ResumeCompletes


/-- R281: `gsvc` writes a record of kind 1 into the service queue, behind the records that the tail word does not count yet; a full queue
makes it wait, and so does a handler register of the record with a write outstanding (R149). -/
def Sys2Proof.Rule.ServiceRecord : Prop :=
  ∀ (s : State) (j : BitVec 17), s.privileged = true →
    let ready := ∀ n, n < 3 → s.cur.busy s.csp.members (.hreg n) = false
    let next := (s.physNum s.svcTail 4 + s.svcPosts.length) % 2 ^ 32
    let slot := s.svcBase + 32 * (next % 2048)
    let words : List Nat := [2 ^ 24 + j.toNat, s.curCtx % 2 ^ 32, s.curBlock.lid % 2 ^ 32, s.curBlock.bid % 2 ^ 32,
      s.cs % 4 * 256 + s.cur.gid % 32, (s.cur.rd (.hreg 0) s.leader).toNat, (s.cur.rd (.hreg 1) s.leader).toNat,
      (s.cur.rd (.hreg 2) s.leader).toNat]
    (¬ ready → exec (.gsvc j) s = .next (s.stallCur .scoreboard)) ∧
    (ready → (next + 2 ^ 32 - s.physNum s.svcHead 4) % 2 ^ 32 < 2048 → s.execPage slot = false →
      ∃ t p, exec (.gsvc j) s = .next t ∧ MemoryAfter [{ place := .glob slot 0, bytes := words.flatMap (leBytes 4) }] s t ∧
        t.svcPosts = s.svcPosts ++ [p] ∧ p.g = s.cg ∧ p.upto = s.cur.nextId ∧
        (s.cur.wait = none → t.csp.pc = s.csp.pc + 4 ∧ ∀ loc lane, t.cur.rd loc lane = s.cur.rd loc lane)) ∧
    (ready → 2048 ≤ (next + 2 ^ 32 - s.physNum s.svcHead 4) % 2 ^ 32 → exec (.gsvc j) s = .next (s.stallCur .service))

/-- R153, R281: the tail word counts the oldest record by a release at `.sys`: once the record is acknowledged, device time has passed its
completion time, and the earlier stores of its group have reached their ordering points. Until then nothing changes. -/
def Sys2Proof.Rule.ServiceTail : Prop :=
  ∀ (s : State) (p : SvcPost) (rest : List SvcPost), s.svcPosts = p :: rest →
    let met := p.due ≤ s.now ∧ p.ct < s.now ∧ s.releaseMet (s.group p.g) 4 p.upto = true
    (met → s.execPage s.svcTail = false →
      s.flushTail.svcPosts = rest ∧
        MemoryAfter [{ place := .glob s.svcTail 0, bytes := leBytes 4 ((s.physNum s.svcTail 4 + 1) % 2 ^ 32) }] s s.flushTail) ∧
    (¬ met → s.flushTail = s)

/-- R293: with supervisor rights `gqcfg` returns a queue's configuration; `.on` with a Q from 8 to 65536 sets it, `.off` clears it,
`.rd` leaves it, and a Q outside that range changes nothing and returns 0xFFFFFFFF. -/
def Sys2Proof.Rule.QueueConfiguration : Prop :=
  ∀ (d a b : Reg) (m : BitVec 3) (s : State), m.toNat < 3 → s.privileged = true → s.regsReady [d] [a, b] = true →
    let q := (s.u a).toNat
    let n := (s.u b).toNat
    let config := fun (t : State) => mapGet 0 (t.context s.curCtx).qcfg
    let bad := m = 1 ∧ (n < 8 ∨ 65536 < n)
    ∃ t, exec (.gqcfg d a b m) s = .next t ∧ t = { s with groups := t.groups, contexts := t.contexts } ∧ SameMemory s t ∧
      Retired s t ∧ t.csp.pc = s.csp.pc + 4 ∧
      (∀ lane, s.csp.members.getLsbD lane = true →
        s.regAt t d lane = s.kept d (if bad then 0xFFFFFFFF else BitVec.ofNat 32 (config s q))) ∧
      (∀ loc lane, lane < 32 → loc ≠ s.cur.loc s.csp d ∨ s.csp.members.getLsbD lane = false →
        t.cur.rd loc lane = s.cur.rd loc lane) ∧
      ∀ k, config t k = if k ≠ q ∨ bad ∨ m = 2 then config s k else if m = 0 then 0 else n

/-- R281, R293: `gsvc` and `gqcfg`. When a record counts as acknowledged is the model's choice of log entry 11. -/
def Obligations.Services : Prop := Rule.ServiceRecord ∧ Rule.ServiceTail ∧ Rule.QueueConfiguration

/-! ### Loads, stores and atomics -/

namespace Sys2Proof.Rule
open Sys2Proof Sys2Proof.Machine

/-- A lane-form memory instruction: its operand fields, its registers, its access size, and whether it is strong. -/
structure Access where
  h : BitVec 5
  a : Reg
  o : BitVec 5
  regs : List Reg
  size : Nat
  strong : Bool

/-- The word of four bytes, the j-th of a string. -/
def wordAt (bs : List Byte) (j : Nat) : Word := BitVec.ofNat 32 (leNat ((bs.drop (4 * j)).take 4))

/-- The rows of R149, with the register words made of the loaded bytes. -/
def load (i : Instr) : Option (Access × (List Byte → List Word)) :=
  match i with
  | .ldN8 d h a o => some (⟨h, a, o, [d], 1, false⟩, fun bs => [BitVec.ofNat 32 (leNat bs)])
  | .ldI8 d h a o => some (⟨h, a, o, [d], 1, false⟩, fun bs => [(BitVec.ofNat 8 (leNat bs)).signExtend 32])
  | .ldN16 d h a o => some (⟨h, a, o, [d], 2, false⟩, fun bs => [BitVec.ofNat 32 (leNat bs)])
  | .ldI16 d h a o => some (⟨h, a, o, [d], 2, false⟩, fun bs => [(BitVec.ofNat 16 (leNat bs)).signExtend 32])
  | .ldB32 d h a o => some (⟨h, a, o, [d], 4, false⟩, fun bs => [wordAt bs 0])
  | .ldB64 d h a o => some (⟨h, a, o, [d, d + 1], 8, false⟩, fun bs => [wordAt bs 0, wordAt bs 1])
  | .ldB128 d h a o =>
    some (⟨h, a, o, [d, d + 1, d + 2, d + 3], 16, false⟩, fun bs => [wordAt bs 0, wordAt bs 1, wordAt bs 2, wordAt bs 3])
  | .ldsB32 d h a o => some (⟨h, a, o, [d], 4, true⟩, fun bs => [wordAt bs 0])
  | .ldsB64 d h a o => some (⟨h, a, o, [d, d + 1], 8, true⟩, fun bs => [wordAt bs 0, wordAt bs 1])
  | _ => none

/-- The rows of R150: `regs` are the sources. -/
def store (i : Instr) : Option Access :=
  match i with
  | .stB8 d h a o => some ⟨h, a, o, [d], 1, false⟩
  | .stB16 d h a o => some ⟨h, a, o, [d], 2, false⟩
  | .stB32 d h a o => some ⟨h, a, o, [d], 4, false⟩
  | .stB64 d h a o => some ⟨h, a, o, [d, d + 1], 8, false⟩
  | .stB128 d h a o => some ⟨h, a, o, [d, d + 1, d + 2, d + 3], 16, false⟩
  | .stsB32 d h a o => some ⟨h, a, o, [d], 4, true⟩
  | .stsB64 d h a o => some ⟨h, a, o, [d, d + 1], 8, true⟩
  | _ => none

/-- The rows of R154: the first destination d, the opcode, the access (its `regs` are the sources beside the address), and the
destinations. -/
def atomic (i : Instr) : Option (Reg × Nat × Access × List Reg) :=
  match i with
  | .aadd d h a o => some (d, 0x70, ⟨h, a, o, [d], 4, true⟩, [d])
  | .afadd d h a o => some (d, 0x71, ⟨h, a, o, [d], 4, true⟩, [d])
  | .amin d h a o => some (d, 0x72, ⟨h, a, o, [d], 4, true⟩, [d])
  | .amax d h a o => some (d, 0x73, ⟨h, a, o, [d], 4, true⟩, [d])
  | .aand d h a o => some (d, 0x74, ⟨h, a, o, [d], 4, true⟩, [d])
  | .aor d h a o => some (d, 0x75, ⟨h, a, o, [d], 4, true⟩, [d])
  | .axor d h a o => some (d, 0x76, ⟨h, a, o, [d], 4, true⟩, [d])
  | .axch d h a o => some (d, 0x77, ⟨h, a, o, [d], 4, true⟩, [d])
  | .acas d h a o => some (d, 0x78, ⟨h, a, o, [d, d + 1], 4, true⟩, [d])
  | .aadd64 d h a o => some (d, 0x79, ⟨h, a, o, [d, d + 1], 8, true⟩, [d, d + 1])
  | _ => none

/-- The state in which an access is checked: a strong access has set its own PC as region entry (R277). -/
def opened (s : State) (x : Access) : State := if x.strong = true then s.openRegion else s

/-- The offset of each active lane (R32). -/
def offsets (s : State) (x : Access) : List (Nat × Nat) :=
  (lanesOf s.active).map fun l => (l, (s.x l x.a).toNat + x.o.toNat * x.size)

/-- The common access procedure of an access (R147). -/
def checked (s : State) (x : Access) (k : AccKind) : State × Except Stop (Entry × List LaneAddr) :=
  accessCheck (opened s x) (s.cur.khwin.toNat + x.h.toNat) k x.size (offsets s x)

/-- How an atomic or an arrival passes the checks in `s` (R147, R323): the common access procedure passes it, or an access of its split to a
peer's scratchpad has passed before and is performed from there. `space` and `scope` are those of its entry. -/
def Passes (s s1 : State) (hnum size : Nat) (offs : List (Nat × Nat)) (space scope : Nat) (as : List LaneAddr) : Prop :=
  (s.heldAcc = none ∧ ∃ e, accessCheck s hnum .atomic size offs = (s1, .ok (e, as)) ∧ space = e.space ∧ scope = e.scope) ∨
  ∃ a, s.heldAcc = some a ∧ s1 = s ∧ space = 2 ∧ scope = a.scope ∧
    as = a.lanes.map fun y => { lane := y.1, off := y.2.1, place := y.2.2 }

/-- The lanes' writes of a store, in ascending lane order (R150). -/
def laneStores (s : State) (x : Access) (as : List LaneAddr) : List ByteWrite :=
  as.map fun a => { place := a.place, bytes := (x.regs.flatMap fun r => leBytes 4 (s.x a.lane r).toNat).take x.size }

/-- What an access leaves alone: every group but the current one, every register, counter and control register of that one, and the
other splits of it. Its split goes on at PC + 4; the region entry of a user-mode split becomes PC + 4 after a strong access
(R277), and stays after a weak one. -/
def AccessFrame (s t : State) (strong : Bool) : Prop :=
  (∀ k, k ≠ s.cg → t.group k = s.group k) ∧ (∀ loc lane, t.cur.rd loc lane = s.cur.rd loc lane) ∧
  t.cur.cnt = s.cur.cnt ∧ t.cur.gen = s.cur.gen ∧ t.cur.alloc = s.cur.alloc ∧ t.cur.kwto = s.cur.kwto ∧
  t.cur.khwin = s.cur.khwin ∧ t.cur.fcode = s.cur.fcode ∧ t.cur.frame = s.cur.frame ∧ Retired s t ∧
  (∀ i, i ≠ s.cs → t.cur.split i = s.cur.split i) ∧ t.csp.pc = s.csp.pc + 4 ∧ t.csp.members = s.csp.members ∧
  t.csp.kix = s.csp.kix ∧ t.csp.sup = s.csp.sup ∧
  t.csp.region = (if strong = true ∧ s.csp.sup = false then s.csp.pc + 4 else s.csp.region)

/-- A fault of R147 on these lanes: the code and the detail of the lowest. -/
def laneFault (hnum code : Nat) (detail : Nat → Nat) (bad : List (Nat × Nat)) : Stop :=
  .trap { code := code, detail := detail (bad.headD (0, 0)).2
          addr := BitVec.ofNat 64 (hnum * 2 ^ 32 + (bad.headD (0, 0)).2 % 2 ^ 32)
          mask := maskOf (bad.map (·.1)), part := false }

/-- `F_MEMERR` on these lanes (R160, R271): the address is the lowest lane's virtual address, and in the other spaces the handle form (log
entry 12). -/
def poisonFault (hnum detail : Nat) (part : Bool) (bad : List LaneAddr) : Trap :=
  let a := bad.headD { lane := 0, off := 0, place := .host 0 }
  { code := 12, detail := detail, mask := maskOf (bad.map (·.lane)), part := part
    addr := BitVec.ofNat 64 (match a.place with
      | .glob _ va => va
      | _ => hnum * 2 ^ 32 + a.off % 2 ^ 32) }

/-- `F_BREVOKE` of bundle `id` on these lanes (R192, R271). -/
def brevoke (id : Nat) (bad : List LaneAddr) : Trap :=
  { code := 10, detail := id, mask := maskOf (bad.map (·.lane)), part := false
    addr := BitVec.ofNat 64 (match (bad.map (·.place)).headD (.glob 0 0) with
      | .glob _ va => va
      | _ => 0) }

/-- The lane writes of words to the registers `regs`. -/
def laneWords (s : State) (regs : List Reg) (lane : Nat) (ws : List Word) : List LaneWrite :=
  (regs.zip ws).map fun z => { lane := lane, loc := s.cur.loc s.csp z.1, val := z.2 }

end Sys2Proof.Rule

/-- R147, R159: the order of the checks. An unusable entry, a bound, an alignment, a permission and an exited member are tested in this order;
the lanes that fail the first of these form the mask, and the lowest of them gives the detail and the address. A read of a descriptor or
record makes no test of members. While the entry's own row is under test the access waits. -/
def Sys2Proof.Rule.AccessChecks : Prop :=
  ∀ (s : State) (hnum size : Nat) (k : AccKind) (offs : List (Nat × Nat)),
    let e := (s.curHandle hnum).2
    let s' := (s.curHandle hnum).1
    let fails := fun (o : Nat) => boundFault e s.curBlock o size
    let bounds := offs.filter fun x => (fails x.2).isSome
    let aligns := offs.filter fun x => decide (x.2 % size ≠ 0)
    let gone := offs.filter fun x => decide (e.space = 2) && decide (k ≠ .desc) && s'.peerGone x.2
    let r := (accessCheck s hnum k size offs).2
    (s.curHandleTested hnum = true → accessCheck s hnum k size offs = (s, .error (.stall .full))) ∧
    (s.curHandleTested hnum = false →
      (e.usable = false → r = .error (Rule.laneFault hnum 0x04 (fun _ => 1) offs)) ∧
      (e.usable = true → bounds ≠ [] → r = .error (Rule.laneFault hnum 0x04 (fun o => (fails o).getD 2) bounds)) ∧
      (e.usable = true → bounds = [] → aligns ≠ [] → r = .error (Rule.laneFault hnum 0x05 (fun _ => 0) aligns)) ∧
      (e.usable = true → bounds = [] → aligns = [] → permitted e k = false →
        r = .error (Rule.laneFault hnum 0x07 (fun _ => 1) offs)) ∧
      (e.usable = true → bounds = [] → aligns = [] → permitted e k = true → gone ≠ [] →
        r = .error (Rule.laneFault hnum 0x08 (fun o => o / 2 ^ 21 % 4) gone)) ∧
      (e.usable = true → bounds = [] → aligns = [] → permitted e k = true → gone = [] → e.space ≠ 0 →
        ∃ as, r = .ok (e, as) ∧ as.map (fun a => (a.lane, a.off)) = offs))

/-- R47, R147, R159, R297, R303: what check 5 finds for one lane, but for a weak load that its virtual tag serves: `F_PAGE` where the address
does not translate, `F_PROT` with detail 3 for a write to an executable or frozen page, with detail 2 where the leaf lacks a permission. A walk
that needs a row under test waits. -/
def Sys2Proof.Rule.LaneTranslation : Prop :=
  ∀ (s : State) (e : Entry) (k : AccKind) (o : Nat), (k = .weakLoad → s.virtHit e.bypass (e.base + o) = none) →
    let t := (s.translate s.curCore s.curCtx (e.base + o)).2
    let r := (s.transOne e k o).2
    let writes := k = .store ∨ k = .atomic ∨ k = .object
    let lacks := fun (leaf : Nat) => (k ≠ .store ∧ leaf.testBit 61 = false) ∨ (writes ∧ leaf.testBit 60 = false)
    (s.walkTested s.curCore s.curCtx (e.base + o) = true → s.transOne e k o = (s, .error .busy)) ∧
    (s.walkTested s.curCore s.curCtx (e.base + o) = false →
      (t = none → r = .error .page) ∧
      ∀ pa leaf, t = some (pa, leaf) →
        let code := mapGet 0 s.xcount (pa / 65536) ≠ 0 ∨ pa / 65536 ∈ s.frozen
        (writes → code → r = .error (.prot 3)) ∧
        ((writes → ¬ code) → lacks leaf → r = .error (.prot 2)) ∧
        ((writes → ¬ code) → ¬ lacks leaf → pa < 2 ^ 39 → r = .ok (.glob pa (e.base + o))))

/-- R147, R192, R271: check 5 and the revocation test of an access that has passed checks 1 to 4. The lanes whose translation fails form
the mask, and the lowest of them gives the fault; an access that translates meets `F_BREVOKE` if its group is marked for a bundle that it
reaches, which clears the mark; otherwise it passes. That the revocation test comes behind check 5, that waits, reads of descriptors and the
object of an `.arr` command never make it, and that a mark keeps the lines its bundle had are choices of the model named in log entry 21. -/
def Sys2Proof.Rule.AccessTranslation : Prop :=
  ∀ (s s2 : State) (hnum size : Nat) (k : AccKind) (offs : List (Nat × Nat)) (ts : List LaneTrans),
    let e := (s.curHandle hnum).2
    let s' := (s.curHandle hnum).1
    s.curHandleTested hnum = false → e.usable = true → e.space = 0 → permitted e k = true →
    (∀ x ∈ offs, boundFault e s.curBlock x.2 size = none ∧ x.2 % size = 0) → transLanes s' e k offs = (s2, ts) →
    let r := accessCheck s hnum k size offs
    let as := goodTrans ts
    let waits := ∃ x ∈ failedTrans ts, x.2.2 = .busy
    let hit := if k = .wait ∨ k = .desc ∨ k = .object then none else revokedAt s2.cur s2.curLaunch.bundles as
    (waits → r = (s2, .error (.stall .full))) ∧
    (∀ l o f rest, ¬ waits → failedTrans ts = (l, o, f) :: rest →
      let trap := fun (code detail : Nat) => Except.error (Stop.trap
        { code := code, detail := detail, addr := BitVec.ofNat 64 (e.base + o), mask := maskOf (l :: rest.map (·.1)), part := false })
      (f = .page → r.2 = trap 6 (match k with
        | .weakLoad => 1
        | .load => 1
        | .store => 2
        | .atomic => 3
        | .object => 3
        | .desc => 5
        | .wait => 7)) ∧
      ∀ d, f = .prot d → r.2 = trap 7 d) ∧
    (failedTrans ts = [] → hit = none → r = (s2, .ok (e, as))) ∧
    (∀ id, failedTrans ts = [] → hit = some id →
      ∃ bad : List LaneAddr, bad = as.filter (fun a => match a.place with
          | .glob _ va => extHolds (markExt s2.cur s2.curLaunch.bundles id) (va / 128)
          | _ => false) ∧
        r.2 = .error (.trap (Rule.brevoke id bad)) ∧
        r.1 = s2.putCur { s2.cur with revoked := s2.cur.revoked &&& ~~~ oneLane id, marks := mapDel s2.cur.marks id })

/-- R139, R147, R298: an access that passes its checks has filled caches and changed nothing else. -/
def Sys2Proof.Rule.AccessFillsCaches : Prop :=
  ∀ (s s1 : State) (hnum size : Nat) (k : AccKind) (offs : List (Nat × Nat)) (e : Entry) (as : List LaneAddr),
    accessCheck s hnum k size offs = (s1, .ok (e, as)) → CachesFilled s s1

/-- R147, R192: the common access procedure. It rests on choices of the model named in log entry 21. -/
def Obligations.AccessProcedure : Prop :=
  Rule.AccessChecks ∧ Rule.LaneTranslation ∧ Rule.AccessTranslation ∧ Rule.AccessFillsCaches


/-- R147, R277: an access that fails a check takes that check's fault: nothing is loaded or stored. -/
def Sys2Proof.Rule.AccessFaults : Prop :=
  ∀ (s s1 : State) (i : Instr) (x : Rule.Access) (f : Trap), s.active ≠ 0 → s.acquireOut = false →
    ((∀ conv, Rule.load i = some (x, conv) → s.regsReady x.regs [x.a] = true →
      Rule.checked s x (if x.strong = true then .load else .weakLoad) = (s1, .error (.trap f)) → exec i s = .next (s1.trapCur f)) ∧
    (Rule.store i = some x → s.regsReady [] (x.regs ++ [x.a]) = true →
      Rule.checked s x .store = (s1, .error (.trap f)) → exec i s = .next (s1.trapCur f)) ∧
    (∀ d op ds, Rule.atomic i = some (d, op, x, ds) → s.regsReady ds (x.regs ++ [x.a]) = true →
      s.heldAcc = none → Rule.checked s x .atomic = (s1, .error (.trap f)) → exec i s = .next (s1.trapCur f)))

/-- R89, R147: with no active lane, a load, store or atomic performs nothing and advances its split. -/
def Sys2Proof.Rule.IdleAccesses : Prop :=
  ∀ (s : State) (i : Instr) (x : Rule.Access), s.active = 0 →
    ((∃ conv, Rule.load i = some (x, conv) ∧ s.regsReady x.regs [x.a] = true) ∨
      (Rule.store i = some x ∧ s.regsReady [] (x.regs ++ [x.a]) = true) ∨
      (∃ d op ds, Rule.atomic i = some (d, op, x, ds) ∧ s.regsReady ds (x.regs ++ [x.a]) = true)) →
    ∃ t, exec i s = .next t ∧ OnlyGroup s t ∧ SameMemory s t ∧ Rule.AccessFrame s t x.strong ∧
      t.cur.ploads = s.cur.ploads ∧ t.cur.pstores = s.cur.pstores ∧ t.cur.hsts = s.cur.hsts

/-- R89, R147: loads, stores and atomics that fault, or that no lane performs. -/
def Obligations.AccessesWithoutEffect : Prop := Rule.AccessFaults ∧ Rule.IdleAccesses


/-- R149, R153, R160: a load that passes its checks completes: its bytes are read at once, its registers wait for LOAD_DATA_RETURN, which
will write each active lane's words, and memory is unchanged. Where lanes read poison it faults `F_MEMERR` with detail 1 for them, and no
lane is written. It rests on choices of the model named in log entries 8 and 12. -/
def Obligations.LoadsComplete : Prop :=
  ∀ (i : Instr) (s s1 s2 : State) (x : Rule.Access) (conv : List Byte → List Word) (e : Entry) (as : List LaneAddr)
    (bs : List (LaneAddr × Option (List Byte))), Rule.load i = some (x, conv) → s.regsReady x.regs [x.a] = true →
    s.active ≠ 0 → s.acquireOut = false →
    Rule.checked s x (if x.strong = true then .load else .weakLoad) = (s1, .ok (e, as)) →
    s1.accessReady x.size as (if x.strong = true then 0 else s.cur.nld) = .ok () →
    s1.loadLanes e x.strong x.size as = (s2, bs) →
    let bad := (bs.filter fun y => y.2.isNone).map (·.1)
    (bad = [] → ∃ t p, exec i s = .next t ∧ SameMemory s t ∧ Rule.AccessFrame s t x.strong ∧
      t.cur.ploads = s.cur.ploads ++ [p] ∧ p.id = s.cur.nextId ∧ t.cur.nextId = s.cur.nextId + 1 ∧ p.lanes = s.csp.members ∧
      p.strong = x.strong ∧ p.counted = !x.strong ∧ t.cur.nld = (if x.strong = true then s.cur.nld else s.cur.nld + 1) ∧
      p.locs = x.regs.map (s.cur.loc s.csp) ∧ t.cur.pstores = s.cur.pstores ∧ t.cur.nst = s.cur.nst ∧
      p.writes = bs.flatMap fun y => Rule.laneWords s x.regs y.1.lane (conv (y.2.getD []))) ∧
    (bad ≠ [] → exec i s = .next (s2.trapCur (Rule.poisonFault (s.cur.khwin.toNat + x.h.toNat) 1 false bad)))

/-- R152, R153, R160, R163, R171, R173: what one lane's load reads. A load of a scratchpad or of the host reads memory itself, and so does a
strong load, or one through a bypass entry, of global memory, which leaves no older copy of its line in the core's L1; a poisoned unit gives no
bytes. A weak load reads the pinned copy of its line, else the leased one, else memory. In ordered mode a byte is that of the youngest buffered
store of the group, else memory's. That a copy keeps the poisoned units it was read with is the model's choice of log entry 44; that a hit by
its virtual tag needs no translation, its reading of log entry 15. A weak load that misses leaves its line in the L1 under the lease of its
handle, in place of any other copy of that line, and the line's granted lease reaches as far (R155). -/
def Sys2Proof.Rule.LoadedBytes : Prop :=
  ∀ (s : State) (e : Entry) (strong : Bool) (p : Place) (n : Nat),
    let fresh := if s.poisoned p n = true then none else some (s.bytesAt p n)
    let r := s.loadBytes e strong p n
    ((∀ pa va, p ≠ .glob pa va) → r = (s, fresh)) ∧
    ∀ pa va, p = .glob pa va →
      let pinned := (s.core s.curCore).pins.find? fun x => decide (x.pl = pa / 128)
      let hit := l1Hit (s.core s.curCore) s.now s.curCtx (va / 128)
      (s.curLaunch.q = 0 → strong = true ∨ (pinned = none ∧ e.bypass = true) →
        r.2 = fresh ∧ ∀ l ∈ (r.1.core s.curCore).l1, l.pl ≠ pa / 128) ∧
      (s.curLaunch.q = 0 → strong = false → ∀ x, pinned = some x →
        r = (s, if meetsUnit x.bad pa n = true then none else some ((seqFrom (pa % 128) n).map (mapGet 0 x.data)))) ∧
      (s.curLaunch.q = 0 → strong = false → pinned = none → e.bypass = false → hit = none →
        r.2 = fresh ∧ mapGet 0 r.1.lease (pa / 128) = max (mapGet 0 s.lease (pa / 128)) (s.now + e.lease) ∧
        ((((s.core s.curCore).bundles.flatMap (·.pls)).eraseDups).length < 2048 →
          ∃ l ∈ (r.1.core s.curCore).l1, (∀ m ∈ (r.1.core s.curCore).l1, m.pl = pa / 128 → m = l) ∧ l.ctx = s.curCtx ∧
            l.vl = va / 128 ∧ l.pl = pa / 128 ∧ l.expiry = s.now + e.lease ∧ l.bad = s.linePoison (pa / 128) ∧
            ∀ i, i < 128 → mapGet 0 l.data i = mapGet 0 s.mem (pa / 128 * 128 + i))) ∧
      (s.curLaunch.q = 0 → strong = false → pinned = none → e.bypass = false → ∀ l, hit = some l →
        r = (s, if meetsUnit l.bad pa n = true then none else some ((seqFrom (pa % 128) n).map (mapGet 0 l.data)))) ∧
      (s.curLaunch.q ≠ 0 →
        r = (s, if s.poisoned p n = true ∧ ∃ a ∈ seqFrom pa n, byteAfter s.cur.qbuf (.glob a va) = none then none
          else some ((seqFrom pa n).map fun a => (byteAfter s.cur.qbuf (.glob a va)).getD (mapGet 0 s.mem a))))

/-- R149, R157: LOAD_DATA_RETURN writes the loaded words to their registers in the lanes that have not exited, frees the scoreboard,
lowers the load counter, and changes nothing else. A load of which a line request is still held back (R22) has not returned. -/
def Sys2Proof.Rule.LoadReturns : Prop :=
  ∀ (s : State) (g id : Nat),
    ((∀ q ∈ (s.group g).ploads, q.id = id → q.unsent ≠ []) → exec (.loadDataReturn g id) s = .next s) ∧
    ∀ (p : PendLoad), (s.group g).ploads.find? (fun q => decide (q.id = id)) = some p →
    p.unsent = [] → ∃ t, exec (.loadDataReturn g id) s = .next t ∧ t = { s with groups := t.groups } ∧
      (∀ k, k ≠ g → t.group k = s.group k) ∧
      (t.group g).ploads = (s.group g).ploads.filter (fun q => decide (q.id ≠ id)) ∧
      (t.group g).nld = (if p.counted = true then (s.group g).nld - 1 else (s.group g).nld) ∧
      (t.group g).splits = (s.group g).splits ∧ (t.group g).cnt = (s.group g).cnt ∧ (t.group g).gen = (s.group g).gen ∧
      (∀ w ∈ p.writes, w.lane < 32 → (s.group g).exited.getLsbD w.lane = false → w.loc ≠ .off →
        (∀ v ∈ p.writes, v.lane < 32 ∧ (v.lane = w.lane → v.loc = w.loc → v.val = w.val)) →
        (t.group g).rd w.loc w.lane = w.val) ∧
      ∀ loc lane, lane < 32 → (∀ v ∈ p.writes, v.lane < 32 ∧ (v.lane = lane → v.loc ≠ loc)) →
        (t.group g).rd loc lane = (s.group g).rd loc lane

/-- R150, R151, R153, R157: outside ordered mode, a store that passes its checks, and whose release is met if it is strong, is performed:
memory holds the lanes' bytes, those of the highest lane where lanes meet, and every other byte stays. It rests on choices of the model
named in log entry 8. -/
def Obligations.StoresComplete : Prop :=
  ∀ (i : Instr) (s s1 : State) (x : Rule.Access) (e : Entry) (as : List LaneAddr), Rule.store i = some x →
    s.regsReady [] (x.regs ++ [x.a]) = true → s.active ≠ 0 → s.acquireOut = false → s.curLaunch.q = 0 →
    Rule.checked s x .store = (s1, .ok (e, as)) → s1.accessReady x.size as s.cur.nst = .ok () →
    (x.strong = true → s1.releaseMet s1.cur e.scope s.cur.nextId = true) → s.cur.wait = none →
    ∃ t, exec i s = .next t ∧ MemoryAfter (Rule.laneStores s x as) s t ∧ t.csp.pc = s.csp.pc + 4 ∧ Retired s t ∧
      (∀ loc lane, t.cur.rd loc lane = s.cur.rd loc lane) ∧ t.cur.cnt = s.cur.cnt ∧ t.cur.gen = s.cur.gen ∧
      (∀ k, k ≠ s.cg → (s.group k).wait = none → t.group k = s.group k) ∧
      t.cur.nst = s.cur.nst + 1 ∧ t.cur.ploads = s.cur.ploads ∧ s.cur.ct ≤ t.cur.ct ∧
      ∃ p, t.cur.pstores = s.cur.pstores ++ [p] ∧ p.id = s.cur.nextId ∧ p.buffered = false

/-- R153: a strong store whose release is not yet met is held and its split goes on: memory is unchanged until it leaves. -/
def Sys2Proof.Rule.ReleasesHold : Prop :=
  ∀ (i : Instr) (s s1 : State) (x : Rule.Access) (e : Entry) (as : List LaneAddr), Rule.store i = some x → x.strong = true →
    s.regsReady [] (x.regs ++ [x.a]) = true → s.active ≠ 0 → s.acquireOut = false → s.curLaunch.q = 0 →
    Rule.checked s x .store = (s1, .ok (e, as)) → s1.accessReady x.size as s.cur.nst = .ok () →
    s1.releaseMet s1.cur e.scope s.cur.nextId = false →
    ∃ t h, exec i s = .next t ∧ SameMemory s t ∧ Rule.AccessFrame s t true ∧ t.cur.hsts = s.cur.hsts ++ [h] ∧
      h.id = s.cur.nextId ∧ h.lanes = s.csp.members ∧ h.scope = e.scope ∧ h.writes = Rule.laneStores s x as ∧ t.cur.nst = s.cur.nst + 1

/-- R173: in ordered mode a store to global or host memory waits in the group's quantum buffer, and memory is unchanged. -/
def Sys2Proof.Rule.OrderedStores : Prop :=
  ∀ (i : Instr) (s s1 : State) (x : Rule.Access) (e : Entry) (as : List LaneAddr), Rule.store i = some x →
    s.regsReady [] (x.regs ++ [x.a]) = true → s.active ≠ 0 → s.acquireOut = false → s.curLaunch.q ≠ 0 →
    Rule.checked s x .store = (s1, .ok (e, as)) → s1.accessReady x.size as s.cur.nst = .ok () → e.space = 0 ∨ e.space = 3 →
    (bufferLines (s.cur.qbuf ++ Rule.laneStores s x as)).length ≤ 256 →
    ∃ t, exec i s = .next t ∧ SameMemory s t ∧ Rule.AccessFrame s t x.strong ∧
      t.cur.qbuf = s.cur.qbuf ++ Rule.laneStores s x as ∧ t.cur.nst = s.cur.nst + 1

/-- R153, R173: the stores that do not leave at once. -/
def Obligations.DelayedStores : Prop := Rule.ReleasesHold ∧ Rule.OrderedStores


/-- R154: m′ of each atomic from the old value m and its operands. -/
def Sys2Proof.Rule.AtomicValues : Prop :=
  ∀ (m : Nat) (x x2 : Word), m < 2 ^ 32 →
    let w : Word := BitVec.ofNat 32 m
    atomNew 0x70 m x x2 = (m + x.toNat) % 2 ^ 32 ∧
    atomNew 0x71 m x x2 = rne f32F (fAdd false (f32v w) (f32v x)) % 2 ^ 32 ∧
    (BitVec.ofNat 32 (atomNew 0x72 m x x2)).toInt = min w.toInt x.toInt ∧
    (BitVec.ofNat 32 (atomNew 0x73 m x x2)).toInt = max w.toInt x.toInt ∧
    atomNew 0x74 m x x2 = m &&& x.toNat ∧ atomNew 0x75 m x x2 = m ||| x.toNat ∧ atomNew 0x76 m x x2 = m ^^^ x.toNat ∧
    atomNew 0x77 m x x2 = x.toNat ∧ atomNew 0x78 m x x2 = (if m = x.toNat then x2.toNat else m) ∧
    ∀ m64 : Nat, atomNew 0x79 m64 x x2 = (m64 + (x2.toNat * 2 ^ 32 + x.toNat)) % 2 ^ 64

/-- R154, R160: one lane's atomic is one read-modify-write: it returns the old value and stores m′ there, and no other byte changes;
a poisoned word is not performed. -/
def Sys2Proof.Rule.AtomicStep : Prop :=
  ∀ (s : State) (k op : Nat) (p : Place) (x x2 : Word),
    let n := if op = 0x79 then 8 else 4
    let old := s.numAt p n
    let r := s.atomLane k op p x x2
    (s.poisoned p n = true → r = (s, none)) ∧
    (s.poisoned p n = false → r.2 = some old ∧ r.1.numAt p n = atomNew op old x x2 % 256 ^ n ∧
      MemoryAfter [{ place := p, bytes := leBytes n (atomNew op old x x2) }] s r.1)

/-- R152-R155, R160, R163, R171, R173: what a lane's load reads, and what a lane's atomic returns and stores. It rests on choices of the model
named in log entries 15 and 44. -/
def Obligations.MemoryValues : Prop := Rule.LoadedBytes ∧ Rule.AtomicValues ∧ Rule.AtomicStep


/-- R153, R154, R160: outside ordered mode, and in it on a scratchpad, an atomic that passes its checks, and whose release is met,
completes: its lanes are performed one after another in ascending order, each active lane's destination receives the value that memory held
before that lane's operation when LOAD_DATA_RETURN comes, and the split acquires. In ordered mode it ends the group's quantum (R173). Where
some of its words are poisoned the other lanes receive their old values, and it faults `F_MEMERR` with detail 2, with the part bit if any
lane was performed. An access to a peer's scratchpad that has passed the checks and waited is performed from there (R323). -/
def Sys2Proof.Rule.AtomicsComplete : Prop :=
  ∀ (i : Instr) (s s1 : State) (d : Reg) (op : Nat) (x : Rule.Access) (ds : List Reg) (space scope : Nat)
    (as : List LaneAddr), Rule.atomic i = some (d, op, x, ds) → s.regsReady ds (x.regs ++ [x.a]) = true → s.active ≠ 0 →
    s.acquireOut = false → s.curLaunch.q = 0 ∨ space ≠ 0 →
    Rule.Passes (Rule.opened s x) s1 (s.cur.khwin.toNat + x.h.toNat) x.size (Rule.offsets s x) space scope as →
    s1.releaseMet s1.cur scope s.orderBound = true →
    s1.accessReady x.size as 0 = .ok () → s.cur.wait = none →
    let r := s1.atomLanes s1.cg op (as.map fun a => (a, s.x a.lane d, s.x a.lane (d + 1)))
    let old := fun (ys : List (LaneAddr × Option Nat)) => ys.flatMap fun y =>
      Rule.laneWords s ds y.1.lane [BitVec.ofNat 32 (y.2.getD 0), BitVec.ofNat 32 (y.2.getD 0 / 2 ^ 32)]
    let bad := (r.2.filter fun y => y.2.isNone).map (·.1)
    let good := r.2.filter fun y => y.2.isSome
    (bad = [] → ∃ t p, exec i s = .next t ∧ (∀ q, t.byteAt q 0 = r.1.byteAt q 0) ∧
      t.csp.pc = s.csp.pc + 4 ∧ (s.csp.sup = false → t.csp.region = s.csp.pc + 4) ∧ Retired s t ∧
      (∀ loc lane, t.cur.rd loc lane = s.cur.rd loc lane) ∧ t.cur.cnt = s.cur.cnt ∧ t.cur.gen = s.cur.gen ∧
      (s.curLaunch.q ≠ 0 → t.cur.qended = true) ∧ t.cur.ploads = s.cur.ploads ++ [p] ∧ p.strong = true ∧ p.locs = ds.map (s.cur.loc s.csp) ∧
      p.writes = old r.2) ∧
    (bad ≠ [] → exec i s = .next ((r.1.putCur ((old good).foldl (fun g w => g.wr w.loc [(w.lane, w.val)]) r.1.cur)).trapCur
      (Rule.poisonFault (s.cur.khwin.toNat + x.h.toNat) 2 (!good.isEmpty) bad)))

/-- R173: in ordered mode an atomic on global memory ends the group's quantum and waits for the quantum's end; memory is unchanged. One
whose lines do not fit the quantum buffer ends the quantum and issues in the next one. -/
def Sys2Proof.Rule.ClosingAtomics : Prop :=
  ∀ (i : Instr) (s s1 : State) (d : Reg) (op : Nat) (x : Rule.Access) (ds : List Reg) (e : Entry) (as : List LaneAddr),
    Rule.atomic i = some (d, op, x, ds) → s.regsReady ds (x.regs ++ [x.a]) = true → s.active ≠ 0 → s.acquireOut = false →
    s.curLaunch.q ≠ 0 → s.heldAcc = none → Rule.checked s x .atomic = (s1, .ok (e, as)) → e.space = 0 →
    let fits := (bufferLines (s.cur.qbuf ++ as.map fun a => { place := a.place, bytes := [] })).length ≤ 256
    (¬ fits → exec i s = .next ((s1.putCur { s1.cur with qended := true }).stallCur .quantum)) ∧
    (fits → ∃ t c, exec i s = .next t ∧ SameMemory s t ∧ t.csp.pc = s.csp.pc ∧ t.csp.st = .awaiting ∧ t.cur.qended = true ∧
      (∀ loc lane, t.cur.rd loc lane = s.cur.rd loc lane) ∧ (∀ k, k ≠ s.cg → t.group k = s.group k) ∧
      Retired s t ∧ t.cur.closing = some c ∧ c.op = op ∧ c.id = s.cur.nextId ∧ c.scope = e.scope ∧ c.d = s.cur.loc s.csp d ∧
        c.lanes.map (·.lane) = as.map (·.lane) ∧
      c.lanes.map (fun l => (l.x, l.x2)) = as.map fun a => (s.x a.lane d, s.x a.lane (d + 1)))

/-- R153, R154, R173: the atomics outside ordered mode and in it. It rests on choices of the model named in log entries 8, 12 and 13. -/
def Obligations.Atomics : Prop := Rule.AtomicsComplete ∧ Rule.ClosingAtomics


/-- R157, R153: STORE_ACK lowers the store counter, and the port sends its reads of the host pages that the store wrote.
COMPLETION_TIME_REACHED and PCIE_READ_COMPLETION let held releases go: with none held nothing is stored, and a group's single held release
that is met is performed; after a round trip from a page's read its stores have reached the host, for every group. A store of which a line
request is still held back (R22) is not acknowledged. -/
def Sys2Proof.Rule.StoreEvents : Prop :=
  ∀ (s : State) (g id page : Nat),
    ((∀ q ∈ (s.group g).pstores, q.id = id → q.buffered = false → q.unsent ≠ []) → exec (.storeAck g id) s = .next s) ∧
    (∀ p, (s.group g).pstores.find? (fun q => decide (q.id = id) && !q.buffered) = some p → p.unsent = [] → (s.group g).hsts = [] →
      ∃ t, exec (.storeAck g id) s = .next t ∧ t = { s with groups := t.groups } ∧ (∀ k, k ≠ g → t.group k = s.group k) ∧
        t.group g = { s.group g with
          pstores := (s.group g).pstores.filter (fun q => decide (q.id ≠ id))
          nst := (s.group g).nst - 1
          hpages := (s.group g).hpages.map fun h =>
            if h.store = id ∧ h.due = none then { h with due := some (s.now + 2400) } else h }) ∧
    (∀ h, (s.group g).ct < s.now → (s.group g).hsts = [h] → s.releaseMet { s.group g with hsts := [] } h.scope h.id = true →
      s.writesTested (s.block (s.group g).blk).core h.writes = false →
      ∃ t, exec (.completionTimeReached g) s = .next t ∧ MemoryAfter h.writes s t ∧
        ((s.group g).wait = none → (t.group g).hsts = [])) ∧
    (∃ t, exec (.pcieReadCompletion page) s = .next t ∧
      ((∀ e ∈ s.groups, e.2.hsts = []) →
        t = { s with groups := s.groups.map fun e =>
          (e.1, { e.2 with hpages := e.2.hpages.filter fun h => !h.reached page s.now }) }))

/-- R149, R153, R157: what the events of loads and stores do. The 2400 ticks after which a read of a host page has completed are the model's
choice of log entry 10. -/
def Obligations.ReturnsAndAcknowledgements : Prop := Rule.LoadReturns ∧ Rule.StoreEvents

/-! ### Fences, waits and barriers -/

namespace Sys2Proof.Rule
open Sys2Proof Sys2Proof.Machine

/-- The condition m of R197 on a word. -/
def condition (m : Nat) (w y mask : Word) : Prop :=
  let x := w &&& mask
  match m with
  | 0 => x = y
  | 1 => x ≠ y
  | 2 => x.toInt < y.toInt
  | 3 => y.toInt ≤ x.toInt
  | 4 => x.toNat < y.toNat
  | 5 => y.toNat ≤ x.toNat
  | 6 => x = mask
  | _ => x ≠ mask

/-- The waits of R197 and R283: whether it parks, and its operands. -/
def waits (i : Instr) : Option (Bool × Reg × Reg × Reg × BitVec 3) :=
  match i with
  | .gwaitu d a b m => some (false, d, a, b, m)
  | .gpark d a b m => some (true, d, a, b, m)
  | _ => none

/-- Of the device only group `k` changes. -/
def OnlyOf (s t : State) (k : Nat) : Prop := t = { s with groups := t.groups } ∧ ∀ j, j ≠ k → t.group j = s.group j

/-- What an instruction that completes or waits leaves alone beside the registers `ds` of its member lanes: memory, every other
register, the nesting counters, and its members. `pc` is where its split stands. -/
def Stands (s t : State) (ds : List Reg) (pc : Dword) : Prop :=
  SameMemory s t ∧ Retired s t ∧ t.cur.cnt = s.cur.cnt ∧ t.csp.pc = pc ∧ t.csp.members = s.csp.members ∧
  t.csp.kix = s.csp.kix ∧ t.csp.sup = s.csp.sup ∧
  ∀ loc lane, lane < 32 → (loc ∉ ds.map (s.cur.loc s.csp) ∨ s.csp.members.getLsbD lane = false) →
    t.cur.rd loc lane = s.cur.rd loc lane

/-- The region entry after a region-closing instruction: PC + 4, and none in a handler (R270, R277). -/
def Closes (s t : State) : Prop := t.csp.region = if s.csp.sup = true then s.csp.region else s.csp.pc + 4

end Sys2Proof.Rule

/-- R166, R206, R207: `gfence`, which waits for what the group issued before it, and `gwaitc` complete once what they wait for is done, and
else hold their split; `gyield` retires, and outside ordered mode its split becomes the youngest of its core and waits for 64 cycles, or
until every other ready split of its priority on the core has issued: then YIELD_EXPIRE lets it go. It rests on choices of the model named
in log entries 28 and 51. -/
def Obligations.FencesAndYields : Prop :=
  ∀ (s : State) (m : BitVec 3) (j : BitVec 17),
    let g := s.cur
    let n := s.orderBound
    let outstanding := (∃ p ∈ g.ploads, p.id < n) ∨ (∃ p ∈ g.pstores, p.buffered = false ∧ p.id < n) ∨ (∃ h ∈ g.hsts, h.id < n) ∨
      (2 ≤ m.toNat ∧ s.now ≤ g.ct) ∨ (m = 4 ∧ ∃ p ∈ g.hpages, p.store < n)
    let inScratchpad := (∃ p ∈ g.ploads, p.id < n ∧ p.unsent = [] ∧ p.flying = []) ∨
      (∃ p ∈ g.pstores, p.buffered = false ∧ p.id < n ∧ p.unsent = [] ∧ p.flying = []) ∨ (∃ h ∈ g.hsts, h.id < n)
    let within := fun (x c : Nat) => j.toNat / 16 ^ c % 16 = 15 ∨ x ≤ j.toNat / 16 ^ c % 16
    let met := within g.nld 0 ∧ within g.nst 1 ∧ within g.neng 2 ∧ within g.ntile 3
    (s.curLaunch.q = 0 → ¬ outstanding → Rule.Jumps (.gfence m) s (s.csp.pc + 4)) ∧
    (s.curLaunch.q = 0 → outstanding → exec (.gfence m) s = .next (s.stallCur (.fence n))) ∧
    (s.curLaunch.q ≠ 0 → ¬ inScratchpad → Rule.Jumps (.gfence m) s (s.csp.pc + 4)) ∧
    (s.curLaunch.q ≠ 0 → inScratchpad → exec (.gfence m) s = .next (s.stallCur (.fence n))) ∧
    (met → Rule.Jumps (.gwaitc j) s (s.csp.pc + 4)) ∧
    (¬ met → exec (.gwaitc j) s = .next (s.stallCur (.counters j))) ∧
    (s.curLaunch.q ≠ 0 → Rule.Jumps .gyield s (s.csp.pc + 4)) ∧
    (s.curLaunch.q = 0 →
      ∃ t, exec .gyield s = .next t ∧ OnlyGroup s t ∧ Rule.Stands s t [] (s.csp.pc + 4) ∧ t.csp.notBefore = s.now + 64 ∧
        ∀ e ∈ s.groups, (s.block e.2.blk).core = s.curCore → (s.block e.2.blk).onCore = true → ∀ x ∈ e.2.splits, x.2.age < t.csp.age) ∧
    (∀ k i sp, mapFind (s.group k).splits i = some sp →
      let core := (s.block (s.group k).blk).core
      let prio := fun (x : Nat) => (s.launch (s.block (s.group x).blk).lid).prio
      let othersTried := ∀ e ∈ s.groups, (s.block e.2.blk).core = core → (s.block e.2.blk).onCore = true → prio e.1 = prio k →
        ∀ x ∈ e.2.splits, (e.1, x.1) ≠ (k, i) → x.2.st = .running → s.mayIssue e.1 x.1 = true → s.isWithheld e.1 = false →
          sp.notBefore - 64 < x.2.issued
      (sp.notBefore ≤ s.now ∨ othersTried → ∃ t, exec (.yieldExpire k i) s = .next t ∧ Rule.OnlyOf s t k ∧
        t.group k = (s.group k).putSplit i { sp with notBefore := min sp.notBefore s.now }) ∧
      (s.now < sp.notBefore → ¬ othersTried → exec (.yieldExpire k i) s = .next s))

/-- R196-R200, R283: a wait whose condition holds at registration returns the word and status 1 at once, and acquires: the core's L1 holds
no older copy of its line (R170), and the group joins the commands that wrote the word (R168): its completion time takes theirs in, and the
L1 holds no older copy of any line that they wrote (R167); one that does not hold, and every wait in ordered mode, registers its word,
condition and deadline and its split waits. A second wait of a group is held back. It rests on choices of the model named in log entries 13
and 22. -/
def Obligations.WaitsRegister : Prop :=
  ∀ (i : Instr) (park : Bool) (d a b : Reg) (m : BitVec 3) (s : State), Rule.waits i = some (park, d, a, b, m) →
    s.regsReady [d, d + 1] [a, a + 1, b, b + 1] = true →
    (s.cur.wait ≠ none → exec i s = .next (s.openRegion.stallCur .oneWait)) ∧
    ∀ (s1 : State) (e : Entry) (x : LaneAddr), s.cur.wait = none → s.acquireOut = false →
      accessCheck s.openRegion (s.u a).toNat .wait 4 [(s.leader, (s.u (a + 1)).toNat)] = (s1, .ok (e, [x])) →
      s1.accessReady 4 [x] 0 = .ok () → s.poisoned x.place 4 = false →
      let w : Word := BitVec.ofNat 32 (s.numAt x.place 4)
      let q := s.curLaunch.q
      (q = 0 → Rule.condition m.toNat w (s.u b) (s.u (b + 1)) →
        ∃ t, exec i s = .next t ∧ Rule.Stands s t [d, d + 1] (s.csp.pc + 4) ∧ Rule.Closes s t ∧ t.csp.st = .running ∧
          t.cur.wait = none ∧ (∀ k, k ≠ s.cg → t.group k = s.group k) ∧
            t.cur.ct = (s.joined x.place).foldl (fun c j => max c j.ct) s.cur.ct ∧
          (∀ pa va, (x.place = .glob pa va ∨ ∃ j ∈ s.joined x.place, ∃ w ∈ j.writes, w.place = .glob pa va) →
            ∀ l ∈ (t.core s.curCore).l1, l.pl ≠ pa / 128) ∧
          ∀ lane, s.csp.members.getLsbD lane = true →
            s.regAt t d lane = s.kept d w ∧ s.regAt t (d + 1) lane = s.kept (d + 1) 1) ∧
      (q ≠ 0 ∨ ¬ Rule.condition m.toNat w (s.u b) (s.u (b + 1)) →
        ∃ t r, exec i s = .next t ∧ Rule.Stands s t [] s.csp.pc ∧ t.csp.st = .waiting ∧
          t.csp.region = (if s.csp.sup = true then s.csp.region else s.csp.pc) ∧
          (∀ k, k ≠ s.cg → t.group k = { s.group k with wait := (t.group k).wait }) ∧
          t.cur.wait = some r ∧ r.sp = s.cs ∧ r.park = park ∧ r.place = x.place ∧ r.m = m.toNat ∧ r.y = s.u b ∧
          r.mask = s.u (b + 1) ∧ r.ended = none ∧ r.dl = s.cur.loc s.csp d ∧ r.dh = s.cur.loc s.csp (d + 1) ∧
          r.deadline = (if s.cur.kwto = 0 then none else some ((if q = 0 then s.now else s.curLaunch.quantum) + s.cur.kwto.toNat)) ∧
          (q ≠ 0 → t.cur.qended = true))

/-- R197, R198, R200: a write after which the condition holds ends the wait with the word and status 1; at its deadline it ends with the
word and a status that says whether the condition holds; the result then reaches d and d+1 and the split goes on, having acquired (R167,
R168, R170). It rests on choices of the model named in log entries 13 and 22. -/
def Obligations.WaitsEnd : Prop :=
  ∀ (s : State) (k : Nat) (r : WaitRec), (s.group k).wait = some r →
    let g := s.group k
    let b := s.block g.blk
    let sp := g.split r.sp
    let ends := fun (t : State) (w st : Word) => t = { s with groups := t.groups, blocks := t.blocks } ∧
      t.group k = { g with wait := some { r with ended := some (w, st) } } ∧ (∀ j, j ≠ k → t.group j = s.group j) ∧
      t.block g.blk = if b.st = .absent then { b with st := .ready, readyAt := s.now } else b
    (∀ w st, r.ended = some (w, st) → b.st = .resident →
      ∃ t, exec (.waitWake k) s = .next t ∧ t = { s with groups := t.groups, cores := t.cores } ∧ (t.group k).wait = none ∧
        (∀ j, j ≠ k → t.group j = s.group j) ∧ (∀ c, t.core c = { s.core c with l1 := (t.core c).l1 }) ∧
        (∀ pa va, (r.place = .glob pa va ∨ ∃ j ∈ s.joined r.place, ∃ w ∈ j.writes, w.place = .glob pa va) →
          ∀ l ∈ (t.core b.core).l1, l.pl ≠ pa / 128) ∧
        (t.group k).ct = (s.joined r.place).foldl (fun c j => max c j.ct) g.ct ∧
        ((t.group k).split r.sp).pc = sp.pc + 4 ∧ ((t.group k).split r.sp).st = .running ∧
        ((t.group k).split r.sp).members = sp.members ∧
        ((t.group k).split r.sp).region = (if sp.sup = true then sp.region else sp.pc + 4) ∧
        (∀ lane, sp.members.getLsbD lane = true → g.exited.getLsbD lane = false →
          (r.dh ≠ .off → (t.group k).rd r.dh lane = st) ∧ (r.dl ≠ .off → r.dl ≠ r.dh → (t.group k).rd r.dl lane = w)) ∧
        ∀ loc lane, lane < 32 → (loc ≠ r.dl ∧ loc ≠ r.dh) ∨ sp.members.getLsbD lane = false →
          (t.group k).rd loc lane = g.rd loc lane) ∧
    (∀ time, r.ended = none → r.deadline = some time → s.ordQ k = 0 → time ≤ s.now → s.waitPoisoned k r.place = false →
      ∃ t, exec (.waitTimeout k) s = .next t ∧
        ((Rule.condition r.m (s.waitWord k r.place) r.y r.mask → ends t (s.waitWord k r.place) 1) ∧
          (¬ Rule.condition r.m (s.waitWord k r.place) r.y r.mask → ends t (s.waitWord k r.place) 0))) ∧
    (∀ ws, r.ended = none → s.ordQ k = 0 → s.watched k r.place = true →
      (∃ x ∈ ws, placesMeet r.place 4 x.place x.bytes.length = true) → s.poisoned r.place 4 = false →
      let w : Word := BitVec.ofNat 32 (s.numAt r.place 4)
      (Rule.condition r.m w r.y r.mask → ends (evalWait s k ws) w 1) ∧
      (¬ Rule.condition r.m w r.y r.mask → evalWait s k ws = s))

/-- R208-R210: a split that issues `gbar` or `gpbar` waits there. Outside ordered mode the barrier releases once every unexited group of
the block, or of the party, has arrived with its accesses done, and for `gpbar` with its completion time passed; the released
splits go on at PC + 4. That a barrier form that still waits has retired is the model's choice, log entry 13. -/
def Obligations.HardwareBarriers : Prop :=
  (∀ (s : State) (i : BitVec 10) (x : Instr) (st : SplitState),
    (x = .gbar i ∧ st = .atBar (i.toNat % 16)) ∨ (x = .gpbar i ∧ st = .atPbar (i.toNat % 4)) →
    ∃ t, exec x s = .next t ∧ OnlyGroup s t ∧ SameMemory s t ∧ Retired s t ∧ t.cur.cnt = s.cur.cnt ∧
      (∀ loc lane, t.cur.rd loc lane = s.cur.rd loc lane) ∧
      ((∀ r ∈ s.cur.stack, r.barrier = true) → t.csp = { s.csp with st := st } ∧ t.cur.stack = s.cur.stack ∧
        ∀ j, j ≠ s.cs → t.cur.split j = s.cur.split j)) ∧
  (∀ (s : State) (bk id : Nat) (x : Instr) (st : SplitState) (bks : List Nat) (party : Bool),
    (x = .gbarRelease bk id ∧ st = .atBar id ∧ bks = [bk] ∧ party = false) ∨
      (x = .gpbarRelease bk id ∧ st = .atPbar id ∧ bks = s.partyOf bk ∧ party = true) →
    (s.launch (s.block bk).lid).q = 0 →
    let ks := s.liveOf bks
    let ready := ks ≠ [] ∧ (∀ k ∈ bks, (s.block k).st = .resident) ∧ ∀ k ∈ ks,
      let g := s.group k
      (∀ e ∈ g.splits, e.2.st = st) ∧ (∀ r ∈ g.stack, r.barrier = true ∧ r.sp.st = st) ∧ (∀ p ∈ g.ploads, g.nextId ≤ p.id) ∧
        (∀ p ∈ g.pstores, p.buffered = false → g.nextId ≤ p.id) ∧ (∀ h ∈ g.hsts, g.nextId ≤ h.id) ∧ (party = true → g.ct < s.now)
    (¬ ready → exec x s = .next s) ∧
    (ready → ∃ t, exec x s = .next t ∧ t = { s with groups := t.groups } ∧ (∀ k, k ∉ ks → t.group k = s.group k) ∧
      ∀ k ∈ ks, (t.group k).cnt = (s.group k).cnt ∧ (∀ loc lane, (t.group k).rd loc lane = (s.group k).rd loc lane) ∧
        ∀ i sp, ks.count k = 1 → (s.group k).splits.filter (fun e => decide (e.1 = i)) = [(i, sp)] → (s.group k).stack = [] →
          ((t.group k).split i).pc = sp.pc + 4 ∧ ((t.group k).split i).st = .running ∧
          ((t.group k).split i).members = sp.members ∧
          ((t.group k).split i).region = if sp.sup = true then sp.region else sp.pc + 4))

/-- R212, R173: `garrive` counts n arrivals on the object as one read-modify-write and writes the old high word to d; no other byte
changes. A poisoned object faults `F_MEMERR` with detail 2. In ordered mode an arrival on a global object ends the quantum and
waits for its end, as a lane-form atomic on global memory does, which is the model's choice of log entry 29. An arrival on a peer's scratchpad
that has passed the checks and waited is performed from there (R323). That d is written at issue is the model's choice of log entry 8, and the
fault address of a scratchpad object that of log entry 12. -/
def Obligations.Arrivals : Prop :=
  ∀ (s s1 : State) (d a b : Reg) (space scope : Nat) (x : LaneAddr), s.regsReady [d] [a, a + 1, b] = true → s.acquireOut = false →
    Rule.Passes s.openRegion s1 (s.u a).toNat 8 [(s.leader, (s.u (a + 1)).toNat)] space scope [x] →
    let old := s.numAt x.place 8
    let n := (s.u b).toNat
    let count : Int := (BitVec.ofNat 32 old).toInt - n
    let quota := old / 2 ^ 32 % 2 ^ 16
    let new := if n = 0 then old
      else if 0 < count then old / 2 ^ 32 * 2 ^ 32 + (count % 2 ^ 32).toNat
      else (old / 2 ^ 48 + 1) % 2 ^ 16 * 2 ^ 48 + quota * 2 ^ 32 + quota
    (s.curLaunch.q = 0 ∨ (∀ pa va, x.place ≠ .glob pa va) → s1.releaseMet s1.cur scope s.orderBound = true →
      s1.accessReady 8 [x] 0 = .ok () →
      (s.poisoned x.place 8 = true → exec (.garrive d a b) s = .next (s1.trapCur (memerr (s.u a).toNat 2 false [x]))) ∧
      (s.poisoned x.place 8 = false → s.cur.wait = none →
        ∃ t, exec (.garrive d a b) s = .next t ∧ MemoryAfter [{ place := x.place, bytes := leBytes 8 new }] s t ∧
          Retired s t ∧ t.cur.cnt = s.cur.cnt ∧ t.csp.pc = s.csp.pc + 4 ∧ t.csp.members = s.csp.members ∧ Rule.Closes s t ∧
          s.cur.ct ≤ t.cur.ct ∧
          (∀ lane, s.csp.members.getLsbD lane = true → s.regAt t d lane = s.kept d (BitVec.ofNat 32 (old / 2 ^ 32))) ∧
          ∀ loc lane, lane < 32 → loc ≠ s.cur.loc s.csp d ∨ s.csp.members.getLsbD lane = false →
            t.cur.rd loc lane = s.cur.rd loc lane)) ∧
    (∀ pa va, s.curLaunch.q ≠ 0 → x.place = .glob pa va →
      ∃ t c, exec (.garrive d a b) s = .next t ∧ Rule.Stands s t [] s.csp.pc ∧ t.csp.st = .awaiting ∧ t.cur.qended = true ∧
        t.cur.closing = some c ∧ c.op = 0xB3 ∧ c.id = s.cur.nextId ∧ c.scope = scope ∧ c.d = s.cur.loc s.csp d ∧
          c.lanes.map (fun l => (l.pa, l.x)) = [(pa, s.u b)] ∧
        ∀ k, k ≠ s.cg → t.group k = s.group k)

/-! ### Bundles -/

namespace Sys2Proof.Rule
open Sys2Proof Sys2Proof.Machine

/-- The answer of `gbquery` (R188). -/
def bundleAnswer (s : State) (a : Reg) (m : BitVec 3) : Word :=
  let co := s.core s.curCore
  match m.toNat with
  | 0 => s.cur.entered ||| ((co.fills.filter fun f => decide (f.g = s.cg)).foldl (fun acc f => acc ||| f.mask) 0)
  | 1 => maskOf ((co.bundles.filter fun x => decide (x.lid = s.curBlock.lid ∧ x.st ≠ .filling)).map (·.id))
  | 2 => BitVec.ofNat 32 (match s.bundleOf s.curBlock.lid ((s.u a).toNat % 32) with
    | none => 0
    | some b => (b.ext.map (·.2)).sum)
  | 3 => BitVec.ofNat 32 ((co.bundles.filter fun x => decide (x.ctx = s.curCtx)).flatMap (·.pls)).eraseDups.length
  | 4 => (s.context s.curCtx).bcap
  | _ => BitVec.ofNat 32 (co.bqueue.filter fun q => decide ((s.block (s.group q.g).blk).ctx = s.curCtx)).length

/-- The status of a pending operation reaches its register in the lanes that have not exited; nothing else is written. -/
def Delivers (s t : State) (k : Nat) (p : Pend) (v : Word) : Prop :=
  (t.group k).pends = (s.group k).pends.filter (fun q => decide (q.id ≠ p.id)) ∧
  (∀ lane, p.lanes.getLsbD lane = true → (s.group k).exited.getLsbD lane = false → p.loc ≠ .off → (t.group k).rd p.loc lane = v) ∧
  (∀ loc lane, lane < 32 → loc ≠ p.loc ∨ p.lanes.getLsbD lane = false → (t.group k).rd loc lane = (s.group k).rd loc lane) ∧
  (t.group k).cnt = (s.group k).cnt

/-- The current group has recorded an operation whose status will reach `d`. -/
def Pends (s t : State) (d : Reg) (op : PendOp) : Prop :=
  t.cur.nextId = s.cur.nextId + 1 ∧ ∃ p, t.cur.pends = s.cur.pends ++ [p] ∧ p.id = s.cur.nextId ∧ p.sp = s.cs ∧ p.op = op ∧
    p.loc = s.cur.loc s.csp d ∧ p.lanes = s.csp.members

end Sys2Proof.Rule

/-- R180, R190: `gbdecl` of a well-formed descriptor declares the bundle for its launch, with status 1, or finds the same declaration, with
status 2; GBDECL_DONE writes the status to d. An id above 31, a bad extent count and extents that the table refuses fault `F_BUNDLE`. It
rests on choices of the model named in log entries 21 and 63. -/
def Obligations.BundleDeclarations : Prop :=
  (∀ (s : State) (d a b : Reg), s.regsReady [d] [a, a + 1, b] = true →
    let id := (s.u b).toNat
    let hnum := (s.u a).toNat
    let off := (s.u (a + 1)).toNat
    let stop := fun (t : State) (reason : Nat) => exec (.gbdecl d a b) s = .next (t.trapCur (Rule.leaderTrap s 0x09 reason 0))
    (31 < id → stop s.openRegion 9) ∧
    ∀ (s1 : State) (e : Entry) (p : Place) (bs : List Byte), id ≤ 31 → s.acquireOut = false →
      s.openRegion.descRead hnum off 8 8 = (s1, .ok (e, p, bs)) →
      let count := leNat bs % 8
      (count = 0 ∨ 4 < count → stop s1 1) ∧
      ∀ (s2 s3 : State) (xs : List Nat), 1 ≤ count → count ≤ 4 → s1.readExtents hnum (off + 8) count = (s2, .ok xs) →
        (∀ reason, s2.declare id xs = (s3, .error (.trap (Rule.leaderTrap s 0x09 reason 0))) → stop s3 reason) ∧
        (∀ st, s2.declare id xs = (s3, .ok st) →
          ∃ t, exec (.gbdecl d a b) s = .next t ∧ Rule.Stands s t [] (s.csp.pc + 4) ∧ Rule.Closes s t ∧ t.csp.st = .running ∧
            Rule.Pends s t d (.decl st) ∧ (∀ k, k ≠ s.cg → t.group k = s.group k) ∧
            (∃ ext, t.bundleOf s.curBlock.lid id = some { ext := ext, dropping := false }) ∧
            (∀ i, i ≠ id → t.bundleOf s.curBlock.lid i = s.bundleOf s.curBlock.lid i) ∧
            ((st = 1 ∧ s.bundleOf s.curBlock.lid id = none) ∨
              (st = 2 ∧ t.bundleOf s.curBlock.lid id = s.bundleOf s.curBlock.lid id)))) ∧
  (∀ (s : State) (k id : Nat) (p : Pend) (st : Word), (s.group k).pendOf id = some p → p.op = .decl st →
    ∃ t, exec (.gbdeclDone k id) s = .next t ∧ Rule.OnlyOf s t k ∧ Rule.Delivers s t k p st ∧
      (t.group k).splits = (s.group k).splits)

/-- R182-R186: `gbenter` of bundles that the group holds, or of none, answers at once; a request that fits starts its fill, with d scoreboarded
and its bundles Filling; one that does not fit, or that needs new lines while a request before it in the bundle queue waits, waits in the
queue; a line that does not translate faults, and one whose walk needs a row under test is waited for (R159). When its faults are taken, and as
what an untranslated line counts, are the model's choices of log entry 21; that reason 7 counts virtual lines is that of log entry 78. -/
def Obligations.BundleEntry : Prop :=
  ∀ (s : State) (d a : Reg), s.regsReady [d] [a] = true →
    let mask := s.u a
    let lid := s.curBlock.lid
    let stop := fun (t : State) (reason : Nat) => exec (.gbenter d a) s = .next (t.trapCur (Rule.leaderTrap s 0x09 reason 0))
    let bad := s.undeclared lid mask = true
    let big := (s.context s.curCtx).bcap.toNat < s.maskLines lid mask
    (mask ≠ 0 → bad → stop s.openRegion 6) ∧
    (mask ≠ 0 → ¬ bad → big → stop s.openRegion 7) ∧
    (mask = 0 ∨ (¬ bad ∧ ¬ big ∧ s.fillingOf s.cg = false ∧ mask &&& ~~~ s.cur.entered = 0) →
      ∃ t, exec (.gbenter d a) s = .next t ∧ OnlyGroup s t ∧ Rule.Stands s t [d] (s.csp.pc + 4) ∧ Rule.Closes s t ∧
        t.cur.entered = s.cur.entered ∧
        ∀ lane, s.csp.members.getLsbD lane = true → s.regAt t d lane = s.kept d mask) ∧
    (mask ≠ 0 → ¬ bad → ¬ big → s.fillingOf s.cg = true → exec (.gbenter d a) s = .next (s.openRegion.stallCur .filling)) ∧
    ∀ (s1 : State) (req : List ReqBundle), mask ≠ 0 → ¬ bad → ¬ big → s.fillingOf s.cg = false →
      mask &&& ~~~ s.cur.entered ≠ 0 → s.openRegion.request s.cg mask = (s1, req) →
      let fit := s1.fits s.cg req = true
      let pinned := (s1.core s.curCore).bundles.flatMap (·.pls)
      let ahead := (∃ r ∈ req, ∃ x ∈ r.lines, lineId x ∉ pinned) ∧ s.cur.entered = 0 ∧ s1.headAhead = true
      (reqBusy req = true → exec (.gbenter d a) s = .next (s1.stallCur .full)) ∧
      (reqBusy req = false → (¬ fit → s.cur.entered ≠ 0 → stop s1 8) ∧
      ((¬ fit ∧ s.cur.entered = 0) ∨ (fit ∧ ahead) →
        ∃ t r, exec (.gbenter d a) s = .next t ∧ SameMemory s t ∧ t.csp.st = .bundleQueue ∧ t.csp.pc = s.csp.pc ∧
          r ∈ (t.core s.curCore).bqueue ∧ r.g = s.cg ∧ r.sp = s.cs ∧ r.mask = mask ∧ r.loc = s.cur.loc s.csp d ∧
          r.lanes = s.csp.members ∧ ∀ loc lane, t.cur.rd loc lane = s.cur.rd loc lane) ∧
      (∀ vl, fit → ¬ ahead → reqFault req = some (vl, .page) →
        exec (.gbenter d a) s = .next (s1.trapCur (Rule.leaderTrap s 0x06 6 (vl * 128)))) ∧
      (∀ vl detail, fit → ¬ ahead → reqFault req = some (vl, .prot detail) →
        exec (.gbenter d a) s = .next (s1.trapCur (Rule.leaderTrap s 0x07 detail (vl * 128)))) ∧
      (fit → ¬ ahead → reqFault req = none →
        ∃ t f, exec (.gbenter d a) s = .next t ∧ Rule.Stands s t [] (s.csp.pc + 4) ∧ Rule.Closes s t ∧
          (∀ k, k ≠ s.cg → t.group k = s.group k) ∧ t.cur.entered = s.cur.entered ∧
          f ∈ (t.core s.curCore).fills ∧ f.id = s.cur.nextId ∧ f.g = s.cg ∧ f.mask = mask ∧
          f.fills = (req.filter fun r => !r.joined).map (·.id) ∧ f.loc = s.cur.loc s.csp d ∧ f.lanes = s.csp.members ∧
          (∀ r ∈ req, r.joined = false → (∀ vl pl, (vl, .ok pl) ∈ r.lines → (vl, pl) ∈ f.lines) ∧
            ∃ x, (t.core s.curCore).bundle lid r.id = some x ∧ x.st = .filling ∧ x.pls = (r.lines.map lineId).eraseDups) ∧
          t.cur.tokens = s.cur.tokens ++ [{ id := f.id, cmd := false, loc := f.loc, lanes := f.lanes }]))

/-- R187-R189: `gbleave` takes the group out of the named bundles once its loads are done; `gbquery` answers from the core's bundle
state; `gbdrop` marks the declared ids that it names, and returns them. -/
def Obligations.BundleLeaving : Prop :=
  ∀ (s : State) (d a : Reg) (m : BitVec 3),
    (s.regsReady [d] (if m = 2 then [a] else []) = true →
      Rule.Writes (.gbquery d a m) s s.csp.members ⟨d, if m = 2 then [a] else [], fun _ => Rule.bundleAnswer s a m⟩) ∧
    (s.regsReady [d] [a] = true →
      (s.fillingOf s.cg = true → exec (.gbleave d a) s = .next (s.openRegion.stallCur .filling)) ∧
      (s.fillingOf s.cg = false → (∃ p ∈ s.cur.ploads, p.id < s.orderBound) →
        exec (.gbleave d a) s = .next (s.openRegion.stallCur (.order s.orderBound))) ∧
      (s.fillingOf s.cg = false → (∀ p ∈ s.cur.ploads, s.orderBound ≤ p.id) →
        ∃ t, exec (.gbleave d a) s = .next t ∧ Rule.Stands s t [d] (s.csp.pc + 4) ∧ Rule.Closes s t ∧
          (∀ k, k ≠ s.cg → t.group k = s.group k) ∧ t.cur.entered = s.cur.entered &&& ~~~ s.u a ∧
          ∀ lane, s.csp.members.getLsbD lane = true → s.regAt t d lane = s.kept d (s.cur.entered &&& ~~~ s.u a)) ∧
      ∃ t, exec (.gbdrop d a) s = .next t ∧ Rule.Stands s t [d] (s.csp.pc + 4) ∧ Rule.Closes s t ∧ t.groups = (s.putCur t.cur).groups ∧
        let ids := (lanesOf (s.u a)).filter fun i => decide (∃ b ∈ s.bundleOf s.curBlock.lid i, b.dropping = false)
        (∀ lane, s.csp.members.getLsbD lane = true → s.regAt t d lane = s.kept d (maskOf ids)) ∧
        (∀ i ∈ ids, ∀ b ∈ t.bundleOf s.curBlock.lid i, b.dropping = true) ∧
        ∀ k i x, i ∈ ids → (s.core k).bundle s.curBlock.lid i = some x → x.st = .resident →
          (t.core k).bundle s.curBlock.lid i = none)

/-- R179, R181, R182, R184, R186, R189: K_BCAP_WRITE gives a live context its clamped line budget; BUNDLE_FILL_COMPLETE pins the lines that no
bundle with groups inside holds already, once its reads are sent, the core holds no strong store to the lines back and none of their rows is
under test, enters the group, which leaves again if it has exited, and writes its mask to d; BUNDLE_QUEUE_GRANT tests the request at the head
of the queue as at its issue, and once it leaves the queue the next one. It rests on choices of the model named in log entries 21
and 79. -/
def Obligations.BundleEvents : Prop :=
  (∀ (s : State) (ctx : Nat) (v : BitVec 32), (s.context ctx).live = true →
    ∃ t, exec (.kBcapWrite ctx v) s = .next t ∧ t = { s with contexts := t.contexts, cores := t.cores } ∧ SameMemory s t ∧
      t.context ctx = { s.context ctx with bcap := BitVec.ofNat 32 (max 4 (min 1536 v.toNat)) } ∧
      ∀ k, k ≠ ctx → t.context k = s.context k) ∧
  (∀ (s : State) (core id : Nat) (f : FillReq), (s.core core).fills.find? (fun f => decide (f.id = id)) = some f →
    (∀ i, (f.mask &&& ~~~ (s.group f.g).entered).getLsbD i = true →
      i ∈ f.fills ∨ ∃ x, (s.core core).bundle (s.block (s.group f.g).blk).lid i = some x ∧ x.st = .entered) →
    let places := f.lines.map fun x => Place.glob (x.2 * 128) (x.1 * 128)
    let held := f.unsent ≠ [] ∨ s.heldAtPlaces core places 4 = true ∨ s.underTest core places = true
    (held → exec (.bundleFillComplete core id) s = .next s) ∧
    (¬ held → (s.group f.g).live = false → ∃ t, exec (.bundleFillComplete core id) s = .next t ∧ SameMemory s t ∧
      (∀ k, k ≠ f.g → t.group k = s.group k) ∧ (t.group f.g).entered = 0) ∧
    (¬ held → (s.group f.g).live = true →
      ∃ t, exec (.bundleFillComplete core id) s = .next t ∧ SameMemory s t ∧ (∀ k, k ≠ f.g → t.group k = s.group k) ∧
        (t.group f.g).entered = (s.group f.g).entered ||| f.mask ∧ (t.group f.g).splits = (s.group f.g).splits ∧
        (t.group f.g).cnt = (s.group f.g).cnt ∧
        (∀ lane, f.lanes.getLsbD lane = true → (s.group f.g).exited.getLsbD lane = false → f.loc ≠ .off →
          (t.group f.g).rd f.loc lane = f.mask) ∧
        (∀ loc lane, lane < 32 → loc ≠ f.loc ∨ f.lanes.getLsbD lane = false → (t.group f.g).rd loc lane = (s.group f.g).rd loc lane) ∧
        (∀ x ∈ (t.group f.g).tokens, x.cmd = true ∨ x.id ≠ id) ∧
        ∀ y ∈ f.lines, (∀ x ∈ (s.core core).bundles, x.st = .entered → y.2 ∉ x.pls) →
          ∃ p ∈ (t.core core).pins, p.pl = y.2 ∧ p.data = s.lineBytes y.2)) ∧
  (∀ (s : State) (core : Nat), (s.core core).bqueue = [] → exec (.bundleQueueGrant core) s = .next s) ∧
  (∀ (s : State) (core : Nat) (h : QueueReq) (rest : List QueueReq), (s.core core).bqueue = h :: rest →
    (s.block (s.group h.g).blk).core = core →
    let head : State := { s.putCore core { s.core core with bqueue := rest } with cg := h.g, cs := h.sp }
    let stop := fun (reason : Nat) => exec (.bundleQueueGrant core) s =
      exec (.bundleQueueGrant core) { head.trapCur (Rule.leaderTrap head 0x09 reason 0) with cg := s.cg, cs := s.cs }
    let gone := s.undeclared (s.block (s.group h.g).blk).lid h.mask = true
    (gone → stop 6) ∧
    (¬ gone → s.fillingOf h.g = true → exec (.bundleQueueGrant core) s = .next s) ∧
    ∀ (s2 : State) (req : List ReqBundle), ¬ gone → s.fillingOf h.g = false → head.request h.g h.mask = (s2, req) →
      (reqBusy req = true → exec (.bundleQueueGrant core) s = .next s) ∧
      (s2.fits h.g req = false → (s.group h.g).entered = 0 → exec (.bundleQueueGrant core) s = .next s) ∧
      (reqBusy req = false → s2.fits h.g req = false → (s.group h.g).entered ≠ 0 → stop 8) ∧
      (s2.fits h.g req = true → reqFault req = none →
        ∃ t f, exec (.bundleQueueGrant core) s = exec (.bundleQueueGrant core) t ∧ SameMemory s t ∧ (∀ k, k ≠ h.g → t.group k = s.group k) ∧
          (t.core core).bqueue = rest ∧ f ∈ (t.core core).fills ∧ f.g = h.g ∧ f.mask = h.mask ∧ f.loc = h.loc ∧ f.lanes = h.lanes ∧
          ((t.group h.g).split h.sp).pc = ((s.group h.g).split h.sp).pc + 4 ∧ ((t.group h.g).split h.sp).st = .running ∧
          ∀ loc lane, (t.group h.g).rd loc lane = (s.group h.g).rd loc lane))

/-! ### Translation and launches -/

namespace Sys2Proof.Rule
open Sys2Proof Sys2Proof.Machine

/-- The kinds of `ginval` (R304): 0 `.pg`, 1 `.hnd`, 2 `.xon`, 3 `.xoff`, 4 `.rvk`. -/
def invalidation (i : Instr) : Option (Nat × Reg × Reg × Reg) :=
  match i with
  | .ginvalPg d a b => some (0, d, a, b)
  | .ginvalHnd d a b => some (1, d, a, b)
  | .ginvalXon d a b => some (2, d, a, b)
  | .ginvalXoff d a b => some (3, d, a, b)
  | .ginvalRvk d a b => some (4, d, a, b)
  | _ => none

/-- The instruction writes a status to `d` at once and goes on at PC + 4; registers of other lanes, counters and memory stay. -/
def Answers (i : Instr) (s : State) (d : Reg) (v : Word) : Prop :=
  ∃ t, exec i s = .next t ∧ RegisterStep s t [d] s.csp.members (s.csp.pc + 4) ∧
    ∀ lane, s.csp.members.getLsbD lane = true → s.regAt t d lane = s.kept d v

/-- The instruction has issued: its operation is recorded, and its split waits at it until an event writes `d`. -/
def Holds (i : Instr) (s : State) (d : Reg) (op : PendOp) : Prop :=
  ∃ t, exec i s = .next t ∧ Stands s t [] s.csp.pc ∧ t.csp.st = .awaiting ∧ Pends s t d op ∧
    (∀ loc lane, t.cur.rd loc lane = s.cur.rd loc lane) ∧ ∀ k, k ≠ s.cg → t.group k = s.group k

/-- A held operation has ended: its status is delivered and its split, unless its group has stopped, goes on behind the instruction. -/
def Resumes (s t : State) (k : Nat) (p : Pend) (v : Word) : Prop :=
  Delivers s t k p v ∧
  ∀ sp, mapFind (s.group k).splits p.sp = some sp → sp.st ≠ .halted → (t.group k).split p.sp = { sp with pc := sp.pc + 4, st := .running }

/-- An operation has ended: it is no longer recorded, and its status has reached its register. -/
def Ends (s t : State) (k : Nat) (p : Pend) (v : Word) : Prop :=
  (t.group k).pends = (s.group k).pends.filter (fun q => decide (q.id ≠ p.id)) ∧
  ∀ lane, p.lanes.getLsbD lane = true → (s.group k).exited.getLsbD lane = false → p.loc ≠ .off → (t.group k).rd p.loc lane = v

/-- An earlier store of the group is not yet done (R153), for an instruction that waits at `orderBound`; one in the quantum buffer does not
count, which is the model's choice where R168 asks for acknowledgements (log entry 76). -/
def storeOpen (s : State) : Prop :=
  (∃ p ∈ s.cur.pstores, p.buffered = false ∧ p.id < s.orderBound) ∨ ∃ h ∈ s.cur.hsts, h.id < s.orderBound

/-- `storeOpen`, or an earlier store still waits in the quantum buffer (R302, R304). -/
def anyStoreOpen (s : State) : Prop := (∃ p ∈ s.cur.pstores, p.id < s.orderBound) ∨ ∃ h ∈ s.cur.hsts, h.id < s.orderBound

/-- The device's writes of page tables and pools but for those to executable and frozen pages, which take no effect (log entry 61). -/
def allowed (s : State) (ws : List (Nat × Nat)) : List ByteWrite :=
  (ws.filter fun w => !s.execPage w.1).map fun w => { place := .glob w.1 0, bytes := leBytes 8 w.2 }

/-- A cached translation of this context meets the page range. -/
def meets (e : TlbEnt) (ctx a n : Nat) : Prop := e.ctx = ctx ∧ e.vpn < a + n ∧ a < e.vpn + e.pages

end Sys2Proof.Rule

/-- R282, R302, R304: `gmap` records the mapping of the page that holds its address and goes on; `gsplinter` and `ginval` hold their split,
after the group's earlier stores; `ginval` of no page answers 0 at once, and one that its checks refuse answers that status, once no row that
they read is under test (R159). `.xoff` takes its range out of the executable counts, and `.xon` freezes its pages (R45, R303). It rests on
choices of the model named in log entries 13 and 17. -/
def Obligations.TranslationOperations : Prop :=
  ∀ (s : State) (d a b : Reg) (m : BitVec 3), s.privileged = true →
    (m.toNat < 3 → s.regsReady [d] [a, b] = true →
      let size := if m = 0 then 2 ^ 16 else if m = 1 then 2 ^ 21 else 2 ^ 29
      ∃ t, exec (.gmap d a b m) s = .next t ∧ OnlyGroup s t ∧ Rule.Stands s t [] (s.csp.pc + 4) ∧ t.csp.st = .running ∧
        Rule.Pends s t d (.map (((s.u b).toNat * 2 ^ 32 + (s.u a).toNat) / size * size) (4 - m.toNat))) ∧
    (m.toNat < 2 → s.regsReady [d] [a] = true →
      (Rule.anyStoreOpen s → exec (.gsplinter d a m) s = .next (s.stallCur (.drained s.orderBound))) ∧
      (¬ Rule.anyStoreOpen s → Rule.Holds (.gsplinter d a m) s d (.splinter ((s.u a).toNat * 2 ^ 16) (3 - m.toNat)))) ∧
    ∀ (i : Instr) (kind : Nat), Rule.invalidation i = some (kind, d, a, b) → s.regsReady [d] [a, b] = true →
      let p := (s.u a).toNat
      let n := (s.u b).toNat
      let pages := s.execPages s.curCtx p n
      (Rule.anyStoreOpen s ∨ s.now ≤ s.cur.ct → exec i s = .next (s.stallCur (.drained s.orderBound))) ∧
      let busy := (kind = 3 ∨ (kind = 2 ∧ n ≤ 64)) ∧ p + n ≤ 2 ^ 32 ∧ s.rangeBusy s.curCtx p n = true
      (¬ Rule.anyStoreOpen s → s.cur.ct < s.now → busy → exec i s = .next (s.stallCur .full)) ∧
      (¬ Rule.anyStoreOpen s → s.cur.ct < s.now → ¬ busy →
        (n = 0 → Rule.Answers i s d 0) ∧
        (n ≠ 0 → kind ≠ 1 → 2 ^ 32 < p + n → Rule.Answers i s d 1) ∧
        (n ≠ 0 → p + n ≤ 2 ^ 32 → kind = 2 → 64 < n ∨ pages.length ≠ n → Rule.Answers i s d 2) ∧
        (n ≠ 0 → kind = 1 ∨ p + n ≤ 2 ^ 32 → kind ≠ 2 → Rule.Holds i s d (.inval (if kind = 3 then 0 else kind) p n [] none)) ∧
        (n ≠ 0 → p + n ≤ 2 ^ 32 → kind = 3 → ∃ t, exec i s = .next t ∧ t.xcount = countPages false s.xcount pages) ∧
        (kind = 2 → s.invalStatus kind s.curCtx p n = none → Rule.Holds i s d (.inval 2 p n pages (some (s.openWrites pages))) ∧
          ∃ t, exec i s = .next t ∧ ∀ x, x ∈ t.frozen ↔ x ∈ pages ∨ x ∈ s.frozen))

/-- R282: GMAP_DONE decides its mapping and delivers the status: 3 beyond the address space, 1 where a leaf covers the page, 4 where a leaf
lies below it, 3 at an entry that is not a first-touch one, 2 where the page pool is empty. At a first-touch entry of the page's own level
it takes a page from the pool, and writes the leaf. While a row that it reads is under test nothing happens (R159). -/
def Sys2Proof.Rule.MappingEnds : Prop :=
  ∀ (s : State) (k id va level : Nat) (p : Pend), (s.group k).pendOf id = some p → p.op = .map va level → 2 ≤ level → level ≤ 4 →
    let ctx := (s.block (s.group k).blk).ctx
    let root := (s.context ctx).root
    (s.mapBusy ctx va = true → exec (.gmapDone k id) s = .next s) ∧
    (s.mapBusy ctx va = false →
    let ends := fun (st : Word) => ∃ t, exec (.gmapDone k id) s = .next t ∧ Rule.Ends s t k p st ∧ (st ≠ 0 → SameMemory s t) ∧
      ((s.groups.all fun e => e.2.wait.isNone) = true → Rule.Delivers s t k p st ∧ (∀ j, j ≠ k → t.group j = s.group j) ∧
        (t.group k).splits = (s.group k).splits)
    (∃ st, st.toNat ≤ 4 ∧ ends st) ∧
    (2 ^ 48 ≤ va → ends 3) ∧
    (∀ leaf sh, va < 2 ^ 48 → walk s va levels root = some (leaf, sh) →
      ends (if (if level = 4 then 16 else if level = 3 then 21 else 29) ≤ sh then 1 else 4)) ∧
    ∀ d, va < 2 ^ 48 → s.descend va levels (level - 1) root = some d → d.entry.testBit 63 = false →
      (d.entry.testBit 58 = false → ends 3) ∧
      (d.entry.testBit 58 = true → d.left = 0 → s.poolCount ctx (4 - level) = 0 → ends 2) ∧
      ∀ pool, d.entry.testBit 58 = true → d.left = 0 → mapFind (s.context ctx).pools (4 - level) = some pool → s.physNum pool 8 ≠ 0 →
        let n := s.physNum pool 8
        let leaf := 2 ^ 63 + 2 ^ 62 + 2 ^ 61 + 2 ^ 60 + s.physNum (pool + 8 * n) 8
        ∃ t, exec (.gmapDone k id) s = .next t ∧ Rule.Ends s t k p 0 ∧ MemoryAfter (Rule.allowed s [(pool, n - 1), (d.at', leaf)]) s t)

/-- R302: GSPLINTER_DONE puts a table of the next level's leaves, with the permissions of the old leaf, in its place, and delivers the
status: 1 where no leaf of the level maps the address, 2 where the table pool is empty. While a row that it reads is under test nothing
happens (R159). -/
def Sys2Proof.Rule.SplinterEnds : Prop :=
  ∀ (s : State) (k sp va level : Nat) (p : Pend), (s.group k).heldPend sp = some p → p.op = .splinter va level →
    level = 2 ∨ level = 3 →
    let ctx := (s.block (s.group k).blk).ctx
    let d := s.descend va levels (level - 1) (s.context ctx).root
    (s.mapBusy ctx va = true → exec (.gsplinterDone k sp) s = .next s) ∧
    (s.mapBusy ctx va = false →
    let fits := fun (x : Descent) => x.left = 0 ∧ leafAt x.level x.entry = true
    let k' := if level = 3 then 3 else 4
    let ends := fun (st : Word) => ∃ t, exec (.gsplinterDone k sp) s = .next t ∧ Rule.Ends s t k p st ∧ (st ≠ 0 → SameMemory s t) ∧
      ((s.groups.all fun e => e.2.wait.isNone) = true → Rule.Resumes s t k p st ∧ ∀ j, j ≠ k → t.group j = s.group j)
    ((∀ x, d = some x → ¬ fits x) → ends 1) ∧
    ∀ x, d = some x → fits x →
      (s.poolCount ctx k' = 0 → ends 2) ∧
      ∀ pool, mapFind (s.context ctx).pools k' = some pool → s.physNum pool 8 ≠ 0 →
        let n := s.physNum pool 8
        let table := s.physNum (pool + 8 * n) 8
        let leaf := fun (i : Nat) => (table + 8 * i, 2 ^ 63 + 2 ^ 62 + x.entry / 2 ^ 59 % 8 * 2 ^ 59 + pteAddr x.entry +
          i * (if level = 3 then 2 ^ 16 else 2 ^ 21))
        ends 0 ∧ ∃ t, exec (.gsplinterDone k sp) s = .next t ∧
          MemoryAfter (Rule.allowed s ((pool, n - 1) :: ((seqFrom 0 (if level = 3 then 32 else 256)).map leaf ++
            [(x.at', 2 ^ 63 + table)]))) s t)

/-- R45, R191, R192, R303-R305: INVALIDATION_COMPLETE removes the range's cached handles, or its translations and L1 lines on every core, and
delivers 0 once nothing that was translated in the range is under way and no covered bundle is held; `.rvk` revokes those. `.xon` scans its
pages once the writes to them have landed and none of their rows is under test (R159): refused ones answer the first bad word with its reason,
accepted ones enter the executable counts. What a TLB has taken up during the drain has gone too: `ready` says that it agrees with the table,
and that no walk of the range waits for a row under test (R159). -/
def Sys2Proof.Rule.InvalidationEnds : Prop :=
  ∀ (s : State) (k sp kind a n : Nat) (pages : List Nat) (old : Option Drain) (p : Pend), (s.group k).heldPend sp = some p →
    p.op = .inval kind a n pages old →
    let ctx := (s.block (s.group k).blk).ctx
    let settled := Drain.over (s.drainLeft (old.getD (s.openAccs ctx a n))) = true
    let ready := s.rangeBusy ctx a n = false ∧ (old ≠ none → s.rangeStale ctx a n = false)
    let dropped := fun (t : State) => (∀ c e, e ∈ (t.cluster c).tlb → ¬ Rule.meets e ctx a n) ∧
      (∀ c e, e ∈ mapGet [] t.lltlb c → ¬ Rule.meets e ctx a n) ∧
      ∀ c l, l ∈ (t.core c).l1 → ¬ (l.ctx = ctx ∧ a ≤ l.vl / 512 ∧ l.vl / 512 < a + n)
    let resumes := fun (st : Word) (more : State → Prop) =>
      ∃ t, exec (.invalidationComplete k sp) s = .next t ∧ Rule.Resumes s t k p st ∧ SameMemory s t ∧ more t
    (kind = 1 → resumes 0 fun t => (∀ j, j ≠ k → t.group j = s.group j) ∧
      ∀ c e, e ∈ (t.core c).hcache → ¬ (e.ctx = ctx ∧ a ≤ e.idx ∧ e.idx < a + n)) ∧
    (kind ≠ 1 → kind ≠ 2 → old = none → ∃ t, exec (.invalidationComplete k sp) s = .next t ∧ SameMemory s t ∧
      dropped t ∧
      ∀ loc lane, loc ≠ p.loc → (t.group k).rd loc lane = (s.group k).rd loc lane) ∧
    (kind = 0 → settled → s.bundleOpen ctx a n = false → ready → resumes 0 dropped) ∧
    (kind = 4 → settled → (∃ x, old = some x ∧ x.revoked = true) → ready → resumes 0 dropped) ∧
    (kind = 4 → settled → (∀ x, old = some x → x.revoked = false) → s.openFills ctx a n = [] → ready →
      resumes 0 fun t => dropped t ∧ ∀ c b, b ∈ (t.core c).bundles → s.covers ctx a n b = false) ∧
    (kind = 2 → (∀ x, old = some x → Drain.over (s.drainLeft x) = true) → s.rangesTested [] pages = false →
      (∀ w r, s.scanPages ctx pages = some (w, r) → resumes (BitVec.ofNat 32 (w * 2 ^ 12 + r * 2 ^ 8 + 0x0F)) fun t =>
        t.xcount = s.xcount ∧ ∀ j, j ≠ k → t.group j = s.group j) ∧
      (s.scanPages ctx pages = none → (∃ t, exec (.invalidationComplete k sp) s = .next t ∧ SameMemory s t ∧
          t.xcount = countPages true s.xcount pages) ∧
        (Drain.over (s.openAccs ctx a n) = true → s.openFills ctx a n = [] → s.rangeBusy ctx a n = false →
          resumes 0 fun t => t.xcount = countPages true s.xcount pages))) ∧
    (kind = 2 → ∀ x, old = some x → Drain.over (s.drainLeft x) = false ∨ s.rangesTested [] pages = true →
      exec (.invalidationComplete k sp) s = .next (s.setPend k p (.inval 2 a n pages (some (s.drainLeft x)))))

/-- R282, R302, R304, R305: the events that end the operations on page tables and ranges. It rests on choices of the model named in log
entries 16, 17, 61, 83 and 84. -/
def Obligations.TranslationEvents : Prop := Rule.MappingEnds ∧ Rule.SplinterEnds ∧ Rule.InvalidationEnds


/-- R310: `glaunch` checks and captures its record and holds its split; an accepted one joins its queue under the next launch identifier, which
is its status, and a refused one has the status 0xFFFFFF00 plus the reason. While the `launch` bit of `D_READY` is 0 it waits, which is the
model's choice of log entry 82, and while its checks need a row under test (R159). GLAUNCH_DONE delivers the status. -/
def Sys2Proof.Rule.Launching : Prop :=
  (∀ (s s1 : State) (d a : Reg) (e : Entry) (p : Place) (bs : List Byte), s.privileged = true →
    s.regsReady [d] [a, a + 1] = true → s.acquireOut = false →
    (s.dready.getLsbD 4 = false → exec (.glaunch d a) s = .next (s.stallCur .queue)) ∧
    (s.dready.getLsbD 4 = true → s.descRead (s.u a).toNat (s.u (a + 1)).toNat 64 64 = (s1, .ok (e, p, bs)) →
    let w := recWords bs
    (s1.launchWaits w = true → exec (.glaunch d a) s = .next (s1.stallCur .full)) ∧
    (s1.launchWaits w = false →
    let reason := s1.launchReason w
    let lid := s.nextLid
    ∃ t st, exec (.glaunch d a) s = .next t ∧ Rule.Stands s t [] s.csp.pc ∧ t.csp.st = .awaiting ∧ Rule.Pends s t d (.launch st) ∧
      (∀ k, k ≠ s.cg → t.group k = { s.group k with wait := (t.group k).wait }) ∧ t.blocks = s.blocks ∧
      (reason ≠ 0 → st = BitVec.ofNat 32 (0xFFFFFF00 + reason) ∧ t.launches = s.launches ∧ t.nextLid = s.nextLid) ∧
      (reason = 0 → st = BitVec.ofNat 32 lid ∧ t.nextLid = (if 0xFFFFFEFF ≤ lid then 1 else lid + 1) ∧
        (∀ k, k ≠ lid → { t.launch k with dep := (s.launch k).dep } = s.launch k) ∧
        (t.launch lid).st = .queued ∧ (t.launch lid).next = 0 ∧ (t.launch lid).done = 0 ∧
        (t.launch lid).ctx = (w[15]?).getD 0 / 2 ^ 22 % 2 ^ 10 ∧ (t.launch lid).kernel = (w[0]?).getD 0 + (w[1]?).getD 0 * 2 ^ 32 ∧
        (t.launch lid).gx = (w[2]?).getD 0 / 2 ^ 16 % 2 ^ 16 ∧ (t.launch lid).gy = (w[2]?).getD 0 % 2 ^ 16 ∧
        (t.launch lid).gz = (w[3]?).getD 0 / 2 ^ 16 % 2 ^ 16 ∧ (t.launch lid).prio = (w[3]?).getD 0 / 2 ^ 10 % 4 ∧
        (t.launch lid).queue = (w[3]?).getD 0 % 2 ^ 6 ∧ (t.launch lid).live = (w[4]?).getD 0 / 2 ^ 16 % 2 ^ 16 ∧
        (t.launch lid).width = (w[4]?).getD 0 % 2 ^ 16 ∧ (t.launch lid).seed = s.dseed ∧ (t.launch lid).seq = s.nextSeq)))) ∧
  (∀ (s : State) (k sp : Nat) (p : Pend) (st : Word), (s.group k).heldPend sp = some p → p.op = .launch st →
    ∃ t, exec (.glaunchDone k sp) s = .next t ∧ Rule.OnlyOf s t k ∧ Rule.Resumes s t k p st)

/-- No block of the context is away from its core, but for those on the way there. -/
def Sys2Proof.Rule.noneAway (s : State) (ctx : Nat) : Prop :=
  ∀ e ∈ s.blocks, e.2.control = true ∨ e.2.ctx ≠ ctx ∨ (e.2.st ≠ .absent ∧ e.2.st ≠ .ready)

/-- There is at most one launch, or the completion words of all lie where the model has found them (R305) and are sound, and two of them are
one word or are apart. -/
def Sys2Proof.Rule.onePlace (s : State) (out : List (Nat × Launch)) : Prop :=
  out.length ≤ 1 ∨ ((∀ e ∈ out, e.2.compLost = false ∧ s.poisoned (.glob e.2.comp 0) 4 = false) ∧
    out.Pairwise fun x y => x.2.comp = y.2.comp ∨ x.2.comp + 4 ≤ y.2.comp ∨ y.2.comp + 4 ≤ x.2.comp)

/-- What the removal of launches writes (R311): 0x10000 more in the completion word of each, the ones before it counted; a poisoned word
becomes 1, and a word that no page holds, or that lies in an executable or frozen page, is not written. -/
def Sys2Proof.Rule.completions (s : State) : List (Nat × Launch) → List Nat → List ByteWrite
  | [], _ => []
  | e :: rest, seen =>
    match s.compAt e.2 with
    | none => completions s rest seen
    | some pa =>
      if s.execPage pa = true then completions s rest seen
      else
        let v := if s.poisoned (.glob pa 0) 4 = true then 1 else (s.physNum pa 4 + 0x10000 * (seen.count pa + 1)) % 2 ^ 32
        { place := .glob pa 0, bytes := leBytes 4 v } :: completions s rest (pa :: seen)

/-- R311: `gqend` and `gdrain` name a context and its queues; a context that is not live answers 0xFFFFFFFF. `gqend` removes the launches that
have no started block, counts them, and adds 0x10000 to the completion word of each, but for one in an executable or frozen page, which stays
(log entry 61), and a poisoned one, which becomes 1 (log entry 81); the other launches stay; `gdrain.wait` answers 0 where no launch is named,
and else waits; `gdrain.stop` answers 0 where the context has stopped, and else waits until it has; `gdrain.run` makes absent blocks Ready and
counts them. It rests on choices of the model named in log entries 13, 18, 61, 62 and 81. -/
def Obligations.QueueControl : Prop :=
  ∀ (s : State) (d a : Reg), s.privileged = true → s.regsReady [d] [a] = true →
    let ctx := (s.u a).toNat / 2 ^ 16
    let q := (s.u a).toNat % 2 ^ 8
    let c := s.context ctx
    let named := s.launches.filter fun e => decide (e.2.ctx = ctx ∧ (q = 0xFF ∨ e.2.queue = q))
    let out := named.filter fun e => decide (e.2.next = 0)
    (c.live = false → ∀ i ∈ [Instr.gqend d a, .gdrainWait d a, .gdrainStop d a, .gdrainRun d a], Rule.Answers i s d 0xFFFFFFFF) ∧
    (c.live = true → (s.groups.all fun e => e.2.wait.isNone && e.2.pends.isEmpty) = true →
      ∃ t, exec (.gqend d a) s = .next t ∧ Retired s t ∧ t.csp.pc = s.csp.pc + 4 ∧ t.csp.members = s.csp.members ∧
        (∀ k, k ≠ s.cg → t.group k = s.group k) ∧
        (Rule.onePlace s out → MemoryAfter (Rule.completions s out []) s t) ∧
        (∀ k, mapFind t.launches k ≠ none → mapFind s.launches k ≠ none ∧ ∀ e ∈ out, k ≠ e.1) ∧
        (∀ k, (∀ e ∈ out, k ≠ e.1) → (mapFind s.launches k ≠ none → mapFind t.launches k ≠ none) ∧
          { t.launch k with dep := (s.launch k).dep } = s.launch k) ∧
        (∀ lane, s.csp.members.getLsbD lane = true →
          s.regAt t d lane = s.kept d (BitVec.ofNat 32 out.length)) ∧
        ∀ loc lane, lane < 32 → loc ≠ s.cur.loc s.csp d ∨ s.csp.members.getLsbD lane = false →
          t.cur.rd loc lane = s.cur.rd loc lane) ∧
    (c.live = true → (named = [] → Rule.Answers (.gdrainWait d a) s d 0) ∧
      (named ≠ [] → Rule.Holds (.gdrainWait d a) s d (.drainWait ctx q))) ∧
    (c.live = true → c.stopped = true → c.stopPending = false → Rule.Answers (.gdrainStop d a) s d 0) ∧
    (c.live = true → c.stopped = true → c.stopPending = true → s.ctxBusy ctx = true →
      (∀ e ∈ s.contexts, e.2.stopPending = true → s.ctxBusy e.1 = true) →
      (∀ e ∈ s.groups, e.2.pends = []) → Rule.Holds (.gdrainStop d a) s d (.drainStop ctx s.now)) ∧
    (c.live = true → c.stopped = false →
      ∃ t, exec (.gdrainStop d a) s = .next t ∧ (t.context ctx).stopped = true ∧
        (Rule.noneAway s ctx → (∀ e ∈ s.groups, e.2.pends = []) → s.ctxBusy ctx = true → Rule.Stands s t [] s.csp.pc ∧
          t.csp.st = .awaiting ∧
          Rule.Pends s t d (.drainStop ctx s.now))) ∧
    (c.live = true →
      ∃ t, exec (.gdrainRun d a) s = .next t ∧ Rule.Stands s t [d] (s.csp.pc + 4) ∧
        t.context ctx = { c with stopped := false, stopPending := false } ∧
        let out := s.blocks.filter fun e => decide (e.2.control = false ∧ e.2.ctx = ctx ∧ e.2.st = .absent)
        (∀ e ∈ out, (t.block e.1).st = .ready) ∧ (∀ k, (∀ e ∈ out, e.1 ≠ k) → t.block k = s.block k) ∧
        ∀ lane, s.csp.members.getLsbD lane = true → s.regAt t d lane = s.kept d (BitVec.ofNat 32 out.length))

/-- R289, R313: PREEMPT_STOP_REQUEST stops a running context: its blocks that stand resident outside ordered mode are Stopping, with
reason 3; LAUNCH_FINISH adds 1 to the completion word of a launch whose blocks have finished and whose completion times have
passed, and removes the launch. -/
def Sys2Proof.Rule.LaunchEvents : Prop :=
  (∀ (s : State) (ctx : Nat), (s.context ctx).live = true → (s.context ctx).stopped = false →
    ∃ t, exec (.preemptStopRequest ctx) s = .next t ∧ (t.context ctx).stopped = true ∧
      (Rule.noneAway s ctx → (∀ e ∈ s.groups, e.2.pends = []) → SameMemory s t) ∧
      (∀ k, k ≠ ctx → (t.context k).stopped = (s.context k).stopped) ∧
      (∀ k b, s.blocks.filter (fun e => decide (e.1 = k)) = [(k, b)] → b.control = false → b.ctx = ctx → b.st = .resident →
        (s.launch b.lid).q = 0 →
        (t.block k).st = .stopping ∧ (t.block k).reason = 3 ∧ (t.block k).stopAt = s.now)) ∧
  (∀ (s : State) (lid : Nat), (s.launch lid).st = .finishing → (s.launch lid).ct < s.now →
    ∃ t, exec (.launchFinish lid) s = .next t ∧ mapFind t.launches lid = none ∧
      ((∀ e ∈ s.groups, e.2.pends = []) →
        (s.compAt (s.launch lid) = none → SameMemory s t) ∧
        ∀ pa, s.compAt (s.launch lid) = some pa → s.execPage pa = false →
          let w := if s.poisoned (.glob pa 0) 4 = true then 1 else (s.physNum pa 4 + 1) % 2 ^ 32
          MemoryAfter [{ place := .glob pa 0, bytes := leBytes 4 w }] s t) ∧
      ∀ c b, b ∈ (t.core c).bundles → b.lid ≠ lid)

/-- R289, R310, R313: launches from `glaunch` to their end. It rests on choices of the model named in log entries 13, 52, 62, 63, 81
and 82. -/
def Obligations.Launches : Prop := Rule.Launching ∧ Rule.LaunchEvents

/-! ### Engine, matrix and routing commands -/

namespace Sys2Proof.Rule
open Sys2Proof Sys2Proof.Machine

/-- The current group has forked command `c` (R168, R222): its counter rises, a named token register is scoreboarded, the region closes
and the split goes on; no register, counter or byte of memory changes, and no other group. -/
def Forks (s t : State) (c : Cmd) (tok : Option Reg) (tile : Bool) : Prop :=
  Stands s t [] (s.csp.pc + 4) ∧ Closes s t ∧ t.csp.st = .running ∧ (∀ k, k ≠ s.cg → t.group k = s.group k) ∧
  c.id = s.nextCmd ∧ t.nextCmd = s.nextCmd + 1 ∧ c.g = s.cg ∧ c.core = s.curCore ∧ c.lanes = s.csp.members ∧ c.started = false ∧
  c.tok = tok.map (s.cur.loc s.csp) ∧ c.waitCommit = decide (s.curLaunch.q ≠ 0) ∧
  t.cur.neng = (if tile = true then s.cur.neng else s.cur.neng + 1) ∧ t.cur.ntile = (if tile = true then s.cur.ntile + 1 else s.cur.ntile) ∧
  t.cur.tokens = s.cur.tokens ++ (match c.tok with
    | none => []
    | some loc => [{ id := c.id, cmd := true, loc := loc, lanes := BitVec.ofNat 32 (2 ^ 32 - 1) }])

/-- The data-engine instructions (R214): the kind, which is the engine's queue too, and the operands. -/
def dataEngine (i : Instr) : Option (Nat × Reg × Reg × Reg × BitVec 3) :=
  match i with
  | .gcopy d a b m => some (0, d, a, b, m)
  | .ggather d a b m => some (1, d, a, b, m)
  | .gscadd d a b m => some (2, d, a, b, m)
  | _ => none

/-- The registers that a command with a descriptor reads (R215): the descriptor's pair, and under `.arr` the object's. -/
def commandReads (a b : Reg) (m : BitVec 3) : List Reg := [a, a + 1] ++ (if m.getLsbD 0 = true then [b, b + 1] else [])

/-- The token register of such a command, if it names one (R222). -/
def tokenOf (d : Reg) (m : BitVec 3) : Option Reg := if m.getLsbD 1 = true then none else some d

/-- The command passes every check of R217 of a copy, gather or scatter-add: its descriptor's words, its sides, its barrier object and
its pages, with the state that the checks leave. -/
structure EngineChecks where
  s1 : State
  s2 : State
  s3 : State
  s4 : State
  s5 : State
  addr : Nat
  bs : List Byte
  sides : List SideAt
  obj : Option (Place × Nat)
  xa : List (Nat × Nat)
  xb : List (Nat × Nat)

/-- What `EngineChecks` means for kind `kind` in state `s`, whose region entry is already the instruction's PC. -/
def EngineChecks.hold (k : EngineChecks) (s : State) (kind : Nat) (a b : Reg) (m : BitVec 3) : Prop :=
  let f := recWord (recWords k.bs)
  let lens := (dataSides kind f).map (·.len)
  let hull := fun (i : Nat) => ((k.sides[i]?).map (·.hull)).getD []
  let remote := fun (i : Nat) => ∃ x ∈ k.sides[i]?, x.space = 0 ∨ x.space = 3
  s.cmdDesc 0x0D 2 (s.u a).toNat (s.u (a + 1)).toNat 64 64 = (k.s1, .ok (k.addr, k.bs)) ∧ descReason kind f = 0 ∧
  k.s1.sideChecks (.trap { code := 0x0D, detail := 2, addr := BitVec.ofNat 64 k.addr, mask := s.leaderMask, part := false })
    (dataSides kind f) = (k.s2, .ok k.sides) ∧
  (kind = 0 → ¬ (remote 0 ∧ remote 1) ∧ anyConflict (hull 0) (hull 1) = false) ∧
  k.s2.arrCheck (m.getLsbD 0) b = (k.s3, .ok k.obj) ∧
  (if kind = 0 then k.s3.transSide (dataCmdOf kind f k.sides).a ((lens[0]?).getD 0) true false = (k.s4, .ok k.xa) ∧
      k.s4.transSide (dataCmdOf kind f k.sides).b ((lens[1]?).getD 0) false true = (k.s5, .ok k.xb)
    else k.s4 = k.s3 ∧ k.s5 = k.s3 ∧ k.xa = [] ∧ k.xb = [])

/-- The tile commands (R234): the tile registers whose descriptors they capture, the registers that they test, the operation, the token
register, and the conditions on descriptors of their cards, all of which must hold. -/
structure TileForm where
  tiles : List Reg
  regs : List Reg
  tok : Option Reg
  op : CmdOp
  ok : Prop

/-- ok(T) of R232 in the current block's scratchpad. -/
def tileOk (s : State) (t : Tile) : Prop :=
  t.base % 4 = 0 ∧ 4 * ceilDiv (t.cols * esize t.fmt) 4 ≤ 4 * t.stride ∧
    t.base + (4 * t.stride * (t.rows - 1) + t.cols * esize t.fmt) ≤ s.curBlock.scratch

/-- The hulls of two tiles are apart (R232). -/
def tilesApart (x y : Tile) : Prop := x.base + x.ext ≤ y.base ∨ y.base + y.ext ≤ x.base

/-- The formats of a product (R240). -/
def productFormats (x y z : Tile) : Prop :=
  ((x.fmt = 3 ∨ x.fmt = 4) ∧ (y.fmt = 3 ∨ y.fmt = 4) ∧ z.fmt = 0) ∨ (x.fmt = 2 ∧ y.fmt = 2 ∧ z.fmt = 0) ∨
    (x.fmt = 1 ∧ y.fmt = 1 ∧ z.fmt = 0) ∨ (x.fmt = 7 ∧ y.fmt = 7 ∧ z.fmt = 7)

/-- The descriptors of tile registers: as the command captured them when it issued, while it waits to fork, else as they are (R234). -/
def descriptors (s : State) (rs : List Reg) : List Dword :=
  if s.csp.caps.length = rs.length then s.csp.caps else rs.map s.cur.tile

/-- The tile commands of R239-R245 with their cards' conditions. -/
def tileForm (s : State) (i : Instr) : Option TileForm :=
  match i with
  | .mma d a b m =>
    let cap := fun (i : Nat) => ((descriptors s [d, a, b])[i]?).getD 0
    let td := match s.openChain with
      | none => cap 0
      | some c => c.td
    let x := tileOf (cap 1)
    let y := tileOf (cap 2)
    let z := tileOf td
    let (n, k) := if m.getLsbD 1 = true then (y.rows, y.cols) else (y.cols, y.rows)
    some
      { tiles := [d, a, b], regs := [], tok := none
        op := .mma (m.getLsbD 0) (m.getLsbD 1) (s.openChain.map (·.num)) (cap 1) (cap 2) td
        ok := (∀ c ∈ s.openChain, d.toNat % 16 = c.tile ∧ m.getLsbD 0 = false) ∧ productFormats x y z ∧ tileOk s x ∧ tileOk s y ∧
          tileOk s z ∧ k = x.cols ∧ z.rows = x.rows ∧ z.cols = n ∧ (s.openChain = none → tilesApart z x ∧ tilesApart z y) }
  | .mchain d m =>
    let x := tileOf ((descriptors s [d]).headD 0)
    some
      { tiles := [d], regs := [], tok := none, op := .mchain (m.getLsbD 1)
        ok := s.cur.chain = none ∧ (x.fmt = 0 ∨ x.fmt = 7) ∧ tileOk s x }
  | .mend d a m =>
    some
      { tiles := [], regs := [d], tok := some d, op := .mend (decide (m = 1)) ((s.openChain.map (·.num)).getD 0)
        ok := ∃ c, s.openChain = some c ∧ a.toNat % 16 = c.tile }
  | .msacc d a b m =>
    let cap := fun (i : Nat) => ((descriptors s [d, a, b])[i]?).getD 0
    let x := tileOf (cap 0)
    let y := tileOf (cap 1)
    let z := tileOf (cap 2)
    some
      { tiles := [d, a, b], regs := [], tok := none, op := .msacc (decide (m = 1)) (cap 0) (cap 1) (cap 2)
        ok := x.fmt = 0 ∧ y.fmt = 0 ∧ z.fmt = 0 ∧ tileOk s x ∧ tileOk s y ∧ tileOk s z ∧ y.rows = x.rows ∧ y.cols = x.cols ∧
          z.rows = 2 ∧ x.rows ≤ z.cols ∧ x.cols ≤ z.cols ∧ tilesApart x y ∧ tilesApart x z }
  | .tcvt d a m =>
    let cap := fun (i : Nat) => ((descriptors s [d, a])[i]?).getD 0
    let x := tileOf (cap 0)
    let y := tileOf (cap 1)
    some
      { tiles := [d, a], regs := [], tok := none, op := .tcvt m.toNat (cap 0) (cap 1)
        ok := x.fmt ≤ 7 ∧ y.fmt ≤ 7 ∧ tileOk s x ∧ tileOk s y ∧ x.rows = y.rows ∧ x.cols = y.cols ∧
          (tilesApart x y ∨ (x.base = y.base ∧ x.stride = y.stride ∧ esize x.fmt = esize y.fmt)) }
  | .tfill d a m =>
    let cap := (descriptors s [d]).headD 0
    let x := tileOf cap
    some
      { tiles := [d], regs := [a], tok := none
        op := .tfill (decide (m = 1)) cap (if x.fmt = 7 then resCanon (s.u a) else s.u a) (linePoisoned s.cur (s.cur.loc s.csp a))
        ok := x.fmt ≤ 7 ∧ tileOk s x }
  | _ => none

/-- The values of `gtile` (R233): the new descriptor, by field. -/
def tileField (t : Dword) (i v : Nat) : Option Dword :=
  let x : Dword := BitVec.ofNat 64 v
  match i with
  | 0 => if v % 4 = 0 ∧ v < 0x180000 then some (t.extractLsb' 21 43 ++ x.extractLsb' 0 21) else none
  | 1 => if v ≤ 7 then some (t.extractLsb' 48 16 ++ x.extractLsb' 0 4 ++ t.extractLsb' 0 44) else none
  | 2 => if 1 ≤ v ∧ v ≤ 256 then some (t.extractLsb' 44 20 ++ (x - 1).extractLsb' 0 8 ++ t.extractLsb' 0 36) else none
  | 3 => if 1 ≤ v ∧ v ≤ 256 then some (t.extractLsb' 36 28 ++ (x - 1).extractLsb' 0 8 ++ t.extractLsb' 0 28) else none
  | 4 => if v % 4 = 0 ∧ v ≤ 262140 then some (x.extractLsb' 2 16 ++ t.extractLsb' 0 48) else none
  | 5 => some (t.extractLsb' 32 32 ++ x.extractLsb' 28 4 ++ t.extractLsb' 21 7 ++ x.extractLsb' 0 21)
  | 6 => some (x.extractLsb' 0 32 ++ t.extractLsb' 0 32)
  | _ => none

/-- The values of `gtileg` (R233). -/
def tileRead (t : Dword) (i : Nat) : Option Nat :=
  let rows := (t.extractLsb' 36 8).toNat + 1
  let cols := (t.extractLsb' 28 8).toNat + 1
  let pitch := 4 * (t.extractLsb' 48 16).toNat
  let fmt := (t.extractLsb' 44 4).toNat
  let size := if fmt = 0 ∨ fmt = 6 ∨ fmt = 7 then 4 else if fmt = 1 ∨ fmt = 2 then 2 else 1
  match i with
  | 0 => some (t.extractLsb' 0 21).toNat
  | 1 => some fmt
  | 2 => some rows
  | 3 => some cols
  | 4 => some pitch
  | 5 => some (t.extractLsb' 0 32).toNat
  | 6 => some (t.extractLsb' 32 32).toNat
  | 7 => some (if 7 < fmt then 0 else pitch * (rows - 1) + cols * size)
  | _ => none

end Sys2Proof.Rule

/-- The own fields of a descriptor of kind `kind` that R217 refuses with reason 1: another kind, no row or no word, and of a scatter-add etype
3 or weights for another type than `f32`. -/
def Sys2Proof.Rule.malformed (kind : Nat) (f : Nat → Nat) : Prop :=
  f 0 / 2 ^ 28 ≠ kind ∨ f 5 / 2 ^ 16 = 0 ∨ f 5 % 2 ^ 16 = 0 ∨
    (kind = 2 ∧ (f 0 / 2 ^ 26 % 4 = 3 ∨ (f 0 / 2 ^ 25 % 2 = 1 ∧ f 0 / 2 ^ 26 % 4 ≠ 0)))

/-- Reason 3 of R217: an offset or stride that the kind uses is not a multiple of 4. -/
def Sys2Proof.Rule.misplaced (kind : Nat) (f : Nat → Nat) : Prop :=
  (∃ i ∈ [1, 2, 3, 4], f i % 4 ≠ 0) ∨ (kind ≠ 0 ∧ f 7 % 4 ≠ 0) ∨
    (kind = 2 ∧ ((f 0 / 2 ^ 24 % 2 = 1 ∧ f 9 % 4 ≠ 0) ∨ (f 0 / 2 ^ 25 % 2 = 1 ∧ f 11 % 4 ≠ 0)))

/-- R140, R147, R217: the checks of one side of a descriptor, in their order: an unusable entry, a space that the command does not allow (which
gives `bad`), an extent beyond the limit, a permission, and a member that has exited. The member that an empty extent names is tested too,
which is the model's choice of log entry 72. An entry whose row is under test is waited for (R159). -/
def Sys2Proof.Rule.SideCheck : Prop :=
  ∀ (s : State) (bad : Stop) (x : Side),
    let e := (s.curHandle x.hnum).2
    let s' := (s.curHandle x.hnum).1
    let r := (s.sideCheck bad x).2
    let trap := fun (code detail : Nat) => Except.error (Stop.trap
      { code := code, detail := detail, addr := BitVec.ofNat 64 (x.hnum * 2 ^ 32 + x.off % 2 ^ 32), mask := s.leaderMask, part := false })
    let out := if x.len = 0 then none else boundFault e s.curBlock x.off x.len
    let lacks := (x.r = true ∧ e.pr = false) ∨ (x.w = true ∧ e.pw = false) ∨ (x.a = true ∧ e.pa = false)
    let gone := e.space = 2 ∧ s'.peerGone x.off = true
    x.len = (if x.n = 0 then 0 else (x.n - 1) * x.stride + 4 * x.rwords) ∧
    (s.curHandleTested x.hnum = true → r = .error (.stall .full)) ∧
    (s.curHandleTested x.hnum = false →
      (e.usable = false → r = trap 0x04 1) ∧
      (e.usable = true → e.space ∉ x.spaces → r = .error bad) ∧
      (e.usable = true → e.space ∈ x.spaces → ∀ d, out = some d → r = trap 0x04 d) ∧
      (e.usable = true → e.space ∈ x.spaces → out = none → lacks → r = trap 0x07 1) ∧
      (e.usable = true → e.space ∈ x.spaces → out = none → ¬ lacks → gone → r = trap 0x08 (x.off / 2 ^ 21 % 4)) ∧
      (e.usable = true → e.space ∈ x.spaces → out = none → ¬ lacks → ¬ gone → ∃ a, r = .ok a ∧ a.space = e.space))

/-- R147, R217, R250: the read of a command's descriptor at issue: where the access fails it takes that fault, from space 2 or 3 `F_ENGINE` or
`F_ROUTE` with reason 2, and from a poisoned word `F_MEMERR` with detail 6. -/
def Sys2Proof.Rule.DescriptorRead : Prop :=
  ∀ (s s1 : State) (code hnum o align n : Nat),
    (∀ st, accessCheck s hnum .desc align [(s.leader, o)] = (s1, .error st) → s.cmdDesc code 2 hnum o align n = (s1, .error st)) ∧
    ∀ (e : Entry) (p : Place), accessCheck s hnum .desc align [(s.leader, o)] = (s1, .ok (e, [{ lane := s.leader, off := o, place := p }])) →
      let addr := match p with
        | .glob _ va => va
        | _ => hnum * 2 ^ 32 + o % 2 ^ 32
      let trap := fun (code detail : Nat) => Except.error (Stop.trap
        { code := code, detail := detail, addr := BitVec.ofNat 64 addr, mask := s.leaderMask, part := false })
      (2 ≤ e.space → s.cmdDesc code 2 hnum o align n = (s1, trap code 2)) ∧
      (e.space < 2 → ∀ w, s1.ownReadWaits p n = some w → s.cmdDesc code 2 hnum o align n = (s1, .error (.stall w))) ∧
      (e.space < 2 → s1.ownReadWaits p n = none → s1.poisoned p n = true → s.cmdDesc code 2 hnum o align n = (s1, trap 0x0C 6)) ∧
      (e.space < 2 → s1.ownReadWaits p n = none → s1.poisoned p n = false →
        s.cmdDesc code 2 hnum o align n = (s1, .ok (addr, s.bytesAt p n)))

/-- R217: an engine command whose checks fail takes the fault of the first of them and forks nothing. -/
def Sys2Proof.Rule.EngineFaults : Prop :=
  ∀ (s : State) (i : Instr) (kind : Nat) (d a b : Reg) (m : BitVec 3), Rule.dataEngine i = some (kind, d, a, b, m) →
    s.regsReady (Rule.tokenOf d m).toList (Rule.commandReads a b m) = true → s.acquireOut = false →
    (∀ p ∈ s.cur.ploads, s.orderBound ≤ p.id) → ¬ Rule.storeOpen s → ((s.core s.curCore).queue kind).length < 16 →
    (s.scoreboard s.curCore).length < 64 → s.cur.neng < 2064 →
    let desc := s.openRegion.cmdDesc 0x0D 2 (s.u a).toNat (s.u (a + 1)).toNat 64 64
    let stops := fun (t : State) (f : Trap) => exec i s = .next (t.trapCur f)
    (∀ s1 f, desc = (s1, .error (.trap f)) → stops s1 f) ∧
    ∀ (s1 : State) (addr : Nat) (bs : List Byte), desc = (s1, .ok (addr, bs)) →
      let f := recWord (recWords bs)
      let engine := fun (reason : Nat) =>
        ({ code := 0x0D, detail := reason, addr := BitVec.ofNat 64 addr, mask := s.leaderMask, part := false } : Trap)
      let checks := s1.sideChecks (.trap (engine 2)) (dataSides kind f)
      (Rule.malformed kind f → stops s1 (engine 1)) ∧
      (¬ Rule.malformed kind f → Rule.misplaced kind f → stops s1 (engine 3)) ∧
      (¬ Rule.malformed kind f → ¬ Rule.misplaced kind f →
        (∀ s2 g, checks = (s2, .error (.trap g)) → stops s2 g) ∧
        ∀ (s2 : State) (sides : List SideAt), checks = (s2, .ok sides) →
          let remote := fun (i : Nat) => ∃ x ∈ sides[i]?, x.space = 0 ∨ x.space = 3
          let hull := fun (i : Nat) => ((sides[i]?).map (·.hull)).getD []
          let laps := ∃ x ∈ hull 0, ∃ y ∈ hull 1, x.core = y.core ∧ x.lo < y.hi ∧ y.lo < x.hi
          (kind = 0 → remote 0 → remote 1 → stops s2 (engine 2)) ∧
          (kind = 0 → ¬ (remote 0 ∧ remote 1) → laps → stops s2 (engine 4)) ∧
          ((kind = 0 → ¬ (remote 0 ∧ remote 1) ∧ ¬ laps) →
            (∀ s3 g, s2.arrCheck (m.getLsbD 0) b = (s3, .error (.trap g)) → stops s3 g) ∧
            ∀ s3 obj b0 b1 l0 l1, s2.arrCheck (m.getLsbD 0) b = (s3, .ok obj) → kind = 0 → sides.map (·.base) = [b0, b1] →
              (dataSides kind f).map (·.len) = [l0, l1] →
              (∀ s4 g, s3.transSide b0 l0 true false = (s4, .error (.trap g)) → stops s4 g) ∧
              ∀ s4 xa, s3.transSide b0 l0 true false = (s4, .ok xa) → ∀ s5 g,
                s4.transSide b1 l1 false true = (s5, .error (.trap g)) → stops s5 g))

/-- R214-R217: `gcopy`, `ggather` and `gscadd` wait for the fork conditions and for a free queue entry, and, once every check has passed, fork
their command into the engine's queue. -/
def Sys2Proof.Rule.EngineForks : Prop :=
  ∀ (s : State) (i : Instr) (kind : Nat) (d a b : Reg) (m : BitVec 3), Rule.dataEngine i = some (kind, d, a, b, m) →
    s.regsReady (Rule.tokenOf d m).toList (Rule.commandReads a b m) = true → s.acquireOut = false →
    let n := s.orderBound
    let earlier := (∃ p ∈ s.cur.ploads, p.id < n) ∨ Rule.storeOpen s
    let full := 16 ≤ ((s.core s.curCore).queue kind).length ∨ 64 ≤ (s.scoreboard s.curCore).length
    (earlier → exec i s = .next (s.openRegion.stallCur (.order n))) ∧
    (¬ earlier → full → exec i s = .next (s.openRegion.stallCur .queue)) ∧
    (¬ earlier → ¬ full → s.cur.neng < 2064 → ∀ k : Rule.EngineChecks, k.hold s.openRegion kind a b m →
      ∃ t c, exec i s = .next t ∧ Rule.Forks s t c (Rule.tokenOf d m) false ∧
        c.op = .data (dataCmdOf kind (recWord (recWords k.bs)) k.sides) ∧ c.arr = k.obj ∧ c.xl = k.xa ++ k.xb ∧
        (t.core s.curCore).queue kind = (s.core s.curCore).queue kind ++ [c])

/-- R229: `gpref` only advances its split, whatever its lines hold; while a row that it needs is under test it waits (R159). -/
def Sys2Proof.Rule.Prefetches : Prop :=
  ∀ (s : State) (a b : Reg) (m : BitVec 3), s.regsReady [] [a, a + 1, b] = true → s.march = [] →
    ∃ t, exec (.gpref a b m) s = .next t ∧ Rule.Stands s t [] (s.csp.pc + 4) ∧ t.csp.st = .running ∧ t.csp.region = s.csp.region ∧
      ∀ k, k ≠ s.cg → t.group k = s.group k

/-- R214-R217, R229: the commands of the data engines at issue, and `gpref`. It rests on choices of the model named in log entries 23, 24,
72 and 76. -/
def Obligations.EngineCommands : Prop :=
  Rule.EngineForks ∧ Rule.DescriptorRead ∧ Rule.SideCheck ∧ Rule.EngineFaults ∧ Rule.Prefetches


/-- R233: `gtile` writes one field of a tile register and `gtileg` reads one; a selector or a value outside the table faults
`F_ENGINE` with reason 16. -/
def Sys2Proof.Rule.TileRegisters : Prop :=
  ∀ (s : State) (d a : Reg) (i : BitVec 10),
    (s.regsReady [] [a] = true →
      (∀ t', Rule.tileField (s.cur.tile d) i.toNat (s.u a).toNat = some t' →
        ∃ t, exec (.gtile d a i) s = .next t ∧ OnlyGroup s t ∧ Rule.Stands s t [] (s.csp.pc + 4) ∧ t.csp.region = s.csp.region ∧
          ∀ r : Reg, t.cur.tile r = if r.toNat % 16 = d.toNat % 16 then t' else s.cur.tile r) ∧
      (Rule.tileField (s.cur.tile d) i.toNat (s.u a).toNat = none →
        exec (.gtile d a i) s = .next (s.trapCur (Rule.leaderTrap s 0x0D 16 0)))) ∧
    (s.regsReady [d] [] = true →
      (∀ v, Rule.tileRead (s.cur.tile a) i.toNat = some v →
        Rule.Writes (.gtileg d a i) s s.csp.members ⟨d, [], fun _ => BitVec.ofNat 32 v⟩) ∧
      (Rule.tileRead (s.cur.tile a) i.toNat = none →
        exec (.gtileg d a i) s = .next (s.trapCur (Rule.leaderTrap s 0x0D 16 0))))

/-- R234, R237-R246: a tile command that must wait to fork keeps the descriptors that it captured; one that passes its card's checks forks into
the matrix queue; one that fails a check faults `F_ENGINE` and forks nothing. `mchain` opens the group's chain, `mend` ends it, and the others
keep it. Nothing stays captured once the command has forked or faulted. `tfill` of a poisoned register forks too. It rests on the model's
choice named in log entry 63. -/
def Sys2Proof.Rule.MatrixCommands : Prop :=
  ∀ (s : State) (i : Instr) (f : Rule.TileForm), Rule.tileForm s i = some f → s.regsReady f.regs [] = true →
    let n := s.orderBound
    let earlier := (∃ p ∈ s.cur.ploads, p.id < n) ∨ Rule.storeOpen s
    let full := 16 ≤ (s.core s.curCore).matq.length ∨ 64 ≤ (s.scoreboard s.curCore).length
    let o := s.openRegion
    let waits := fun (w : StallWhy) => exec i s = .next ((o.putCsp { o.csp with caps := Rule.descriptors s f.tiles }).stallCur w)
    (s.acquireOut = true → waits .acquire) ∧
    (s.acquireOut = false → earlier → waits (.order n)) ∧
    (s.acquireOut = false → ¬ earlier → full → waits .queue) ∧
    (s.acquireOut = false → ¬ earlier → ¬ full → 2064 ≤ s.cur.ntile → waits .full) ∧
    (s.acquireOut = false → ¬ earlier → ¬ full → s.cur.ntile < 2064 →
      (f.ok → ∃ t c, exec i s = .next t ∧ Rule.Forks s t c f.tok true ∧ c.op = f.op ∧ t.csp.caps = [] ∧
        (t.core s.curCore).matq = (s.core s.curCore).matq ++ [c] ∧
        match i with
        | .mchain d m => t.cur.chain = some c.id ∧ ∃ ch, t.cur.chains = s.cur.chains ++ [ch] ∧ ch.num = c.id ∧
            ch.td = (Rule.descriptors s [d]).headD 0 ∧ ch.tile = d.toNat % 16 ∧ (ch.ordered = true ↔ m.getLsbD 0 = true ∨ s.curLaunch.q ≠ 0)
        | .mend _ _ _ => t.cur.chain = none ∧ t.cur.chains = s.cur.chains
        | _ => t.cur.chain = s.cur.chain ∧ t.cur.chains = s.cur.chains) ∧
      (¬ f.ok → ∃ reason, 17 ≤ reason ∧ reason ≤ 21 ∧
        exec i s = .next ((o.putCsp { o.csp with caps := [] }).trapCur (Rule.leaderTrap s 0x0D reason 0))))

/-- R233-R245: tile registers and the issue of tile commands. It rests on choices of the model named in log entries 63
and 76. -/
def Obligations.TilesAndMatrices : Prop := Rule.TileRegisters ∧ Rule.MatrixCommands


/-- R249-R256, R262, R266: `groute`, `grretry` and `grsel`, once every check has passed, fork their command into their cluster's Sluice
queue. -/
def Sys2Proof.Rule.RouteForks : Prop :=
  ∀ (s : State) (d a b : Reg) (m : BitVec 3), s.regsReady (Rule.tokenOf d m).toList (Rule.commandReads a b m) = true →
    s.acquireOut = false → (∀ p ∈ s.cur.ploads, s.orderBound ≤ p.id) → ¬ Rule.storeOpen s →
    (s.cluster (clusterOf s.curCore)).sluice.length < 16 → (s.scoreboard s.curCore).length < 64 → s.cur.neng < 2064 →
    let cl := clusterOf s.curCore
    (∀ (retry : Bool) (i : Instr) (s1 s2 s3 s4 : State) (addr : Nat) (bs : List Byte) (rc : RouteChecked) (obj : Option (Place × Nat))
      (xl : List (Nat × Nat)), (i = .groute d a b m ∧ retry = false) ∨ (i = .grretry d a b m ∧ retry = true) →
      s.openRegion.cmdDesc 0x0E 2 (s.u a).toNat (s.u (a + 1)).toNat 128 128 = (s1, .ok (addr, bs)) →
      let f := recWord (routeWords bs)
      let h0 := routeHead f
      let h := match retry, s1.openRoute s.curCtx h0.rid with
        | true, some r => { h0 with k := r.k, ntok := r.ntok, nexp := r.nexp, inv := 0, pk := false, rec' := false }
        | _, _ => h0
      let inst := ((s1.openRoute s.curCtx h0.rid).map (·.inst)).getD s.nextCmd
      (retry = true → ∃ r, s1.openRoute s.curCtx h0.rid = some r ∧ (r.busy = none ∨ r.busy = some cl)) →
      routeReason h f retry = 0 → f 21 % 4 = 0 ∨ s1.peekRemote (routeFault s1 addr) h f retry = false →
      s1.checkRoute (routeFault s1 addr) h f retry = (s2, .ok rc) →
      s2.arrCheck (m.getLsbD 0) b = (s3, .ok obj) → s3.routePages h f retry rc = (s4, .ok xl) →
      ∃ t c, exec i s = .next t ∧ Rule.Forks s t c (Rule.tokenOf d m) false ∧ c.arr = obj ∧ c.xl = xl ∧
        c.op = (if retry = true then .retry (m.getLsbD 2) (routeCmdOf h f retry rc inst) else .route (routeCmdOf h f retry rc inst)) ∧
        (retry = false → rc.remote = true → ∃ x, t.openRoutes = s.openRoutes ++ [x] ∧ x.ctx = s.curCtx ∧ x.rid = h.rid ∧ x.inst = inst ∧
          x.busy = none) ∧
        (retry = true → ∃ x, t.openRoute s.curCtx h.rid = some x ∧ x.busy = some cl) ∧
        (t.cluster cl).sluice = (s.cluster cl).sluice ++ [c]) ∧
    (∀ (s1 s2 s3 s4 : State) (addr : Nat) (bs : List Byte) (sides : List SideAt) (obj : Option (Place × Nat)) (xl : List (Nat × Nat)),
      s.openRegion.cmdDesc 0x0E 2 (s.u a).toNat (s.u (a + 1)).toNat 64 64 = (s1, .ok (addr, bs)) →
      let f := recWord (recWords bs)
      selReason f = 0 → s1.sideChecks (routeFault s1 addr 2) (selSides f) = (s2, .ok sides) →
      hullsClash ((sides.take 1).flatMap (·.hull)) ((sides.drop 1).flatMap (·.hull)) = false →
      s2.arrCheck (m.getLsbD 0) b = (s3, .ok obj) →
      s3.transSides ((sides.zip (selSides f)).map fun x => (x.1.base, x.2.len, x.2.r, x.2.w)) = (s4, .ok xl) →
      ∃ t c op, exec (.grsel d a b m) s = .next t ∧ Rule.Forks s t c (Rule.tokenOf d m) false ∧ c.arr = obj ∧ c.xl = xl ∧
        c.op = .sel op ∧ op.kc = (f 0) / 2 ^ 24 % 16 ∧ op.ntok = (f 3) / 2 ^ 16 % 2 ^ 16 ∧ op.nexp = (f 3) % 2 ^ 13 ∧
        op.c = (f 4) / 2 ^ 16 % 2 ^ 16 ∧ op.xstride = f 2 ∧ (t.cluster cl).sluice = (s.cluster cl).sluice ++ [c])

/-- R250, R251, R254, R265: the order of a route's checks behind its descriptor's own fields: the handles of the arrays that it reads, those of
its outputs, its table, the entries of the table, and then reason 5 for hulls that meet, 6 for a route that is open already, 7 for a full table
of open routes; only a `groute` with a remote entry meets the last two. -/
def Sys2Proof.Rule.RouteChecks : Prop :=
  ∀ (s s1 s2 : State) (bad : Nat → Stop) (h : RouteHead) (f : Nat → Nat) (retry : Bool) (reads : List SideAt)
    (tab : Except Stop (List TableEnt)),
    let rs := routeReads h f retry
    let table := fun (t : State) (xs : List SideAt) => t.readTable (f 8 / 2 ^ 20 % 2 ^ 12) (((xs.getLast?).map (·.base)).getD (.host 0)) (f 9) h.nexp
    (∀ g, s.sideChecks (bad 2) rs = (s1, .error g) → s.checkRoute bad h f retry = (s1, .error g)) ∧
    (s.sideChecks (bad 2) rs = (s1, .ok reads) → table s1 reads = (s2, tab) →
      (∀ w, tab = .error (.stall w) → s.checkRoute bad h f retry = (s2, .error (.stall w))) ∧
      ((∀ w, tab ≠ .error (.stall w)) →
        let es := match tab with
          | .ok es => es
          | .error _ => []
        let remote := retry = true ∨ ∃ e ∈ es, e.remote = true
        let outs := s2.sideChecks (bad 2) (routeOuts h f retry (retry || es.any (·.remote)) (es.map (·.cap)).sum)
        (∀ s3 g, outs = (s3, .error g) → s.checkRoute bad h f retry = (s3, .error g)) ∧
        (∀ s3 os g, outs = (s3, .ok os) → tab = .error g → s.checkRoute bad h f retry = (s3, .error g)) ∧
        (∀ s3 os, outs = (s3, .ok os) → tab = .ok es →
          (∀ s4 g, s3.checkEnts bad h es = (s4, .error g) → s.checkRoute bad h f retry = (s4, .error g)) ∧
          ∀ s4 ds, s3.checkEnts bad h es = (s4, .ok ds) →
            let rd := (if retry = true ∧ h.wt = true then reads.drop 1 else reads).flatMap (·.hull)
            let wr := (if retry = true then [] else ds.flatMap (·.2)) ++ os.flatMap (·.hull)
            let meet := fun (x y : ScrRange) => x.core = y.core ∧ x.lo < y.hi ∧ y.lo < x.hi
            let clash := (∃ x ∈ wr, ∃ y ∈ rd, meet x y) ∨ ∃ (i j : Nat) (x y : ScrRange), i < j ∧ wr[i]? = some x ∧ wr[j]? = some y ∧ meet x y
            let live := s.openRoutes.filter fun r => (s.context r.ctx).live
            let open' := ∃ r ∈ live, r.ctx = s.curCtx ∧ r.rid = h.rid
            (clash → s.checkRoute bad h f retry = (s4, .error (bad 5))) ∧
            (¬ clash → remote → retry = false → open' → s.checkRoute bad h f retry = (s4, .error (bad 6))) ∧
            (¬ clash → remote → retry = false → ¬ open' → 256 ≤ live.length → s.checkRoute bad h f retry = (s4, .error (bad 7))) ∧
            (¬ clash → (¬ remote ∨ retry = true ∨ (¬ open' ∧ live.length < 256)) → ∃ rc, s.checkRoute bad h f retry = (s4, .ok rc)))))

/-- R250, R251: the checks of one table entry: a remote entry in packed mode, without a route or to this device gives reason 4; a local one
outside packed mode gives reason 3 for a bad offset or stride, and is else checked as a side. -/
def Sys2Proof.Rule.EntryChecks : Prop :=
  ∀ (s : State) (bad : Nat → Stop) (h : RouteHead) (e : TableEnt) (rest : List TableEnt),
    let r := s.checkEnts bad h (e :: rest)
    let words := h.rwords + if h.wt = true then 1 else 0
    (e.remote = true → (h.pk = true ∨ h.rid = 0 ∨ e.dev = s.vrelnum.toNat % 4096) → r = (s, .error (bad 4))) ∧
    (e.remote = false → h.pk = false → (e.off % 4 ≠ 0 ∨ e.stride % 4 ≠ 0 ∨ e.stride < 4 * words) → r = (s, .error (bad 3))) ∧
    (∀ s1 g, e.remote = false → h.pk = false → e.off % 4 = 0 → e.stride % 4 = 0 → 4 * words ≤ e.stride →
      s.sideCheck (bad 2) { hnum := e.hnd, off := e.off, n := e.cap, stride := e.stride, rwords := words, r := false, w := true, a := false
                            spaces := [0, 1, 2] } = (s1, .error g) → r = (s1, .error g))

/-- R250, R251, R262, R266: a routing command whose checks fail takes the fault of the first of them and forks nothing. -/
def Sys2Proof.Rule.RouteFaults : Prop :=
  ∀ (s : State) (d a b : Reg) (m : BitVec 3), s.regsReady (Rule.tokenOf d m).toList (Rule.commandReads a b m) = true →
    s.acquireOut = false → (∀ p ∈ s.cur.ploads, s.orderBound ≤ p.id) → ¬ Rule.storeOpen s →
    (s.cluster (clusterOf s.curCore)).sluice.length < 16 → (s.scoreboard s.curCore).length < 64 → s.cur.neng < 2064 →
    let route := fun (addr reason : Nat) =>
      ({ code := 0x0E, detail := reason, addr := BitVec.ofNat 64 addr, mask := s.leaderMask, part := false } : Trap)
    (∀ (retry : Bool) (i : Instr), (i = .groute d a b m ∧ retry = false) ∨ (i = .grretry d a b m ∧ retry = true) →
      let desc := s.openRegion.cmdDesc 0x0E 2 (s.u a).toNat (s.u (a + 1)).toNat 128 128
      let stops := fun (t : State) (f : Trap) => exec i s = .next (t.trapCur f)
      (∀ s1 f, desc = (s1, .error (.trap f)) → stops s1 f) ∧
      ∀ (s1 : State) (addr : Nat) (bs : List Byte), desc = (s1, .ok (addr, bs)) →
        let f := recWord (routeWords bs)
        let h0 := routeHead f
        let found := s1.openRoute s.curCtx h0.rid
        let h := match retry, found with
          | true, some r => { h0 with k := r.k, ntok := r.ntok, nexp := r.nexp, inv := 0, pk := false, rec' := false }
          | _, _ => h0
        let unusable := retry = true ∧ ∀ r, found = some r → ∃ cl, r.busy = some cl ∧ cl ≠ clusterOf s.curCore
        let counts := retry = true ∨ (1 ≤ h.k ∧ h.k ≤ 8 ∧ 1 ≤ h.ntok ∧ 1 ≤ h.nexp ∧ h.nexp ≤ 4096 ∧ ¬ (2 ≤ h.inv ∧ h.pk = false))
        let wrong := f 0 / 2 ^ 28 ≠ 0xA ∨ h.rwords = 0 ∨ 1024 < h.rwords ∨ ¬ counts
        (unusable → stops s1 (route addr 8)) ∧
        (¬ unusable → wrong → stops s1 (route addr 1)) ∧
        (¬ unusable → ¬ wrong → (f 9 % 16 ≠ 0 ∨ (h.pk = true ∧ retry = false ∧ f 12 < 4 * (h.rwords + if h.wt = true then 1 else 0)) ∨
            ∃ x ∈ routeReads h f retry ++ routeOuts h f retry retry 0, x.off % 4 ≠ 0 ∨ x.stride % 4 ≠ 0) → stops s1 (route addr 3)) ∧
        (¬ unusable → routeReason h f retry = 0 → f 21 % 4 = 0 →
          (∀ s2 g, s1.checkRoute (routeFault s1 addr) h f retry = (s2, .error (.trap g)) → stops s2 g) ∧
          ∀ s2 rc, s1.checkRoute (routeFault s1 addr) h f retry = (s2, .ok rc) →
            (∀ s3 g, s2.arrCheck (m.getLsbD 0) b = (s3, .error (.trap g)) → stops s3 g) ∧
            ∀ s3 obj, s2.arrCheck (m.getLsbD 0) b = (s3, .ok obj) →
              ∀ s4 g, s3.routePages h f retry rc = (s4, .error (.trap g)) → stops s4 g)) ∧
    (let desc := s.openRegion.cmdDesc 0x0E 2 (s.u a).toNat (s.u (a + 1)).toNat 64 64
      let stops := fun (t : State) (f : Trap) => exec (.grsel d a b m) s = .next (t.trapCur f)
      (∀ s1 f, desc = (s1, .error (.trap f)) → stops s1 f) ∧
      ∀ (s1 : State) (addr : Nat) (bs : List Byte), desc = (s1, .ok (addr, bs)) →
        let f := recWord (recWords bs)
        let nexp := f 3 % 2 ^ 13
        let wrong := f 0 / 2 ^ 28 ≠ 0xB ∨ 8 < f 0 / 2 ^ 24 % 16 ∨ f 3 / 2 ^ 16 = 0 ∨ nexp = 0 ∨ 4096 < nexp ∨ f 4 / 2 ^ 16 = 0 ∨
          f 3 / 2 ^ 16 < f 4 / 2 ^ 16
        let uneven := f 2 < 4 * nexp ∨ ∃ x ∈ selSides f, x.off % 4 ≠ 0 ∨ x.stride % 4 ≠ 0
        let checks := s1.sideChecks (.trap (route addr 2)) (selSides f)
        (wrong → stops s1 (route addr 1)) ∧
        (¬ wrong → uneven → stops s1 (route addr 3)) ∧
        (¬ wrong → ¬ uneven →
          (∀ s2 g, checks = (s2, .error (.trap g)) → stops s2 g) ∧
          ∀ (s2 : State) (sides : List SideAt), checks = (s2, .ok sides) →
            let clash := hullsClash ((sides.take 1).flatMap (·.hull)) ((sides.drop 1).flatMap (·.hull)) = true
            (clash → stops s2 (route addr 5)) ∧
            (¬ clash → (∀ s3 g, s2.arrCheck (m.getLsbD 0) b = (s3, .error (.trap g)) → stops s3 g) ∧
              ∀ s3 obj, s2.arrCheck (m.getLsbD 0) b = (s3, .ok obj) → ∀ s4 g,
                s3.transSides ((sides.zip (selSides f)).map fun x => (x.1.base, x.2.len, x.2.r, x.2.w)) = (s4, .error (.trap g)) →
                stops s4 g)))

/-- R249-R256, R262, R266: the commands of the Sluices at issue. It rests on choices of the model named in log entries 26, 73
and 76. -/
def Obligations.RoutingCommands : Prop := Rule.RouteForks ∧ Rule.RouteChecks ∧ Rule.EntryChecks ∧ Rule.RouteFaults


/-- R159, R218-R223, R225, R226: the head of an engine's queue starts once it may, and its data are written; a completed command leaves the
queue, lowers its group's counter, raises its completion time, and writes its token. -/
def Sys2Proof.Rule.EngineEvents : Prop :=
  ∀ (s : State) (core : Nat) (e : DataEngine),
    let k := match e with
      | .copy => 0
      | .rill => 1
      | .cascade => 2
    (∀ c rest, (s.core core).queue k = c :: rest →
      (c.started = true ∨ c.waitCommit = true ∨ s.cmdBlocked c = true → exec (.engineCommandStart core e) s = .next s) ∧
      (∀ dc s1 run, c.started = false → c.waitCommit = false → s.cmdBlocked c = false → c.op = .data dc → s.runData c dc = (s1, run) →
        let tested := s.rangesTested (c.rd ++ c.wr) [] = true ∨ s.underTest noCore run.touched = true ∨ run.busy = true
        (tested → exec (.engineCommandStart core e) s = .next s) ∧
        (¬ tested → ∃ t c', exec (.engineCommandStart core e) s = .next t ∧ MemoryAfter run.writes s t ∧
          (t.core core).queue k = c' :: rest ∧ c'.id = c.id ∧ c'.started = true ∧ c'.token = run.token ∧ c'.tok = c.tok ∧
          c'.poison = run.poison ∧ (t.group c.g).neng = (s.group c.g).neng))) ∧
    (∀ c, ((s.core core).queue k).filter (fun x => decide (x.id = c.id)) = [c] → c.started = true →
      (∀ j, j < 3 → j ≠ k → ∀ x ∈ (s.core core).queue j, x.id ≠ c.id) →
      (s.arrReady c = false → exec (.engineCommandComplete core c.id) s = .next s) ∧
      (s.arrReady c = true → c.arr = none →
        ∃ t, exec (.engineCommandComplete core c.id) s = .next t ∧ SameMemory s t ∧ (∀ j, j ≠ c.g → t.group j = s.group j) ∧
          (t.core core).queue k = ((s.core core).queue k).filter (fun x => decide (x.id ≠ c.id)) ∧
          (t.group c.g).neng = (s.group c.g).neng - 1 ∧ (t.group c.g).ct = max (s.group c.g).ct c.ct ∧
          (t.group c.g).splits = (s.group c.g).splits ∧ (∀ x ∈ (t.group c.g).tokens, x.cmd = false ∨ x.id ≠ c.id) ∧
          (∀ loc, c.tok = some loc → loc ≠ .off → ∀ lane, c.lanes.getLsbD lane = true → (s.group c.g).exited.getLsbD lane = false →
            (t.group c.g).rd loc lane = c.token) ∧
          ∀ loc lane, lane < 32 → c.tok ≠ some loc ∨ c.lanes.getLsbD lane = false → (t.group c.g).rd loc lane = (s.group c.g).rd loc lane) ∧
      (∀ p scope, s.arrReady c = true → c.arr = some (p, scope) → s.poisoned p 8 = false →
        ∃ t, exec (.engineCommandComplete core c.id) s = .next t ∧
          MemoryAfter [{ place := p, bytes := leBytes 8 (arriveNew (s.numAt p 8) 1) }] s t ∧
          (t.core core).queue k = ((s.core core).queue k).filter (fun x => decide (x.id ≠ c.id))))

/-- Every accumulator of a tile. -/
def Sys2Proof.Rule.Cells (t : Tile) (p : Nat → Nat → Prop) : Prop := ∀ i j, i < t.rows → j < t.cols → p i j

/-- R159, R223, R236, R238, R240-R247: the head of the matrix queue starts once it may: a command without a chain writes every element of D,
and `mend` writes its chain's accumulators there; `mchain` and an `mma` inside a chain write no memory, unless another chain must leave the
engine for theirs. A completed command leaves the queue, lowers the tile counter and writes a `mend`'s token. -/
def Sys2Proof.Rule.MatrixEvents : Prop :=
  ∀ (s : State) (core : Nat) (c : Cmd),
    (∀ rest, (s.core core).matq = c :: rest →
      let tested := s.rangesTested (c.rd ++ c.wr) [] = true
      let there := s.residentChains c.core
      let roomy := fun (num : Nat) => ∀ ch, (s.group c.g).chainOf num = some ch →
        ch.resident = true ∨ (there.length < 4 ∧ (there.map fun r => r.2.size).sum + ch.size ≤ 65536)
      (c.started = true ∨ c.waitCommit = true ∨ s.cmdBlocked c = true ∨ tested → exec (.tileCommandStart core) s = .next s) ∧
      (c.started = false → c.waitCommit = false → s.cmdBlocked c = false → ¬ tested →
        ∃ t c', exec (.tileCommandStart core) s = .next t ∧ (t.core core).matq = c' :: rest ∧ c'.id = c.id ∧ c'.started = true ∧
          c'.tok = c.tok ∧ c'.op = c.op ∧ (t.group c.g).ntile = (s.group c.g).ntile ∧
          (match c.op with
            | .mend _ num => c'.token = if ∃ w ∈ (s.touchChain c num).tileWrites c, w.bad = true then 3 else 1
            | _ => c'.token = 1) ∧
          ((match c.op with
            | .mma _ _ none _ _ _ => True
            | .msacc _ _ _ _ => True
            | .tcvt _ _ _ => True
            | .tfill _ _ _ _ => True
            | _ => False) →
            MemoryAfter ((s.tileWrites c).map (·.plain)) s t) ∧
          (match c.op with
            | .mend _ num =>
              let s1 := s.touchChain c num
              MemoryAfter ((s1.tileWrites c).map (·.plain)) s1 t ∧ (roomy num → SameMemory s s1)
            | .mchain z => roomy c.id → SameMemory s t ∧ ∀ ch, (s.group c.g).chainOf c.id = some ch →
              ∃ ch', (t.group c.g).chainOf c.id = some ch' ∧ ch'.td = ch.td ∧ ch'.ordered = ch.ordered ∧ ch'.resident = true ∧
                ch'.lastUse = c.id ∧ ch'.sums = ch.sums ∧ (z = true → ch'.acc = ch.acc ∧ ch'.bad = ch.bad) ∧
                (z = false → Rule.Cells (tileOf ch.td) fun i j =>
                  let v := s.elemW c (tileOf ch.td) i j
                  mapGet 0 ch'.acc (i * (tileOf ch.td).cols + j) =
                    (if (tileOf ch.td).fmt = 7 then resEnc (resCrt v.1) else BitVec.ofNat 32 (rne f32F (f32v v.1))) ∧
                  (i * (tileOf ch.td).cols + j ∈ ch'.bad ↔ i * (tileOf ch.td).cols + j ∈ ch.bad ∨ v.2 = true))
            | .mma _ tb (some num) a b _ => roomy num → SameMemory s t ∧ ∀ ch, (s.group c.g).chainOf num = some ch → ch.resident = true →
              (t.group c.g).chainOf num = some { s.chainMma c tb (tileOf a) (tileOf b) ch with resident := true, lastUse := c.id }
            | _ => True))) ∧
    ((s.core core).matq.filter (fun x => decide (x.id = c.id)) = [c] → c.started = true →
      ∃ t, exec (.tileCommandComplete core c.id) s = .next t ∧ SameMemory s t ∧ (∀ j, j ≠ c.g → t.group j = s.group j) ∧
        (t.core core).matq = (s.core core).matq.filter (fun x => decide (x.id ≠ c.id)) ∧
        (t.group c.g).ntile = (s.group c.g).ntile - 1 ∧ (t.group c.g).splits = (s.group c.g).splits ∧
        (∀ loc, c.tok = some loc → loc ≠ .off → ∀ lane, c.lanes.getLsbD lane = true → (s.group c.g).exited.getLsbD lane = false →
          (t.group c.g).rd loc lane = c.token) ∧
        ∀ loc lane, lane < 32 → c.tok ≠ some loc ∨ c.lanes.getLsbD lane = false → (t.group c.g).rd loc lane = (s.group c.g).rd loc lane)

/-- R218-R226, R236, R238, R240-R247: the start and the completion of engine and tile commands. It rests on choices of the model named in
log entries 22 and 72. -/
def Obligations.CommandEvents : Prop := Rule.EngineEvents ∧ Rule.MatrixEvents


/-! ### What the commands compute -/

namespace Sys2Proof.Rule
open Sys2Proof Sys2Proof.Machine

/-- Byte `off` of a side that needs no walk now: in a scratchpad, in host memory, or in a page translated at issue (R217, R218). -/
def known (c : Cmd) (b : SideBase) (off : Nat) : Option Place :=
  match b with
  | .scr co a => some (.scr co (a + off))
  | .host a => some (.host (a + off))
  | .glob _ va => (c.xl.find? fun p => decide (p.1 = (va + off) / 65536)).map fun p => .glob (p.2 * 65536 + (va + off) % 65536) (va + off)

/-- The words of a side from byte `off` on lie at these places. -/
def RowAt (c : Cmd) (b : SideBase) (off : Nat) (ps : List Place) : Prop := ∀ j p, ps[j]? = some p → known c b (off + 4 * j) = some p

/-- Words go to these places, each with its poison, behind what the run has written (R218, R225). -/
def RowWrites (s : State) (r : CmdRun) (ps : List Place) (ws : List (Word × Bool)) (out : State × CmdRun) : Prop :=
  let new := (ps.zip ws).map fun x => ({ place := x.1, bytes := leBytes 4 x.2.1.toNat } : ByteWrite)
  out.2.writes = r.writes ++ new ∧ MemoryAfter new s out.1 ∧
  (out.2.poison = true ↔ r.poison = true ∨ ∃ x ∈ ps.zip ws, x.2.2 = true) ∧
  ∀ (j : Nat) (p : Place) (w : Word), ps[j]? = some p → ws[j]? = some (w, true) → (∀ a, p ≠ .host a) →
    (∀ i q, j < i → ps[i]? = some q → placesMeet p 4 q 4 = false) → out.1.poisoned p 4 = true

/-- The flags of a run: the first flagged position, bound and page (R221). -/
def flagsOf (r : CmdRun) : Option Nat × Bool × Bool := (r.first, r.bound, r.page)

/-- `add` of R220. -/
def scatterAdd (etype : Nat) (v w x : Word) : Word :=
  if etype = 0 then BitVec.ofNat 32 (rne f32F (fAdd false (fMul (f32v w) (f32v x)) (f32v v)))
  else if etype = 1 then v + x else resEnc (resCrt v + resCrt x)

end Sys2Proof.Rule

/-- R217-R219, R225: where the words of a side lie: in the pages of the issue, and for a row of the Rill or the Cascade in those of a walk that
is made now; a row is reached once each of its words is. -/
def Sys2Proof.Rule.SideRows : Prop :=
  ∀ (s s' : State) (c : Cmd) (w : Bool) (b : SideBase) (off n : Nat),
    (∀ ps, Rule.RowAt c b off ps → s.sideRow c w b off ps.length = (s, some ps)) ∧
    (∀ ctx va, b = .glob ctx va → (∀ p ∈ c.xl, p.1 ≠ (va + off) / 65536) →
      (∀ pa, s.transCheck c.core ctx (va + off) true w = (s', .ok pa) → s.sideAt c w b off = (s', some (.glob pa (va + off)))) ∧
      (∀ e, s.transCheck c.core ctx (va + off) true w = (s', .error e) → s.sideAt c w b off = (s', none))) ∧
    CachesFilled s (s.sideRow c w b off n).1 ∧
    (∀ ps, (s.sideRow c w b off n).2 = some ps → ps.length = n ∧
      ∀ j, j < n → ∃ t, CachesFilled s t ∧ (t.sideAt c w b (off + 4 * j)).2 = ps[j]?) ∧
    ((s.sideRow c w b off n).2 = none → ∃ j t, j < n ∧ CachesFilled s t ∧ (t.sideAt c w b (off + 4 * j)).2 = none)

/-- R218, R219, R225: a row of a copy is the words of side A as they are when the row is moved; a row of a gather is the row that its index
names, or zeros where the index is out of bounds or the row is not reached, and nothing where the index is poisoned. The rows follow each other
in ascending order, which R218 leaves open but for rows that meet (log entry 22). -/
def Sys2Proof.Rule.RowValues : Prop :=
  ∀ (s s1 : State) (c : Cmd) (d : DataCmd) (run : CmdRun) (r : Nat) (as bs : List Place) (ip : Place),
    let words := fun (s : State) (ps : List Place) => ps.map fun p => (BitVec.ofNat 32 (s.numAt p 4), s.poisoned p 4)
    let copied := State.copyRow c d (s, run) r
    let gathered := State.gatherRow c d (s, run) r
    let t := s.numAt ip 4
    let first := some (run.first.getD r)
    let row := s.sideRow c false d.a (t * d.astride) d.rwords
    (d.kind = 0 → s.runData c d = (seqFrom 0 d.rows).foldl (State.copyRow c d) (s, CmdRun.start)) ∧
    (d.kind = 1 → s.runData c d = (seqFrom 0 d.rows).foldl (State.gatherRow c d) (s, CmdRun.start)) ∧
    (Rule.RowAt c d.b (r * d.bstride) bs → bs.length = d.rwords →
      (Rule.RowAt c d.a (r * d.astride) as → as.length = d.rwords →
        Rule.RowWrites s run bs (words s as) copied ∧ Rule.flagsOf copied.2 = Rule.flagsOf run) ∧
      (Rule.known c (d.idx.getD d.a) (4 * r) = some ip →
        (s.poisoned ip 4 = true → gathered = (s, { run with first := first, bound := true, poison := true })) ∧
        (s.poisoned ip 4 = false → d.bound ≤ t →
          Rule.RowWrites s run bs (List.replicate d.rwords (0, false)) gathered ∧ Rule.flagsOf gathered.2 = (first, true, run.page)) ∧
        (s.poisoned ip 4 = false → t < d.bound → row = (s1, none) →
          Rule.RowWrites s1 run bs (List.replicate d.rwords (0, false)) gathered ∧ Rule.flagsOf gathered.2 = (first, run.bound, true)) ∧
        (s.poisoned ip 4 = false → t < d.bound → row = (s1, some as) →
          Rule.RowWrites s1 run bs (words s1 as) gathered ∧ Rule.flagsOf gathered.2 = Rule.flagsOf run)))

/-- R220, R225: a contribution of a scatter-add is skipped or joins those of each word of its destination row, behind the earlier ones; then
each destination word is written once, with its fold. Where side A meets side B, that every source word is read before the first write is the
model's choice of log entry 64; that a poisoned source index counts where the destination index skips is that of log entry 72. -/
def Sys2Proof.Rule.ContributionValues : Prop :=
  ∀ (s s1 : State) (c : Cmd) (d : DataCmd) (run : CmdRun) (folds : Folds) (j : Nat) (as bs : List Place) (ip : Place) (sp wp : Option Place),
    let out := State.scatterOne c d (s, run, folds) j
    let place := fun (b : Option SideBase) (p : Option Place) => match b with
      | none => p = none
      | some b => p.isSome = true ∧ Rule.known c b (4 * j) = p
    let word := fun (p : Place) => BitVec.ofNat 32 (s.numAt p 4)
    let t := s.numAt ip 4
    let src := (sp.map fun p => s.numAt p 4).getD j
    let w := (wp.map word).getD 0x3F800000
    let spoiled := s.poisoned ip 4 = true ∨ ∃ p ∈ sp, s.poisoned p 4 = true
    let far := d.bound ≤ t ∨ (sp.isSome = true ∧ d.sbound ≤ src)
    let first := some (run.first.getD j)
    let row := s.sideRow c true d.b (t * d.bstride) d.rwords
    (Rule.known c (d.idx.getD d.a) (4 * j) = some ip → place d.sidx sp → place d.wgt wp → j < 2 ^ 32 →
      (spoiled → out = (s, { run with first := first, bound := true, poison := true }, folds)) ∧
      (¬ spoiled → t = 0xFFFFFFFF → out = (s, run, folds)) ∧
      (¬ spoiled → t ≠ 0xFFFFFFFF → far → out = (s, { run with first := first, bound := true }, folds)) ∧
      (¬ spoiled → t ≠ 0xFFFFFFFF → ¬ far → row = (s1, none) →
        out.1 = s1 ∧ Rule.flagsOf out.2.1 = (first, run.bound, true) ∧ out.2.1.writes = run.writes ∧ out.2.1.poison = run.poison ∧
          out.2.2 = folds) ∧
      (¬ spoiled → t ≠ 0xFFFFFFFF → ¬ far → row = (s1, some bs) → Rule.RowAt c d.a (src * d.astride) as → as.length = d.rwords →
        (bs.map placeKey).Nodup →
        out.1 = s1 ∧ Rule.flagsOf out.2.1 = Rule.flagsOf run ∧ out.2.1.writes = run.writes ∧ out.2.1.poison = run.poison ∧
          (∀ (i : Nat) (p q : Place), bs[i]? = some p → as[i]? = some q →
            mapFind out.2.2 (placeKey p) = some (p, ((mapFind folds (placeKey p)).map (·.2)).getD [] ++
              [{ w := w, x := word q, bad := s.poisoned q 4 || (wp.map fun p => s.poisoned p 4).getD false }])) ∧
          ∀ n, n ∉ bs.map placeKey → mapFind out.2.2 n = mapFind folds n)) ∧
    (2 ≤ d.kind →
      let all := (seqFrom 0 d.rows).foldl (State.scatterOne c d) (s, CmdRun.start, [])
      Rule.RowWrites all.1 all.2.1 (all.2.2.map fun e => e.2.1) (all.2.2.map fun e =>
          (e.2.2.foldl (fun v (x : Contrib) => Rule.scatterAdd d.etype v x.w x.x) (BitVec.ofNat 32 (all.1.numAt e.2.1 4)),
            all.1.poisoned e.2.1 4 || e.2.2.any (·.bad))) (s.runData c d) ∧
        Rule.flagsOf (s.runData c d).2 = Rule.flagsOf all.2.1)

/-- R221: the token of a copy, gather or scatter-add. -/
def Sys2Proof.Rule.TokenBits : Prop :=
  ∀ r : CmdRun, (∀ n, r.first = some n → n < 2 ^ 16) →
    let v := r.token.toNat
    v / 2 ^ 16 = r.first.getD 0xFFFF ∧ v % 2 ^ 16 / 16 = 0 ∧ v.testBit 3 = r.page ∧ v.testBit 2 = r.bound ∧ v.testBit 1 = r.poison ∧
      v.testBit 0 = true

namespace Sys2Proof.Rule
open Sys2Proof Sys2Proof.Machine

/-- The writes of a command are those of the elements of tile T of its block, row by row: element (i, j), of `size` bytes, receives the bits
and the poison that `v` gives (R231, R232, R246). -/
def Elements (s : State) (c : Cmd) (t : Dword) (v : Nat → Nat → Nat × Bool) (ws : List CmdWrite) : Prop :=
  let x := tileOf t
  let origin := (s.block (s.group c.g).blk).origin
  ws.length = x.rows * x.cols ∧ Cells x fun i j => ws[i * x.cols + j]? = some
    { place := .scr c.core (origin + (x.base + 4 * x.stride * i + esize x.fmt * j)), bytes := leBytes (esize x.fmt) (v i j).1, bad := (v i j).2 }

/-- The rounded sum of one block of products (R63), of `res` by channel (R61). -/
def blockSum (x y : Tile) (ps : List (Nat × Nat)) : Word :=
  if x.fmt = 7 then resEnc (ps.map fun p => resCrt (BitVec.ofNat 32 p.1) * resCrt (BitVec.ofNat 32 p.2)).sum
  else BitVec.ofNat 32 (rne f32F (exactSum (ps.map fun p => fMul (fval (tileFmt x.fmt) p.1) (fval (tileFmt y.fmt) p.2))))

/-- Element B_k(k, j) of R240. -/
def elemB (s : State) (c : Cmd) (tb : Bool) (y : Tile) (k j : Nat) : Nat × Bool := if tb = true then s.elem c y j k else s.elem c y k j

/-- The block sums of element (i, j) of a product, of k-blocks of 32 in ascending order (R63). -/
def productSums (s : State) (c : Cmd) (tb : Bool) (x y : Tile) (i j : Nat) : List Word :=
  (seqFrom 0 (ceilDiv x.cols 32)).map fun b =>
    blockSum x y ((seqFrom (32 * b) (min 32 (x.cols - 32 * b))).map fun k => ((s.elem c x i k).1, (elemB s c tb y k j).1))

/-- Poison feeds element (i, j) of a product (R246). -/
def productBad (s : State) (c : Cmd) (tb : Bool) (x y : Tile) (i j : Nat) : Bool :=
  (seqFrom 0 x.cols).any fun k => (s.elem c x i k).2 || (elemB s c tb y k j).2

/-- One addition to an accumulator (R61, R63). -/
def accumulate (res : Bool) (v x : Word) : Word :=
  if res = true then resEnc (resCrt v + resCrt x) else BitVec.ofNat 32 (rne f32F (fAdd false (f32v v) (f32v x)))

/-- The bits of an element converted by `tcvt` (R244), from a value or, of an integer format, an integer. -/
def converted (m fmt : Nat) (v : FVal) (n : Option Int) : Nat :=
  let into := fun (lo hi : Int) => (roundInt lo hi (m % 4) 0 v).1
  match fmt with
  | 5 => (BitVec.ofInt 8 (into (-128) 127)).toNat
  | 6 => (BitVec.ofInt 32 (into (-(2 ^ 31)) (2 ^ 31 - 1))).toNat
  | 7 => (resEnc (n.getD (max (-8388480) (min (into (-(2 ^ 31)) (2 ^ 31 - 1)) 8388479)))).toNat
  | f => (roundF (tileFmt f) (m % 4) (decide (f = 4) && decide (4 ≤ m)) 0 v).1

end Sys2Proof.Rule

/-- R231, R232: where an element of a tile lies, and the bits and the poison that are read there. -/
def Sys2Proof.Rule.TileElements : Prop :=
  ∀ (s : State) (c : Cmd) (t : Dword) (i j : Nat),
    let x := tileOf t
    let fmt := (t.extractLsb' 44 4).toNat
    let size := if fmt = 0 ∨ fmt = 6 ∨ fmt = 7 then 4 else if fmt = 1 ∨ fmt = 2 then 2 else 1
    let p := Place.scr c.core ((s.block (s.group c.g).blk).origin +
      ((t.extractLsb' 0 21).toNat + 4 * (t.extractLsb' 48 16).toNat * i + size * j))
    x.rows = (t.extractLsb' 36 8).toNat + 1 ∧ x.cols = (t.extractLsb' 28 8).toNat + 1 ∧ x.fmt = fmt ∧
    (fmt ≤ 7 → s.elem c x i j = (s.numAt p size, s.poisoned p size)) ∧
    [0, 1, 2, 3, 4].map tileFmt = [f32F, f16F, bf16F, e4m3F, e5m2F]

/-- R61-R64, R240, R243-R246: the elements that a product outside a chain, a scaled sum, a conversion and a fill write. -/
def Sys2Proof.Rule.TileResults : Prop :=
  ∀ (s : State) (c : Cmd) (a b d : Dword),
    let x := tileOf a
    let y := tileOf b
    let td := tileOf d
    let ws := s.tileWrites c
    let word := fun (t : Tile) (i j : Nat) => ((BitVec.ofNat 32 (s.elem c t i j).1 : Word), (s.elem c t i j).2)
    (∀ z tb, c.op = .mma z tb none a b d →
      Rule.Elements s c d (fun i j =>
        let init : Word × Bool := if z = true then (0, false) else word td i j
        (((Rule.productSums s c tb x y i j).foldl (Rule.accumulate (decide (td.fmt = 7))) init.1).toNat,
          init.2 || Rule.productBad s c tb x y i j)) ws) ∧
    (∀ z, c.op = .msacc z d a b →
      Rule.Elements s c d (fun i j =>
        let t : Word := BitVec.ofNat 32 (rne f32F (fMul (fMul (f32v (word x i j).1) (f32v (word y 0 i).1)) (f32v (word y 1 j).1)))
        let spoiled := (word x i j).2 || (word y 0 i).2 || (word y 1 j).2
        if z = true then (t.toNat, spoiled)
        else (rne f32F (fAdd false (f32v (word td i j).1) (f32v t)), (word td i j).2 || spoiled)) ws) ∧
    (∀ m, c.op = .tcvt m d a → m < 8 →
      Rule.Elements s c d (fun i j =>
        let e := s.elem c x i j
        let n : Option Int := match x.fmt with
          | 5 => some (BitVec.ofNat 8 e.1).toInt
          | 6 => some (BitVec.ofNat 32 e.1).toInt
          | 7 => some (resCrt (BitVec.ofNat 32 e.1))
          | _ => none
        let v := match n with
          | some k => FVal.ofInt k 0
          | none => fval (tileFmt x.fmt) e.1
        (Rule.converted m td.fmt v n, e.2)) ws) ∧
    (∀ diag v bad, c.op = .tfill diag d v bad →
      Rule.Elements s c d (fun i j => if diag = true ∧ i ≠ j then (0, false) else (v.toNat, bad)) ws) ∧
    ∀ k : Int, Rule.Is (FVal.ofInt k 0) (decide (k < 0)) k

/-- R61, R63, R241, R242, R246: an `mma` inside a chain adds its block sums to each accumulator: of an ordered or a `res` chain in order, of
another in an order that stays open until `mend` writes the accumulators, or the chain leaves the engine. -/
def Sys2Proof.Rule.ChainValues : Prop :=
  ∀ (s : State) (c : Cmd) (tb : Bool) (a b : Dword) (ch : Chain),
    let x := tileOf a
    let y := tileOf b
    let td := tileOf ch.td
    let res := decide (td.fmt = 7)
    let ch' := s.chainMma c tb x y ch
    ch' = { ch with acc := ch'.acc, sums := ch'.sums, bad := ch'.bad } ∧
    (ch.ordered = true ∨ res = true → ch'.sums = ch.sums) ∧ (ch.ordered = false → res = false → ch'.acc = ch.acc) ∧
    Rule.Cells td (fun i j =>
      let k := i * td.cols + j
      let sums := Rule.productSums s c tb x y i j
      (ch.ordered = true ∨ res = true → mapGet 0 ch'.acc k = sums.foldl (Rule.accumulate res) (mapGet 0 ch.acc k)) ∧
      (ch.ordered = false → res = false → (mapFind ch'.sums k).getD [] = (mapFind ch.sums k).getD [] ++ sums) ∧
      (k ∈ ch'.bad ↔ k ∈ ch.bad ∨ Rule.productBad s c tb x y i j = true)) ∧
    (∀ free, (ch.sums.map (·.1)).Nodup →
      let done := (flushChain free ch).2
      done = { ch with acc := done.acc, sums := [] } ∧
      ∀ k, ∃ order : List Word, order.Perm ((mapFind ch.sums k).getD []) ∧
        mapGet 0 done.acc k = order.foldl (Rule.accumulate false) (mapGet 0 ch.acc k)) ∧
    ∀ num, c.op = .mend false num → ((s.flushChains c.g).group c.g).chainOf num = some ch →
      Rule.Elements s c ch.td (fun i j => ((mapGet 0 ch.acc (i * td.cols + j)).toNat, decide (i * td.cols + j ∈ ch.bad))) (s.tileWrites c)

/-- R216-R221, R225, R231, R232, R240-R246: the values that the commands of the engines and the matrix engine read and write. It rests on
choices of the model named in log entries 22, 64 and 72. -/
def Obligations.CommandValues : Prop :=
  Rule.SideRows ∧ Rule.RowValues ∧ Rule.ContributionValues ∧ Rule.TokenBits ∧ Rule.TileElements ∧ Rule.TileResults ∧ Rule.ChainValues

/-- R257-R268: a Sluice command starts with its choices, writes its local rows, sends its remote rows and then writes its outputs, unless
eight routes of its cluster wait for acknowledgements (R268), and completes once every
row is acknowledged or counted as lost; a row is sent again after 32 µs, and given up after four sends; an acknowledgement takes its
row from its route and from the commands that wait for it; a device from which no port has heard for 100 µs acknowledges nothing (R337). -/
def Sys2Proof.Rule.SluiceEvents : Prop :=
  ∀ (s : State) (cl : Nat) (c : Cmd),
    let q := (s.cluster cl).sluice
    let others := fun (t : State) => (t.cluster cl).sluice.filter (fun x => decide (x.id ≠ c.id)) = q.filter fun x => decide (x.id ≠ c.id)
    let alone := q.filter (fun x => decide (x.id = c.id)) = [c]
    (q.find? (fun x => !x.started) = some c → alone →
      (s.sluiceFree cl c = false → exec (.sluiceCommandStart cl) s = .next s) ∧
      (s.sluiceFree cl c = true →
        (∀ r, c.op = .route r →
          ∃ t c', exec (.sluiceCommandStart cl) s = .next t ∧ others t ∧ c' ∈ (t.cluster cl).sluice ∧ c'.id = c.id ∧ c'.started = true ∧
            let cnt := countsOf r.nexp (s.pass1 c r).2
            let outs := s.routeOutputs c r (s.pass1 c r).1 cnt (prefixSums 0 cnt)
            c'.rows = remoteRows r (s.pass1 c r).1 ∧ c'.slots = localSlots r (s.pass1 c r).1 (prefixSums 0 cnt) ∧ c'.outs = outs.1 ∧
            c'.flags = (if outs.2 = true then 2 ^ 26 else 0) ∧ t.vout = s.vout ∧ SameMemory s t) ∧
        (∀ d, c.op = .sel d →
          ∃ t c', exec (.sluiceCommandStart cl) s = .next t ∧ others t ∧ c' ∈ (t.cluster cl).sluice ∧ c'.id = c.id ∧ c'.started = true ∧
            c'.flags = (s.runSel c d).2.1 % 2 ^ 24 ∧ c'.poison = (s.runSel c d).2.2 ∧ MemoryAfter ((s.runSel c d).1.map (·.plain)) s t) ∧
        (∀ cls r, c.op = .retry cls r →
          let u := ((s.ownRoute (s.cmdCtx c) r).map (·.rows)).getD []
          ∃ t c', exec (.sluiceCommandStart cl) s = .next t ∧ others t ∧ c' ∈ (t.cluster cl).sluice ∧ c'.id = c.id ∧ c'.started = true ∧
            c'.rows = (if cls = true then [] else u.filterMap (retryRow r)) ∧
            c'.lost = (if cls = true then u else u.filter fun x => (retryRow r x).isNone) ∧ SameMemory s t ∧ t.vout = s.vout))) ∧
    (alone → c.started = true → c.sent = false → ∀ r, (c.op = .route r ∨ ∃ cls, c.op = .retry cls r) →
      (s.pass2Free cl c = false → exec (.routeRowsSent cl c.id) s = .next s) ∧
      (s.pass2Free cl c = true →
        let ws := s.localRows c r
        let s1 := (s.cmdWrites c ws).1
        ∃ t c', exec (.routeRowsSent cl c.id) s = .next t ∧ others t ∧ MemoryAfter ((ws ++ c.outs).map (·.plain)) s t ∧
          c' ∈ (t.cluster cl).sluice ∧ c'.id = c.id ∧ c'.sent = true ∧ c'.outs = [] ∧ c'.slots = [] ∧
          c'.rows = c.rows.map (fun x => { x with sends := x.sends + 1, at' := s.now }) ∧
          t.vout = s.vout ++ c.rows.map fun x =>
            let row := s1.routeRow c r (x.t * r.k + x.slot)
            VrelOut.row x.dev
              { tag := { dev := s.vrelnum.toNat % 4096, ctx := s.cmdCtx c, rid := r.rid, t := x.t, slot := x.slot }, buf := x.buf, idx := x.idx
                words := row.map (·.1), bad := (seqFrom 0 row.length).filter fun j => ((row[j]?).map (·.2)).getD false })) ∧
    (∀ s1 c1, alone → c.resolved = true → c.arr = none → (if c.token = 0 then s.closeOut cl c else (s, c)) = (s1, c1) →
      ∃ t, exec (.sluiceCommandComplete cl c.id) s = .next t ∧ SameMemory s1 t ∧ (c.flags < 2 ^ 28 → c1.token ≠ 0) ∧
        (t.cluster cl).sluice = q.filter (fun x => decide (x.id ≠ c.id)) ∧ (∀ j, j ≠ c.g → t.group j = s1.group j) ∧
        (t.group c.g).neng = (s.group c.g).neng - 1 ∧ (t.group c.g).ct = max (s1.group c.g).ct c1.ct ∧
        ∀ loc, c.tok = some loc → loc ≠ .off → ∀ lane, c.lanes.getLsbD lane = true → (s.group c.g).exited.getLsbD lane = false →
          (t.group c.g).rd loc lane = c1.token) ∧
    (∀ x r, alone → c.sent = true → (c.op = .route r ∨ ∃ cls, c.op = .retry cls r) →
      c.rows.filter (fun y => decide (y.t = x.t ∧ y.slot = x.slot)) = [x] →
      (s.now < x.at' + 38400 → exec (.rowRetransmit cl c.id x.t x.slot) s = .next s) ∧
      (x.at' + 38400 ≤ s.now → 4 ≤ x.sends →
        ∃ t c', exec (.rowRetransmit cl c.id x.t x.slot) s = .next t ∧ SameMemory s t ∧ others t ∧ t.vout = s.vout ∧
          c' ∈ (t.cluster cl).sluice ∧ c'.id = c.id ∧ c'.rows = c.rows.filter fun y => decide (¬ (y.t = x.t ∧ y.slot = x.slot))) ∧
      (x.at' + 38400 ≤ s.now → x.sends < 4 →
        ∃ t c' m, exec (.rowRetransmit cl c.id x.t x.slot) s = .next t ∧ SameMemory s t ∧ others t ∧ t.vout = s.vout ++ [.row x.dev m] ∧
          m.tag.t = x.t ∧ m.tag.slot = x.slot ∧ m.tag.rid = r.rid ∧ m.buf = x.buf ∧ m.idx = x.idx ∧
          c' ∈ (t.cluster cl).sluice ∧ c'.id = c.id ∧ { x with sends := x.sends + 1, at' := s.now } ∈ c'.rows)) ∧
    (∀ tag : VrelTag, tag.dev = s.vrelnum.toNat % 4096 →
      ∃ t, exec (.rowAckArrival tag) s = .next t ∧ t = { s with clusters := t.clusters, openRoutes := t.openRoutes, heard := t.heard } ∧
        SameMemory s t ∧
        (∀ o, t.openRoute tag.ctx tag.rid = some o →
          ∀ x ∈ o.rows, ¬ (x.t = tag.t ∧ x.slot = tag.slot)) ∧
        (∀ k x, x ∈ (t.cluster k).sluice → s.cmdCtx x = tag.ctx → (∃ r, (x.op = .route r ∨ x.op = .retry false r) ∧ r.rid = tag.rid) →
          ∀ y ∈ x.rows, ¬ (y.t = tag.t ∧ y.slot = tag.slot))) ∧
    (∀ dev : Nat, s.now < mapGet 0 s.heard dev + 120000 → exec (.deviceUnreachable dev) s = .next s) ∧
    (∀ dev : Nat, mapGet 0 s.heard dev + 120000 ≤ s.now →
      ∃ t, exec (.deviceUnreachable dev) s = .next t ∧ t = { s with clusters := t.clusters } ∧
        (∀ k, (t.cluster k).sluice.map (·.id) = (s.cluster k).sluice.map (·.id)) ∧
        ∀ k x, x ∈ (t.cluster k).sluice → x.sent = true → ∀ y ∈ x.rows, y.dev ≠ dev)

/-- R47, R258, R264, R265: an arriving row whose buffer and index exist is written once, but for words of executable and frozen pages, and
its poison with it: it enters the duplicate filter, and a row that the filter holds is acknowledged and not written; each message tells that
a port has heard from its device (R337). A close notice dates the filter entries of its route, and their expiry removes them. -/
def Sys2Proof.Rule.RowsArrive : Prop :=
  ∀ (s : State) (row : VrelRow) (b : RxBuf) (dev ctx rid : Nat),
    let h := fun (n : Nat) => { s with heard := mapPut s.heard n s.now }
    (mapFind s.rx row.buf = none → exec (.rowArrival row) s = .next (h row.tag.dev)) ∧
    (mapFind s.rx row.buf = some b → b.count ≤ row.idx → exec (.rowArrival row) s = .next (h row.tag.dev)) ∧
    (mapFind s.rx row.buf = some b → row.idx < b.count → (∃ e ∈ s.filter, e.1 = row.tag) →
      exec (.rowArrival row) s = .next { h row.tag.dev with vout := s.vout ++ [.ack row.tag] }) ∧
    (mapFind s.rx row.buf = some b → row.idx < b.count → (∀ e ∈ s.filter, e.1 ≠ row.tag) → s.filter.length < 65536 →
      ∃ t, exec (.rowArrival row) s = .next t ∧ t.filter = s.filter ++ [(row.tag, none)] ∧ t.vout = s.vout ∧
        t.heard = (h row.tag.dev).heard ∧
        MemoryAfter ((((seqFrom 0 row.words.length).zip row.words).filter fun x => !s.execPage (b.base + row.idx * b.stride + 4 * x.1)).map
          fun x => { place := .glob (b.base + row.idx * b.stride + 4 * x.1) 0, bytes := leBytes 4 x.2.toNat }) s t ∧
        (∀ x ∈ (seqFrom 0 row.words.length).zip row.words, x.1 ∈ row.bad → s.execPage (b.base + row.idx * b.stride + 4 * x.1) = false →
          t.poisoned (.glob (b.base + row.idx * b.stride + 4 * x.1) 0) 4 = true) ∧
        ∃ ct, t.rxWait = s.rxWait ++ [{ tag := row.tag, ctr := b.ctr, ct := ct }]) ∧
    (∃ t, exec (.routeCloseNotice dev ctx rid) s = .next t ∧ t = { h dev with filter := t.filter } ∧
      t.filter.map (·.1) = s.filter.map (·.1) ∧
      ∀ e ∈ t.filter, (e.1.dev = dev ∧ e.1.ctx = ctx ∧ e.1.rid = rid ∧ e.2 = some (s.now + 1200000)) ∨
        (¬ (e.1.dev = dev ∧ e.1.ctx = ctx ∧ e.1.rid = rid) ∧ e ∈ s.filter)) ∧
    (∃ t, exec (.filterEntryExpire dev ctx rid) s = .next t ∧ t = { s with filter := t.filter } ∧
      ∀ e, e ∈ t.filter ↔ e ∈ s.filter ∧ ¬ (e.1.dev = dev ∧ e.1.ctx = ctx ∧ e.1.rid = rid ∧ ∃ time, e.2 = some time ∧ time ≤ s.now))

/-- R257-R268: the events of the Sluices and of the rows between devices. It rests on choices of the model named in log entries 26,
27, 61 and 73. -/
def Obligations.RoutingEvents : Prop := Rule.SluiceEvents ∧ Rule.RowsArrive


/-! ### What the commands of the Sluices compute -/

namespace Sys2Proof.Rule
open Sys2Proof Sys2Proof.Machine

/-- The choices before `i` that went to expert `e`. -/
def taken (xs : List Assigned) (i e : Nat) : Nat := ((xs.take i).filter fun x => decide (x.slot.map (·.1) = some e)).length

/-- Words at offsets of sides. -/
abbrev Words := List (SideBase × Nat × Word)

/-- The outputs of a route that follow its last row (R253, R257-R260): counts, prefix sums, summary words 0, 1 and 3, the inverse, the token
array and the drop records. -/
def routeWords (r : RouteCmd) (xs : List Assigned) : Words :=
  let w := fun (n : Nat) => (BitVec.ofNat 32 n : Word)
  let n := r.ntok * r.k
  let count := fun (e : Nat) => taken xs n e
  let pre := fun (e : Nat) => ((seqFrom 0 e).map count).sum
  let drops := xs.filter fun x => decide (x.reason ≠ 0)
  let dropped : Word := 0xFFFFFFFF
  (seqFrom 0 r.nexp).map (fun e => (r.outs, 4 * e, w (count e))) ++
    (seqFrom 0 r.nexp).map (fun e => (r.outs, 4 * (r.nexp + e), w (pre e))) ++
    [(r.outs, 8 * r.nexp, w (pre r.nexp)), (r.outs, 8 * r.nexp + 4, w drops.length), (r.outs, 8 * r.nexp + 12, 0)] ++
    (if r.inv = 0 then [] else xs.map fun x => (r.inverse, 4 * x.i, match x.slot with
      | none => dropped
      | some (e, row) => if r.inv = 1 then w (e * 2 ^ 20 + row) else w (pre e + row))) ++
    (if r.inv = 3 then xs.map fun x => (r.inverse, 4 * (n + x.i), if x.slot = none then dropped else w (x.i / r.k)) else []) ++
    (if r.rec' = true then ((seqFrom 0 r.rcap).zip drops).flatMap fun x =>
      [(r.recs, 8 * x.1, w (x.2.i / r.k * 2 ^ 16 + x.2.i % r.k * 2 ^ 12 + x.2.e.toNat % 2 ^ 12)),
        (r.recs, 8 * x.1 + 4, w (x.2.reason * 2 ^ 28))] else [])

/-- These words are written, each where its side's page is known. -/
def putWords (s : State) (c : Cmd) (ws : Words) : List CmdWrite := ws.flatMap fun x => s.sidePut c x.1 x.2.1 x.2.2 false

end Sys2Proof.Rule

/-- R257: the words of sides that a Sluice command reads and writes, and the words of a row: those of its source row, and its weight. -/
def Sys2Proof.Rule.SluiceWords : Prop :=
  ∀ (s : State) (c : Cmd) (r : RouteCmd) (b : SideBase) (off i j : Nat) (v : Word) (bad : Bool) (p : Place),
    (Rule.known c b off = some p → s.sideWord c b off = (BitVec.ofNat 32 (s.numAt p 4), s.poisoned p 4) ∧
      s.sidePut c b off v bad = [{ place := p, bytes := leBytes 4 v.toNat, bad := bad }]) ∧
    (s.routeRow c r i).length = r.rwords + (if r.wt = true then 1 else 0) ∧
    (j < r.rwords → (s.routeRow c r i)[j]? = some (s.sideWord c r.src (i / r.k * r.sstride + 4 * j))) ∧
    (r.wt = true → (s.routeRow c r i)[r.rwords]? = some (s.sideWord c r.weights (4 * i)))

/-- R257: pass 1 assigns every choice in ascending order: a dropped one silently, with reason 3 where it is poisoned, 2 where no such expert
is, 1 where its expert is full, and else to the next row of its expert. -/
def Sys2Proof.Rule.Assignments : Prop :=
  ∀ (s : State) (c : Cmd) (r : RouteCmd),
    let xs := (s.pass1 c r).1
    xs.length = r.ntok * r.k ∧ (∀ e, mapGet 0 (s.pass1 c r).2 e = Rule.taken xs (r.ntok * r.k) e) ∧
    ∀ i, i < r.ntok * r.k →
      let choice := s.sideWord c r.choices (4 * i)
      let e := choice.1.toNat
      let n := Rule.taken xs i e
      let cap := ((r.dests[e]?).map (·.cap)).getD 0
      xs[i]? = some
        { i := i, e := choice.1
          slot := if e = 2 ^ 32 - 1 ∨ choice.2 = true ∨ r.nexp ≤ e ∨ cap ≤ n then none else some (e, n)
          reason := if e = 2 ^ 32 - 1 then 0 else if choice.2 = true then 3 else if r.nexp ≤ e then 2 else if cap ≤ n then 1 else 0 }

/-- R257, R258: where pass 2 moves the rows: to the packed buffer, to a local destination, or to a receive buffer of another device; and the
outputs. -/
def Sys2Proof.Rule.Outputs : Prop :=
  ∀ (s : State) (c : Cmd) (r : RouteCmd), 0 < r.k → r.k ≤ 8 → r.ntok < 2 ^ 16 →
    let xs := (s.pass1 c r).1
    let cnt := countsOf r.nexp (s.pass1 c r).2
    let pre := fun (e : Nat) => ((seqFrom 0 e).map fun k => Rule.taken xs (r.ntok * r.k) k).sum
    (∀ x, x ∈ localSlots r xs (prefixSums 0 cnt) ↔ ∃ a ∈ xs, ∃ e row, a.slot = some (e, row) ∧
      ((r.pk = true ∧ x = (a.i, e, pre e + row)) ∨
        (r.pk = false ∧ x = (a.i, e, row) ∧ ∃ d, r.dests[e]? = some d ∧ d.remote = false))) ∧
    (∀ x, x ∈ remoteRows r xs ↔ ∃ a ∈ xs, ∃ e row d, a.slot = some (e, row) ∧ r.dests[e]? = some d ∧ d.remote = true ∧
      x = { t := a.i / r.k, slot := a.i % r.k, e := e, row := row, dev := d.dev, buf := d.hnd, idx := d.row0 + row, sends := 0, at' := 0 }) ∧
    (∀ w, w ∈ s.localRows c r ↔ ∃ x ∈ c.slots, ∃ j y, (s.routeRow c r x.1)[j]? = some y ∧
      ((r.pk = true ∧ w ∈ s.sidePut c r.packed (x.2.2 * r.pstride + 4 * j) y.1 y.2) ∨
        (r.pk = false ∧ ∃ d, r.dests[x.2.1]? = some d ∧ w ∈ s.sidePut c d.base (x.2.2 * d.stride + 4 * j) y.1 y.2))) ∧
    (s.routeOutputs c r xs cnt (prefixSums 0 cnt)).1 = Rule.putWords s c (Rule.routeWords r xs) ∧
    ((s.routeOutputs c r xs cnt (prefixSums 0 cnt)).2 = true ↔
      r.rec' = true ∧ r.rcap < (xs.filter fun x => decide (x.reason ≠ 0)).length)

/-- R262: `grsel` lists the tokens of each column by rank, the larger score first and the lower token among equals; each token's choices are the
columns that list it, with their scores. -/
def Sys2Proof.Rule.Selections : Prop :=
  ∀ (s : State) (c : Cmd) (d : SelCmd), d.c ≤ d.ntok →
    let score := fun (t e : Nat) => s.sideWord c d.scores (t * d.xstride + 4 * e)
    let code := fun (t e : Nat) => if (score t e).2 = true then 0 else Rule.keyOrder 2 (score t e).1
    let ahead := fun (e t : Nat) => ((seqFrom 0 d.ntok).filter fun k =>
      decide (code t e < code k e) || (decide (code k e = code t e) && decide (k < t))).length
    let columns := fun (t : Nat) => (seqFrom 0 d.nexp).filter fun e => decide (ahead e t < d.c)
    let pairs := fun (n m : Nat) => (seqFrom 0 n).flatMap fun x => (seqFrom 0 m).map fun y => (x, y)
    let word := fun (n : Nat) => (BitVec.ofNat 32 n : Word)
    (s.runSel c d).1 = Rule.putWords s c (
      (pairs d.nexp d.c).map (fun x =>
        (d.lists, 4 * (x.1 * d.c + x.2), word (((seqFrom 0 d.ntok).find? fun t => decide (ahead x.1 t = x.2)).getD 0))) ++
      (pairs d.ntok d.kc).map (fun x =>
        (d.choices, 4 * (x.1 * d.kc + x.2), (((columns x.1)[x.2]?).map word).getD 0xFFFFFFFF)) ++
      (if d.wo = true then (pairs d.ntok d.kc).map fun x =>
        (d.weights, 4 * (x.1 * d.kc + x.2), match (columns x.1)[x.2]? with
          | none => (0 : Word)
          | some e => if (score x.1 e).2 = true ∨ Rule.isNan32 (score x.1 e).1 = true then 0x7FC00000 else (score x.1 e).1) else [])) ∧
    (s.runSel c d).2.1 = ((seqFrom 0 d.ntok).map fun t => (columns t).length - d.kc).sum ∧
    ((s.runSel c d).2.2 = true ↔ ∃ t e, t < d.ntok ∧ e < d.nexp ∧ (score t e).2 = true)

/-- R260, R261, R263, R266: what the end of a command writes and reports: its tag list and summary word 2, and its token's status, flags and
count. -/
def Sys2Proof.Rule.RouteEnds : Prop :=
  ∀ (s : State) (cl : Nat) (c : Cmd) (r : RouteCmd) (cls : Bool), (c.op = .route r ∧ cls = false) ∨ c.op = .retry cls r →
    c.flags = 0 ∨ c.flags = 2 ^ 26 → c.lost.length < 2 ^ 24 → (∀ x ∈ c.lost, x.t < 2 ^ 16 ∧ x.slot < 16 ∧ x.e < 2 ^ 12 ∧ x.row < 2 ^ 20) →
    let out := s.closeOut cl c
    let v := out.2.token.toNat
    let word := fun (n : Nat) => (BitVec.ofNat 32 n : Word)
    (∃ un : List SentRow, un.Perm c.lost ∧ un.Pairwise (fun x y => x.t < y.t ∨ (x.t = y.t ∧ x.slot ≤ y.slot)) ∧
      MemoryAfter ((Rule.putWords s c (((seqFrom 0 r.acap).zip un).flatMap (fun x =>
          [(r.tags, 8 * x.1, word (x.2.t * 2 ^ 16 + x.2.slot * 2 ^ 12 + x.2.e)), (r.tags, 8 * x.1 + 4, word x.2.row)]) ++
        [(r.outs, (if c.op = .retry cls r then 0 else 8 * r.nexp + 8), word un.length)])).map (·.plain)) s out.1) ∧
    v / 2 ^ 28 = (if cls = true then 3 else if c.lost = [] then 1 else 2) ∧ v.testBit 27 = c.poison ∧
      v.testBit 26 = decide (c.flags = 2 ^ 26) ∧ v.testBit 25 = decide (r.acap < c.lost.length) ∧ v.testBit 24 = false ∧
      v % 2 ^ 24 = c.lost.length

/-- R253, R256-R262, R266: the values that the commands of the Sluices read and write. It rests on choices of the model named in log
entries 22 and 73. -/
def Obligations.RoutingValues : Prop :=
  Rule.SluiceWords ∧ Rule.Assignments ∧ Rule.Outputs ∧ Rule.Selections ∧ Rule.RouteEnds

/-! ### Blocks, power, storage and the host -/

namespace Sys2Proof.Rule
open Sys2Proof Sys2Proof.Machine

/-- Bit i of `D_READY` (R333). -/
def bitUp (s : State) (i : Nat) : Prop := s.dready.getLsbD i = true

/-- A request through BAR0 that the port supports (R329, R330): 1 to 128 bytes within one line of existing memory, with the link and
the line's stack up. -/
def bar0 (s : State) (addr n : Nat) : Prop :=
  1 ≤ n ∧ n ≤ 128 ∧ addr / 128 = (addr + n - 1) / 128 ∧ addr + n ≤ 2 ^ 39 ∧ bitUp s 0 ∧
    bitUp s (13 + (addr / 128 % 8 ^^^ (addr / 2 ^ 22 % 8)))

/-- The page is executable, or frozen by a scan (R45, R303). -/
def codePage (s : State) (addr : Nat) : Prop := mapGet 0 s.xcount (addr / 65536) ≠ 0 ∨ addr / 65536 ∈ s.frozen

/-- The last image that was given has not failed, or none was (R335). -/
def unfailed (s : State) : Prop := s.fw = true ∨ s.bootcode = 0

/-- Bit i of what the hardware reports as up, which a failed image hides from `D_READY` (R333, R335). -/
def hwUp (s : State) (i : Nat) : Prop := s.hwready.getLsbD i = true

/-- A record of the fault log was made (R334). -/
def logs (s t : State) (kind detail unit pa : Nat) : Prop :=
  t.logtail = s.logtail + 1 ∧ mapFind t.log (s.logtail % 256) = some { kind := kind, detail := detail, unit := unit, time := s.now, pa := pa }

/-- Each line of a window lies in its register's place (R67). -/
def keyed (w : Window) : Prop := ∀ e ∈ w.lines, e.1 = e.2 % 2 ^ w.log2 ∧ mapFind w.lines e.1 = some e.2

/-- The commands of a queue go on, or those that run, or still have line requests (R224), pause for a cycle (R317). -/
def runsOrPauses (now : Nat) (q q' : List Cmd) : Prop :=
  q' = q ∨ q' = q.map fun c =>
    if c.started = true ∧ (now < c.due ∨ c.unsent ≠ [] ∨ c.flying ≠ []) then { c with due := c.due + 1 } else c

end Sys2Proof.Rule

/-- R67, R71: WINDOW_MISS_FILL gives a register its line of the window. The line's other occupant leaves it: a dirty one is written back to
the image, and its next access fetches it. A register that the image alone holds is fetched; no other register changes. -/
def Sys2Proof.Rule.WindowMiss : Prop :=
  ∀ (s : State) (g n : Nat),
    let h := s.group g
    let ctx := (s.block h.blk).ctx
    let base := s.imageBase g
    let occupant := mapFind h.win.lines (n % 2 ^ h.win.log2)
    h.live = true → n < h.alloc → (s.block h.blk).onCore = true → (s.block h.blk).control = false →
      ∃ t, exec (.windowMissFill g n) s = .next t ∧ t.cores = s.cores ∧ (t.group g).win.log2 = h.win.log2 ∧
        mapFind (t.group g).win.lines (n % 2 ^ h.win.log2) = some n ∧
        (∀ k lane, (t.group g).rd (.hreg k) lane = h.rd (.hreg k) lane) ∧
        (∀ k lane, lane < 32 → k ≠ n → occupant ≠ some k → (t.group g).rd (.reg k) lane = h.rd (.reg k) lane) ∧
        (n ∉ h.cold → ∀ lane, lane < 32 → (t.group g).rd (.reg n) lane = h.rd (.reg n) lane) ∧
        ((∀ m, occupant = some m → m = n ∨ m ∉ h.dirty) →
          SameMemory s t ∧ (∀ k, k ≠ g → t.group k = s.group k) ∧
          ∀ fmt pa, n ∈ h.cold → s.virtNum ctx (base + 0x40 + n) 1 = some fmt → s.virtPa ctx (base + 0x40 + n) ≠ none →
            s.virtPa ctx (base + 0x400 + 128 * n) = some pa →
            n ∉ (t.group g).cold ∧ ∀ lane, lane < 32 → h.launched.getLsbD lane = true → h.exited.getLsbD lane = false →
              (t.group g).rd (.reg n) lane = unpackLane fmt (fun o k => s.physNum (pa + o) k) lane) ∧
        (∀ m, occupant = some m → m ≠ n → m ∈ h.dirty → s.lineMapped ctx base m = true →
          (∀ q : Place, t.byteAt q 0 = (s.writeLine ctx base h m).byteAt q 0) ∧ m ∈ (t.group g).cold ∧ m ∉ (t.group g).dirty)

/-- R67-R69, R82, R146: COMPACTOR_STEP doubles the window of one group whose buddy is free, if there is one, and its lines keep their
registers; BANK_STARVE_PROMOTE moves a requester of a bank to the front; RETIREMENT_DRAIN frees the entry of a group whose work has
drained. -/
def Sys2Proof.Rule.CoreEvents : Prop :=
  ∀ (s : State) (core g bank : Nat) (who : BankReq),
    (384 ≤ bank → exec (.bankStarvePromote core bank who) s = .next s) ∧
    (bank < 384 →
      ∃ t, exec (.bankStarvePromote core bank who) s = .next t ∧ t = { s with cores := t.cores } ∧ SameMemory s t ∧
        (bank, who) ∈ (t.core core).starved ∧ ∀ k, t.core k = { s.core k with starved := (t.core k).starved }) ∧
    (let grows := fun (k : Nat) (h : Group) =>
      let n := 2 ^ (h.win.log2 + 1)
      n ≤ h.alloc ∧ ∀ o ∈ s.windows core [k], o.1 + o.2 ≤ h.win.base / n * n ∨ h.win.base / n * n + n ≤ o.1
     ((∀ e ∈ s.slotHolders core, ¬ grows e.1 e.2) → exec (.compactorStep core) s = .next s) ∧
     ((∃ e ∈ s.slotHolders core, grows e.1 e.2) →
      ∃ t k h, exec (.compactorStep core) s = .next t ∧ (k, h) ∈ s.slotHolders core ∧ grows k h ∧
        (s.group k = h → Rule.keyed h.win →
          t = s.putGroup k { h with win := (t.group k).win } ∧ (t.group k).win.log2 = h.win.log2 + 1 ∧
          (t.group k).win.base = h.win.base / 2 ^ (h.win.log2 + 1) * 2 ^ (h.win.log2 + 1) ∧
          ∀ e ∈ h.win.lines, mapFind (t.group k).win.lines (e.2 % 2 ^ (h.win.log2 + 1)) = some e.2))) ∧
    ((s.group g).draining = true → (s.group g).outstanding = false →
      ∃ t, exec (.retirementDrain g) s = .next t ∧ t = s.putGroup g { s.group g with draining := false, chains := [] } ∧ SameMemory s t)

/-- R25, R159, R184, R284-R288, R292: a triggered block that may be parked enters Stopping with its party, and the requests of both leave the
bundle queues; a party whose every block has drained goes to Saving; a saved block is Ready or Absent, as its waits are, and keeps its
scratchpad; a restored party is Resident, with the scratchpads of its images. Neither is saved nor restored while a row of an image or of a
scratchpad is under test, and a restore waits for the lines of its bundles too. -/
def Sys2Proof.Rule.BlockStates : Prop :=
  ∀ (s : State) (bk : Nat), (s.blocks.map (·.1)).Nodup → bk ∈ s.partyOf bk →
    let b := s.block bk
    let ps := s.partyOf bk
    let stops := fun (k : Nat) => k ∈ ps ∧ (s.block k).st = .resident
    (∀ i g, (i = .parkTrigger bk ∨ (i = .parkTimeExpire g ∧ (s.group g).blk = bk)) →
      (b.st ≠ .resident ∨ s.parkTriggered bk = false ∨ s.parkAllowed bk = false → exec i s = .next s) ∧
      (b.st = .resident → s.parkTriggered bk = true → s.parkAllowed bk = true →
        ∃ t, exec i s = .next t ∧ t = { s with blocks := t.blocks, cores := t.cores } ∧
          (∀ k, stops k → t.block k = { s.block k with st := .stopping, reason := 1, stopAt := s.now }) ∧
          (∀ k, k ∉ ps → t.block k = s.block k) ∧
          ∀ c, t.core c = { s.core c with
            bqueue := (s.core c).bqueue.filter fun r =>
              decide (∀ k ∈ ps, (s.block k).st = .resident → (s.block k).core = c → r.g ∉ s.groupsOf k) || ((s.group r.g).split r.sp).sup })) ∧
    ((∀ k ∈ ps, (s.block k).st = .stopping ∧ s.blockDrained k = true) →
      ∃ t, exec (.blockDrainComplete bk) s = .next t ∧ t = { s with blocks := t.blocks } ∧ (∀ k, k ∉ ps → t.block k = s.block k) ∧
        ∀ k ∈ ps, t.block k = { s.block k with st := .saving }) ∧
    ((∃ k ∈ ps, (s.block k).st ≠ .stopping ∨ s.blockDrained k = false) → exec (.blockDrainComplete bk) s = .next s) ∧
    ((∃ k ∈ ps, (s.block k).st = .saving ∧ s.imageTested k = true) → exec (.blockSaveComplete bk) s = .next s) ∧
    ((∀ k ∈ ps, (s.block k).st = .saving → s.imageTested k = false) →
      ∃ t, exec (.blockSaveComplete bk) s = .next t ∧ ∀ k ∈ ps, (s.block k).st = .saving →
        let x := s.block k
        let mine := s.groupsOf k
        ((t.block k).st = .ready ∨ (t.block k).st = .absent) ∧ ((∀ g ∈ mine, (s.group g).wait = none) → (t.block k).st = .ready) ∧
          ((t.block k).st = .ready →
            (∃ g ∈ mine, ∃ r, (s.group g).wait = some r ∧ r.ended ≠ none) ∨
            (∀ g ∈ mine, (s.group g).live = true → s.waitRegistered g = false) ∨ ∃ g ∈ mine, (t.group g).wait ≠ (s.group g).wait) ∧
          ∀ a, a < x.scratch → mapGet zeroByte (t.block k).saved a = s.byteAt (.scr x.core (x.origin + a)) 0) ∧
    ((∃ k ∈ ps, (s.block k).st ≠ .restoring ∨ s.entersFilling k = true ∨ s.imageTested k = true ∨ s.entersBusy k = true) →
      exec (.blockRestoreComplete bk) s = .next s) ∧
    ((∀ k ∈ ps, (s.block k).st = .restoring ∧ s.entersFilling k = false ∧ s.imageTested k = false ∧ s.entersBusy k = false) →
      (s.context b.ctx).stopped = false →
      ∃ t, exec (.blockRestoreComplete bk) s = .next t ∧
        ((∀ k ∈ ps, ∀ g ∈ s.groupsOf k, (s.group g).wait = none) → ∀ k, k ∉ ps → t.block k = s.block k) ∧
        ∀ k ∈ ps, let x := s.block k
          t.block k = { x with st := .resident, readmitted := some s.now, reason := 0, saved := [], spois := [] } ∧
          ((∀ j ∈ ps, j ≠ k → (s.block j).core ≠ x.core ∨ x.origin + x.scratch ≤ (s.block j).origin ∨
            (s.block j).origin + (s.block j).scratch ≤ x.origin) →
            ∀ a pa, a < x.scratch → s.virtPa x.ctx (s.slotBase k + 0x1000 + 128 * (a / 128)) = some pa →
              t.byteAt (.scr x.core (x.origin + a)) 0 = s.byteAt (.glob pa 0) (a % 128)))

/-- R307, R314: an admission pass starts the next block of a launch that offers one on the core that R314 chooses, with registers that
read 0, and with nothing to place places nothing; it writes no memory, but for lines that windows give up. -/
def Sys2Proof.Rule.Admission : Prop :=
  ∀ s : State,
    (∃ t, exec .admissionPass s = .next t ∧ s.nextBlk ≤ t.nextBlk ∧
      ((∀ e ∈ s.groups, e.2.dirty = [] ∧ e.2.pends = []) → SameMemory s t)) ∧
    (s.readyParties = [] → (∀ e ∈ s.launches, s.offers e.1 = false ∧ s.quantumReady e.1 = false) →
      (∀ e ∈ s.contexts, e.2.stopPending = false) → (∀ e ∈ s.groups, e.2.pends = []) → exec .admissionPass s = .next s) ∧
    ∀ lid l core, s.readyParties = [] → s.launches = [(lid, l)] → s.offers lid = true → l.party ≤ 1 → 0 < l.groups →
      s.chooseCores l.ctx lid [l.need] = some [core] → (s.cluster (clusterOf core)).gate = .on →
      ∃ t, exec .admissionPass s = .next t ∧
        let b' := t.block s.nextBlk
        let g' := t.group (s.nextBlk * 32)
        b'.lid = lid ∧ b'.bid = l.next ∧ b'.pid = 0 ∧ b'.ctx = l.ctx ∧ b'.core = core ∧ b'.st = .resident ∧ l.next < (t.launch lid).next ∧
          g'.live = true ∧ g'.alloc = 2 ^ l.regsLog2 ∧ (g'.split 0).pc = BitVec.ofNat 64 (l.kernel + 4 * (8 + l.patches.length + l.entry)) ∧
          (∀ lane, lane < 32 → mapGet 0 g'.gen lane = srInit l.seed l.next 0 lane) ∧ ∀ loc lane, g'.rd loc lane = 0

/-- R58, R67-R69, R82, R146, R184, R284-R288, R307, R314: the events of cores and blocks. It rests on choices of the model named in log
entries 18, 19, 55 and 59. -/
def Obligations.SchedulingEvents : Prop := Rule.WindowMiss ∧ Rule.CoreEvents ∧ Rule.BlockStates ∧ Rule.Admission


/-- R173, R325, R328: a quantum that is not over does not end. The end of one goes on while a release or a barrier waits for device time,
and then the launch's quantum number rises by 1. Where nothing has to wait, its groups' buffered stores are performed in commit order, each
group's in program order, and with no closing atomic no other byte changes. A store waits while a row that it reaches is under test (R159), and
for its entries of the tracker and its places at the banks (R22, R144). It rests on choices of the model named in log entries 28 and
29. -/
def Obligations.QuantumEnds : Prop :=
  ∀ (s : State) (lid : Nat),
    let l := s.launch lid
    let order := (s.commitOrder lid).eraseDups
    (s.quantumOver lid = false → l.ending = none → exec (.quantumEnd lid) s = .next s) ∧
    (s.quantumOver lid = true ∨ l.ending ≠ none →
      ∃ t, exec (.quantumEnd lid) s = .next t ∧ (t.launch lid).q = l.q ∧
        ((t.launch lid).quantum = l.quantum + 1 ∧ (t.launch lid).ending = none ∨ (t.launch lid).quantum = l.quantum ∧
          (t.launch lid).ending ≠ none)) ∧
    (s.quantumOver lid = true → l.ending = none → s.march = [] →
      (∀ k ∈ order, let c := (s.block (s.group k).blk).core
        (s.tracker c).length + (s.bankUse c).length + (order.flatMap fun j => (s.group j).qbuf).length ≤ 64) →
      (∀ k ∈ order, (s.group k).closing = none ∧ (s.group k).wait = none ∧ (∀ r ∈ (s.group k).qrel, r.2 < 2) ∧
        ((s.group k).qrel = [] → (s.group k).qbuf = []) ∧ (∀ c ∈ s.commands, c.g = k → c.waitCommit = false) ∧
        ((s.group k).live = true → (s.group k).splits ≠ [] ∧ ∀ e ∈ (s.group k).splits, ∀ i, e.2.st ≠ .atPbar i)) →
      ∃ t, exec (.quantumEnd lid) s = .next t ∧ (t.launch lid).quantum = l.quantum + 1 ∧
        MemoryAfter (order.flatMap fun k => (s.group k).qbuf) s t) ∧
    (∀ k ks i sc rest, s.quantumOver lid = true → l.ending = none → s.commitOrder lid = k :: ks → (s.group k).qrel = (i, sc) :: rest →
      let first := (s.group k).qbuf.take (((rest.head?).map fun r => r.1 - i).getD (s.group k).qbuf.length)
      let core := (s.block (s.group k).blk).core
      s.writesTested core first = true ∨ s.commitRoom core (writeAddrs first) = false →
        ∃ t, exec (.quantumEnd lid) s = .next t ∧ (t.launch lid).ending ≠ none ∧ SameMemory s t)

/-- R317-R319, R340: POWER_ALLOWANCE_CYCLE charges and refills a cluster's allowance, and an engine whose draw it does not cover pauses;
SENSOR_SAMPLE reports the hottest core, halves the refills from the critical code on until it has fallen by 40, and shuts the device down
from the shutdown code on; a cluster idle for 12,000 ticks is gated after 64 more, and wakes 6,000 after a dispatch. None changes memory. -/
def Sys2Proof.Rule.PowerEvents : Prop :=
  ∀ (s : State) (cl : Nat) (codes : List (Nat × Nat)),
    let c := s.cluster cl
    let onlyGate := fun (i : Instr) (g : Gate) => ∃ t, exec i s = .next t ∧ t = { s with clusters := t.clusters } ∧
      t.cluster cl = { c with gate := g, idleSince := (t.cluster cl).idleSince } ∧ ∀ k, k ≠ cl → t.cluster k = s.cluster k
    (∃ t, exec (.powerAllowanceCycle cl) s = .next t ∧ t = { s with clusters := t.clusters, cores := t.cores } ∧ SameMemory s t ∧
      let refill := if s.halved = true then c.refill / 2 else c.refill
      let c' := t.cluster cl
      c' = { c with draw := 0, withheld := c'.withheld, allow := c'.allow, sluice := c'.sluice } ∧
      Rule.runsOrPauses s.now c.sluice c'.sluice ∧ (∀ k, k ≠ cl → t.cluster k = s.cluster k) ∧
      (∀ k, let o := s.core k
        let o' := t.core k
        o' = { o with copyq := o'.copyq, rillq := o'.rillq, cascq := o'.cascq, matq := o'.matq } ∧
          Rule.runsOrPauses s.now o.copyq o'.copyq ∧
          Rule.runsOrPauses s.now o.rillq o'.rillq ∧ Rule.runsOrPauses s.now o.cascq o'.cascq ∧ Rule.runsOrPauses s.now o.matq o'.matq) ∧
      min 65535 (c.allow - c.draw - s.engineDraw cl + refill) ≤ c'.allow ∧ c'.allow ≤ min 65535 (c.allow - c.draw + refill) ∧
      (s.engineDraw cl ≤ c.allow - c.draw →
        c'.allow = min 65535 (c.allow - c.draw - s.engineDraw cl + refill) ∧ c'.sluice = c.sluice ∧ ∀ k, t.core k = s.core k) ∧
      (c.low ≤ c'.allow → c'.allow ≤ c.high → c'.withheld = c.withheld) ∧
      (c.low ≤ c'.allow → c.high < c'.allow → c'.withheld = c.withheld.dropLast) ∧
      (c'.allow < c.low → c'.withheld = c.withheld ∨ ∃ k, c'.withheld = c.withheld ++ [k] ∧ k ∉ c.withheld)) ∧
    (c.gate = .on → cl < 48 → s.clusterBusy cl = false → c.idleSince + 12000 ≤ s.now → onlyGate (.powerGateBegin cl) (.gating s.now)) ∧
    (∀ time, c.gate = .gating time → time + 64 ≤ s.now → onlyGate (.powerGateCommit cl) .gated) ∧
    (∀ time, c.gate = .waking time → time + 6000 ≤ s.now → onlyGate (.clusterWakeComplete cl) .on) ∧
    (c.gate = .on ∨ c.gate = .gated → exec (.powerGateCommit cl) s = .next s ∧ exec (.clusterWakeComplete cl) s = .next s) ∧
    (∃ t, exec (.sensorSample codes) s = .next t ∧ SameMemory s t ∧
      let (core, code) := hottestOf codes
      t.hottest = BitVec.ofNat 32 (code % 1024 * 2 ^ 16 + core % 256) ∧
      (s.critical ≤ code → t.halved = true) ∧ (code + 40 ≤ s.critical → code < s.critical → t.halved = false) ∧
      (code < s.critical → s.critical < code + 40 → t.halved = s.halved) ∧
      (s.critical ≤ code → s.halved = false → Rule.logs s t 6 code core 0) ∧
      (s.shutdown ≤ code → t.shut = true ∧ ∀ e ∈ t.contexts, e.2.failed = true) ∧
      (code < s.shutdown → t.shut = s.shut ∧ t.contexts = s.contexts))

/-- R158-R161, R334, R341: a corrected error is counted and logged with kind 1, an uncorrectable one with kind 2, and poisons its unit; in
both cases the row's march test begins. A test that runs, or one of reset (R341), ends once its time is over: one that passes returns the
row, and a core or a slice to service; one that fails is a lasting fault, counted and logged with kind 3, which takes a core or a slice
out of service. -/
def Sys2Proof.Rule.StorageEvents : Prop :=
  ∀ (s : State) (e : StorageError) (u : StorageUnit) (ok : Bool),
    let no := s.unitNo e.unit
    let begun : List MarchTest := s.march ++ [{ unit := e.unit, since := s.now, no := no }]
    let m := s.marchOf u
    (parityUnit e.unit = true ∨ e.dbl = false →
      ∃ t, exec (.storageErrorDetected e) s = .next t ∧ SameMemory s t ∧ t.poison = s.poison ∧ t.march = begun ∧
        t.corrected = min (s.corrected + 1) (2 ^ 32 - 1) ∧ t.uncorrected = s.uncorrected ∧ Rule.logs s t 1 0 no (unitPa e.unit) ∧
        t.groups = s.groups) ∧
    (parityUnit e.unit = false → e.dbl = true →
      ∃ t, exec (.storageErrorDetected e) s = .next t ∧ SameMemory s t ∧ t.march = begun ∧
        t.uncorrected = min (s.uncorrected + 1) (2 ^ 32 - 1) ∧ t.corrected = s.corrected ∧
        mapFind t.log (s.logtail % 256) = some { kind := 2, detail := 0, unit := no, time := s.now, pa := unitPa e.unit } ∧
        (∀ pa, e.unit = .hbm pa → t.poisoned (.glob (pa / 32 * 32) 0) 32 = true) ∧
        (∀ pl, e.unit = .sliceDirty pl → t.poisoned (.glob (pl * 128) 0) 128 = true) ∧
        (∀ c w, e.unit = .scratch c w → t.poisoned (.scr c (4 * w)) 4 = true) ∧
        ∀ g n, e.unit = .register g n → mapGet 0 (t.group g).rpoison n = 0xFFFFFFFF) ∧
    let ofReset := (∃ c, (u = .coreUnit c ∨ (∃ x, u = .scratch c x) ∨ ∃ x y, u = .l1Line c x y) ∧ s.coreTests.getLsbD c = true) ∨
      ∃ k, u = .sliceUnit k ∧ s.sliceTests.getLsbD k = true
    (m ∈ s.march → s.now < m.since + marchTicks u → exec (.marchTestComplete u ok) s = .next s) ∧
    (m ∉ s.march → ¬ ofReset → exec (.marchTestComplete u ok) s = .next s) ∧
    ((m ∉ s.march ∧ ofReset) ∨ (m ∈ s.march ∧ m.since + marchTicks u ≤ s.now) →
      ∃ t, exec (.marchTestComplete u ok) s = .next t ∧ SameMemory s t ∧ t.march = s.march.erase m ∧
        (ok = true → t.lasting = s.lasting ∧ t.log = s.log ∧ (∀ c, u = .coreUnit c → t.coreTests.getLsbD c = false ∧
          (c < 192 → c ∉ s.coresOut → (t.core c).inService = true)) ∧
          ∀ k, u = .sliceUnit k → t.sliceTests.getLsbD k = false ∧ (k < 128 → k ∉ s.sliceOut → t.slicesIn.getLsbD k = true)) ∧
        (ok = false → t.lasting = s.lasting + 1 ∧
          (∀ c, (u = .coreUnit c ∨ (∃ x, u = .scratch c x) ∨ ∃ x y, u = .l1Line c x y) → (t.core c).inService = false ∧ c ∈ t.coresOut) ∧
          (∀ g n, (u = .register g n ∨ u = .accumulator g n) → (t.core m.no).inService = false) ∧
          (∀ pl, (u = .sliceClean pl ∨ u = .sliceDirty pl) → m.no ∈ t.sliceOut) ∧ (∀ k, u = .sliceUnit k → k ∈ t.sliceOut) ∧
          mapFind t.log (s.logtail % 256) = some { kind := 3, detail := 0, unit := m.no, time := s.now, pa := unitPa u }))

/-- R158-R161, R317-R319, R340, R341: the events of power and of storage protection. It rests on choices of the model named in log entries
30, 31, 47, 49, 53, 54 and 67. -/
def Obligations.PowerAndStorage : Prop := Rule.PowerEvents ∧ Rule.StorageEvents


/-- R15, R335, R336: DEVICE_RESET leaves the state after reset, with the host's memory and the nonvolatile LMS counter; each image that
IMAGE_VERIFY is given is verified anew: one that passes starts the firmware on the four control cores, unless it runs there already, with boot
code 0x8000 and bit 3 of `D_READY`, raises the bits of all that is up (R333), and joins the images of the report (R336); one that fails leaves
its first failing step as the boot code and only bit 0 of `D_READY`, and nothing issues until one passes. -/
def Sys2Proof.Rule.ResetAndBoot : Prop :=
  ∀ (s : State) (img : ImageCheck),
    exec .deviceReset s = .next { State.reset with hmem := s.hmem, lms := s.lms, free := s.free } ∧
    (
      let bad : Option Nat := if img.headerOk = false ∨ 2 ^ 26 < img.bytes then some 1 else if img.keyHashOk = false then some 2
        else if img.version < img.minVersion then some 3 else if img.ecdsaOk = false then some 4 else if img.lmsOk = false then some 5 else none
      (∀ n, bad = some n → ∃ t, exec (.imageVerify img) s = .next t ∧
        t = { s with bootcode := n, fw := false, dready := t.dready, logtail := t.logtail, log := t.log } ∧
          (Rule.bitUp t 0 ↔ Rule.bitUp s 0) ∧
        (∀ i, 1 ≤ i → i < 28 → ¬ Rule.bitUp t i) ∧
        ∀ g i, { t with agenda := [] }.mayIssue g i = false) ∧
      (bad = none → ∃ t, exec (.imageVerify img) s = .next t ∧ t.fw = true ∧ t.bootcode = 0x8000 ∧ Rule.bitUp t 3 ∧ SameMemory s t ∧
        t.images = s.images ++ [img.digest] ∧ t.fused = img.minVersion ∧ (∀ i, Rule.bitUp s i ∨ Rule.hwUp s i → Rule.bitUp t i) ∧
        ((∃ e ∈ s.blocks, e.2.control = true) → t.groups = s.groups ∧ t.blocks = s.blocks) ∧
        ((∀ e ∈ s.blocks, e.2.control = false) → (t.context img.ctx).live = true ∧
        ∀ k, k < 4 →
          let b := t.block (s.nextBlk + k)
          let g := t.group ((s.nextBlk + k) * 32)
          b.core = 192 + k ∧ b.control = true ∧ b.ctx = img.ctx ∧ g.live = true ∧ (g.split 0).pc = img.entry ∧
            (g.split 0).members = 0xFFFFFFFF ∧
            (∀ lane, lane < 32 → mapGet 0 g.gen lane = srInit s.dseed k 0 lane) ∧ ∀ loc lane, g.rd loc lane = 0)))

/-- R333, R334, R335, R338: links and memories that come up raise their bits of `D_READY`, where no image has failed; a PCIe link or a port
that goes down lowers its bit and is logged with kind 5, as is a stack that fails its training; with the last port the bits of Vrel and of the
checkpoint fall too. -/
def Sys2Proof.Rule.LinkEvents : Prop :=
  ∀ (s : State) (k : Nat),
    (∃ t, exec (.pcieLinkChange true) s = .next t ∧ t = { s with dready := s.dready ||| 1 }) ∧
    (Rule.bitUp s 0 → ∃ t, exec (.pcieLinkChange false) s = .next t ∧ ¬ Rule.bitUp t 0 ∧ Rule.logs s t 5 0 0xFFFF 0 ∧ SameMemory s t ∧
      ∀ i, i ≠ 0 → (Rule.bitUp t i ↔ Rule.bitUp s i)) ∧
    (¬ Rule.bitUp s 0 → exec (.pcieLinkChange false) s = .next s) ∧
    (let rises := fun (t : State) (i : Nat) => Rule.hwUp t i ∧ (Rule.unfailed s → Rule.bitUp t i) ∧ ∀ j, Rule.bitUp s j → Rule.bitUp t j
    (k < 4 →
      (∃ t, exec (.ethPortChange k true) s = .next t ∧ t = { s with dready := t.dready, hwready := t.hwready, ckpt := t.ckpt } ∧
        (s.ckpt = none → t.ckpt = none) ∧ rises t (21 + k)) ∧
      (Rule.hwUp s (21 + k) → ∃ t, exec (.ethPortChange k false) s = .next t ∧ ¬ Rule.bitUp t (21 + k) ∧ ¬ Rule.hwUp t (21 + k) ∧
        SameMemory s t ∧ t.groups = s.groups ∧
        (Rule.bitUp s (21 + k) →
          mapFind t.log (s.logtail % 256) = some { kind := 5, detail := 0, unit := k, time := s.now, pa := 0 }) ∧
        ((∃ p, p < 4 ∧ p ≠ k ∧ Rule.hwUp s (21 + p)) → (Rule.bitUp s (21 + k) → Rule.logs s t 5 0 k 0) ∧
          ∀ i, i ≠ 21 + k → (Rule.bitUp t i ↔ Rule.bitUp s i)) ∧
        ((∀ p, p < 4 → p ≠ k → ¬ Rule.hwUp s (21 + p)) → ¬ Rule.bitUp t 25 ∧ ¬ Rule.bitUp t 26)) ∧
      (¬ Rule.hwUp s (21 + k) → exec (.ethPortChange k false) s = .next s) ∧
      (∃ t, exec (.sliceTrainingDone k) s = .next t ∧ t = { s with dready := t.dready, hwready := t.hwready } ∧ rises t (9 + k))) ∧
    (k < 8 →
      (∃ t, exec (.hbmTrainingDone k true) s = .next t ∧ t = { s with dready := t.dready, hwready := t.hwready } ∧ rises t (13 + k) ∧
        (Rule.unfailed s → Rule.bitUp t 1)) ∧
      (∃ t, exec (.hbmTrainingDone k false) s = .next t ∧ t.dready = s.dready ∧ Rule.logs s t 5 0 k 0 ∧ t.mem = s.mem)))

/-- R15, R333-R338: reset, boot and links. It rests on choices of the model named in log entries 32, 33 and 36. -/
def Obligations.BootAndLinks : Prop := Rule.ResetAndBoot ∧ Rule.LinkEvents


/-- R176, R329-R332, R334: a supported read through BAR0 returns memory's bytes, and a supported write is performed, unless its page holds
code: it is refused, counted and logged with kind 4, and so is a mailbox write; a request that the port does not support performs nothing. One
whose row is under test (R159), or before which one for its line waits, waits itself. A status read returns its word, and a read of a mailbox
word tells its poison (R160); a mailbox write waits for the completion times of the host writes before it. -/
def Sys2Proof.Rule.HostRequests : Prop :=
  ∀ (s : State) (addr n : Nat) (bs : List Byte) (v : BitVec 32) (r : HostRequest),
    exec (.hostUnsupportedRequest r) s = .next { s with hostOut := some .unsupported } ∧
    (Rule.bar0 s addr n → s.hostHeld s.hostq (.read addr n) = false →
      exec (.hostBar0Read addr n) s = .next { s with hostOut := some (.data (s.bytesAt (.glob addr 0) n) (s.poisoned (.glob addr 0) n)) }) ∧
    (Rule.bar0 s addr n → s.hostHeld s.hostq (.read addr n) = true →
      exec (.hostBar0Read addr n) s = .next { s with hostOut := none, hostq := s.hostq ++ [.read addr n] }) ∧
    (¬ Rule.bar0 s addr n → exec (.hostBar0Read addr n) s = .next { s with hostOut := some .unsupported }) ∧
    (¬ Rule.bar0 s addr bs.length → exec (.hostBar0Write addr bs) s = .next { s with hostOut := some .unsupported }) ∧
    (Rule.bar0 s addr bs.length → s.hostHeld s.hostq (.write addr bs) = true →
      exec (.hostBar0Write addr bs) s = .next { s with hostOut := none, hostq := s.hostq ++ [.write addr bs] }) ∧
    (Rule.bar0 s addr bs.length → s.hostHeld s.hostq (.write addr bs) = false → Rule.codePage s addr →
      ∃ t, exec (.hostBar0Write addr bs) s = .next t ∧ t.mem = s.mem ∧ t.groups = s.groups ∧ t.hostOut = some .refusedWrite ∧
        t.hostRefused = s.hostRefused + 1 ∧ Rule.logs s t 4 0 0xFFFF addr) ∧
    (Rule.bar0 s addr bs.length → s.hostHeld s.hostq (.write addr bs) = false → ¬ Rule.codePage s addr →
      ∃ t, exec (.hostBar0Write addr bs) s = .next t ∧ MemoryAfter [{ place := .glob addr 0, bytes := bs }] s t ∧ t.hostOut = none ∧
        s.now ≤ t.hostCt ∧ s.hostCt ≤ t.hostCt) ∧
    (∃ t, exec (.hostBar2Read n) s = .next t ∧ t = { s with hostOut := t.hostOut } ∧
      (¬ Rule.bitUp s 0 ∨ n % 4 ≠ 0 → t.hostOut = some .unsupported) ∧
      (Rule.bitUp s 0 → n = 0 → t.hostOut = some (.word s.dready false)) ∧
      (Rule.bitUp s 0 → n = 0x18 → t.hostOut = some (.word (BitVec.ofNat 32 s.corrected) false)) ∧
      (Rule.bitUp s 0 → n = 0x1C → t.hostOut = some (.word (BitVec.ofNat 32 s.uncorrected) false)) ∧
      (Rule.bitUp s 0 → n = 0xA0 → t.hostOut = some (.word s.hottest false)) ∧
      (Rule.bitUp s 0 → Rule.bitUp s 2 → n % 4 = 0 → 0x1000 ≤ n → n < 0x1100 →
        t.hostOut = some (.word (BitVec.ofNat 32 (s.physNum (s.mbase + (n - 0x1000)) 4)) (s.poisoned (.glob (s.mbase + (n - 0x1000)) 0) 4))) ∧
      (Rule.bitUp s 0 → n % 4 = 0 → 0x4000 ≤ n → t.hostOut = some .unsupported)) ∧
    (¬ Rule.bitUp s 0 ∨ ¬ Rule.bitUp s 2 ∨ 64 ≤ n → exec (.hostMailboxWrite n v) s = .next { s with hostOut := some .unsupported }) ∧
    (Rule.bitUp s 0 → Rule.bitUp s 2 → n < 64 → s.hostq = [] →
      let held := s.now ≤ s.hostCt ∨ s.underTest noCore [.glob (s.mbase + 4 * n) 0] = true
      (held → exec (.hostMailboxWrite n v) s = .next { s with hostOut := none, hostq := [.mail n v s.hostCt] }) ∧
      (¬ held →
        ∃ t, exec (.hostMailboxWrite n v) s = .next t ∧ t.hostq = [] ∧
          (¬ Rule.codePage s (s.mbase + 4 * n) →
            MemoryAfter [{ place := .glob (s.mbase + 4 * n) 0, bytes := leBytes 4 v.toNat }] s t) ∧
          (Rule.codePage s (s.mbase + 4 * n) →
            SameMemory s t ∧ t.hostRefused = s.hostRefused + 1 ∧ Rule.logs s t 4 0 0xFFFF (s.mbase + 4 * n))))

/-- R336, R338: an attestation request advances the LMS counter and yields a report, signed by both keys, with the nonce, the digests
of the verified images, the fused version and the counters, or is refused with status 3 once 2^20 keys are used; a checkpoint starts over
the ports that are up when every live context has stopped and drained, one region over each, and an acknowledged region lets the next one
go over the next port in rotation. -/
def Sys2Proof.Rule.AttestationAndCheckpoint : Prop :=
  ∀ (s : State) (nonce : BitVec 256) (r : Nat),
    (¬ Rule.bitUp s 27 → exec (.attestationRequest nonce) s = .next s) ∧
    (Rule.bitUp s 27 → 2 ^ 20 ≤ s.lms → exec (.attestationRequest nonce) s = .next { s with attest := some (.refused 3) }) ∧
    (Rule.bitUp s 27 → s.lms < 2 ^ 20 →
      ∃ r : Report, r.nonce = nonce ∧ r.images = s.images ∧ r.version = s.fused ∧
        r.counters = [s.corrected, s.uncorrected, s.lasting, s.hostRefused, s.logtail].map (BitVec.ofNat 32) ∧
        exec (.attestationRequest nonce) s = .next { s with
          lms := s.lms + 1, attest := some (.report r s.lms (Config.ecdsaSign r.numbers) (Config.lmsSign s.lms r.numbers)) }) ∧
    (¬ Rule.bitUp s 26 ∨ s.ckpt ≠ none ∨ (∃ e ∈ s.contexts, e.2.live = true ∧ (e.2.stopped = false ∨ e.2.stopPending = true)) →
      exec .checkpointStart s = .next s) ∧
    (Rule.bitUp s 26 → s.ckpt = none → (∀ e ∈ s.contexts, e.2.live = true → e.2.stopped = true ∧ e.2.stopPending = false) →
      ∃ t c, exec .checkpointStart s = .next t ∧ t = { s with ckpt := some c } ∧ c.acked = [] ∧
        c.sent.map (·.2) = (seqFrom 0 4).filter (fun p => s.hwready.getLsbD (21 + p)) ∧ c.sent.map (·.1) = seqFrom 0 c.sent.length ∧
        c.next = c.sent.length) ∧
    (let up := (seqFrom 0 4).filter fun p => s.hwready.getLsbD (21 + p)
      ∀ c, s.ckpt = some c → (∃ p, (r, p) ∈ c.sent) → c.next < 8192 →
      ∃ t c', exec (.checkpointRegionAck r) s = .next t ∧ t = { s with ckpt := some c' } ∧ r ∈ c'.acked ∧
        (up = [] → c'.next = c.next ∧ c'.sent = c.sent.filter (fun e => decide (e.1 ≠ r))) ∧
        ∀ p, up[c.next % up.length]? = some p → c'.next = c.next + 1 ∧
          c'.sent = c.sent.filter (fun e => decide (e.1 ≠ r)) ++ [(c.next, p)]) ∧
    (∀ c p, s.ckpt = some c → c.sent = [(r, p)] → 8192 ≤ c.next →
      exec (.checkpointRegionAck r) s = .next { s with ckpt := none })

/-- R176, R329-R338: the host's requests, attestation and checkpoints. It rests on choices of the model named in log entries 34, 35 and
50. -/
def Obligations.HostInterface : Prop := Rule.HostRequests ∧ Rule.AttestationAndCheckpoint

/-! ### Steps, reset and words -/

/-- R29, R44, R48, R67, R276, R296, R297, R303: the next issue of a split fetches the word at its PC through the page table, with the
launch's overlay, brings the registers that it names into the group's window, and runs the instruction that it decodes to; what the issue
adds is that registers whose lines others of the instruction have taken leave the window, the turn and the draw of power. A fetch that does
not translate, that is not permitted, or that meets poison or a marker takes the fault of R271. -/
def Sys2Proof.Rule.StepRunsDecoded : Prop :=
  ∀ (s s1 : State) (g i pa leaf : Nat) (rest : List Move) (w : Word), s.agenda = .issue g i :: rest →
    ({ s with agenda := rest } : State).mayIssue g i = true →
    let c : State := { s with agenda := rest, cg := g, cs := i }
    let code := leaf.testBit 59 = true ∧ mapGet 0 s.xcount (pa / 65536) ≠ 0
    let stop := fun (t : State) (fault detail : Nat) => step s = .next (t.trapCur (Rule.leaderTrap c fault detail c.csp.pc.toNat))
    (c.translate c.curCore c.curCtx c.csp.pc.toNat = (s1, none) → stop s1 0x06 4) ∧
    (c.translate c.curCore c.curCtx c.csp.pc.toNat = (s1, some (pa, leaf)) →
      (¬ code → stop s1 0x07 5) ∧
      (code → pa < 2 ^ 39 → s1.poisoned (.glob pa 0) 4 = true → stop s1 0x0C 5) ∧
      (code → pa < 2 ^ 39 → s1.poisoned (.glob pa 0) 4 = false → s.bytesAt (.glob pa 0) 4 = leBytes 4 w.toNat →
        (wOp w = 0 → stop s1 0x0F 0) ∧
        (wOp w ≠ 0 → ∀ x, decode (c.patched w) = .ok x →
          let ready := s1.touch g (s1.named x)
          (∀ t, exec x ready = .next t →
            step s = .next ((t.settleRegs g (s1.named x)).noted g i (clusterOf c.curCore) c.curCore (wOp (c.patched w)).toNat)) ∧
          (∀ f, exec x ready = .fault f → step s = .fault f) ∧ (∀ r, exec x ready = .refused r → step s = .refused r))))

/-- R67: an access to a register that is in its group's window changes nothing, and one to a register that is not has the effect of
WINDOW_MISS_FILL. What an issue does to registers afterwards changes nothing where each of them has its line, or none has, or is in the
image alone. -/
def Sys2Proof.Rule.RegisterAccess : Prop :=
  ∀ (s : State) (g n : Nat) (locs : List RegLoc),
    let h := s.group g
    ((∀ k, .reg k ∈ locs → h.live = true → ∀ m, mapFind h.win.lines (k % 2 ^ h.win.log2) = some m → m = k ∨ k ∈ h.cold) →
      s.settleRegs g locs = s) ∧
    ((∀ k, .reg k ∈ locs → h.live = true → mapFind h.win.lines (k % 2 ^ h.win.log2) = some k ∧ k ∉ h.cold) → s.touch g locs = s) ∧
    (h.live = true → n < h.alloc → (s.block h.blk).onCore = true → (s.block h.blk).control = false →
      exec (.windowMissFill g n) s = .next (s.touch g [.reg n]))

/-- R126, R207, R316, R317, R320: beside its own effect, an issue only charges its cluster and, where the instruction did not stall, notes
its time, the turn of its group and that of its launch's round. -/
def Sys2Proof.Rule.StepBookkeeping : Prop :=
  ∀ (s : State) (g i cl core op : Nat),
    let t := s.noted g i cl core op
    t = { s with groups := t.groups, clusters := t.clusters, launches := t.launches } ∧
    (∀ k, t.group k = { s.group k with turn := (t.group k).turn, splits := (t.group k).splits } ∧
      ∀ j, (t.group k).split j = { (s.group k).split j with issued := ((t.group k).split j).issued }) ∧
    (∀ k, t.cluster k = { s.cluster k with draw := (t.cluster k).draw }) ∧
    (∀ k, t.launch k = { s.launch k with rounds := (t.launch k).rounds }) ∧
    (mapFind s.groups g ≠ none → (∃ w, ((s.group g).split i).st = .stalled w) → t = s) ∧
    (mapFind s.groups g ≠ none → (∀ w, ((s.group g).split i).st ≠ .stalled w) →
      (t.group g).turn = i ∧ (t.cluster cl).draw = (s.cluster cl).draw + drawUnits op)

/-- R15, R185, R186, R222, R316, R321: a step takes the next move of the present cycle: an event, with the registers that it writes in their
windows, an issue that is still possible, a split that reaches an instruction on which it stalls, the heads of a bundle queue that come before
a `gbenter` in the order of R186, the picks of the cores, or the tick, with which device time advances by one; with no move left it plans the
next cycle: its events, then the picks, and the tick at the end. -/
def Sys2Proof.Rule.StepMoves : Prop :=
  ∀ (s : State) (rest : List Move),
    let s0 : State := { s with agenda := rest }
    (s.agenda = [] → ∃ moves, step s = .next { s with agenda := moves ++ [.picks, .tick] } ∧ ∀ m ∈ moves, ∃ i, m = .event i) ∧
    (s.agenda = .picks :: rest → ∃ t moves, step s = .next t ∧ t = { s with agenda := moves ++ rest, cores := t.cores } ∧
      ∀ k, t.core k = { s.core k with active := (t.core k).active }) ∧
    (∀ x, s.agenda = .event x :: rest → step s = exec x (s0.readied x) ∧ (s0.lands x = [] → step s = exec x s0)) ∧
    (∀ g i, s.agenda = .issue g i :: rest → s0.mayIssue g i = false → step s = .next s0) ∧
    (∀ g i, s.agenda = .probe g i :: rest →
      (s0.stallOf g i = none → step s = .next s0) ∧ (s0.stallOf g i ≠ none → step s = step { s with agenda := .issue g i :: rest })) ∧
    (∀ core key, s.agenda = .grants core key :: rest → let q := (s.core core).bqueue
      (q = [] → step s = .next s0) ∧ (∀ h q', q = h :: q' → key ≤ s.queueKey h.g h.sp → step s = .next s0) ∧
        ∀ h, q = [h] → s.queueKey h.g h.sp < key → step s = exec (.bundleQueueGrant core) s0) ∧
    (s.agenda = .tick :: rest →
      ∃ t, step s = .next t ∧ t.now = s.now + 1 ∧ t.agenda = rest ∧
        ((∀ e ∈ s.groups, e.2.pends = []) →
          (s.svcPosts = [] → s.svcWait = [] → s.rxWait = [] → s.hostq = [] → SameMemory s t) ∧
          ∀ k loc lane, (t.group k).rd loc lane = (s.group k).rd loc lane ∨ mapFind t.groups k = none))

/-- R15, R29, R44, R48, R67, R126, R185, R207, R276, R297, R303, R316: what a step does. It rests on choices of the model named in log
entries 7, 14, 46 and 59. -/
def Obligations.Steps : Prop := Rule.StepRunsDecoded ∧ Rule.RegisterAccess ∧ Rule.StepBookkeeping ∧ Rule.StepMoves


/-- R15, R97, R72, R281, R332-R334: after reset device time is 0, no group, launch or context exists, `D_READY` and the counters of the
status block are 0, the fault log is empty, the march test of every core and slice runs (R341), and every byte of memory reads 0; memory's 0
and the registers for which the manual gives no value are the model's choice (log entries 2 and 3). -/
def Obligations.ResetValues : Prop :=
  let s := State.reset
  s.now = 0 ∧ s.dready = 0 ∧ s.hwready = 0 ∧ s.hostq = [] ∧ (∀ c, c < 192 → s.coreTests.getLsbD c = true) ∧ (∀ k, k < 128 → s.sliceTests.getLsbD k = true) ∧
    s.slicesIn = 0 ∧
    s.images = [] ∧ s.bootcode = 0 ∧ s.fw = false ∧ s.corrected = 0 ∧ s.uncorrected = 0 ∧ s.lasting = 0 ∧ s.hostRefused = 0 ∧
    s.logtail = 0 ∧ s.log = [] ∧ s.groups = [] ∧ s.blocks = [] ∧ s.launches = [] ∧ s.contexts = [] ∧ s.shut = false ∧
    s.coresOut = [] ∧ s.sliceOut = [] ∧ s.memWf = true ∧ (∀ q : Place, s.byteAt q 0 = 0) ∧ (∀ c, (s.core c).inService = false) ∧
    ∀ g loc lane, (s.group g).rd loc lane = 0

/-- A step keeps device memory and host memory in their canonical form. -/
def Obligations.MemoryStaysCanonical : Prop := ∀ s t : State, s.memWf = true → step s = .next t → t.memWf = true

/-- R29-R34, R41, R48: words of the encoding tables and of the worked examples decode to the instructions that they stand for; a marker word
decodes to nothing. -/
def Obligations.DecodeWords : Prop :=
  decode 0x01040808 = .ok (.add 2 2 1 0) ∧ decode 0x64081042 = .ok (.ldB32 4 1 2 2) ∧ decode 0x6B0811C0 = .ok (.stB32 4 1 14 0) ∧
  decode 0x781020C0 = .ok (.acas 8 2 6 0) ∧ decode 0x510407A1 = .ok (.shfli 2 1 0x3A1 ) ∧ decode 0x8D0813FF = .ok (.gaddi 4 4 (-1)) ∧
  decode 0xA2044003 = .ok (.gbrd 2 1 3) ∧ decode 0xA9000005 = .ok (.gtrap 5) ∧ decode 0xB4102861 = .ok (.gwaitu 8 10 12 1) ∧
  decode 0xB500FF0F = .ok (.gwaitc 0xFF0F) ∧ decode 0xB3080830 = .ok (.garrive 4 2 6) ∧ decode 0xF4000021 = .ok (.gsvc 0x21) ∧
  decode 0xF50A1839 = .ok (.gqcfg 5 6 7 1) ∧ decode 0xA8000000 = .ok .gexit ∧ ∀ x, decode 0x00000000 ≠ .ok x
end

