-- ==== Sys2Proof/Laws/Map.lean ====
section
/-! SUPPORT. The laws of sparse maps: reading after writing, and the canonical form that every map operation keeps. -/
namespace Sys2Proof.Machine

/-! ### Reading after writing -/

@[simp] theorem mapFind_nil {α : Type} (k : Nat) : mapFind ([] : SMap α) k = none := rfl

theorem mapFind_put_same {α : Type} (m : SMap α) (k : Nat) (v : α) : mapFind (mapPut m k v) k = some v := by
  induction m with
  | nil => simp [mapPut, mapFind]
  | cons e r ih =>
    obtain ⟨j, w⟩ := e
    by_cases h : k < j
    · simp [mapPut, h, mapFind]
    · by_cases h2 : k = j
      · simp [mapPut, h2, mapFind]
      · have : ¬ j = k := fun e => h2 e.symm
        simp [mapPut, h, h2, mapFind, this, ih]

theorem mapFind_put_ne {α : Type} (m : SMap α) {k i : Nat} (v : α) (h : i ≠ k) :
    mapFind (mapPut m k v) i = mapFind m i := by
  induction m with
  | nil => simp [mapPut, mapFind, Ne.symm h]
  | cons e r ih =>
    obtain ⟨j, w⟩ := e
    by_cases h1 : k < j
    · simp [mapPut, h1, mapFind, Ne.symm h]
    · by_cases h2 : k = j
      · subst h2; simp [mapPut, mapFind, Ne.symm h]
      · by_cases h3 : j = i
        · subst h3; simp [mapPut, h1, h2, mapFind]
        · simp [mapPut, h1, h2, mapFind, h3, ih]

/-- The later of two entries listed at one key stays. -/
@[simp] theorem mapPut_put {α : Type} (m : SMap α) (k : Nat) (v w : α) : mapPut (mapPut m k v) k w = mapPut m k w := by
  induction m with
  | nil => simp [mapPut]
  | cons e r ih =>
    obtain ⟨j, x⟩ := e
    simp only [mapPut]
    split
    · simp [mapPut]
    · split
      · simp [mapPut]
      · next h1 h2 => simp only [mapPut, if_neg h1, if_neg h2, ih]

/-- The keys of a sorted tail lie at or above its bound. -/
theorem mapFind_below {α : Type} {lo k : Nat} {m : SMap α} (hs : mapSortedFrom lo m = true) (h : k < lo) :
    mapFind m k = none := by
  induction m generalizing lo with
  | nil => rfl
  | cons e r ih =>
    obtain ⟨j, w⟩ := e
    simp only [mapSortedFrom, Bool.and_eq_true, decide_eq_true_eq] at hs
    have hj : ¬ j = k := by omega
    simp [mapFind, hj, ih hs.2 (by omega)]

@[simp] theorem mapFind_del_same {α : Type} (m : SMap α) (k : Nat) : mapFind (mapDel m k) k = none := by
  induction m with
  | nil => rfl
  | cons e r ih =>
    obtain ⟨j, w⟩ := e
    by_cases h : k = j
    · simp [mapDel, h]; simpa [h] using ih
    · have : ¬ j = k := fun e => h e.symm
      simp [mapDel, h, mapFind, this, ih]

theorem mapFind_del_ne {α : Type} (m : SMap α) {k i : Nat} (h : i ≠ k) : mapFind (mapDel m k) i = mapFind m i := by
  induction m with
  | nil => rfl
  | cons e r ih =>
    obtain ⟨j, w⟩ := e
    by_cases h1 : k = j
    · subst h1; simp [mapDel, mapFind, Ne.symm h, ih]
    · by_cases h2 : j = i
      · subst h2; simp [mapDel, h1, mapFind]
      · simp [mapDel, h1, mapFind, h2, ih]

theorem mapGet_set_ne {α : Type} [DecidableEq α] (d : α) (m : SMap α) {k i : Nat} (v : α) (h : i ≠ k) :
    mapGet d (mapSet d m k v) i = mapGet d m i := by
  unfold mapGet mapSet
  split
  · rw [mapFind_del_ne m h]
  · rw [mapFind_put_ne m v h]

@[simp] theorem mapGet_set_same {α : Type} [DecidableEq α] (d : α) (m : SMap α) (k : Nat) (v : α) :
    mapGet d (mapSet d m k v) k = v := by
  unfold mapGet mapSet
  split
  · next h => rw [mapFind_del_same, h]; rfl
  · rw [mapFind_put_same]; rfl

/-- Reading what was set. -/
theorem mapGet_set {α : Type} [DecidableEq α] (d : α) (m : SMap α) (k i : Nat) (v : α) :
    mapGet d (mapSet d m k v) i = if i = k then v else mapGet d m i := by
  by_cases e : i = k
  · subst e; simp
  · simpa [e] using mapGet_set_ne d m v e

/-! ### The canonical form -/

theorem mapSortedFrom_mono {α : Type} {a b : Nat} {m : SMap α} (h : mapSortedFrom b m = true) (hab : a ≤ b) :
    mapSortedFrom a m = true := by
  cases m with
  | nil => rfl
  | cons e r =>
    obtain ⟨j, w⟩ := e
    simp only [mapSortedFrom, Bool.and_eq_true, decide_eq_true_eq] at h ⊢
    exact ⟨by omega, h.2⟩

theorem mapPut_sorted {α : Type} {lo : Nat} {m : SMap α} (k : Nat) (v : α) (hs : mapSortedFrom lo m = true)
    (hk : lo ≤ k) : mapSortedFrom lo (mapPut m k v) = true := by
  induction m generalizing lo with
  | nil => simpa [mapPut, mapSortedFrom] using hk
  | cons e r ih =>
    obtain ⟨j, w⟩ := e
    simp only [mapSortedFrom, Bool.and_eq_true, decide_eq_true_eq] at hs
    by_cases h1 : k < j
    · simp only [mapPut, h1, if_true, mapSortedFrom, Bool.and_eq_true, decide_eq_true_eq]
      exact ⟨hk, by omega, hs.2⟩
    · by_cases h2 : k = j
      · subst h2
        simpa [mapPut, mapSortedFrom] using hs
      · simp only [mapPut, h1, h2, if_false, mapSortedFrom, Bool.and_eq_true, decide_eq_true_eq]
        exact ⟨hs.1, ih hs.2 (by omega)⟩

theorem mapDel_sorted {α : Type} {lo : Nat} {m : SMap α} (k : Nat) (hs : mapSortedFrom lo m = true) :
    mapSortedFrom lo (mapDel m k) = true := by
  induction m generalizing lo with
  | nil => rfl
  | cons e r ih =>
    obtain ⟨j, w⟩ := e
    simp only [mapSortedFrom, Bool.and_eq_true, decide_eq_true_eq] at hs
    by_cases h1 : k = j
    · simp only [mapDel, h1, if_true]
      simpa [h1] using mapSortedFrom_mono (ih hs.2) (by omega)
    · simp only [mapDel, h1, if_false, mapSortedFrom, Bool.and_eq_true, decide_eq_true_eq]
      exact ⟨hs.1, ih hs.2⟩

theorem mapPut_noDefault {α : Type} [DecidableEq α] (d : α) {m : SMap α} (k : Nat) {v : α}
    (hn : mapNoDefault d m = true) (hv : v ≠ d) : mapNoDefault d (mapPut m k v) = true := by
  induction m with
  | nil => simpa [mapPut, mapNoDefault] using hv
  | cons e r ih =>
    obtain ⟨j, w⟩ := e
    simp only [mapNoDefault, List.all_cons, Bool.and_eq_true, decide_eq_true_eq] at hn
    by_cases h1 : k < j
    · simp only [mapPut, h1, if_true, mapNoDefault, List.all_cons, Bool.and_eq_true, decide_eq_true_eq]
      exact ⟨hv, hn⟩
    · by_cases h2 : k = j
      · subst h2
        simp only [mapPut, Nat.lt_irrefl, if_false, if_true, mapNoDefault, List.all_cons, Bool.and_eq_true, decide_eq_true_eq]
        exact ⟨hv, hn.2⟩
      · simp only [mapPut, h1, h2, if_false, mapNoDefault, List.all_cons, Bool.and_eq_true, decide_eq_true_eq]
        exact ⟨hn.1, ih hn.2⟩

theorem mapDel_noDefault {α : Type} [DecidableEq α] (d : α) {m : SMap α} (k : Nat)
    (hn : mapNoDefault d m = true) : mapNoDefault d (mapDel m k) = true := by
  induction m with
  | nil => rfl
  | cons e r ih =>
    obtain ⟨j, w⟩ := e
    simp only [mapNoDefault, List.all_cons, Bool.and_eq_true, decide_eq_true_eq] at hn
    by_cases h1 : k = j
    · simpa [mapDel, h1] using ih hn.2
    · simp only [mapDel, h1, if_false, mapNoDefault, List.all_cons, Bool.and_eq_true, decide_eq_true_eq]
      exact ⟨hn.1, ih hn.2⟩

theorem mapWf_nil {α : Type} [DecidableEq α] (d : α) : mapWf d ([] : SMap α) = true := rfl

theorem mapWf_sorted {α : Type} [DecidableEq α] {d : α} {m : SMap α} (h : mapWf d m = true) :
    mapSortedFrom 0 m = true := by
  simp only [mapWf, Bool.and_eq_true] at h
  exact h.1

/-- Setting a value keeps the canonical form. -/
theorem mapSet_wf {α : Type} [DecidableEq α] {d : α} {m : SMap α} (k : Nat) (v : α) (h : mapWf d m = true) :
    mapWf d (mapSet d m k v) = true := by
  simp only [mapWf, Bool.and_eq_true] at h ⊢
  unfold mapSet
  split
  · exact ⟨mapDel_sorted k h.1, mapDel_noDefault d k h.2⟩
  · next hv => exact ⟨mapPut_sorted k v h.1 (Nat.zero_le k), mapPut_noDefault d k h.2 hv⟩

theorem mapSortedFrom_filter {α : Type} (p : Nat × α → Bool) {lo : Nat} {m : SMap α} (hs : mapSortedFrom lo m = true) :
    mapSortedFrom lo (m.filter p) = true := by
  induction m generalizing lo with
  | nil => rfl
  | cons e r ih =>
    obtain ⟨j, w⟩ := e
    simp only [mapSortedFrom, Bool.and_eq_true, decide_eq_true_eq] at hs
    by_cases h : p (j, w) = true
    · simp only [List.filter_cons, h, if_true, mapSortedFrom, Bool.and_eq_true, decide_eq_true_eq]
      exact ⟨hs.1, ih hs.2⟩
    · simp only [List.filter_cons, h]
      exact mapSortedFrom_mono (ih hs.2) (by omega)

/-- Leaving entries out keeps the canonical form. -/
theorem mapWf_filter {α : Type} [DecidableEq α] {d : α} (p : Nat × α → Bool) {m : SMap α} (h : mapWf d m = true) :
    mapWf d (m.filter p) = true := by
  simp only [mapWf, Bool.and_eq_true] at h ⊢
  refine ⟨mapSortedFrom_filter p h.1, ?_⟩
  simp only [mapNoDefault, List.all_eq_true, List.mem_filter] at h ⊢
  exact fun x hx => h.2 x hx.1

/-- Two canonical maps that read the same are the same list. -/
theorem mapWf_ext {α : Type} [DecidableEq α] {d : α} {m n : SMap α} (hm : mapWf d m = true) (hn : mapWf d n = true)
    (h : ∀ k, mapGet d m k = mapGet d n k) : m = n := by
  simp only [mapWf, Bool.and_eq_true] at hm hn
  obtain ⟨hms, hmd⟩ := hm
  obtain ⟨hns, hnd⟩ := hn
  revert h
  generalize 0 = lo at hms hns
  induction m generalizing n lo with
  | nil =>
    intro h
    cases n with
    | nil => rfl
    | cons e r =>
      obtain ⟨j, w⟩ := e
      simp only [mapNoDefault, List.all_cons, Bool.and_eq_true, decide_eq_true_eq] at hnd
      exact absurd (by simpa [mapGet, mapFind] using (h j).symm) hnd.1
  | cons e r ih =>
    intro h
    obtain ⟨j, w⟩ := e
    simp only [mapNoDefault, List.all_cons, Bool.and_eq_true, decide_eq_true_eq] at hmd
    simp only [mapSortedFrom, Bool.and_eq_true, decide_eq_true_eq] at hms
    cases n with
    | nil => exact absurd (by simpa [mapGet, mapFind] using h j) hmd.1
    | cons f q =>
      obtain ⟨i, x⟩ := f
      simp only [mapNoDefault, List.all_cons, Bool.and_eq_true, decide_eq_true_eq] at hnd
      simp only [mapSortedFrom, Bool.and_eq_true, decide_eq_true_eq] at hns
      have hji : j = i := by
        rcases Nat.lt_trichotomy j i with hlt | heq | hgt
        · have := h j
          have hq : mapFind q j = none := mapFind_below hns.2 (by omega)
          simp [mapGet, mapFind, show ¬ i = j by omega, hq] at this
          exact absurd this hmd.1
        · exact heq
        · have := h i
          have hr : mapFind r i = none := mapFind_below hms.2 (by omega)
          simp [mapGet, mapFind, show ¬ j = i by omega, hr] at this
          exact absurd this.symm hnd.1
      subst hji
      have hwx : w = x := by simpa [mapGet, mapFind] using h j
      subst hwx
      have hr : r = q := by
        refine ih hmd.2 hnd.2 (j + 1) hms.2 hns.2 (fun k => ?_)
        by_cases hk : k = j
        · subst hk
          simp [mapGet, mapFind_below hms.2 (Nat.lt_succ_self k), mapFind_below hns.2 (Nat.lt_succ_self k)]
        · have := h k
          simpa [mapGet, mapFind, Ne.symm hk] using this
      rw [hr]

end Sys2Proof.Machine
end

