-- ==== Sys2Proof/Laws/State.lean ====
section
/-! SUPPORT. The laws of the state's updates: what each named update of Machine/Ops.lean leaves in every field, and what reading a
record after replacing one yields. -/

set_option Elab.async false

namespace Sys2Proof.Machine

/-! ### `State.putGroup` changes `groups` only -/

@[simp] theorem State.putGroup_agenda (s : State) (k : Nat) (g : Group) : (s.putGroup k g).agenda = s.agenda := rfl
@[simp] theorem State.putGroup_cg (s : State) (k : Nat) (g : Group) : (s.putGroup k g).cg = s.cg := rfl
@[simp] theorem State.putGroup_cs (s : State) (k : Nat) (g : Group) : (s.putGroup k g).cs = s.cs := rfl
@[simp] theorem State.putGroup_now (s : State) (k : Nat) (g : Group) : (s.putGroup k g).now = s.now := rfl
@[simp] theorem State.putGroup_groups (s : State) (k : Nat) (g : Group) : (s.putGroup k g).groups = mapPut s.groups k g := rfl
@[simp] theorem State.putGroup_blocks (s : State) (k : Nat) (g : Group) : (s.putGroup k g).blocks = s.blocks := rfl
@[simp] theorem State.putGroup_launches (s : State) (k : Nat) (g : Group) : (s.putGroup k g).launches = s.launches := rfl
@[simp] theorem State.putGroup_contexts (s : State) (k : Nat) (g : Group) : (s.putGroup k g).contexts = s.contexts := rfl
@[simp] theorem State.putGroup_cores (s : State) (k : Nat) (g : Group) : (s.putGroup k g).cores = s.cores := rfl
@[simp] theorem State.putGroup_clusters (s : State) (k : Nat) (g : Group) : (s.putGroup k g).clusters = s.clusters := rfl
@[simp] theorem State.putGroup_lltlb (s : State) (k : Nat) (g : Group) : (s.putGroup k g).lltlb = s.lltlb := rfl
@[simp] theorem State.putGroup_mem (s : State) (k : Nat) (g : Group) : (s.putGroup k g).mem = s.mem := rfl
@[simp] theorem State.putGroup_hmem (s : State) (k : Nat) (g : Group) : (s.putGroup k g).hmem = s.hmem := rfl
@[simp] theorem State.putGroup_poison (s : State) (k : Nat) (g : Group) : (s.putGroup k g).poison = s.poison := rfl
@[simp] theorem State.putGroup_lease (s : State) (k : Nat) (g : Group) : (s.putGroup k g).lease = s.lease := rfl
@[simp] theorem State.putGroup_joins (s : State) (k : Nat) (g : Group) : (s.putGroup k g).joins = s.joins := rfl
@[simp] theorem State.putGroup_xcount (s : State) (k : Nat) (g : Group) : (s.putGroup k g).xcount = s.xcount := rfl
@[simp] theorem State.putGroup_frozen (s : State) (k : Nat) (g : Group) : (s.putGroup k g).frozen = s.frozen := rfl
@[simp] theorem State.putGroup_nextLid (s : State) (k : Nat) (g : Group) : (s.putGroup k g).nextLid = s.nextLid := rfl
@[simp] theorem State.putGroup_nextSeq (s : State) (k : Nat) (g : Group) : (s.putGroup k g).nextSeq = s.nextSeq := rfl
@[simp] theorem State.putGroup_nextBlk (s : State) (k : Nat) (g : Group) : (s.putGroup k g).nextBlk = s.nextBlk := rfl
@[simp] theorem State.putGroup_nextCmd (s : State) (k : Nat) (g : Group) : (s.putGroup k g).nextCmd = s.nextCmd := rfl
@[simp] theorem State.putGroup_dseed (s : State) (k : Nat) (g : Group) : (s.putGroup k g).dseed = s.dseed := rfl
@[simp] theorem State.putGroup_dready (s : State) (k : Nat) (g : Group) : (s.putGroup k g).dready = s.dready := rfl
@[simp] theorem State.putGroup_bootcode (s : State) (k : Nat) (g : Group) : (s.putGroup k g).bootcode = s.bootcode := rfl
@[simp] theorem State.putGroup_fw (s : State) (k : Nat) (g : Group) : (s.putGroup k g).fw = s.fw := rfl
@[simp] theorem State.putGroup_images (s : State) (k : Nat) (g : Group) : (s.putGroup k g).images = s.images := rfl
@[simp] theorem State.putGroup_fused (s : State) (k : Nat) (g : Group) : (s.putGroup k g).fused = s.fused := rfl
@[simp] theorem State.putGroup_mbase (s : State) (k : Nat) (g : Group) : (s.putGroup k g).mbase = s.mbase := rfl
@[simp] theorem State.putGroup_corrected (s : State) (k : Nat) (g : Group) : (s.putGroup k g).corrected = s.corrected := rfl
@[simp] theorem State.putGroup_uncorrected (s : State) (k : Nat) (g : Group) : (s.putGroup k g).uncorrected = s.uncorrected := rfl
@[simp] theorem State.putGroup_lasting (s : State) (k : Nat) (g : Group) : (s.putGroup k g).lasting = s.lasting := rfl
@[simp] theorem State.putGroup_hostRefused (s : State) (k : Nat) (g : Group) : (s.putGroup k g).hostRefused = s.hostRefused := rfl
@[simp] theorem State.putGroup_logtail (s : State) (k : Nat) (g : Group) : (s.putGroup k g).logtail = s.logtail := rfl
@[simp] theorem State.putGroup_log (s : State) (k : Nat) (g : Group) : (s.putGroup k g).log = s.log := rfl
@[simp] theorem State.putGroup_coresOut (s : State) (k : Nat) (g : Group) : (s.putGroup k g).coresOut = s.coresOut := rfl
@[simp] theorem State.putGroup_sliceOut (s : State) (k : Nat) (g : Group) : (s.putGroup k g).sliceOut = s.sliceOut := rfl
@[simp] theorem State.putGroup_march (s : State) (k : Nat) (g : Group) : (s.putGroup k g).march = s.march := rfl
@[simp] theorem State.putGroup_coreTests (s : State) (k : Nat) (g : Group) : (s.putGroup k g).coreTests = s.coreTests := rfl
@[simp] theorem State.putGroup_sliceTests (s : State) (k : Nat) (g : Group) : (s.putGroup k g).sliceTests = s.sliceTests := rfl
@[simp] theorem State.putGroup_slicesIn (s : State) (k : Nat) (g : Group) : (s.putGroup k g).slicesIn = s.slicesIn := rfl
@[simp] theorem State.putGroup_hottest (s : State) (k : Nat) (g : Group) : (s.putGroup k g).hottest = s.hottest := rfl
@[simp] theorem State.putGroup_codes (s : State) (k : Nat) (g : Group) : (s.putGroup k g).codes = s.codes := rfl
@[simp] theorem State.putGroup_trip (s : State) (k : Nat) (g : Group) : (s.putGroup k g).trip = s.trip := rfl
@[simp] theorem State.putGroup_critical (s : State) (k : Nat) (g : Group) : (s.putGroup k g).critical = s.critical := rfl
@[simp] theorem State.putGroup_shutdown (s : State) (k : Nat) (g : Group) : (s.putGroup k g).shutdown = s.shutdown := rfl
@[simp] theorem State.putGroup_halved (s : State) (k : Nat) (g : Group) : (s.putGroup k g).halved = s.halved := rfl
@[simp] theorem State.putGroup_shut (s : State) (k : Nat) (g : Group) : (s.putGroup k g).shut = s.shut := rfl
@[simp] theorem State.putGroup_vrelnum (s : State) (k : Nat) (g : Group) : (s.putGroup k g).vrelnum = s.vrelnum := rfl
@[simp] theorem State.putGroup_heard (s : State) (k : Nat) (g : Group) : (s.putGroup k g).heard = s.heard := rfl
@[simp] theorem State.putGroup_openRoutes (s : State) (k : Nat) (g : Group) : (s.putGroup k g).openRoutes = s.openRoutes := rfl
@[simp] theorem State.putGroup_rx (s : State) (k : Nat) (g : Group) : (s.putGroup k g).rx = s.rx := rfl
@[simp] theorem State.putGroup_rxWait (s : State) (k : Nat) (g : Group) : (s.putGroup k g).rxWait = s.rxWait := rfl
@[simp] theorem State.putGroup_filter (s : State) (k : Nat) (g : Group) : (s.putGroup k g).filter = s.filter := rfl
@[simp] theorem State.putGroup_vout (s : State) (k : Nat) (g : Group) : (s.putGroup k g).vout = s.vout := rfl
@[simp] theorem State.putGroup_hostOut (s : State) (k : Nat) (g : Group) : (s.putGroup k g).hostOut = s.hostOut := rfl
@[simp] theorem State.putGroup_hostCt (s : State) (k : Nat) (g : Group) : (s.putGroup k g).hostCt = s.hostCt := rfl
@[simp] theorem State.putGroup_hostq (s : State) (k : Nat) (g : Group) : (s.putGroup k g).hostq = s.hostq := rfl
@[simp] theorem State.putGroup_hwready (s : State) (k : Nat) (g : Group) : (s.putGroup k g).hwready = s.hwready := rfl
@[simp] theorem State.putGroup_svcBase (s : State) (k : Nat) (g : Group) : (s.putGroup k g).svcBase = s.svcBase := rfl
@[simp] theorem State.putGroup_svcTail (s : State) (k : Nat) (g : Group) : (s.putGroup k g).svcTail = s.svcTail := rfl
@[simp] theorem State.putGroup_svcHead (s : State) (k : Nat) (g : Group) : (s.putGroup k g).svcHead = s.svcHead := rfl
@[simp] theorem State.putGroup_svcWait (s : State) (k : Nat) (g : Group) : (s.putGroup k g).svcWait = s.svcWait := rfl
@[simp] theorem State.putGroup_svcPosts (s : State) (k : Nat) (g : Group) : (s.putGroup k g).svcPosts = s.svcPosts := rfl
@[simp] theorem State.putGroup_ckpt (s : State) (k : Nat) (g : Group) : (s.putGroup k g).ckpt = s.ckpt := rfl
@[simp] theorem State.putGroup_lms (s : State) (k : Nat) (g : Group) : (s.putGroup k g).lms = s.lms := rfl
@[simp] theorem State.putGroup_attest (s : State) (k : Nat) (g : Group) : (s.putGroup k g).attest = s.attest := rfl
@[simp] theorem State.putGroup_free (s : State) (k : Nat) (g : Group) : (s.putGroup k g).free = s.free := rfl

/-! ### `State.putBlock` changes `blocks` only -/

@[simp] theorem State.putBlock_agenda (s : State) (k : Nat) (b : Block) : (s.putBlock k b).agenda = s.agenda := rfl
@[simp] theorem State.putBlock_cg (s : State) (k : Nat) (b : Block) : (s.putBlock k b).cg = s.cg := rfl
@[simp] theorem State.putBlock_cs (s : State) (k : Nat) (b : Block) : (s.putBlock k b).cs = s.cs := rfl
@[simp] theorem State.putBlock_now (s : State) (k : Nat) (b : Block) : (s.putBlock k b).now = s.now := rfl
@[simp] theorem State.putBlock_groups (s : State) (k : Nat) (b : Block) : (s.putBlock k b).groups = s.groups := rfl
@[simp] theorem State.putBlock_blocks (s : State) (k : Nat) (b : Block) : (s.putBlock k b).blocks = mapPut s.blocks k b := rfl
@[simp] theorem State.putBlock_launches (s : State) (k : Nat) (b : Block) : (s.putBlock k b).launches = s.launches := rfl
@[simp] theorem State.putBlock_contexts (s : State) (k : Nat) (b : Block) : (s.putBlock k b).contexts = s.contexts := rfl
@[simp] theorem State.putBlock_cores (s : State) (k : Nat) (b : Block) : (s.putBlock k b).cores = s.cores := rfl
@[simp] theorem State.putBlock_clusters (s : State) (k : Nat) (b : Block) : (s.putBlock k b).clusters = s.clusters := rfl
@[simp] theorem State.putBlock_lltlb (s : State) (k : Nat) (b : Block) : (s.putBlock k b).lltlb = s.lltlb := rfl
@[simp] theorem State.putBlock_mem (s : State) (k : Nat) (b : Block) : (s.putBlock k b).mem = s.mem := rfl
@[simp] theorem State.putBlock_hmem (s : State) (k : Nat) (b : Block) : (s.putBlock k b).hmem = s.hmem := rfl
@[simp] theorem State.putBlock_poison (s : State) (k : Nat) (b : Block) : (s.putBlock k b).poison = s.poison := rfl
@[simp] theorem State.putBlock_lease (s : State) (k : Nat) (b : Block) : (s.putBlock k b).lease = s.lease := rfl
@[simp] theorem State.putBlock_joins (s : State) (k : Nat) (b : Block) : (s.putBlock k b).joins = s.joins := rfl
@[simp] theorem State.putBlock_xcount (s : State) (k : Nat) (b : Block) : (s.putBlock k b).xcount = s.xcount := rfl
@[simp] theorem State.putBlock_frozen (s : State) (k : Nat) (b : Block) : (s.putBlock k b).frozen = s.frozen := rfl
@[simp] theorem State.putBlock_nextLid (s : State) (k : Nat) (b : Block) : (s.putBlock k b).nextLid = s.nextLid := rfl
@[simp] theorem State.putBlock_nextSeq (s : State) (k : Nat) (b : Block) : (s.putBlock k b).nextSeq = s.nextSeq := rfl
@[simp] theorem State.putBlock_nextBlk (s : State) (k : Nat) (b : Block) : (s.putBlock k b).nextBlk = s.nextBlk := rfl
@[simp] theorem State.putBlock_nextCmd (s : State) (k : Nat) (b : Block) : (s.putBlock k b).nextCmd = s.nextCmd := rfl
@[simp] theorem State.putBlock_dseed (s : State) (k : Nat) (b : Block) : (s.putBlock k b).dseed = s.dseed := rfl
@[simp] theorem State.putBlock_dready (s : State) (k : Nat) (b : Block) : (s.putBlock k b).dready = s.dready := rfl
@[simp] theorem State.putBlock_bootcode (s : State) (k : Nat) (b : Block) : (s.putBlock k b).bootcode = s.bootcode := rfl
@[simp] theorem State.putBlock_fw (s : State) (k : Nat) (b : Block) : (s.putBlock k b).fw = s.fw := rfl
@[simp] theorem State.putBlock_images (s : State) (k : Nat) (b : Block) : (s.putBlock k b).images = s.images := rfl
@[simp] theorem State.putBlock_fused (s : State) (k : Nat) (b : Block) : (s.putBlock k b).fused = s.fused := rfl
@[simp] theorem State.putBlock_mbase (s : State) (k : Nat) (b : Block) : (s.putBlock k b).mbase = s.mbase := rfl
@[simp] theorem State.putBlock_corrected (s : State) (k : Nat) (b : Block) : (s.putBlock k b).corrected = s.corrected := rfl
@[simp] theorem State.putBlock_uncorrected (s : State) (k : Nat) (b : Block) : (s.putBlock k b).uncorrected = s.uncorrected := rfl
@[simp] theorem State.putBlock_lasting (s : State) (k : Nat) (b : Block) : (s.putBlock k b).lasting = s.lasting := rfl
@[simp] theorem State.putBlock_hostRefused (s : State) (k : Nat) (b : Block) : (s.putBlock k b).hostRefused = s.hostRefused := rfl
@[simp] theorem State.putBlock_logtail (s : State) (k : Nat) (b : Block) : (s.putBlock k b).logtail = s.logtail := rfl
@[simp] theorem State.putBlock_log (s : State) (k : Nat) (b : Block) : (s.putBlock k b).log = s.log := rfl
@[simp] theorem State.putBlock_coresOut (s : State) (k : Nat) (b : Block) : (s.putBlock k b).coresOut = s.coresOut := rfl
@[simp] theorem State.putBlock_sliceOut (s : State) (k : Nat) (b : Block) : (s.putBlock k b).sliceOut = s.sliceOut := rfl
@[simp] theorem State.putBlock_march (s : State) (k : Nat) (b : Block) : (s.putBlock k b).march = s.march := rfl
@[simp] theorem State.putBlock_coreTests (s : State) (k : Nat) (b : Block) : (s.putBlock k b).coreTests = s.coreTests := rfl
@[simp] theorem State.putBlock_sliceTests (s : State) (k : Nat) (b : Block) : (s.putBlock k b).sliceTests = s.sliceTests := rfl
@[simp] theorem State.putBlock_slicesIn (s : State) (k : Nat) (b : Block) : (s.putBlock k b).slicesIn = s.slicesIn := rfl
@[simp] theorem State.putBlock_hottest (s : State) (k : Nat) (b : Block) : (s.putBlock k b).hottest = s.hottest := rfl
@[simp] theorem State.putBlock_codes (s : State) (k : Nat) (b : Block) : (s.putBlock k b).codes = s.codes := rfl
@[simp] theorem State.putBlock_trip (s : State) (k : Nat) (b : Block) : (s.putBlock k b).trip = s.trip := rfl
@[simp] theorem State.putBlock_critical (s : State) (k : Nat) (b : Block) : (s.putBlock k b).critical = s.critical := rfl
@[simp] theorem State.putBlock_shutdown (s : State) (k : Nat) (b : Block) : (s.putBlock k b).shutdown = s.shutdown := rfl
@[simp] theorem State.putBlock_halved (s : State) (k : Nat) (b : Block) : (s.putBlock k b).halved = s.halved := rfl
@[simp] theorem State.putBlock_shut (s : State) (k : Nat) (b : Block) : (s.putBlock k b).shut = s.shut := rfl
@[simp] theorem State.putBlock_vrelnum (s : State) (k : Nat) (b : Block) : (s.putBlock k b).vrelnum = s.vrelnum := rfl
@[simp] theorem State.putBlock_heard (s : State) (k : Nat) (b : Block) : (s.putBlock k b).heard = s.heard := rfl
@[simp] theorem State.putBlock_openRoutes (s : State) (k : Nat) (b : Block) : (s.putBlock k b).openRoutes = s.openRoutes := rfl
@[simp] theorem State.putBlock_rx (s : State) (k : Nat) (b : Block) : (s.putBlock k b).rx = s.rx := rfl
@[simp] theorem State.putBlock_rxWait (s : State) (k : Nat) (b : Block) : (s.putBlock k b).rxWait = s.rxWait := rfl
@[simp] theorem State.putBlock_filter (s : State) (k : Nat) (b : Block) : (s.putBlock k b).filter = s.filter := rfl
@[simp] theorem State.putBlock_vout (s : State) (k : Nat) (b : Block) : (s.putBlock k b).vout = s.vout := rfl
@[simp] theorem State.putBlock_hostOut (s : State) (k : Nat) (b : Block) : (s.putBlock k b).hostOut = s.hostOut := rfl
@[simp] theorem State.putBlock_hostCt (s : State) (k : Nat) (b : Block) : (s.putBlock k b).hostCt = s.hostCt := rfl
@[simp] theorem State.putBlock_hostq (s : State) (k : Nat) (b : Block) : (s.putBlock k b).hostq = s.hostq := rfl
@[simp] theorem State.putBlock_hwready (s : State) (k : Nat) (b : Block) : (s.putBlock k b).hwready = s.hwready := rfl
@[simp] theorem State.putBlock_svcBase (s : State) (k : Nat) (b : Block) : (s.putBlock k b).svcBase = s.svcBase := rfl
@[simp] theorem State.putBlock_svcTail (s : State) (k : Nat) (b : Block) : (s.putBlock k b).svcTail = s.svcTail := rfl
@[simp] theorem State.putBlock_svcHead (s : State) (k : Nat) (b : Block) : (s.putBlock k b).svcHead = s.svcHead := rfl
@[simp] theorem State.putBlock_svcWait (s : State) (k : Nat) (b : Block) : (s.putBlock k b).svcWait = s.svcWait := rfl
@[simp] theorem State.putBlock_svcPosts (s : State) (k : Nat) (b : Block) : (s.putBlock k b).svcPosts = s.svcPosts := rfl
@[simp] theorem State.putBlock_ckpt (s : State) (k : Nat) (b : Block) : (s.putBlock k b).ckpt = s.ckpt := rfl
@[simp] theorem State.putBlock_lms (s : State) (k : Nat) (b : Block) : (s.putBlock k b).lms = s.lms := rfl
@[simp] theorem State.putBlock_attest (s : State) (k : Nat) (b : Block) : (s.putBlock k b).attest = s.attest := rfl
@[simp] theorem State.putBlock_free (s : State) (k : Nat) (b : Block) : (s.putBlock k b).free = s.free := rfl

/-! ### `State.putLaunch` changes `launches` only -/

@[simp] theorem State.putLaunch_agenda (s : State) (k : Nat) (l : Launch) : (s.putLaunch k l).agenda = s.agenda := rfl
@[simp] theorem State.putLaunch_cg (s : State) (k : Nat) (l : Launch) : (s.putLaunch k l).cg = s.cg := rfl
@[simp] theorem State.putLaunch_cs (s : State) (k : Nat) (l : Launch) : (s.putLaunch k l).cs = s.cs := rfl
@[simp] theorem State.putLaunch_now (s : State) (k : Nat) (l : Launch) : (s.putLaunch k l).now = s.now := rfl
@[simp] theorem State.putLaunch_groups (s : State) (k : Nat) (l : Launch) : (s.putLaunch k l).groups = s.groups := rfl
@[simp] theorem State.putLaunch_blocks (s : State) (k : Nat) (l : Launch) : (s.putLaunch k l).blocks = s.blocks := rfl
@[simp] theorem State.putLaunch_launches (s : State) (k : Nat) (l : Launch) : (s.putLaunch k l).launches = mapPut s.launches k l := rfl
@[simp] theorem State.putLaunch_contexts (s : State) (k : Nat) (l : Launch) : (s.putLaunch k l).contexts = s.contexts := rfl
@[simp] theorem State.putLaunch_cores (s : State) (k : Nat) (l : Launch) : (s.putLaunch k l).cores = s.cores := rfl
@[simp] theorem State.putLaunch_clusters (s : State) (k : Nat) (l : Launch) : (s.putLaunch k l).clusters = s.clusters := rfl
@[simp] theorem State.putLaunch_lltlb (s : State) (k : Nat) (l : Launch) : (s.putLaunch k l).lltlb = s.lltlb := rfl
@[simp] theorem State.putLaunch_mem (s : State) (k : Nat) (l : Launch) : (s.putLaunch k l).mem = s.mem := rfl
@[simp] theorem State.putLaunch_hmem (s : State) (k : Nat) (l : Launch) : (s.putLaunch k l).hmem = s.hmem := rfl
@[simp] theorem State.putLaunch_poison (s : State) (k : Nat) (l : Launch) : (s.putLaunch k l).poison = s.poison := rfl
@[simp] theorem State.putLaunch_lease (s : State) (k : Nat) (l : Launch) : (s.putLaunch k l).lease = s.lease := rfl
@[simp] theorem State.putLaunch_joins (s : State) (k : Nat) (l : Launch) : (s.putLaunch k l).joins = s.joins := rfl
@[simp] theorem State.putLaunch_xcount (s : State) (k : Nat) (l : Launch) : (s.putLaunch k l).xcount = s.xcount := rfl
@[simp] theorem State.putLaunch_frozen (s : State) (k : Nat) (l : Launch) : (s.putLaunch k l).frozen = s.frozen := rfl
@[simp] theorem State.putLaunch_nextLid (s : State) (k : Nat) (l : Launch) : (s.putLaunch k l).nextLid = s.nextLid := rfl
@[simp] theorem State.putLaunch_nextSeq (s : State) (k : Nat) (l : Launch) : (s.putLaunch k l).nextSeq = s.nextSeq := rfl
@[simp] theorem State.putLaunch_nextBlk (s : State) (k : Nat) (l : Launch) : (s.putLaunch k l).nextBlk = s.nextBlk := rfl
@[simp] theorem State.putLaunch_nextCmd (s : State) (k : Nat) (l : Launch) : (s.putLaunch k l).nextCmd = s.nextCmd := rfl
@[simp] theorem State.putLaunch_dseed (s : State) (k : Nat) (l : Launch) : (s.putLaunch k l).dseed = s.dseed := rfl
@[simp] theorem State.putLaunch_dready (s : State) (k : Nat) (l : Launch) : (s.putLaunch k l).dready = s.dready := rfl
@[simp] theorem State.putLaunch_bootcode (s : State) (k : Nat) (l : Launch) : (s.putLaunch k l).bootcode = s.bootcode := rfl
@[simp] theorem State.putLaunch_fw (s : State) (k : Nat) (l : Launch) : (s.putLaunch k l).fw = s.fw := rfl
@[simp] theorem State.putLaunch_images (s : State) (k : Nat) (l : Launch) : (s.putLaunch k l).images = s.images := rfl
@[simp] theorem State.putLaunch_fused (s : State) (k : Nat) (l : Launch) : (s.putLaunch k l).fused = s.fused := rfl
@[simp] theorem State.putLaunch_mbase (s : State) (k : Nat) (l : Launch) : (s.putLaunch k l).mbase = s.mbase := rfl
@[simp] theorem State.putLaunch_corrected (s : State) (k : Nat) (l : Launch) : (s.putLaunch k l).corrected = s.corrected := rfl
@[simp] theorem State.putLaunch_uncorrected (s : State) (k : Nat) (l : Launch) : (s.putLaunch k l).uncorrected = s.uncorrected := rfl
@[simp] theorem State.putLaunch_lasting (s : State) (k : Nat) (l : Launch) : (s.putLaunch k l).lasting = s.lasting := rfl
@[simp] theorem State.putLaunch_hostRefused (s : State) (k : Nat) (l : Launch) : (s.putLaunch k l).hostRefused = s.hostRefused := rfl
@[simp] theorem State.putLaunch_logtail (s : State) (k : Nat) (l : Launch) : (s.putLaunch k l).logtail = s.logtail := rfl
@[simp] theorem State.putLaunch_log (s : State) (k : Nat) (l : Launch) : (s.putLaunch k l).log = s.log := rfl
@[simp] theorem State.putLaunch_coresOut (s : State) (k : Nat) (l : Launch) : (s.putLaunch k l).coresOut = s.coresOut := rfl
@[simp] theorem State.putLaunch_sliceOut (s : State) (k : Nat) (l : Launch) : (s.putLaunch k l).sliceOut = s.sliceOut := rfl
@[simp] theorem State.putLaunch_march (s : State) (k : Nat) (l : Launch) : (s.putLaunch k l).march = s.march := rfl
@[simp] theorem State.putLaunch_coreTests (s : State) (k : Nat) (l : Launch) : (s.putLaunch k l).coreTests = s.coreTests := rfl
@[simp] theorem State.putLaunch_sliceTests (s : State) (k : Nat) (l : Launch) : (s.putLaunch k l).sliceTests = s.sliceTests := rfl
@[simp] theorem State.putLaunch_slicesIn (s : State) (k : Nat) (l : Launch) : (s.putLaunch k l).slicesIn = s.slicesIn := rfl
@[simp] theorem State.putLaunch_hottest (s : State) (k : Nat) (l : Launch) : (s.putLaunch k l).hottest = s.hottest := rfl
@[simp] theorem State.putLaunch_codes (s : State) (k : Nat) (l : Launch) : (s.putLaunch k l).codes = s.codes := rfl
@[simp] theorem State.putLaunch_trip (s : State) (k : Nat) (l : Launch) : (s.putLaunch k l).trip = s.trip := rfl
@[simp] theorem State.putLaunch_critical (s : State) (k : Nat) (l : Launch) : (s.putLaunch k l).critical = s.critical := rfl
@[simp] theorem State.putLaunch_shutdown (s : State) (k : Nat) (l : Launch) : (s.putLaunch k l).shutdown = s.shutdown := rfl
@[simp] theorem State.putLaunch_halved (s : State) (k : Nat) (l : Launch) : (s.putLaunch k l).halved = s.halved := rfl
@[simp] theorem State.putLaunch_shut (s : State) (k : Nat) (l : Launch) : (s.putLaunch k l).shut = s.shut := rfl
@[simp] theorem State.putLaunch_vrelnum (s : State) (k : Nat) (l : Launch) : (s.putLaunch k l).vrelnum = s.vrelnum := rfl
@[simp] theorem State.putLaunch_heard (s : State) (k : Nat) (l : Launch) : (s.putLaunch k l).heard = s.heard := rfl
@[simp] theorem State.putLaunch_openRoutes (s : State) (k : Nat) (l : Launch) : (s.putLaunch k l).openRoutes = s.openRoutes := rfl
@[simp] theorem State.putLaunch_rx (s : State) (k : Nat) (l : Launch) : (s.putLaunch k l).rx = s.rx := rfl
@[simp] theorem State.putLaunch_rxWait (s : State) (k : Nat) (l : Launch) : (s.putLaunch k l).rxWait = s.rxWait := rfl
@[simp] theorem State.putLaunch_filter (s : State) (k : Nat) (l : Launch) : (s.putLaunch k l).filter = s.filter := rfl
@[simp] theorem State.putLaunch_vout (s : State) (k : Nat) (l : Launch) : (s.putLaunch k l).vout = s.vout := rfl
@[simp] theorem State.putLaunch_hostOut (s : State) (k : Nat) (l : Launch) : (s.putLaunch k l).hostOut = s.hostOut := rfl
@[simp] theorem State.putLaunch_hostCt (s : State) (k : Nat) (l : Launch) : (s.putLaunch k l).hostCt = s.hostCt := rfl
@[simp] theorem State.putLaunch_hostq (s : State) (k : Nat) (l : Launch) : (s.putLaunch k l).hostq = s.hostq := rfl
@[simp] theorem State.putLaunch_hwready (s : State) (k : Nat) (l : Launch) : (s.putLaunch k l).hwready = s.hwready := rfl
@[simp] theorem State.putLaunch_svcBase (s : State) (k : Nat) (l : Launch) : (s.putLaunch k l).svcBase = s.svcBase := rfl
@[simp] theorem State.putLaunch_svcTail (s : State) (k : Nat) (l : Launch) : (s.putLaunch k l).svcTail = s.svcTail := rfl
@[simp] theorem State.putLaunch_svcHead (s : State) (k : Nat) (l : Launch) : (s.putLaunch k l).svcHead = s.svcHead := rfl
@[simp] theorem State.putLaunch_svcWait (s : State) (k : Nat) (l : Launch) : (s.putLaunch k l).svcWait = s.svcWait := rfl
@[simp] theorem State.putLaunch_svcPosts (s : State) (k : Nat) (l : Launch) : (s.putLaunch k l).svcPosts = s.svcPosts := rfl
@[simp] theorem State.putLaunch_ckpt (s : State) (k : Nat) (l : Launch) : (s.putLaunch k l).ckpt = s.ckpt := rfl
@[simp] theorem State.putLaunch_lms (s : State) (k : Nat) (l : Launch) : (s.putLaunch k l).lms = s.lms := rfl
@[simp] theorem State.putLaunch_attest (s : State) (k : Nat) (l : Launch) : (s.putLaunch k l).attest = s.attest := rfl
@[simp] theorem State.putLaunch_free (s : State) (k : Nat) (l : Launch) : (s.putLaunch k l).free = s.free := rfl

/-! ### `State.putContext` changes `contexts` only -/

@[simp] theorem State.putContext_agenda (s : State) (k : Nat) (c : Context) : (s.putContext k c).agenda = s.agenda := rfl
@[simp] theorem State.putContext_cg (s : State) (k : Nat) (c : Context) : (s.putContext k c).cg = s.cg := rfl
@[simp] theorem State.putContext_cs (s : State) (k : Nat) (c : Context) : (s.putContext k c).cs = s.cs := rfl
@[simp] theorem State.putContext_now (s : State) (k : Nat) (c : Context) : (s.putContext k c).now = s.now := rfl
@[simp] theorem State.putContext_groups (s : State) (k : Nat) (c : Context) : (s.putContext k c).groups = s.groups := rfl
@[simp] theorem State.putContext_blocks (s : State) (k : Nat) (c : Context) : (s.putContext k c).blocks = s.blocks := rfl
@[simp] theorem State.putContext_launches (s : State) (k : Nat) (c : Context) : (s.putContext k c).launches = s.launches := rfl
@[simp] theorem State.putContext_contexts (s : State) (k : Nat) (c : Context) : (s.putContext k c).contexts = mapPut s.contexts k c := rfl
@[simp] theorem State.putContext_cores (s : State) (k : Nat) (c : Context) : (s.putContext k c).cores = s.cores := rfl
@[simp] theorem State.putContext_clusters (s : State) (k : Nat) (c : Context) : (s.putContext k c).clusters = s.clusters := rfl
@[simp] theorem State.putContext_lltlb (s : State) (k : Nat) (c : Context) : (s.putContext k c).lltlb = s.lltlb := rfl
@[simp] theorem State.putContext_mem (s : State) (k : Nat) (c : Context) : (s.putContext k c).mem = s.mem := rfl
@[simp] theorem State.putContext_hmem (s : State) (k : Nat) (c : Context) : (s.putContext k c).hmem = s.hmem := rfl
@[simp] theorem State.putContext_poison (s : State) (k : Nat) (c : Context) : (s.putContext k c).poison = s.poison := rfl
@[simp] theorem State.putContext_lease (s : State) (k : Nat) (c : Context) : (s.putContext k c).lease = s.lease := rfl
@[simp] theorem State.putContext_joins (s : State) (k : Nat) (c : Context) : (s.putContext k c).joins = s.joins := rfl
@[simp] theorem State.putContext_xcount (s : State) (k : Nat) (c : Context) : (s.putContext k c).xcount = s.xcount := rfl
@[simp] theorem State.putContext_frozen (s : State) (k : Nat) (c : Context) : (s.putContext k c).frozen = s.frozen := rfl
@[simp] theorem State.putContext_nextLid (s : State) (k : Nat) (c : Context) : (s.putContext k c).nextLid = s.nextLid := rfl
@[simp] theorem State.putContext_nextSeq (s : State) (k : Nat) (c : Context) : (s.putContext k c).nextSeq = s.nextSeq := rfl
@[simp] theorem State.putContext_nextBlk (s : State) (k : Nat) (c : Context) : (s.putContext k c).nextBlk = s.nextBlk := rfl
@[simp] theorem State.putContext_nextCmd (s : State) (k : Nat) (c : Context) : (s.putContext k c).nextCmd = s.nextCmd := rfl
@[simp] theorem State.putContext_dseed (s : State) (k : Nat) (c : Context) : (s.putContext k c).dseed = s.dseed := rfl
@[simp] theorem State.putContext_dready (s : State) (k : Nat) (c : Context) : (s.putContext k c).dready = s.dready := rfl
@[simp] theorem State.putContext_bootcode (s : State) (k : Nat) (c : Context) : (s.putContext k c).bootcode = s.bootcode := rfl
@[simp] theorem State.putContext_fw (s : State) (k : Nat) (c : Context) : (s.putContext k c).fw = s.fw := rfl
@[simp] theorem State.putContext_images (s : State) (k : Nat) (c : Context) : (s.putContext k c).images = s.images := rfl
@[simp] theorem State.putContext_fused (s : State) (k : Nat) (c : Context) : (s.putContext k c).fused = s.fused := rfl
@[simp] theorem State.putContext_mbase (s : State) (k : Nat) (c : Context) : (s.putContext k c).mbase = s.mbase := rfl
@[simp] theorem State.putContext_corrected (s : State) (k : Nat) (c : Context) : (s.putContext k c).corrected = s.corrected := rfl
@[simp] theorem State.putContext_uncorrected (s : State) (k : Nat) (c : Context) : (s.putContext k c).uncorrected = s.uncorrected := rfl
@[simp] theorem State.putContext_lasting (s : State) (k : Nat) (c : Context) : (s.putContext k c).lasting = s.lasting := rfl
@[simp] theorem State.putContext_hostRefused (s : State) (k : Nat) (c : Context) : (s.putContext k c).hostRefused = s.hostRefused := rfl
@[simp] theorem State.putContext_logtail (s : State) (k : Nat) (c : Context) : (s.putContext k c).logtail = s.logtail := rfl
@[simp] theorem State.putContext_log (s : State) (k : Nat) (c : Context) : (s.putContext k c).log = s.log := rfl
@[simp] theorem State.putContext_coresOut (s : State) (k : Nat) (c : Context) : (s.putContext k c).coresOut = s.coresOut := rfl
@[simp] theorem State.putContext_sliceOut (s : State) (k : Nat) (c : Context) : (s.putContext k c).sliceOut = s.sliceOut := rfl
@[simp] theorem State.putContext_march (s : State) (k : Nat) (c : Context) : (s.putContext k c).march = s.march := rfl
@[simp] theorem State.putContext_coreTests (s : State) (k : Nat) (c : Context) : (s.putContext k c).coreTests = s.coreTests := rfl
@[simp] theorem State.putContext_sliceTests (s : State) (k : Nat) (c : Context) : (s.putContext k c).sliceTests = s.sliceTests := rfl
@[simp] theorem State.putContext_slicesIn (s : State) (k : Nat) (c : Context) : (s.putContext k c).slicesIn = s.slicesIn := rfl
@[simp] theorem State.putContext_hottest (s : State) (k : Nat) (c : Context) : (s.putContext k c).hottest = s.hottest := rfl
@[simp] theorem State.putContext_codes (s : State) (k : Nat) (c : Context) : (s.putContext k c).codes = s.codes := rfl
@[simp] theorem State.putContext_trip (s : State) (k : Nat) (c : Context) : (s.putContext k c).trip = s.trip := rfl
@[simp] theorem State.putContext_critical (s : State) (k : Nat) (c : Context) : (s.putContext k c).critical = s.critical := rfl
@[simp] theorem State.putContext_shutdown (s : State) (k : Nat) (c : Context) : (s.putContext k c).shutdown = s.shutdown := rfl
@[simp] theorem State.putContext_halved (s : State) (k : Nat) (c : Context) : (s.putContext k c).halved = s.halved := rfl
@[simp] theorem State.putContext_shut (s : State) (k : Nat) (c : Context) : (s.putContext k c).shut = s.shut := rfl
@[simp] theorem State.putContext_vrelnum (s : State) (k : Nat) (c : Context) : (s.putContext k c).vrelnum = s.vrelnum := rfl
@[simp] theorem State.putContext_heard (s : State) (k : Nat) (c : Context) : (s.putContext k c).heard = s.heard := rfl
@[simp] theorem State.putContext_openRoutes (s : State) (k : Nat) (c : Context) : (s.putContext k c).openRoutes = s.openRoutes := rfl
@[simp] theorem State.putContext_rx (s : State) (k : Nat) (c : Context) : (s.putContext k c).rx = s.rx := rfl
@[simp] theorem State.putContext_rxWait (s : State) (k : Nat) (c : Context) : (s.putContext k c).rxWait = s.rxWait := rfl
@[simp] theorem State.putContext_filter (s : State) (k : Nat) (c : Context) : (s.putContext k c).filter = s.filter := rfl
@[simp] theorem State.putContext_vout (s : State) (k : Nat) (c : Context) : (s.putContext k c).vout = s.vout := rfl
@[simp] theorem State.putContext_hostOut (s : State) (k : Nat) (c : Context) : (s.putContext k c).hostOut = s.hostOut := rfl
@[simp] theorem State.putContext_hostCt (s : State) (k : Nat) (c : Context) : (s.putContext k c).hostCt = s.hostCt := rfl
@[simp] theorem State.putContext_hostq (s : State) (k : Nat) (c : Context) : (s.putContext k c).hostq = s.hostq := rfl
@[simp] theorem State.putContext_hwready (s : State) (k : Nat) (c : Context) : (s.putContext k c).hwready = s.hwready := rfl
@[simp] theorem State.putContext_svcBase (s : State) (k : Nat) (c : Context) : (s.putContext k c).svcBase = s.svcBase := rfl
@[simp] theorem State.putContext_svcTail (s : State) (k : Nat) (c : Context) : (s.putContext k c).svcTail = s.svcTail := rfl
@[simp] theorem State.putContext_svcHead (s : State) (k : Nat) (c : Context) : (s.putContext k c).svcHead = s.svcHead := rfl
@[simp] theorem State.putContext_svcWait (s : State) (k : Nat) (c : Context) : (s.putContext k c).svcWait = s.svcWait := rfl
@[simp] theorem State.putContext_svcPosts (s : State) (k : Nat) (c : Context) : (s.putContext k c).svcPosts = s.svcPosts := rfl
@[simp] theorem State.putContext_ckpt (s : State) (k : Nat) (c : Context) : (s.putContext k c).ckpt = s.ckpt := rfl
@[simp] theorem State.putContext_lms (s : State) (k : Nat) (c : Context) : (s.putContext k c).lms = s.lms := rfl
@[simp] theorem State.putContext_attest (s : State) (k : Nat) (c : Context) : (s.putContext k c).attest = s.attest := rfl
@[simp] theorem State.putContext_free (s : State) (k : Nat) (c : Context) : (s.putContext k c).free = s.free := rfl

/-! ### `State.putCore` changes `cores` only -/

@[simp] theorem State.putCore_agenda (s : State) (k : Nat) (c : Core) : (s.putCore k c).agenda = s.agenda := rfl
@[simp] theorem State.putCore_cg (s : State) (k : Nat) (c : Core) : (s.putCore k c).cg = s.cg := rfl
@[simp] theorem State.putCore_cs (s : State) (k : Nat) (c : Core) : (s.putCore k c).cs = s.cs := rfl
@[simp] theorem State.putCore_now (s : State) (k : Nat) (c : Core) : (s.putCore k c).now = s.now := rfl
@[simp] theorem State.putCore_groups (s : State) (k : Nat) (c : Core) : (s.putCore k c).groups = s.groups := rfl
@[simp] theorem State.putCore_blocks (s : State) (k : Nat) (c : Core) : (s.putCore k c).blocks = s.blocks := rfl
@[simp] theorem State.putCore_launches (s : State) (k : Nat) (c : Core) : (s.putCore k c).launches = s.launches := rfl
@[simp] theorem State.putCore_contexts (s : State) (k : Nat) (c : Core) : (s.putCore k c).contexts = s.contexts := rfl
@[simp] theorem State.putCore_cores (s : State) (k : Nat) (c : Core) : (s.putCore k c).cores = mapPut s.cores k c := rfl
@[simp] theorem State.putCore_clusters (s : State) (k : Nat) (c : Core) : (s.putCore k c).clusters = s.clusters := rfl
@[simp] theorem State.putCore_lltlb (s : State) (k : Nat) (c : Core) : (s.putCore k c).lltlb = s.lltlb := rfl
@[simp] theorem State.putCore_mem (s : State) (k : Nat) (c : Core) : (s.putCore k c).mem = s.mem := rfl
@[simp] theorem State.putCore_hmem (s : State) (k : Nat) (c : Core) : (s.putCore k c).hmem = s.hmem := rfl
@[simp] theorem State.putCore_poison (s : State) (k : Nat) (c : Core) : (s.putCore k c).poison = s.poison := rfl
@[simp] theorem State.putCore_lease (s : State) (k : Nat) (c : Core) : (s.putCore k c).lease = s.lease := rfl
@[simp] theorem State.putCore_joins (s : State) (k : Nat) (c : Core) : (s.putCore k c).joins = s.joins := rfl
@[simp] theorem State.putCore_xcount (s : State) (k : Nat) (c : Core) : (s.putCore k c).xcount = s.xcount := rfl
@[simp] theorem State.putCore_frozen (s : State) (k : Nat) (c : Core) : (s.putCore k c).frozen = s.frozen := rfl
@[simp] theorem State.putCore_nextLid (s : State) (k : Nat) (c : Core) : (s.putCore k c).nextLid = s.nextLid := rfl
@[simp] theorem State.putCore_nextSeq (s : State) (k : Nat) (c : Core) : (s.putCore k c).nextSeq = s.nextSeq := rfl
@[simp] theorem State.putCore_nextBlk (s : State) (k : Nat) (c : Core) : (s.putCore k c).nextBlk = s.nextBlk := rfl
@[simp] theorem State.putCore_nextCmd (s : State) (k : Nat) (c : Core) : (s.putCore k c).nextCmd = s.nextCmd := rfl
@[simp] theorem State.putCore_dseed (s : State) (k : Nat) (c : Core) : (s.putCore k c).dseed = s.dseed := rfl
@[simp] theorem State.putCore_dready (s : State) (k : Nat) (c : Core) : (s.putCore k c).dready = s.dready := rfl
@[simp] theorem State.putCore_bootcode (s : State) (k : Nat) (c : Core) : (s.putCore k c).bootcode = s.bootcode := rfl
@[simp] theorem State.putCore_fw (s : State) (k : Nat) (c : Core) : (s.putCore k c).fw = s.fw := rfl
@[simp] theorem State.putCore_images (s : State) (k : Nat) (c : Core) : (s.putCore k c).images = s.images := rfl
@[simp] theorem State.putCore_fused (s : State) (k : Nat) (c : Core) : (s.putCore k c).fused = s.fused := rfl
@[simp] theorem State.putCore_mbase (s : State) (k : Nat) (c : Core) : (s.putCore k c).mbase = s.mbase := rfl
@[simp] theorem State.putCore_corrected (s : State) (k : Nat) (c : Core) : (s.putCore k c).corrected = s.corrected := rfl
@[simp] theorem State.putCore_uncorrected (s : State) (k : Nat) (c : Core) : (s.putCore k c).uncorrected = s.uncorrected := rfl
@[simp] theorem State.putCore_lasting (s : State) (k : Nat) (c : Core) : (s.putCore k c).lasting = s.lasting := rfl
@[simp] theorem State.putCore_hostRefused (s : State) (k : Nat) (c : Core) : (s.putCore k c).hostRefused = s.hostRefused := rfl
@[simp] theorem State.putCore_logtail (s : State) (k : Nat) (c : Core) : (s.putCore k c).logtail = s.logtail := rfl
@[simp] theorem State.putCore_log (s : State) (k : Nat) (c : Core) : (s.putCore k c).log = s.log := rfl
@[simp] theorem State.putCore_coresOut (s : State) (k : Nat) (c : Core) : (s.putCore k c).coresOut = s.coresOut := rfl
@[simp] theorem State.putCore_sliceOut (s : State) (k : Nat) (c : Core) : (s.putCore k c).sliceOut = s.sliceOut := rfl
@[simp] theorem State.putCore_march (s : State) (k : Nat) (c : Core) : (s.putCore k c).march = s.march := rfl
@[simp] theorem State.putCore_coreTests (s : State) (k : Nat) (c : Core) : (s.putCore k c).coreTests = s.coreTests := rfl
@[simp] theorem State.putCore_sliceTests (s : State) (k : Nat) (c : Core) : (s.putCore k c).sliceTests = s.sliceTests := rfl
@[simp] theorem State.putCore_slicesIn (s : State) (k : Nat) (c : Core) : (s.putCore k c).slicesIn = s.slicesIn := rfl
@[simp] theorem State.putCore_hottest (s : State) (k : Nat) (c : Core) : (s.putCore k c).hottest = s.hottest := rfl
@[simp] theorem State.putCore_codes (s : State) (k : Nat) (c : Core) : (s.putCore k c).codes = s.codes := rfl
@[simp] theorem State.putCore_trip (s : State) (k : Nat) (c : Core) : (s.putCore k c).trip = s.trip := rfl
@[simp] theorem State.putCore_critical (s : State) (k : Nat) (c : Core) : (s.putCore k c).critical = s.critical := rfl
@[simp] theorem State.putCore_shutdown (s : State) (k : Nat) (c : Core) : (s.putCore k c).shutdown = s.shutdown := rfl
@[simp] theorem State.putCore_halved (s : State) (k : Nat) (c : Core) : (s.putCore k c).halved = s.halved := rfl
@[simp] theorem State.putCore_shut (s : State) (k : Nat) (c : Core) : (s.putCore k c).shut = s.shut := rfl
@[simp] theorem State.putCore_vrelnum (s : State) (k : Nat) (c : Core) : (s.putCore k c).vrelnum = s.vrelnum := rfl
@[simp] theorem State.putCore_heard (s : State) (k : Nat) (c : Core) : (s.putCore k c).heard = s.heard := rfl
@[simp] theorem State.putCore_openRoutes (s : State) (k : Nat) (c : Core) : (s.putCore k c).openRoutes = s.openRoutes := rfl
@[simp] theorem State.putCore_rx (s : State) (k : Nat) (c : Core) : (s.putCore k c).rx = s.rx := rfl
@[simp] theorem State.putCore_rxWait (s : State) (k : Nat) (c : Core) : (s.putCore k c).rxWait = s.rxWait := rfl
@[simp] theorem State.putCore_filter (s : State) (k : Nat) (c : Core) : (s.putCore k c).filter = s.filter := rfl
@[simp] theorem State.putCore_vout (s : State) (k : Nat) (c : Core) : (s.putCore k c).vout = s.vout := rfl
@[simp] theorem State.putCore_hostOut (s : State) (k : Nat) (c : Core) : (s.putCore k c).hostOut = s.hostOut := rfl
@[simp] theorem State.putCore_hostCt (s : State) (k : Nat) (c : Core) : (s.putCore k c).hostCt = s.hostCt := rfl
@[simp] theorem State.putCore_hostq (s : State) (k : Nat) (c : Core) : (s.putCore k c).hostq = s.hostq := rfl
@[simp] theorem State.putCore_hwready (s : State) (k : Nat) (c : Core) : (s.putCore k c).hwready = s.hwready := rfl
@[simp] theorem State.putCore_svcBase (s : State) (k : Nat) (c : Core) : (s.putCore k c).svcBase = s.svcBase := rfl
@[simp] theorem State.putCore_svcTail (s : State) (k : Nat) (c : Core) : (s.putCore k c).svcTail = s.svcTail := rfl
@[simp] theorem State.putCore_svcHead (s : State) (k : Nat) (c : Core) : (s.putCore k c).svcHead = s.svcHead := rfl
@[simp] theorem State.putCore_svcWait (s : State) (k : Nat) (c : Core) : (s.putCore k c).svcWait = s.svcWait := rfl
@[simp] theorem State.putCore_svcPosts (s : State) (k : Nat) (c : Core) : (s.putCore k c).svcPosts = s.svcPosts := rfl
@[simp] theorem State.putCore_ckpt (s : State) (k : Nat) (c : Core) : (s.putCore k c).ckpt = s.ckpt := rfl
@[simp] theorem State.putCore_lms (s : State) (k : Nat) (c : Core) : (s.putCore k c).lms = s.lms := rfl
@[simp] theorem State.putCore_attest (s : State) (k : Nat) (c : Core) : (s.putCore k c).attest = s.attest := rfl
@[simp] theorem State.putCore_free (s : State) (k : Nat) (c : Core) : (s.putCore k c).free = s.free := rfl

/-! ### `State.putCluster` changes `clusters` only -/

@[simp] theorem State.putCluster_agenda (s : State) (k : Nat) (c : Cluster) : (s.putCluster k c).agenda = s.agenda := rfl
@[simp] theorem State.putCluster_cg (s : State) (k : Nat) (c : Cluster) : (s.putCluster k c).cg = s.cg := rfl
@[simp] theorem State.putCluster_cs (s : State) (k : Nat) (c : Cluster) : (s.putCluster k c).cs = s.cs := rfl
@[simp] theorem State.putCluster_now (s : State) (k : Nat) (c : Cluster) : (s.putCluster k c).now = s.now := rfl
@[simp] theorem State.putCluster_groups (s : State) (k : Nat) (c : Cluster) : (s.putCluster k c).groups = s.groups := rfl
@[simp] theorem State.putCluster_blocks (s : State) (k : Nat) (c : Cluster) : (s.putCluster k c).blocks = s.blocks := rfl
@[simp] theorem State.putCluster_launches (s : State) (k : Nat) (c : Cluster) : (s.putCluster k c).launches = s.launches := rfl
@[simp] theorem State.putCluster_contexts (s : State) (k : Nat) (c : Cluster) : (s.putCluster k c).contexts = s.contexts := rfl
@[simp] theorem State.putCluster_cores (s : State) (k : Nat) (c : Cluster) : (s.putCluster k c).cores = s.cores := rfl
@[simp] theorem State.putCluster_clusters (s : State) (k : Nat) (c : Cluster) : (s.putCluster k c).clusters = mapPut s.clusters k c := rfl
@[simp] theorem State.putCluster_lltlb (s : State) (k : Nat) (c : Cluster) : (s.putCluster k c).lltlb = s.lltlb := rfl
@[simp] theorem State.putCluster_mem (s : State) (k : Nat) (c : Cluster) : (s.putCluster k c).mem = s.mem := rfl
@[simp] theorem State.putCluster_hmem (s : State) (k : Nat) (c : Cluster) : (s.putCluster k c).hmem = s.hmem := rfl
@[simp] theorem State.putCluster_poison (s : State) (k : Nat) (c : Cluster) : (s.putCluster k c).poison = s.poison := rfl
@[simp] theorem State.putCluster_lease (s : State) (k : Nat) (c : Cluster) : (s.putCluster k c).lease = s.lease := rfl
@[simp] theorem State.putCluster_joins (s : State) (k : Nat) (c : Cluster) : (s.putCluster k c).joins = s.joins := rfl
@[simp] theorem State.putCluster_xcount (s : State) (k : Nat) (c : Cluster) : (s.putCluster k c).xcount = s.xcount := rfl
@[simp] theorem State.putCluster_frozen (s : State) (k : Nat) (c : Cluster) : (s.putCluster k c).frozen = s.frozen := rfl
@[simp] theorem State.putCluster_nextLid (s : State) (k : Nat) (c : Cluster) : (s.putCluster k c).nextLid = s.nextLid := rfl
@[simp] theorem State.putCluster_nextSeq (s : State) (k : Nat) (c : Cluster) : (s.putCluster k c).nextSeq = s.nextSeq := rfl
@[simp] theorem State.putCluster_nextBlk (s : State) (k : Nat) (c : Cluster) : (s.putCluster k c).nextBlk = s.nextBlk := rfl
@[simp] theorem State.putCluster_nextCmd (s : State) (k : Nat) (c : Cluster) : (s.putCluster k c).nextCmd = s.nextCmd := rfl
@[simp] theorem State.putCluster_dseed (s : State) (k : Nat) (c : Cluster) : (s.putCluster k c).dseed = s.dseed := rfl
@[simp] theorem State.putCluster_dready (s : State) (k : Nat) (c : Cluster) : (s.putCluster k c).dready = s.dready := rfl
@[simp] theorem State.putCluster_bootcode (s : State) (k : Nat) (c : Cluster) : (s.putCluster k c).bootcode = s.bootcode := rfl
@[simp] theorem State.putCluster_fw (s : State) (k : Nat) (c : Cluster) : (s.putCluster k c).fw = s.fw := rfl
@[simp] theorem State.putCluster_images (s : State) (k : Nat) (c : Cluster) : (s.putCluster k c).images = s.images := rfl
@[simp] theorem State.putCluster_fused (s : State) (k : Nat) (c : Cluster) : (s.putCluster k c).fused = s.fused := rfl
@[simp] theorem State.putCluster_mbase (s : State) (k : Nat) (c : Cluster) : (s.putCluster k c).mbase = s.mbase := rfl
@[simp] theorem State.putCluster_corrected (s : State) (k : Nat) (c : Cluster) : (s.putCluster k c).corrected = s.corrected := rfl
@[simp] theorem State.putCluster_uncorrected (s : State) (k : Nat) (c : Cluster) : (s.putCluster k c).uncorrected = s.uncorrected := rfl
@[simp] theorem State.putCluster_lasting (s : State) (k : Nat) (c : Cluster) : (s.putCluster k c).lasting = s.lasting := rfl
@[simp] theorem State.putCluster_hostRefused (s : State) (k : Nat) (c : Cluster) : (s.putCluster k c).hostRefused = s.hostRefused := rfl
@[simp] theorem State.putCluster_logtail (s : State) (k : Nat) (c : Cluster) : (s.putCluster k c).logtail = s.logtail := rfl
@[simp] theorem State.putCluster_log (s : State) (k : Nat) (c : Cluster) : (s.putCluster k c).log = s.log := rfl
@[simp] theorem State.putCluster_coresOut (s : State) (k : Nat) (c : Cluster) : (s.putCluster k c).coresOut = s.coresOut := rfl
@[simp] theorem State.putCluster_sliceOut (s : State) (k : Nat) (c : Cluster) : (s.putCluster k c).sliceOut = s.sliceOut := rfl
@[simp] theorem State.putCluster_march (s : State) (k : Nat) (c : Cluster) : (s.putCluster k c).march = s.march := rfl
@[simp] theorem State.putCluster_coreTests (s : State) (k : Nat) (c : Cluster) : (s.putCluster k c).coreTests = s.coreTests := rfl
@[simp] theorem State.putCluster_sliceTests (s : State) (k : Nat) (c : Cluster) : (s.putCluster k c).sliceTests = s.sliceTests := rfl
@[simp] theorem State.putCluster_slicesIn (s : State) (k : Nat) (c : Cluster) : (s.putCluster k c).slicesIn = s.slicesIn := rfl
@[simp] theorem State.putCluster_hottest (s : State) (k : Nat) (c : Cluster) : (s.putCluster k c).hottest = s.hottest := rfl
@[simp] theorem State.putCluster_codes (s : State) (k : Nat) (c : Cluster) : (s.putCluster k c).codes = s.codes := rfl
@[simp] theorem State.putCluster_trip (s : State) (k : Nat) (c : Cluster) : (s.putCluster k c).trip = s.trip := rfl
@[simp] theorem State.putCluster_critical (s : State) (k : Nat) (c : Cluster) : (s.putCluster k c).critical = s.critical := rfl
@[simp] theorem State.putCluster_shutdown (s : State) (k : Nat) (c : Cluster) : (s.putCluster k c).shutdown = s.shutdown := rfl
@[simp] theorem State.putCluster_halved (s : State) (k : Nat) (c : Cluster) : (s.putCluster k c).halved = s.halved := rfl
@[simp] theorem State.putCluster_shut (s : State) (k : Nat) (c : Cluster) : (s.putCluster k c).shut = s.shut := rfl
@[simp] theorem State.putCluster_vrelnum (s : State) (k : Nat) (c : Cluster) : (s.putCluster k c).vrelnum = s.vrelnum := rfl
@[simp] theorem State.putCluster_heard (s : State) (k : Nat) (c : Cluster) : (s.putCluster k c).heard = s.heard := rfl
@[simp] theorem State.putCluster_openRoutes (s : State) (k : Nat) (c : Cluster) : (s.putCluster k c).openRoutes = s.openRoutes := rfl
@[simp] theorem State.putCluster_rx (s : State) (k : Nat) (c : Cluster) : (s.putCluster k c).rx = s.rx := rfl
@[simp] theorem State.putCluster_rxWait (s : State) (k : Nat) (c : Cluster) : (s.putCluster k c).rxWait = s.rxWait := rfl
@[simp] theorem State.putCluster_filter (s : State) (k : Nat) (c : Cluster) : (s.putCluster k c).filter = s.filter := rfl
@[simp] theorem State.putCluster_vout (s : State) (k : Nat) (c : Cluster) : (s.putCluster k c).vout = s.vout := rfl
@[simp] theorem State.putCluster_hostOut (s : State) (k : Nat) (c : Cluster) : (s.putCluster k c).hostOut = s.hostOut := rfl
@[simp] theorem State.putCluster_hostCt (s : State) (k : Nat) (c : Cluster) : (s.putCluster k c).hostCt = s.hostCt := rfl
@[simp] theorem State.putCluster_hostq (s : State) (k : Nat) (c : Cluster) : (s.putCluster k c).hostq = s.hostq := rfl
@[simp] theorem State.putCluster_hwready (s : State) (k : Nat) (c : Cluster) : (s.putCluster k c).hwready = s.hwready := rfl
@[simp] theorem State.putCluster_svcBase (s : State) (k : Nat) (c : Cluster) : (s.putCluster k c).svcBase = s.svcBase := rfl
@[simp] theorem State.putCluster_svcTail (s : State) (k : Nat) (c : Cluster) : (s.putCluster k c).svcTail = s.svcTail := rfl
@[simp] theorem State.putCluster_svcHead (s : State) (k : Nat) (c : Cluster) : (s.putCluster k c).svcHead = s.svcHead := rfl
@[simp] theorem State.putCluster_svcWait (s : State) (k : Nat) (c : Cluster) : (s.putCluster k c).svcWait = s.svcWait := rfl
@[simp] theorem State.putCluster_svcPosts (s : State) (k : Nat) (c : Cluster) : (s.putCluster k c).svcPosts = s.svcPosts := rfl
@[simp] theorem State.putCluster_ckpt (s : State) (k : Nat) (c : Cluster) : (s.putCluster k c).ckpt = s.ckpt := rfl
@[simp] theorem State.putCluster_lms (s : State) (k : Nat) (c : Cluster) : (s.putCluster k c).lms = s.lms := rfl
@[simp] theorem State.putCluster_attest (s : State) (k : Nat) (c : Cluster) : (s.putCluster k c).attest = s.attest := rfl
@[simp] theorem State.putCluster_free (s : State) (k : Nat) (c : Cluster) : (s.putCluster k c).free = s.free := rfl

/-! ### `Group.putSplit` changes `splits` only -/

@[simp] theorem Group.putSplit_blk (g : Group) (i : Nat) (sp : Split) : (g.putSplit i sp).blk = g.blk := rfl
@[simp] theorem Group.putSplit_gid (g : Group) (i : Nat) (sp : Split) : (g.putSplit i sp).gid = g.gid := rfl
@[simp] theorem Group.putSplit_live (g : Group) (i : Nat) (sp : Split) : (g.putSplit i sp).live = g.live := rfl
@[simp] theorem Group.putSplit_draining (g : Group) (i : Nat) (sp : Split) : (g.putSplit i sp).draining = g.draining := rfl
@[simp] theorem Group.putSplit_launched (g : Group) (i : Nat) (sp : Split) : (g.putSplit i sp).launched = g.launched := rfl
@[simp] theorem Group.putSplit_exited (g : Group) (i : Nat) (sp : Split) : (g.putSplit i sp).exited = g.exited := rfl
@[simp] theorem Group.putSplit_alloc (g : Group) (i : Nat) (sp : Split) : (g.putSplit i sp).alloc = g.alloc := rfl
@[simp] theorem Group.putSplit_regs (g : Group) (i : Nat) (sp : Split) : (g.putSplit i sp).regs = g.regs := rfl
@[simp] theorem Group.putSplit_hregs (g : Group) (i : Nat) (sp : Split) : (g.putSplit i sp).hregs = g.hregs := rfl
@[simp] theorem Group.putSplit_rpoison (g : Group) (i : Nat) (sp : Split) : (g.putSplit i sp).rpoison = g.rpoison := rfl
@[simp] theorem Group.putSplit_cnt (g : Group) (i : Nat) (sp : Split) : (g.putSplit i sp).cnt = g.cnt := rfl
@[simp] theorem Group.putSplit_gen (g : Group) (i : Nat) (sp : Split) : (g.putSplit i sp).gen = g.gen := rfl
@[simp] theorem Group.putSplit_kwto (g : Group) (i : Nat) (sp : Split) : (g.putSplit i sp).kwto = g.kwto := rfl
@[simp] theorem Group.putSplit_khwin (g : Group) (i : Nat) (sp : Split) : (g.putSplit i sp).khwin = g.khwin := rfl
@[simp] theorem Group.putSplit_retired (g : Group) (i : Nat) (sp : Split) : (g.putSplit i sp).retired = g.retired := rfl
@[simp] theorem Group.putSplit_ct (g : Group) (i : Nat) (sp : Split) : (g.putSplit i sp).ct = g.ct := rfl
@[simp] theorem Group.putSplit_entered (g : Group) (i : Nat) (sp : Split) : (g.putSplit i sp).entered = g.entered := rfl
@[simp] theorem Group.putSplit_revoked (g : Group) (i : Nat) (sp : Split) : (g.putSplit i sp).revoked = g.revoked := rfl
@[simp] theorem Group.putSplit_marks (g : Group) (i : Nat) (sp : Split) : (g.putSplit i sp).marks = g.marks := rfl
@[simp] theorem Group.putSplit_nld (g : Group) (i : Nat) (sp : Split) : (g.putSplit i sp).nld = g.nld := rfl
@[simp] theorem Group.putSplit_nst (g : Group) (i : Nat) (sp : Split) : (g.putSplit i sp).nst = g.nst := rfl
@[simp] theorem Group.putSplit_neng (g : Group) (i : Nat) (sp : Split) : (g.putSplit i sp).neng = g.neng := rfl
@[simp] theorem Group.putSplit_ntile (g : Group) (i : Nat) (sp : Split) : (g.putSplit i sp).ntile = g.ntile := rfl
@[simp] theorem Group.putSplit_ploads (g : Group) (i : Nat) (sp : Split) : (g.putSplit i sp).ploads = g.ploads := rfl
@[simp] theorem Group.putSplit_pstores (g : Group) (i : Nat) (sp : Split) : (g.putSplit i sp).pstores = g.pstores := rfl
@[simp] theorem Group.putSplit_hsts (g : Group) (i : Nat) (sp : Split) : (g.putSplit i sp).hsts = g.hsts := rfl
@[simp] theorem Group.putSplit_hpages (g : Group) (i : Nat) (sp : Split) : (g.putSplit i sp).hpages = g.hpages := rfl
@[simp] theorem Group.putSplit_tokens (g : Group) (i : Nat) (sp : Split) : (g.putSplit i sp).tokens = g.tokens := rfl
@[simp] theorem Group.putSplit_pends (g : Group) (i : Nat) (sp : Split) : (g.putSplit i sp).pends = g.pends := rfl
@[simp] theorem Group.putSplit_wait (g : Group) (i : Nat) (sp : Split) : (g.putSplit i sp).wait = g.wait := rfl
@[simp] theorem Group.putSplit_fcode (g : Group) (i : Nat) (sp : Split) : (g.putSplit i sp).fcode = g.fcode := rfl
@[simp] theorem Group.putSplit_faddr (g : Group) (i : Nat) (sp : Split) : (g.putSplit i sp).faddr = g.faddr := rfl
@[simp] theorem Group.putSplit_fmask (g : Group) (i : Nat) (sp : Split) : (g.putSplit i sp).fmask = g.fmask := rfl
@[simp] theorem Group.putSplit_fregion (g : Group) (i : Nat) (sp : Split) : (g.putSplit i sp).fregion = g.fregion := rfl
@[simp] theorem Group.putSplit_frame (g : Group) (i : Nat) (sp : Split) : (g.putSplit i sp).frame = g.frame := rfl
@[simp] theorem Group.putSplit_held (g : Group) (i : Nat) (sp : Split) : (g.putSplit i sp).held = g.held := rfl
@[simp] theorem Group.putSplit_splits (g : Group) (i : Nat) (sp : Split) : (g.putSplit i sp).splits = mapPut g.splits i sp := rfl
@[simp] theorem Group.putSplit_stack (g : Group) (i : Nat) (sp : Split) : (g.putSplit i sp).stack = g.stack := rfl
@[simp] theorem Group.putSplit_tiles (g : Group) (i : Nat) (sp : Split) : (g.putSplit i sp).tiles = g.tiles := rfl
@[simp] theorem Group.putSplit_chain (g : Group) (i : Nat) (sp : Split) : (g.putSplit i sp).chain = g.chain := rfl
@[simp] theorem Group.putSplit_chains (g : Group) (i : Nat) (sp : Split) : (g.putSplit i sp).chains = g.chains := rfl
@[simp] theorem Group.putSplit_win (g : Group) (i : Nat) (sp : Split) : (g.putSplit i sp).win = g.win := rfl
@[simp] theorem Group.putSplit_written (g : Group) (i : Nat) (sp : Split) : (g.putSplit i sp).written = g.written := rfl
@[simp] theorem Group.putSplit_dirty (g : Group) (i : Nat) (sp : Split) : (g.putSplit i sp).dirty = g.dirty := rfl
@[simp] theorem Group.putSplit_cold (g : Group) (i : Nat) (sp : Split) : (g.putSplit i sp).cold = g.cold := rfl
@[simp] theorem Group.putSplit_qbuf (g : Group) (i : Nat) (sp : Split) : (g.putSplit i sp).qbuf = g.qbuf := rfl
@[simp] theorem Group.putSplit_qrel (g : Group) (i : Nat) (sp : Split) : (g.putSplit i sp).qrel = g.qrel := rfl
@[simp] theorem Group.putSplit_qcount (g : Group) (i : Nat) (sp : Split) : (g.putSplit i sp).qcount = g.qcount := rfl
@[simp] theorem Group.putSplit_qcarry (g : Group) (i : Nat) (sp : Split) : (g.putSplit i sp).qcarry = g.qcarry := rfl
@[simp] theorem Group.putSplit_qended (g : Group) (i : Nat) (sp : Split) : (g.putSplit i sp).qended = g.qended := rfl
@[simp] theorem Group.putSplit_closing (g : Group) (i : Nat) (sp : Split) : (g.putSplit i sp).closing = g.closing := rfl
@[simp] theorem Group.putSplit_turn (g : Group) (i : Nat) (sp : Split) : (g.putSplit i sp).turn = g.turn := rfl
@[simp] theorem Group.putSplit_nextId (g : Group) (i : Nat) (sp : Split) : (g.putSplit i sp).nextId = g.nextId := rfl

/-! ### Reading a record after replacing one -/

@[simp] theorem State.group_putGroup_same (s : State) (k : Nat) (x : Group) : (s.putGroup k x).group k = x := by
  simp [State.group, mapFind_put_same]
theorem State.group_putGroup_ne (s : State) {k i : Nat} (x : Group) (h : i ≠ k) : (s.putGroup k x).group i = s.group i := by
  simp [State.group, mapFind_put_ne _ _ h]
@[simp] theorem State.group_putBlock (s : State) (k i : Nat) (x : Block) : (s.putBlock k x).group i = s.group i := rfl
@[simp] theorem State.group_putLaunch (s : State) (k i : Nat) (x : Launch) : (s.putLaunch k x).group i = s.group i := rfl
@[simp] theorem State.group_putContext (s : State) (k i : Nat) (x : Context) : (s.putContext k x).group i = s.group i := rfl
@[simp] theorem State.group_putCore (s : State) (k i : Nat) (x : Core) : (s.putCore k x).group i = s.group i := rfl
@[simp] theorem State.group_putCluster (s : State) (k i : Nat) (x : Cluster) : (s.putCluster k x).group i = s.group i := rfl

@[simp] theorem State.block_putBlock_same (s : State) (k : Nat) (x : Block) : (s.putBlock k x).block k = x := by
  simp [State.block, mapFind_put_same]
theorem State.block_putBlock_ne (s : State) {k i : Nat} (x : Block) (h : i ≠ k) : (s.putBlock k x).block i = s.block i := by
  simp [State.block, mapFind_put_ne _ _ h]
@[simp] theorem State.block_putGroup (s : State) (k i : Nat) (x : Group) : (s.putGroup k x).block i = s.block i := rfl
@[simp] theorem State.block_putLaunch (s : State) (k i : Nat) (x : Launch) : (s.putLaunch k x).block i = s.block i := rfl
@[simp] theorem State.block_putContext (s : State) (k i : Nat) (x : Context) : (s.putContext k x).block i = s.block i := rfl
@[simp] theorem State.block_putCore (s : State) (k i : Nat) (x : Core) : (s.putCore k x).block i = s.block i := rfl
@[simp] theorem State.block_putCluster (s : State) (k i : Nat) (x : Cluster) : (s.putCluster k x).block i = s.block i := rfl

@[simp] theorem State.launch_putLaunch_same (s : State) (k : Nat) (x : Launch) : (s.putLaunch k x).launch k = x := by
  simp [State.launch, mapFind_put_same]
theorem State.launch_putLaunch_ne (s : State) {k i : Nat} (x : Launch) (h : i ≠ k) : (s.putLaunch k x).launch i = s.launch i := by
  simp [State.launch, mapFind_put_ne _ _ h]
@[simp] theorem State.launch_putGroup (s : State) (k i : Nat) (x : Group) : (s.putGroup k x).launch i = s.launch i := rfl
@[simp] theorem State.launch_putBlock (s : State) (k i : Nat) (x : Block) : (s.putBlock k x).launch i = s.launch i := rfl
@[simp] theorem State.launch_putContext (s : State) (k i : Nat) (x : Context) : (s.putContext k x).launch i = s.launch i := rfl
@[simp] theorem State.launch_putCore (s : State) (k i : Nat) (x : Core) : (s.putCore k x).launch i = s.launch i := rfl
@[simp] theorem State.launch_putCluster (s : State) (k i : Nat) (x : Cluster) : (s.putCluster k x).launch i = s.launch i := rfl

@[simp] theorem State.context_putContext_same (s : State) (k : Nat) (x : Context) : (s.putContext k x).context k = x := by
  simp [State.context, mapFind_put_same]
theorem State.context_putContext_ne (s : State) {k i : Nat} (x : Context) (h : i ≠ k) : (s.putContext k x).context i = s.context i := by
  simp [State.context, mapFind_put_ne _ _ h]
@[simp] theorem State.context_putGroup (s : State) (k i : Nat) (x : Group) : (s.putGroup k x).context i = s.context i := rfl
@[simp] theorem State.context_putBlock (s : State) (k i : Nat) (x : Block) : (s.putBlock k x).context i = s.context i := rfl
@[simp] theorem State.context_putLaunch (s : State) (k i : Nat) (x : Launch) : (s.putLaunch k x).context i = s.context i := rfl
@[simp] theorem State.context_putCore (s : State) (k i : Nat) (x : Core) : (s.putCore k x).context i = s.context i := rfl
@[simp] theorem State.context_putCluster (s : State) (k i : Nat) (x : Cluster) : (s.putCluster k x).context i = s.context i := rfl

@[simp] theorem State.core_putCore_same (s : State) (k : Nat) (x : Core) : (s.putCore k x).core k = x := by
  simp [State.core, mapFind_put_same]
theorem State.core_putCore_ne (s : State) {k i : Nat} (x : Core) (h : i ≠ k) : (s.putCore k x).core i = s.core i := by
  simp [State.core, mapFind_put_ne _ _ h]
@[simp] theorem State.core_putGroup (s : State) (k i : Nat) (x : Group) : (s.putGroup k x).core i = s.core i := rfl
@[simp] theorem State.core_putBlock (s : State) (k i : Nat) (x : Block) : (s.putBlock k x).core i = s.core i := rfl
@[simp] theorem State.core_putLaunch (s : State) (k i : Nat) (x : Launch) : (s.putLaunch k x).core i = s.core i := rfl
@[simp] theorem State.core_putContext (s : State) (k i : Nat) (x : Context) : (s.putContext k x).core i = s.core i := rfl
@[simp] theorem State.core_putCluster (s : State) (k i : Nat) (x : Cluster) : (s.putCluster k x).core i = s.core i := rfl

@[simp] theorem State.cluster_putCluster_same (s : State) (k : Nat) (x : Cluster) : (s.putCluster k x).cluster k = x := by
  simp [State.cluster, mapFind_put_same]
theorem State.cluster_putCluster_ne (s : State) {k i : Nat} (x : Cluster) (h : i ≠ k) : (s.putCluster k x).cluster i = s.cluster i := by
  simp [State.cluster, mapFind_put_ne _ _ h]
@[simp] theorem State.cluster_putGroup (s : State) (k i : Nat) (x : Group) : (s.putGroup k x).cluster i = s.cluster i := rfl
@[simp] theorem State.cluster_putBlock (s : State) (k i : Nat) (x : Block) : (s.putBlock k x).cluster i = s.cluster i := rfl
@[simp] theorem State.cluster_putLaunch (s : State) (k i : Nat) (x : Launch) : (s.putLaunch k x).cluster i = s.cluster i := rfl
@[simp] theorem State.cluster_putContext (s : State) (k i : Nat) (x : Context) : (s.putContext k x).cluster i = s.cluster i := rfl
@[simp] theorem State.cluster_putCore (s : State) (k i : Nat) (x : Core) : (s.putCore k x).cluster i = s.cluster i := rfl

@[simp] theorem Group.split_putSplit_same (g : Group) (i : Nat) (sp : Split) : (g.putSplit i sp).split i = sp := by
  simp [Group.split, mapFind_put_same]
theorem Group.split_putSplit_ne (g : Group) {i j : Nat} (sp : Split) (h : j ≠ i) : (g.putSplit i sp).split j = g.split j := by
  simp [Group.split, mapFind_put_ne _ _ h]

/-! ### The current group and split -/

@[simp] theorem State.putCur_agenda (s : State) (g : Group) : (s.putCur g).agenda = s.agenda := rfl
@[simp] theorem State.putCur_cg (s : State) (g : Group) : (s.putCur g).cg = s.cg := rfl
@[simp] theorem State.putCur_cs (s : State) (g : Group) : (s.putCur g).cs = s.cs := rfl
@[simp] theorem State.putCur_now (s : State) (g : Group) : (s.putCur g).now = s.now := rfl
@[simp] theorem State.putCur_groups (s : State) (g : Group) : (s.putCur g).groups = mapPut s.groups s.cg g := rfl
@[simp] theorem State.putCur_blocks (s : State) (g : Group) : (s.putCur g).blocks = s.blocks := rfl
@[simp] theorem State.putCur_launches (s : State) (g : Group) : (s.putCur g).launches = s.launches := rfl
@[simp] theorem State.putCur_contexts (s : State) (g : Group) : (s.putCur g).contexts = s.contexts := rfl
@[simp] theorem State.putCur_cores (s : State) (g : Group) : (s.putCur g).cores = s.cores := rfl
@[simp] theorem State.putCur_clusters (s : State) (g : Group) : (s.putCur g).clusters = s.clusters := rfl
@[simp] theorem State.putCur_lltlb (s : State) (g : Group) : (s.putCur g).lltlb = s.lltlb := rfl
@[simp] theorem State.putCur_mem (s : State) (g : Group) : (s.putCur g).mem = s.mem := rfl
@[simp] theorem State.putCur_hmem (s : State) (g : Group) : (s.putCur g).hmem = s.hmem := rfl
@[simp] theorem State.putCur_poison (s : State) (g : Group) : (s.putCur g).poison = s.poison := rfl
@[simp] theorem State.putCur_lease (s : State) (g : Group) : (s.putCur g).lease = s.lease := rfl
@[simp] theorem State.putCur_joins (s : State) (g : Group) : (s.putCur g).joins = s.joins := rfl
@[simp] theorem State.putCur_xcount (s : State) (g : Group) : (s.putCur g).xcount = s.xcount := rfl
@[simp] theorem State.putCur_frozen (s : State) (g : Group) : (s.putCur g).frozen = s.frozen := rfl
@[simp] theorem State.putCur_nextLid (s : State) (g : Group) : (s.putCur g).nextLid = s.nextLid := rfl
@[simp] theorem State.putCur_nextSeq (s : State) (g : Group) : (s.putCur g).nextSeq = s.nextSeq := rfl
@[simp] theorem State.putCur_nextBlk (s : State) (g : Group) : (s.putCur g).nextBlk = s.nextBlk := rfl
@[simp] theorem State.putCur_nextCmd (s : State) (g : Group) : (s.putCur g).nextCmd = s.nextCmd := rfl
@[simp] theorem State.putCur_dseed (s : State) (g : Group) : (s.putCur g).dseed = s.dseed := rfl
@[simp] theorem State.putCur_dready (s : State) (g : Group) : (s.putCur g).dready = s.dready := rfl
@[simp] theorem State.putCur_bootcode (s : State) (g : Group) : (s.putCur g).bootcode = s.bootcode := rfl
@[simp] theorem State.putCur_fw (s : State) (g : Group) : (s.putCur g).fw = s.fw := rfl
@[simp] theorem State.putCur_images (s : State) (g : Group) : (s.putCur g).images = s.images := rfl
@[simp] theorem State.putCur_fused (s : State) (g : Group) : (s.putCur g).fused = s.fused := rfl
@[simp] theorem State.putCur_mbase (s : State) (g : Group) : (s.putCur g).mbase = s.mbase := rfl
@[simp] theorem State.putCur_corrected (s : State) (g : Group) : (s.putCur g).corrected = s.corrected := rfl
@[simp] theorem State.putCur_uncorrected (s : State) (g : Group) : (s.putCur g).uncorrected = s.uncorrected := rfl
@[simp] theorem State.putCur_lasting (s : State) (g : Group) : (s.putCur g).lasting = s.lasting := rfl
@[simp] theorem State.putCur_hostRefused (s : State) (g : Group) : (s.putCur g).hostRefused = s.hostRefused := rfl
@[simp] theorem State.putCur_logtail (s : State) (g : Group) : (s.putCur g).logtail = s.logtail := rfl
@[simp] theorem State.putCur_log (s : State) (g : Group) : (s.putCur g).log = s.log := rfl
@[simp] theorem State.putCur_coresOut (s : State) (g : Group) : (s.putCur g).coresOut = s.coresOut := rfl
@[simp] theorem State.putCur_sliceOut (s : State) (g : Group) : (s.putCur g).sliceOut = s.sliceOut := rfl
@[simp] theorem State.putCur_march (s : State) (g : Group) : (s.putCur g).march = s.march := rfl
@[simp] theorem State.putCur_coreTests (s : State) (g : Group) : (s.putCur g).coreTests = s.coreTests := rfl
@[simp] theorem State.putCur_sliceTests (s : State) (g : Group) : (s.putCur g).sliceTests = s.sliceTests := rfl
@[simp] theorem State.putCur_slicesIn (s : State) (g : Group) : (s.putCur g).slicesIn = s.slicesIn := rfl
@[simp] theorem State.putCur_hottest (s : State) (g : Group) : (s.putCur g).hottest = s.hottest := rfl
@[simp] theorem State.putCur_codes (s : State) (g : Group) : (s.putCur g).codes = s.codes := rfl
@[simp] theorem State.putCur_trip (s : State) (g : Group) : (s.putCur g).trip = s.trip := rfl
@[simp] theorem State.putCur_critical (s : State) (g : Group) : (s.putCur g).critical = s.critical := rfl
@[simp] theorem State.putCur_shutdown (s : State) (g : Group) : (s.putCur g).shutdown = s.shutdown := rfl
@[simp] theorem State.putCur_halved (s : State) (g : Group) : (s.putCur g).halved = s.halved := rfl
@[simp] theorem State.putCur_shut (s : State) (g : Group) : (s.putCur g).shut = s.shut := rfl
@[simp] theorem State.putCur_vrelnum (s : State) (g : Group) : (s.putCur g).vrelnum = s.vrelnum := rfl
@[simp] theorem State.putCur_heard (s : State) (g : Group) : (s.putCur g).heard = s.heard := rfl
@[simp] theorem State.putCur_openRoutes (s : State) (g : Group) : (s.putCur g).openRoutes = s.openRoutes := rfl
@[simp] theorem State.putCur_rx (s : State) (g : Group) : (s.putCur g).rx = s.rx := rfl
@[simp] theorem State.putCur_rxWait (s : State) (g : Group) : (s.putCur g).rxWait = s.rxWait := rfl
@[simp] theorem State.putCur_filter (s : State) (g : Group) : (s.putCur g).filter = s.filter := rfl
@[simp] theorem State.putCur_vout (s : State) (g : Group) : (s.putCur g).vout = s.vout := rfl
@[simp] theorem State.putCur_hostOut (s : State) (g : Group) : (s.putCur g).hostOut = s.hostOut := rfl
@[simp] theorem State.putCur_hostCt (s : State) (g : Group) : (s.putCur g).hostCt = s.hostCt := rfl
@[simp] theorem State.putCur_hostq (s : State) (g : Group) : (s.putCur g).hostq = s.hostq := rfl
@[simp] theorem State.putCur_hwready (s : State) (g : Group) : (s.putCur g).hwready = s.hwready := rfl
@[simp] theorem State.putCur_svcBase (s : State) (g : Group) : (s.putCur g).svcBase = s.svcBase := rfl
@[simp] theorem State.putCur_svcTail (s : State) (g : Group) : (s.putCur g).svcTail = s.svcTail := rfl
@[simp] theorem State.putCur_svcHead (s : State) (g : Group) : (s.putCur g).svcHead = s.svcHead := rfl
@[simp] theorem State.putCur_svcWait (s : State) (g : Group) : (s.putCur g).svcWait = s.svcWait := rfl
@[simp] theorem State.putCur_svcPosts (s : State) (g : Group) : (s.putCur g).svcPosts = s.svcPosts := rfl
@[simp] theorem State.putCur_ckpt (s : State) (g : Group) : (s.putCur g).ckpt = s.ckpt := rfl
@[simp] theorem State.putCur_lms (s : State) (g : Group) : (s.putCur g).lms = s.lms := rfl
@[simp] theorem State.putCur_attest (s : State) (g : Group) : (s.putCur g).attest = s.attest := rfl
@[simp] theorem State.putCur_free (s : State) (g : Group) : (s.putCur g).free = s.free := rfl
@[simp] theorem State.block_putCur (s : State) (g : Group) (k : Nat) : (s.putCur g).block k = s.block k := rfl
@[simp] theorem State.launch_putCur (s : State) (g : Group) (k : Nat) : (s.putCur g).launch k = s.launch k := rfl
@[simp] theorem State.context_putCur (s : State) (g : Group) (k : Nat) : (s.putCur g).context k = s.context k := rfl
@[simp] theorem State.core_putCur (s : State) (g : Group) (k : Nat) : (s.putCur g).core k = s.core k := rfl
@[simp] theorem State.cluster_putCur (s : State) (g : Group) (k : Nat) : (s.putCur g).cluster k = s.cluster k := rfl
@[simp] theorem State.cur_putCur (s : State) (g : Group) : (s.putCur g).cur = g := by
  simp [State.cur, State.putCur]
@[simp] theorem State.csp_putCur (s : State) (g : Group) : (s.putCur g).csp = g.split s.cs := by
  simp [State.csp, State.cur, State.putCur]
theorem State.group_putCur_ne (s : State) (g : Group) {k : Nat} (h : k ≠ s.cg) : (s.putCur g).group k = s.group k :=
  State.group_putGroup_ne s g h
@[simp] theorem State.csp_putCsp (s : State) (sp : Split) : (s.putCsp sp).csp = sp := by
  simp [State.putCsp]

end Sys2Proof.Machine
end

