-- ==== Sys2Proof/Laws/Ops.lean ====
section
/-! SUPPORT. The laws of the shared operations: lanes, register reads and writes, the tests of registers, retirement, and the
lane-form and group-form register instructions, each said once. -/

set_option Elab.async false

namespace Sys2Proof.Machine
open Sys2Proof

/-! ### Lanes -/

theorem mem_seqFrom {a n k : Nat} : k ∈ seqFrom a n ↔ a ≤ k ∧ k < a + n := by
  induction n generalizing a with
  | zero => simp [seqFrom]
  | succ n ih => simp only [seqFrom, List.mem_cons, ih]; omega

theorem mem_lanesOf {m : LaneMask} {l : Nat} : l ∈ lanesOf m ↔ m.getLsbD l = true := by
  simp only [lanesOf, List.mem_filter, mem_seqFrom]
  constructor
  · exact fun h => h.2
  · intro h
    have : l < 32 := by
      by_contra hl
      rw [BitVec.getLsbD_of_ge m l (by omega)] at h
      cases h
    exact ⟨by omega, h⟩

theorem lt_of_mem_lanesOf {m : LaneMask} {l : Nat} (h : l ∈ lanesOf m) : l < 32 := by
  have := (List.mem_filter.mp h).1
  rw [mem_seqFrom] at this
  omega

/-! ### How a meaning ends -/

@[simp] theorem State.cur_split_cs (s : State) : s.cur.split s.cs = s.csp := rfl

@[simp] theorem guarded_ok (s k : State) (u : Unit) : guarded s (.ok u) k = .next k := rfl
@[simp] theorem guarded_trap (s k : State) (t : Trap) : guarded s (.error (.trap t)) k = .next (s.trapCur t) := rfl
@[simp] theorem guarded_stall (s k : State) (w : StallWhy) : guarded s (.error (.stall w)) k = .next (s.stallCur w) := rfl
@[simp] theorem settle_ok (s t : State) : settle s (.ok t) = .next t := rfl
@[simp] theorem settle_trap (s : State) (t : Trap) : settle s (.error (.trap t)) = .next (s.trapCur t) := rfl
@[simp] theorem settle_stall (s : State) (w : StallWhy) : settle s (.error (.stall w)) = .next (s.stallCur w) := rfl

/-! ### Reading and writing registers -/

/-- Reading a key after a run of writes at the keys `b + l` of some lanes. -/
theorem mapGet_foldl_set (b : Nat) (f : Nat → Word) (ls : List Nat) (m : SMap Word) (k : Nat) :
    mapGet 0 ((ls.map fun l => (l, f l)).foldl (fun m v => mapSet 0 m (b + v.1) v.2) m) k =
      if b ≤ k ∧ k - b ∈ ls then f (k - b) else mapGet 0 m k := by
  induction ls generalizing m with
  | nil => simp
  | cons l r ih =>
    simp only [List.map_cons, List.foldl_cons, ih, mapGet_set, List.mem_cons]
    by_cases h1 : b ≤ k ∧ k - b ∈ r
    · rw [if_pos h1, if_pos ⟨h1.1, Or.inr h1.2⟩]
    · rw [if_neg h1]
      by_cases h2 : k = b + l
      · subst h2
        rw [if_pos rfl, if_pos ⟨by omega, Or.inl (by omega)⟩]
        congr 1; omega
      · rw [if_neg h2, if_neg]
        rintro ⟨hb, hl | hr⟩
        · exact h2 (by omega)
        · exact h1 ⟨hb, hr⟩

/-- What a location holds after a value per lane was written to it. -/
theorem Group.rd_wr_same (g : Group) (loc : RegLoc) (ls : List Nat) (f : Nat → Word) (lane : Nat) :
    (g.wr loc (ls.map fun l => (l, f l))).rd loc lane =
      if loc = .off then 0 else if lane ∈ ls then f lane else g.rd loc lane := by
  cases loc with
  | off => rfl
  | reg n =>
    simp only [Group.wr, Group.rd, mapGet_foldl_set]
    simp
  | hreg n =>
    simp only [Group.wr, Group.rd, mapGet_foldl_set]
    simp

/-- Writing a location leaves every other one. -/
theorem Group.rd_wr_ne (g : Group) {loc other : RegLoc} (ls : List Nat) (f : Nat → Word) {lane : Nat} (h : other ≠ loc)
    (hl : lane < 32) (hls : ∀ l ∈ ls, l < 32) : (g.wr loc (ls.map fun l => (l, f l))).rd other lane = g.rd other lane := by
  have key : ∀ n k : Nat, n ≠ k → ¬ (32 * n ≤ 32 * k + lane ∧ 32 * k + lane - 32 * n ∈ ls) := by
    intro n k hnk hc
    have := hls _ hc.2
    omega
  cases loc with
  | off => rfl
  | reg n =>
    cases other with
    | reg k => simp only [Group.wr, Group.rd, mapGet_foldl_set]; rw [if_neg (key n k fun e => h (by rw [e]))]
    | hreg k => rfl
    | off => rfl
  | hreg n =>
    cases other with
    | hreg k => simp only [Group.wr, Group.rd, mapGet_foldl_set]; rw [if_neg (key n k fun e => h (by rw [e]))]
    | reg k => rfl
    | off => rfl

/-- Writing a location leaves every lane that was not written. -/
theorem Group.rd_wr_lane (g : Group) (loc other : RegLoc) (ls : List Nat) (f : Nat → Word) {lane : Nat} (h : lane ∉ ls)
    (hl : lane < 32) (hls : ∀ l ∈ ls, l < 32) : (g.wr loc (ls.map fun l => (l, f l))).rd other lane = g.rd other lane := by
  by_cases e : other = loc
  · subst e
    rw [Group.rd_wr_same, if_neg h]
    split
    · next ho => subst ho; rfl
    · rfl
  · exact Group.rd_wr_ne g ls f e hl hls

/-- What writing a location changes of a group. -/
theorem Group.wr_frame (g : Group) (loc : RegLoc) (vs : List (Nat × Word)) :
    g.wr loc vs = { g with
      regs := (g.wr loc vs).regs, hregs := (g.wr loc vs).hregs, rpoison := (g.wr loc vs).rpoison
      dirty := (g.wr loc vs).dirty } := by
  cases loc <;> rfl

@[simp] theorem Group.wr_splits (g : Group) (loc : RegLoc) (vs : List (Nat × Word)) : (g.wr loc vs).splits = g.splits := by
  cases loc <;> rfl
@[simp] theorem Group.wr_split (g : Group) (loc : RegLoc) (vs : List (Nat × Word)) (i : Nat) :
    (g.wr loc vs).split i = g.split i := by
  simp [Group.split]
@[simp] theorem Group.wr_retired (g : Group) (loc : RegLoc) (vs : List (Nat × Word)) : (g.wr loc vs).retired = g.retired := by
  cases loc <;> rfl

/-! ### The tests of registers -/

theorem badReg_none {g : Group} {sp : Split} {rs : List Reg} (h : ∀ r ∈ rs, regOk g sp r = true) : badReg g sp rs = none := by
  induction rs with
  | nil => rfl
  | cons r rest ih =>
    have hr := h r (List.mem_cons_self ..)
    simp only [regOk] at hr
    simp only [badReg]
    split at hr
    · next e => rw [e]; exact ih fun x hx => h x (List.mem_cons_of_mem _ hx)
    · cases hr

theorem poisonedReg_none {g : Group} {sp : Split} {rs : List Reg} (h : ∀ r ∈ rs, linePoisoned g (g.loc sp r) = false) :
    poisonedReg g sp rs = none := by
  induction rs with
  | nil => rfl
  | cons r rest ih =>
    have hr := h r (List.mem_cons_self ..)
    have ht := ih fun x hx => h x (List.mem_cons_of_mem _ hx)
    simp only [poisonedReg]
    cases hl : g.loc sp r with
    | reg n =>
      simp only [linePoisoned, hl, decide_eq_false_iff_not, ne_eq, not_not] at hr
      simp only [hr, if_true, ht]
    | hreg n => exact ht
    | off => exact ht

/-- Registers that are ready pass every test (R65, R89, R149, R276). -/
theorem operands_ok {s : State} {ws rs : List Reg} (h : s.regsReady ws rs = true) (m : LaneMask) :
    s.operands m ws rs = .ok () := by
  simp only [State.regsReady, Bool.and_eq_true, List.all_eq_true, Bool.not_eq_true'] at h
  obtain ⟨h1, h2⟩ := h
  have hb : badReg s.cur s.csp (ws ++ rs) = none := badReg_none fun r hr => (h1 r hr).1
  have hp : poisonedReg s.cur s.csp rs = none := poisonedReg_none h2
  have hs : ((ws ++ rs).any fun r => s.cur.busy s.csp.members (s.cur.loc s.csp r) || s.rowTested (s.cur.loc s.csp r)) = false := by
    rw [List.any_eq_false]
    exact fun r hr => by simp [(h1 r hr).2.1, (h1 r hr).2.2]
  simp only [State.operands, hb, hs, hp]
  rfl

/-! ### Retirement -/

/-- What retiring changes of a group. -/
theorem Group.retire_frame (g : Group) (sp : Split) (q : Nat) :
    g.retire sp q = { g with
      retired := (g.retire sp q).retired, qcount := (g.retire sp q).qcount, qended := (g.retire sp q).qended } := by
  unfold Group.retire
  split
  · rfl
  · split <;> rfl

theorem Group.retire_retired (g : Group) (sp : Split) (q : Nat) :
    (g.retire sp q).retired = if sp.sup then g.retired else g.retired + 1 := by
  unfold Group.retire
  split
  · rfl
  · split <;> rfl

@[simp] theorem Group.retire_split (g : Group) (sp : Split) (q i : Nat) : (g.retire sp q).split i = g.split i := by
  rw [Group.retire_frame]; rfl
@[simp] theorem Group.retire_rd (g : Group) (sp : Split) (q : Nat) (loc : RegLoc) (l : Nat) :
    (g.retire sp q).rd loc l = g.rd loc l := by
  rw [Group.retire_frame]; cases loc <;> rfl

@[simp] theorem Group.putSplit_rd (g : Group) (i : Nat) (sp : Split) (loc : RegLoc) (l : Nat) :
    (g.putSplit i sp).rd loc l = g.rd loc l := by cases loc <;> rfl

/-! ### The two shapes of register instruction -/

/-- `RegisterStep` for writing one location and going on at `pc`. -/
theorem registerStep_jump (s : State) (r : Reg) (ls : List Nat) (f : Nat → Word) (m : LaneMask) (pc : Dword)
    (hls : ∀ l ∈ ls, m.getLsbD l = true) :
    RegisterStep s ((s.putCur (s.cur.wr (s.cur.loc s.csp r) (ls.map fun l => (l, f l)))).jump pc) [r] m pc := by
  have hlt : ∀ l ∈ ls, l < 32 := fun l hl => lt_of_mem_lanesOf (mem_lanesOf.mpr (hls l hl))
  refine ⟨⟨rfl, fun k hk => ?_⟩, fun q => ?_, ?_, ?_, ?_, fun i hi => ?_, fun loc lane hl ho => ?_⟩
  · simp only [State.jump]
    rw [State.group_putCur_ne _ _ (by simpa using hk), State.group_putCur_ne _ _ hk]
  · cases q <;> rfl
  · simp [Retired, State.jump, Group.retire_retired]
  · simp only [State.jump, State.cur_putCur]
    rw [Group.retire_frame, Group.wr_frame]
    rfl
  · simp [State.jump]
  · simp only [State.jump, State.cur_putCur, State.putCur_cs]
    rw [Group.split_putSplit_ne _ _ hi]
    simp
  · simp only [State.jump, State.cur_putCur, Group.putSplit_rd, Group.retire_rd]
    rcases ho with ho | ho
    · exact Group.rd_wr_ne _ ls f (by simpa using ho) hl hlt
    · exact Group.rd_wr_lane _ _ _ ls f (fun h => by rw [hls _ h] at ho; cases ho) hl hlt

/-- `RegisterStep` for going on at `pc` with nothing written. -/
theorem registerStep_jump0 (s : State) (pc : Dword) : RegisterStep s (s.jump pc) [] 0 pc := by
  refine ⟨⟨rfl, fun k hk => ?_⟩, fun q => ?_, ?_, ?_, ?_, fun i hi => ?_, fun loc lane hl ho => ?_⟩
  · simp only [State.jump]
    rw [State.group_putCur_ne _ _ (by simpa using hk)]
  · cases q <;> rfl
  · simp [Retired, State.jump, Group.retire_retired]
  · simp only [State.jump, State.cur_putCur]
    rw [Group.retire_frame]
    rfl
  · simp [State.jump]
  · simp only [State.jump, State.cur_putCur]
    rw [Group.split_putSplit_ne _ _ hi]
    simp
  · simp only [State.jump, State.cur_putCur, Group.putSplit_rd, Group.retire_rd]

/-- `RegisterStep` for writing one location and going on behind the instruction. -/
theorem registerStep_advance (s : State) (r : Reg) (ls : List Nat) (f : Nat → Word) (m : LaneMask)
    (hls : ∀ l ∈ ls, m.getLsbD l = true) :
    RegisterStep s (s.putCur (s.cur.wr (s.cur.loc s.csp r) (ls.map fun l => (l, f l)))).advance [r] m (s.csp.pc + 4) := by
  have h := registerStep_jump s r ls f m (s.csp.pc + 4) hls
  rw [State.advance, State.csp_putCur, Group.wr_split]
  exact h

/-- A lane-form register instruction whose registers are ready (R89): every active lane gets its value, and nothing else
changes. -/
theorem laneOp_next {s : State} {d : Reg} {reads : List Reg} (f : Nat → Word) (h : s.regsReady [d] reads = true) :
    ∃ t, laneOp s d reads f = .next t ∧ RegisterStep s t [d] s.active (s.csp.pc + 4) ∧
      ∀ lane, s.active.getLsbD lane = true → s.regAt t d lane = s.kept d (f lane) := by
  refine ⟨(s.putLanes d f).advance, ?_, ?_, fun lane hl => ?_⟩
  · simp only [laneOp, State.laneRegs, operands_ok h, guarded_ok]
  · exact registerStep_advance s d _ f _ fun l hl => mem_lanesOf.mp hl
  · simp only [State.regAt, State.kept, State.putLanes, State.advance, State.jump, State.cur_putCur, Group.putSplit_rd,
      Group.retire_rd, Group.rd_wr_same, mem_lanesOf, hl, if_true]

/-- A group-form register instruction whose registers are ready (R65): every member lane gets the value, and nothing else
changes. -/
theorem groupOp_next {s : State} {d : Reg} {reads : List Reg} (v : Word) (h : s.regsReady [d] reads = true) :
    ∃ t, groupOp s d reads v = .next t ∧ RegisterStep s t [d] s.csp.members (s.csp.pc + 4) ∧
      ∀ lane, s.csp.members.getLsbD lane = true → s.regAt t d lane = s.kept d v := by
  refine ⟨(s.put d v).advance, ?_, ?_, fun lane hl => ?_⟩
  · simp only [groupOp, State.groupRegs, operands_ok h, guarded_ok]
  · exact registerStep_advance s d _ (fun _ => v) _ fun l hl => mem_lanesOf.mp hl
  · simp only [State.regAt, State.kept, State.put, State.advance, State.jump, State.cur_putCur, Group.putSplit_rd,
      Group.retire_rd, Group.rd_wr_same s.cur _ _ (fun _ => v), mem_lanesOf, hl, if_true]

/-! ### Lane-indexed tables: generators and nesting counters -/

/-- Reading a lane after one write per lane of a list. -/
theorem mapGet_foldl_lanes {α : Type} [DecidableEq α] (d : α) (f : Nat → α) (ls : List Nat) (m : SMap α) (k : Nat) :
    mapGet d (ls.foldl (fun m l => mapSet d m l (f l)) m) k = if k ∈ ls then f k else mapGet d m k := by
  induction ls generalizing m with
  | nil => simp
  | cons l r ih =>
    simp only [List.foldl_cons, ih, mapGet_set, List.mem_cons]
    by_cases h1 : k ∈ r
    · simp [h1]
    · by_cases h2 : k = l
      · subst h2; simp
      · simp [h1, h2]

@[simp] theorem State.putCur_putCur (s : State) (g h : Group) : (s.putCur g).putCur h = s.putCur h := by
  simp [State.putCur, State.putGroup]

/-- A change of the generators commutes with retirement. -/
theorem advance_gen (v : State) (G : SMap Word) :
    (v.putCur { v.cur with gen := G }).advance = v.advance.putCur { v.advance.cur with gen := G } := by
  have ho : (v.putCur { v.cur with gen := G }).ordQ v.cg = v.ordQ v.cg := by
    have : ((v.putCur { v.cur with gen := G }).group v.cg).blk = (v.group v.cg).blk := by
      show (v.putCur { v.cur with gen := G }).cur.blk = _
      rw [State.cur_putCur]; rfl
    simp only [State.ordQ, this]; rfl
  simp only [State.advance, State.jump, State.putCur_putCur, State.cur_putCur, State.csp_putCur, State.putCur_cg, State.putCur_cs, ho]
  congr 1
  show ({ v.cur with gen := G }.retire v.csp _).putSplit _ _ = { (v.cur.retire v.csp _).putSplit _ _ with gen := G }
  unfold Group.retire
  split
  · rfl
  · split <;> rfl

/-- `GeneratorStep` from the same step without the generators. -/
theorem generatorStep_of_registerStep {s w : State} {ds : List Reg} {m : LaneMask} {pc : Dword} (h : RegisterStep s w ds m pc)
    (G : SMap Word) (hG : ∀ lane, m.getLsbD lane = false → mapGet 0 G lane = s.genOf lane) :
    GeneratorStep s (w.putCur { w.cur with gen := G }) ds m pc := by
  obtain ⟨⟨h1, h1'⟩, h2, h3, h4, h5, h6, h7⟩ := h
  have hcg : w.cg = s.cg := by rw [h1]
  have hcs : w.cs = s.cs := by rw [h1]
  refine ⟨⟨?_, fun k hk => ?_⟩, fun q => ?_, ?_, ?_, ?_, fun i hi => ?_, fun lane hl => ?_, fun loc lane hl ho => ?_⟩
  · rw [h1]; rfl
  · rw [State.group_putCur_ne _ _ (by rw [hcg]; exact hk)]; exact h1' k hk
  · rw [← h2 q]; cases q <;> rfl
  · simpa [Retired] using h3
  · rw [State.cur_putCur]
    show _ = { s.cur with
      regs := w.cur.regs, hregs := w.cur.hregs, rpoison := w.cur.rpoison, dirty := w.cur.dirty, gen := G
      retired := w.cur.retired, qcount := w.cur.qcount, qended := w.cur.qended, splits := w.cur.splits }
    generalize w.cur = c at h4 ⊢
    rw [h4]
  · rw [← h5, State.csp_putCur]; rfl
  · rw [← h6 i hi, State.cur_putCur]; rfl
  · rw [← hG lane hl, State.genOf, State.cur_putCur]
  · rw [← h7 loc lane hl ho, State.cur_putCur]; cases loc <;> rfl

/-- A lane-form instruction that rounds (R57, R104) and whose registers are ready: every active lane gets its result and its new
generator state, and nothing else changes. -/
theorem laneGenOp_next {s : State} {d : Reg} {reads : List Reg} (f : Nat → Word → Word × Word)
    (h : s.regsReady [d] reads = true) :
    ∃ t, laneGenOp s d reads f = .next t ∧ GeneratorStep s t [d] s.active (s.csp.pc + 4) ∧
      ∀ lane, s.active.getLsbD lane = true →
        s.regAt t d lane = s.kept d (f lane (s.genOf lane)).1 ∧ t.genOf lane = (f lane (s.genOf lane)).2 := by
  let u := s.putLanes d fun l => (f l (s.genOf l)).1
  let G := (lanesOf s.active).foldl (fun m l => mapSet 0 m l (f l (s.genOf l)).2) s.cur.gen
  have e1 : u.csp = s.csp := by simp only [u, State.putLanes, State.csp_putCur, Group.wr_split]; rfl
  have e2 : u.cur = s.cur.wr (s.cur.loc s.csp d) ((lanesOf s.active).map fun l => (l, (f l (s.genOf l)).1)) := by
    simp only [u, State.putLanes, State.cur_putCur]
  have hu : u.active = s.active := by
    have : u.cur.cnt = s.cur.cnt := by rw [e2, Group.wr_frame]
    simp only [State.active, Group.active, e1, this]
  have hg : u.cur.gen = s.cur.gen := by rw [e2, Group.wr_frame]
  have hput : u.putGen (fun l => (f l (s.genOf l)).2) = u.putCur { u.cur with gen := G } := by
    simp only [State.putGen, hu, hg]; rfl
  have hstep := registerStep_advance s d (lanesOf s.active) (fun l => (f l (s.genOf l)).1) s.active fun l hl => mem_lanesOf.mp hl
  have hG : ∀ lane, mapGet 0 G lane = if lane ∈ lanesOf s.active then (f lane (s.genOf lane)).2 else s.genOf lane :=
    fun lane => mapGet_foldl_lanes 0 (fun l => (f l (s.genOf l)).2) _ _ _
  refine ⟨u.advance.putCur { u.advance.cur with gen := G }, ?_, ?_, fun lane hl => ⟨?_, ?_⟩⟩
  · simp only [laneGenOp, State.laneRegs, operands_ok h, guarded_ok]
    rw [← advance_gen, ← hput]
  · exact generatorStep_of_registerStep hstep G fun lane hl => by rw [hG, if_neg (by rw [mem_lanesOf, hl]; simp)]
  · simp only [State.regAt, State.kept, State.cur_putCur]
    have : ∀ loc, ({ u.advance.cur with gen := G } : Group).rd loc lane = u.advance.cur.rd loc lane := fun loc => by cases loc <;> rfl
    rw [this]
    simp only [State.advance, State.jump, State.cur_putCur, Group.putSplit_rd, Group.retire_rd, e2, Group.rd_wr_same, mem_lanesOf, hl,
      if_true]
  · rw [State.genOf, State.cur_putCur, hG, if_pos (mem_lanesOf.mpr hl)]

end Sys2Proof.Machine
end

