-- ==== Sys2Proof/Laws/Memory.lean ====
section
/-! SUPPORT. The laws of memory: byte strings, reads after writes, what a performed write leaves unchanged, and that every memory
operation keeps the canonical form. -/

set_option Elab.async false

namespace Sys2Proof.Machine
open Sys2Proof

/-! ### Byte strings -/

@[simp] theorem leBytes_length (n v : Nat) : (leBytes n v).length = n := by
  induction n generalizing v with
  | zero => rfl
  | succ n ih => simp [leBytes, ih]

theorem leNat_leBytes (n v : Nat) : leNat (leBytes n v) = v % 256 ^ n := by
  induction n generalizing v with
  | zero => simp [leBytes, leNat, Nat.mod_one]
  | succ n ih =>
    simp only [leBytes, leNat, ih, BitVec.toNat_ofNat]
    rw [show 256 ^ (n + 1) = 256 * 256 ^ n by ring, Nat.mod_mul]

/-- Reading a key after a run of bytes was written. -/
theorem mapGet_putBytes (bs : List Byte) (m : SMap Byte) (a k : Nat) :
    mapGet zeroByte (putBytes m a bs) k = if a ≤ k ∧ k < a + bs.length then bs.getD (k - a) 0 else mapGet zeroByte m k := by
  induction bs generalizing m a with
  | nil => simp only [putBytes, List.length_nil, Nat.add_zero]; rw [if_neg (by omega)]
  | cons b r ih =>
    simp only [putBytes, ih, mapGet_set, List.length_cons]
    by_cases h1 : a + 1 ≤ k ∧ k < a + 1 + r.length
    · rw [if_pos h1, if_pos ⟨by omega, by omega⟩]
      obtain ⟨j, hj⟩ : ∃ j, k - a = j + 1 := ⟨k - a - 1, by omega⟩
      rw [hj, List.getD_cons_succ]
      congr 1; omega
    · rw [if_neg h1]
      by_cases h2 : k = a
      · subst h2
        rw [if_pos rfl, if_pos ⟨by omega, by omega⟩]; simp
      · rw [if_neg h2, if_neg (by omega)]

theorem putBytes_wf {m : SMap Byte} (bs : List Byte) (a : Nat) (h : mapWf zeroByte m = true) :
    mapWf zeroByte (putBytes m a bs) = true := by
  induction bs generalizing m a with
  | nil => exact h
  | cons b r ih => exact ih (a + 1) (mapSet_wf a b h)

/-! ### One write -/

theorem pokeBytes_byteAt (s : State) (p : Place) (bs : List Byte) (q : Place) :
    (s.pokeBytes p bs).byteAt q 0 = (byteOf { place := p, bytes := bs } q).getD (s.byteAt q 0) := by
  cases p with
  | glob a va =>
    cases q with
    | glob b vb =>
      simp only [State.pokeBytes, State.byteAt, mapGet_putBytes, byteOf, Nat.add_zero]
      split <;> rfl
    | scr d b => rfl
    | host b => rfl
  | scr c a =>
    cases q with
    | glob b vb => rfl
    | scr d b =>
      simp only [State.pokeBytes, State.byteAt, byteOf, Nat.add_zero]
      by_cases hc : c = d
      · subst hc
        rw [State.core_putCore_same]
        simp only [mapGet_putBytes, true_and]
        split <;> rfl
      · rw [State.core_putCore_ne _ _ (fun h => hc h.symm), if_neg (fun h => hc h.1)]; rfl
    | host b => rfl
  | host a =>
    cases q with
    | glob b vb => rfl
    | scr d b => rfl
    | host b =>
      simp only [State.pokeBytes, State.byteAt, mapGet_putBytes, byteOf, Nat.add_zero]
      split <;> rfl

/-- A core's record changes and its scratchpad does not. -/
theorem putCore_byteAt (s : State) (c : Nat) (co : Core) (h : co.scratch = (s.core c).scratch) (q : Place) :
    (s.putCore c co).byteAt q 0 = s.byteAt q 0 := by
  cases q with
  | glob b vb => rfl
  | scr d b =>
    simp only [State.byteAt]
    by_cases hd : d = c
    · subst hd; rw [State.core_putCore_same, h]
    · rw [State.core_putCore_ne _ _ hd]
  | host b => rfl

theorem updateCopies_byteAt (s : State) (c : Nat) (pins : Bool) (pa : Nat) (bs : List Byte) (q : Place) :
    (s.updateCopies c pins pa bs).byteAt q 0 = s.byteAt q 0 := by
  simp only [State.updateCopies]
  by_cases h : ((s.core c).l1.isEmpty && (s.core c).pins.isEmpty) = true
  · rw [if_pos h]
  · rw [if_neg h]; exact putCore_byteAt s c _ (by rfl) q

/-! ### Monitors -/

/-- Of every core at most the bundle queue has changed. -/
def SameButQueues (s t : State) : Prop := ∀ k, t.core k = { s.core k with bqueue := (t.core k).bqueue }

theorem SameButQueues.refl (s : State) : SameButQueues s s := fun _ => rfl

theorem SameButQueues.trans {s t u : State} (h1 : SameButQueues s t) (h2 : SameButQueues t u) : SameButQueues s u := by
  intro k
  rw [h2 k, h1 k]

theorem SameButQueues.of_cores {s t : State} (h : t.cores = s.cores) : SameButQueues s t := by
  intro k
  rw [show t.core k = s.core k by simp only [State.core, h]]

theorem SameButQueues.putCore (s : State) (c : Nat) (q : List QueueReq) : SameButQueues s (s.putCore c { s.core c with bqueue := q }) := by
  intro k
  by_cases h : k = c
  · subst h; simp
  · rw [State.core_putCore_ne _ _ h]

/-- What a woken or failed wait, and a latched dependence, may change. -/
def MonitorFrame (s t : State) : Prop :=
  t = { s with groups := t.groups, blocks := t.blocks, launches := t.launches, contexts := t.contexts, cores := t.cores
               svcWait := t.svcWait, log := t.log, logtail := t.logtail } ∧
  SameButQueues s t ∧ ∀ k, (s.group k).wait = none → t.group k = s.group k

theorem MonitorFrame.refl (s : State) : MonitorFrame s s := ⟨rfl, .refl s, fun _ _ => rfl⟩

theorem MonitorFrame.trans {s t u : State} (h1 : MonitorFrame s t) (h2 : MonitorFrame t u) : MonitorFrame s u := by
  refine ⟨?_, h1.2.1.trans h2.2.1, fun k hk => ?_⟩
  · have e2 := h2.1
    rw [h1.1] at e2
    exact e2
  · have := h1.2.2 k hk
    rw [h2.2.2 k (by rw [this]; exact hk), this]

theorem markReady_frame (s : State) (bk : Nat) : MonitorFrame s (markReady s bk) := by
  unfold markReady
  simp only
  split
  · exact ⟨rfl, .of_cores rfl, fun _ _ => rfl⟩
  · exact .refl s

theorem putGroup_frame {s : State} {k : Nat} (g : Group) (h : (s.group k).wait ≠ none) : MonitorFrame s (s.putGroup k g) :=
  ⟨rfl, .of_cores rfl, fun _ hi => State.group_putGroup_ne _ _ (fun e => h (e ▸ hi))⟩

theorem endWait_frame (s : State) (k : Nat) (w st : Word) : MonitorFrame s (endWait s k w st) := by
  unfold endWait
  simp only
  split
  · exact .refl s
  · next r hr => exact (putGroup_frame _ (by rw [hr]; simp)).trans (markReady_frame _ _)

/-- What a fault of a group may change: the group, the service queue, bundle queues, the context and the fault log. -/
def FaultFrame (s : State) (k : Nat) (t : State) : Prop :=
  t = { s with groups := t.groups, contexts := t.contexts, cores := t.cores, svcWait := t.svcWait, log := t.log, logtail := t.logtail } ∧
    SameButQueues s t ∧ ∀ j, j ≠ k → t.group j = s.group j

theorem putGroup_faultFrame (s : State) (k : Nat) (g : Group) : FaultFrame s k (s.putGroup k g) :=
  ⟨rfl, .of_cores rfl, fun _ hj => State.group_putGroup_ne _ _ hj⟩

theorem FaultFrame.trans {s t u : State} {k : Nat} (h1 : FaultFrame s k t) (h2 : FaultFrame t k u) : FaultFrame s k u := by
  refine ⟨?_, h1.2.1.trans h2.2.1, fun j hj => (h2.2.2 j hj).trans (h1.2.2 j hj)⟩
  have e := h2.1
  rw [h1.1] at e
  exact e

/-- A group that double-faults stops, and its requests leave the bundle queue (R275, R354). -/
theorem doubleFault_faultFrame (s : State) (k i : Nat) : FaultFrame s k (doubleFault s k i) := by
  have tail : ∀ (u : State) (w : List SvcRec) (b : Bool) (no c : Nat) (x : Context), FaultFrame u k
      (if b then ({ u with svcWait := w } : State).logRecord 7 no 0xFFFF 0 else ({ u with svcWait := w } : State).putContext c x) := by
    intro u w b no c x
    split <;> exact ⟨rfl, .of_cores rfl, fun _ _ => rfl⟩
  have drop : ∀ (u : State) (c : Nat), FaultFrame u k (if (u.core c).bqueue.isEmpty then u
      else u.putCore c { u.core c with bqueue := (u.core c).bqueue.filter fun r => decide (r.g ≠ k) }) := by
    intro u c
    split
    · exact ⟨rfl, .refl _, fun _ _ => rfl⟩
    · exact ⟨rfl, .putCore _ _ _, fun _ _ => rfl⟩
  exact ((putGroup_faultFrame s k _).trans (drop _ _)).trans (tail _ _ _ _ _ _)

theorem takeFrame_faultFrame (s : State) (k i : Nat) (t : Trap) : FaultFrame s k (takeFrame s k i t) := by
  unfold takeFrame
  split
  · exact (putGroup_faultFrame s k _).trans (putGroup_faultFrame _ k _)
  · exact putGroup_faultFrame s k _

/-- The parts of the device that a fault of a group may change. -/
theorem takeFault_parts (s : State) (k i : Nat) (t : Trap) : FaultFrame s k (takeFault s k i t) := by
  unfold takeFault
  simp only
  split
  · exact doubleFault_faultFrame s k i
  · split
    · exact (putGroup_faultFrame s k _).trans (takeFrame_faultFrame _ k i t)
    · split
      · exact putGroup_faultFrame s k _
      · exact takeFrame_faultFrame s k i t

theorem takeFault_frame {s : State} {k : Nat} (g : Group) (i : Nat) (t : Trap) (h : (s.group k).wait ≠ none) :
    MonitorFrame s (takeFault (s.putGroup k g) k i t) := by
  obtain ⟨h1, hq, h2⟩ := (putGroup_faultFrame s k g).trans (takeFault_parts (s.putGroup k g) k i t)
  refine ⟨?_, hq, fun j hj => h2 j fun e => h (e ▸ hj)⟩
  rw [h1]

theorem faultWait_frame (s : State) (k d : Nat) : MonitorFrame s (faultWait s k d) := by
  simp only [faultWait]
  split
  · exact .refl s
  · next r hr => exact (takeFault_frame _ _ _ (by rw [hr]; simp)).trans (markReady_frame _ _)

theorem evalWait_frame (s : State) (k : Nat) (ws : List ByteWrite) : MonitorFrame s (evalWait s k ws) := by
  simp only [evalWait]
  split
  · exact .refl s
  · split
    · exact .refl s
    · split
      · exact faultWait_frame s k 7
      · split
        · exact endWait_frame ..
        · exact .refl s

theorem evalDep_frame (s : State) (l : Nat) (ws : List ByteWrite) : MonitorFrame s (evalDep s l ws) := by
  simp only [evalDep]
  split
  · exact .refl s
  · split
    · exact .refl s
    · split
      · exact ⟨rfl, .of_cores rfl, fun _ _ => rfl⟩
      · exact .refl s

theorem foldl_frame {α : Type} (f : State → α → State) (hf : ∀ s a, MonitorFrame s (f s a)) (l : List α) (s : State) :
    MonitorFrame s (l.foldl f s) := by
  induction l generalizing s with
  | nil => exact .refl s
  | cons a r ih => exact (hf s a).trans (ih _)

/-- Waits that end and dependences that latch change no memory, and no group that has no wait. -/
theorem evalMonitors_frame (s : State) (ws : List ByteWrite) : MonitorFrame s (evalMonitors s ws) := by
  refine (foldl_frame _ (fun s e => ?_) _ _).trans (foldl_frame _ (fun s e => ?_) _ _)
  · by_cases h : e.2.wait.isSome = true
    · simp only [h, if_true]; exact evalWait_frame ..
    · rw [if_neg h]; exact .refl s
  · by_cases h : e.2.dep.isSome = true
    · simp only [h, if_true]; exact evalDep_frame ..
    · rw [if_neg h]; exact .refl s

theorem MonitorFrame.byteAt {s t : State} (h : MonitorFrame s t) (q : Place) (i : Nat) : t.byteAt q i = s.byteAt q i := by
  cases q with
  | glob a v => rw [h.1]; rfl
  | scr c a => show mapGet zeroByte (t.core c).scratch (a + i) = mapGet zeroByte (s.core c).scratch (a + i); rw [h.2.1 c]
  | host a => rw [h.1]; rfl

/-! ### Performed writes -/

/-- One write of a run, with the copies that it updates. -/
def State.performOne (core : Option Nat) (pins : Bool) (s : State) (w : ByteWrite) : State :=
  let s := s.pokeBytes w.place w.bytes
  match core, w.place with
  | some c, .glob pa _ => s.updateCopies c pins pa w.bytes
  | _, _ => s

theorem perform_eq (s : State) (core : Option Nat) (pins : Bool) (ws : List ByteWrite) :
    s.perform core pins ws = evalMonitors (ws.foldl (State.performOne core pins) s) ws := rfl

theorem performOne_byteAt (core : Option Nat) (pins : Bool) (s : State) (w : ByteWrite) (q : Place) :
    (State.performOne core pins s w).byteAt q 0 = (byteOf w q).getD (s.byteAt q 0) := by
  obtain ⟨p, bs⟩ := w
  have hp := pokeBytes_byteAt s p bs q
  cases core with
  | none => exact hp
  | some c =>
    cases p with
    | glob pa va => exact (updateCopies_byteAt ..).trans hp
    | scr _ _ => exact hp
    | host _ => exact hp

/-- The memory after writes were performed (R150): each byte is that of the last write that covers it, else what it was. -/
theorem perform_byteAt (s : State) (core : Option Nat) (pins : Bool) (ws : List ByteWrite) (q : Place) :
    (s.perform core pins ws).byteAt q 0 = (byteAfter ws q).getD (s.byteAt q 0) := by
  rw [perform_eq, (evalMonitors_frame ..).byteAt]
  induction ws generalizing s with
  | nil => rfl
  | cons w r ih =>
    rw [List.foldl_cons, ih, performOne_byteAt]
    simp only [byteAfter]
    cases byteAfter r q <;> rfl

theorem byteOf_none {w : ByteWrite} {q : Place} (h : placesMeet w.place w.bytes.length q 1 = false) : byteOf w q = none := by
  obtain ⟨p, bs⟩ := w
  cases p <;> cases q <;>
    simp only [placesMeet, Bool.and_eq_false_iff, decide_eq_false_iff_not] at h <;> simp only [byteOf] <;>
    first
      | rw [if_neg (by omega)]

/-- Memory outside performed writes stays. -/
theorem perform_outside {s : State} (core : Option Nat) (pins : Bool) {ws : List ByteWrite} : SameOutside ws s (s.perform core pins ws) := by
  intro q hq
  rw [perform_byteAt]
  have : byteAfter ws q = none := by
    induction ws with
    | nil => rfl
    | cons w r ih =>
      simp only [byteAfter, ih fun x hx => hq x (List.mem_cons_of_mem _ hx), byteOf_none (hq w (List.mem_cons_self ..))]
  rw [this]; rfl

/-- What performed writes may change beside memory. -/
theorem perform_parts (s : State) (core : Option Nat) (pins : Bool) (ws : List ByteWrite) :
    (s.perform core pins ws) = { s with
      mem := (s.perform core pins ws).mem, hmem := (s.perform core pins ws).hmem, poison := (s.perform core pins ws).poison
      cores := (s.perform core pins ws).cores, groups := (s.perform core pins ws).groups
      blocks := (s.perform core pins ws).blocks, launches := (s.perform core pins ws).launches
      contexts := (s.perform core pins ws).contexts, svcWait := (s.perform core pins ws).svcWait
      log := (s.perform core pins ws).log, logtail := (s.perform core pins ws).logtail } ∧
    ∀ k, (s.group k).wait = none → (s.perform core pins ws).group k = s.group k := by
  have key : ∀ (l : List ByteWrite) (s : State), (l.foldl (State.performOne core pins) s) = { s with
      mem := (l.foldl (State.performOne core pins) s).mem, hmem := (l.foldl (State.performOne core pins) s).hmem
      poison := (l.foldl (State.performOne core pins) s).poison, cores := (l.foldl (State.performOne core pins) s).cores } := by
    intro l
    induction l with
    | nil => intro s; rfl
    | cons w r ih =>
      intro s
      rw [List.foldl_cons, ih]
      have h1 : State.performOne core pins s w = { s with
          mem := (State.performOne core pins s w).mem, hmem := (State.performOne core pins s w).hmem
          poison := (State.performOne core pins s w).poison, cores := (State.performOne core pins s w).cores } := by
        obtain ⟨p, bs⟩ := w
        cases core with
        | none => cases p <;> rfl
        | some c =>
          cases p with
          | glob pa va =>
            simp only [State.performOne, State.updateCopies]
            split
            · rfl
            · rfl
          | scr _ _ => rfl
          | host _ => rfl
      rw [h1]
  obtain ⟨m1, -, m2⟩ := evalMonitors_frame (ws.foldl (State.performOne core pins) s) ws
  rw [← perform_eq] at m1 m2
  have hk := key ws s
  generalize ws.foldl (State.performOne core pins) s = u at *
  refine ⟨?_, fun k hw => ?_⟩
  · rw [m1, hk]
  · have : u.group k = s.group k := by rw [hk]; rfl
    rw [m2 k (by rw [this]; exact hw), this]

/-! ### The canonical form -/

/-- The canonical form of every memory: device memory, host memory, and every scratchpad and copy stays aside. -/
theorem perform_memWf {s : State} (core : Option Nat) (pins : Bool) (ws : List ByteWrite) (h : s.memWf = true) :
    (s.perform core pins ws).memWf = true := by
  have hm := (evalMonitors_frame (ws.foldl (State.performOne core pins) s) ws).1
  rw [← perform_eq] at hm
  have : (ws.foldl (State.performOne core pins) s).memWf = true := by
    clear hm
    induction ws generalizing s with
    | nil => exact h
    | cons w r ih =>
      refine ih ?_
      obtain ⟨p, bs⟩ := w
      simp only [State.memWf, Memory.wf, Bool.and_eq_true] at h ⊢
      have hu : ∀ (u : State) (c pa : Nat), (u.updateCopies c pins pa bs).mem = u.mem ∧ (u.updateCopies c pins pa bs).hmem = u.hmem := by
        intro u c pa
        simp only [State.updateCopies]
        split
        · exact ⟨rfl, rfl⟩
        · exact ⟨rfl, rfl⟩
      cases p with
      | glob pa va =>
        cases core with
        | none => exact ⟨putBytes_wf _ _ h.1, h.2⟩
        | some c =>
          simp only [State.performOne, hu]
          exact ⟨putBytes_wf _ _ h.1, h.2⟩
      | scr c a => cases core <;> exact h
      | host a => cases core <;> exact ⟨h.1, putBytes_wf _ _ h.2⟩
  rw [hm]
  exact this

/-! ### Writes of the device's own units -/

/-- The writes of the device's own units that take place. -/
def State.permitted (s : State) (ws : List ByteWrite) : List ByteWrite :=
  ws.filter fun w => match w.place with
    | .glob pa _ => !s.execPage pa
    | _ => true

theorem devPut_eq (s : State) (ws : List ByteWrite) : s.devPut ws = s.perform none false (s.permitted ws) := rfl

/-- A write of the device's own units to no executable or frozen page is performed. -/
theorem devPut_of_free {s : State} {ws : List ByteWrite} (h : ∀ w ∈ ws, ∀ pa va, w.place = .glob pa va → s.execPage pa = false) :
    s.devPut ws = s.perform none false ws := by
  have : s.permitted ws = ws := by
    refine List.filter_eq_self.2 fun w hw => ?_
    split
    · rename_i pa va hp
      simp [h w hw pa va hp]
    · rfl
  rw [devPut_eq, this]

theorem devPut_byteAt (s : State) (ws : List ByteWrite) (q : Place) :
    (s.devPut ws).byteAt q 0 = (byteAfter (s.permitted ws) q).getD (s.byteAt q 0) := perform_byteAt ..

theorem devPut_outside {s : State} {ws : List ByteWrite} : SameOutside ws s (s.devPut ws) := fun q hq =>
  perform_outside none false q fun w hw => hq w (List.mem_of_mem_filter hw)

theorem devPut_memWf {s : State} (ws : List ByteWrite) (h : s.memWf = true) : (s.devPut ws).memWf = true :=
  perform_memWf none false _ h

end Sys2Proof.Machine
end

