-- ==== Sys2Proof/Laws/Access.lean ====
section
/-! SUPPORT. The laws of operands in memory: reading handles, translating and the common access procedure fill caches and change nothing
else (R139, R147, R298). -/

set_option Elab.async false

namespace Sys2Proof.Machine
open Sys2Proof

theorem CachesFilled.refl (s : State) : CachesFilled s s := ⟨rfl, fun _ => rfl, fun _ => rfl⟩

theorem CachesFilled.trans {s t u : State} (h1 : CachesFilled s t) (h2 : CachesFilled t u) : CachesFilled s u := by
  refine ⟨?_, fun k => ?_, fun k => ?_⟩
  · have e := h2.1
    rw [h1.1] at e
    exact e
  · rw [h2.2.1 k, h1.2.1 k]
  · rw [h2.2.2 k, h1.2.2 k]

/-- A core's handle cache changes. -/
theorem cachesFilled_core (s : State) (c : Nat) (hc : List HandleEnt) :
    CachesFilled s (s.putCore c { s.core c with hcache := hc }) := by
  refine ⟨rfl, fun k => ?_, fun _ => rfl⟩
  by_cases h : k = c
  · subst h; rw [State.core_putCore_same]
  · rw [State.core_putCore_ne _ _ h]

/-- A cluster's translation cache changes. -/
theorem cachesFilled_cluster (s : State) (c : Nat) (tlb : List TlbEnt) :
    CachesFilled s (s.putCluster c { s.cluster c with tlb := tlb }) := by
  refine ⟨rfl, fun _ => rfl, fun k => ?_⟩
  by_cases h : k = c
  · subst h; rw [State.cluster_putCluster_same]
  · rw [State.cluster_putCluster_ne _ _ h]

theorem CachesFilled.lltlb {s t : State} (h : CachesFilled s t) (l : SMap (List TlbEnt)) : CachesFilled s { t with lltlb := l } := by
  refine ⟨?_, h.2.1, h.2.2⟩
  have e := h.1
  generalize t.cores = a, t.clusters = b, t.lltlb = c at e
  subst e
  rfl

theorem CachesFilled.cur {s t : State} (h : CachesFilled s t) : t.cur = s.cur ∧ t.csp = s.csp ∧ t.cg = s.cg ∧ t.cs = s.cs := by
  rw [h.1]; exact ⟨rfl, rfl, rfl, rfl⟩

theorem CachesFilled.byteAt {s t : State} (h : CachesFilled s t) (q : Place) (i : Nat) : t.byteAt q i = s.byteAt q i := by
  cases q with
  | glob pa va => simp only [State.byteAt]; rw [h.1]
  | scr c a => simp only [State.byteAt]; rw [h.2.1 c]
  | host a => simp only [State.byteAt]; rw [h.1]

theorem handle_frame (s : State) (core ctx : Nat) (sup : Bool) (n : Nat) : CachesFilled s (s.handle core ctx sup n).1 := by
  unfold State.handle
  extract_lets c len base co
  by_cases h : 4095 < n ∨ len ≤ n
  · rw [if_pos h]; exact .refl s
  · rw [if_neg h]
    split
    · exact .refl s
    · exact cachesFilled_core s core _

theorem curHandle_frame (s : State) (n : Nat) : CachesFilled s (s.curHandle n).1 := handle_frame ..

theorem translate_frame (s : State) (core ctx va : Nat) : CachesFilled s (s.translate core ctx va).1 := by
  simp only [State.translate]
  split
  · exact .refl s
  · split
    · exact .refl s
    · split
      · exact cachesFilled_cluster ..
      · split
        · exact .refl s
        · exact (cachesFilled_cluster ..).lltlb _

theorem transCheck_frame (s : State) (core ctx va : Nat) (r w : Bool) : CachesFilled s (s.transCheck core ctx va r w).1 := by
  have h := translate_frame s core ctx va
  simp only [State.transCheck]
  split
  · exact .refl s
  · split
    · exact h
    · split
      · exact h
      · split
        · exact h
        · split <;> exact h

theorem transOne_frame (s : State) (e : Entry) (k : AccKind) (o : Nat) : CachesFilled s (s.transOne e k o).1 := by
  have h := transCheck_frame s s.curCore s.curCtx (e.base + o) k.reads k.writes
  simp only [State.transOne]
  split
  · exact .refl s
  · split
    · next s1 _ e => rw [e] at h; exact h
    · next s1 _ e => rw [e] at h; exact h

theorem transLanes_frame (s : State) (e : Entry) (k : AccKind) (l : List (Nat × Nat)) : CachesFilled s (transLanes s e k l).1 := by
  induction l generalizing s with
  | nil => exact .refl s
  | cons a r ih => exact (transOne_frame s e k a.2).trans (ih _)

/-- R147: an access that passes every check has only filled caches. -/
theorem accessCheck_frame {s s1 : State} {n : Nat} {k : AccKind} {size : Nat} {offs : List (Nat × Nat)} {e : Entry}
    {as : List LaneAddr} (h : accessCheck s n k size offs = (s1, .ok (e, as))) : CachesFilled s s1 := by
  have hh := curHandle_frame s n
  have ht := transLanes_frame (s.curHandle n).1 (s.curHandle n).2 k offs
  simp only [accessCheck] at h
  repeat' first
    | (cases h; done)
    | (cases h; first | exact hh | exact hh.trans ht)
    | split at h

end Sys2Proof.Machine
end

