-- ==== Sys2Proof/Laws/Fields.lean ====
section
/-! SUPPORT. The fields of a packed word are what was packed (R30). -/
namespace Sys2Proof

theorem packR_op (op : BitVec 8) (d : Reg) (a : Reg) (b : Reg) (m : BitVec 3) : wOp (packR op d a b m) = op := by
  apply BitVec.eq_of_getLsbD_eq
  intro k hk
  simp only [wOp, packR, BitVec.getLsbD_extractLsb', BitVec.getLsbD_append, hk, decide_true, Bool.true_and]
  repeat rw [if_neg (by omega)]
  first | rfl | (congr 1; omega)
theorem packR_d (op : BitVec 8) (d : Reg) (a : Reg) (b : Reg) (m : BitVec 3) : wD (packR op d a b m) = d := by
  apply BitVec.eq_of_getLsbD_eq
  intro k hk
  simp only [wD, packR, BitVec.getLsbD_extractLsb', BitVec.getLsbD_append, hk, decide_true, Bool.true_and]
  repeat (first | rw [if_neg (by omega)] | rw [if_pos (by omega)])
  first | rfl | (congr 1; omega)
theorem packR_a (op : BitVec 8) (d : Reg) (a : Reg) (b : Reg) (m : BitVec 3) : wA (packR op d a b m) = a := by
  apply BitVec.eq_of_getLsbD_eq
  intro k hk
  simp only [wA, packR, BitVec.getLsbD_extractLsb', BitVec.getLsbD_append, hk, decide_true, Bool.true_and]
  repeat (first | rw [if_neg (by omega)] | rw [if_pos (by omega)])
  first | rfl | (congr 1; omega)
theorem packR_b (op : BitVec 8) (d : Reg) (a : Reg) (b : Reg) (m : BitVec 3) : wB (packR op d a b m) = b := by
  apply BitVec.eq_of_getLsbD_eq
  intro k hk
  simp only [wB, packR, BitVec.getLsbD_extractLsb', BitVec.getLsbD_append, hk, decide_true, Bool.true_and]
  repeat (first | rw [if_neg (by omega)] | rw [if_pos (by omega)])
  first | rfl | (congr 1; omega)
theorem packR_m (op : BitVec 8) (d : Reg) (a : Reg) (b : Reg) (m : BitVec 3) : wM (packR op d a b m) = m := by
  apply BitVec.eq_of_getLsbD_eq
  intro k hk
  simp only [wM, packR, BitVec.getLsbD_extractLsb', BitVec.getLsbD_append, hk, decide_true, Bool.true_and]
  repeat (first | rw [if_neg (by omega)] | rw [if_pos (by omega)])
  first | rfl | (congr 1; omega)

theorem packI_op (op : BitVec 8) (d : Reg) (a : Reg) (i : BitVec 10) : wOp (packI op d a i) = op := by
  apply BitVec.eq_of_getLsbD_eq
  intro k hk
  simp only [wOp, packI, BitVec.getLsbD_extractLsb', BitVec.getLsbD_append, hk, decide_true, Bool.true_and]
  repeat rw [if_neg (by omega)]
  first | rfl | (congr 1; omega)
theorem packI_d (op : BitVec 8) (d : Reg) (a : Reg) (i : BitVec 10) : wD (packI op d a i) = d := by
  apply BitVec.eq_of_getLsbD_eq
  intro k hk
  simp only [wD, packI, BitVec.getLsbD_extractLsb', BitVec.getLsbD_append, hk, decide_true, Bool.true_and]
  repeat (first | rw [if_neg (by omega)] | rw [if_pos (by omega)])
  first | rfl | (congr 1; omega)
theorem packI_a (op : BitVec 8) (d : Reg) (a : Reg) (i : BitVec 10) : wA (packI op d a i) = a := by
  apply BitVec.eq_of_getLsbD_eq
  intro k hk
  simp only [wA, packI, BitVec.getLsbD_extractLsb', BitVec.getLsbD_append, hk, decide_true, Bool.true_and]
  repeat (first | rw [if_neg (by omega)] | rw [if_pos (by omega)])
  first | rfl | (congr 1; omega)
theorem packI_i (op : BitVec 8) (d : Reg) (a : Reg) (i : BitVec 10) : wI (packI op d a i) = i := by
  apply BitVec.eq_of_getLsbD_eq
  intro k hk
  simp only [wI, packI, BitVec.getLsbD_extractLsb', BitVec.getLsbD_append, hk, decide_true, Bool.true_and]
  repeat (first | rw [if_neg (by omega)] | rw [if_pos (by omega)])
  first | rfl | (congr 1; omega)

theorem packM_op (op : BitVec 8) (d : Reg) (h : BitVec 5) (a : Reg) (o : BitVec 5) : wOp (packM op d h a o) = op := by
  apply BitVec.eq_of_getLsbD_eq
  intro k hk
  simp only [wOp, packM, BitVec.getLsbD_extractLsb', BitVec.getLsbD_append, hk, decide_true, Bool.true_and]
  repeat (first | rw [if_neg (by omega)] | rw [if_pos (by omega)])
  first | rfl | (congr 1; omega)
theorem packM_d (op : BitVec 8) (d : Reg) (h : BitVec 5) (a : Reg) (o : BitVec 5) : wD (packM op d h a o) = d := by
  apply BitVec.eq_of_getLsbD_eq
  intro k hk
  simp only [wD, packM, BitVec.getLsbD_extractLsb', BitVec.getLsbD_append, hk, decide_true, Bool.true_and]
  repeat (first | rw [if_neg (by omega)] | rw [if_pos (by omega)])
  first | rfl | (congr 1; omega)
theorem packM_h (op : BitVec 8) (d : Reg) (h : BitVec 5) (a : Reg) (o : BitVec 5) : wH (packM op d h a o) = h := by
  apply BitVec.eq_of_getLsbD_eq
  intro k hk
  simp only [wH, packM, BitVec.getLsbD_extractLsb', BitVec.getLsbD_append, hk, decide_true, Bool.true_and]
  repeat (first | rw [if_neg (by omega)] | rw [if_pos (by omega)])
  first | rfl | (congr 1; omega)
theorem packM_a (op : BitVec 8) (d : Reg) (h : BitVec 5) (a : Reg) (o : BitVec 5) : wMA (packM op d h a o) = a := by
  apply BitVec.eq_of_getLsbD_eq
  intro k hk
  simp only [wMA, packM, BitVec.getLsbD_extractLsb', BitVec.getLsbD_append, hk, decide_true, Bool.true_and]
  repeat (first | rw [if_neg (by omega)] | rw [if_pos (by omega)])
  first | rfl | (congr 1; omega)
theorem packM_o (op : BitVec 8) (d : Reg) (h : BitVec 5) (a : Reg) (o : BitVec 5) : wO (packM op d h a o) = o := by
  apply BitVec.eq_of_getLsbD_eq
  intro k hk
  simp only [wO, packM, BitVec.getLsbD_extractLsb', BitVec.getLsbD_append, hk, decide_true, Bool.true_and]
  repeat (first | rw [if_neg (by omega)] | rw [if_pos (by omega)])
  first | rfl | (congr 1; omega)

theorem packW_op (op : BitVec 8) (d : Reg) (j : BitVec 17) : wOp (packW op d j) = op := by
  apply BitVec.eq_of_getLsbD_eq
  intro k hk
  simp only [wOp, packW, BitVec.getLsbD_extractLsb', BitVec.getLsbD_append, hk, decide_true, Bool.true_and]
  repeat rw [if_neg (by omega)]
  first | rfl | (congr 1; omega)
theorem packW_d (op : BitVec 8) (d : Reg) (j : BitVec 17) : wD (packW op d j) = d := by
  apply BitVec.eq_of_getLsbD_eq
  intro k hk
  simp only [wD, packW, BitVec.getLsbD_extractLsb', BitVec.getLsbD_append, hk, decide_true, Bool.true_and]
  repeat (first | rw [if_neg (by omega)] | rw [if_pos (by omega)])
  first | rfl | (congr 1; omega)
theorem packW_j (op : BitVec 8) (d : Reg) (j : BitVec 17) : wJ (packW op d j) = j := by
  apply BitVec.eq_of_getLsbD_eq
  intro k hk
  simp only [wJ, packW, BitVec.getLsbD_extractLsb', BitVec.getLsbD_append, hk, decide_true, Bool.true_and]
  repeat (first | rw [if_neg (by omega)] | rw [if_pos (by omega)])
  first | rfl | (congr 1; omega)

theorem packJ_op (op : BitVec 8) (a : Reg) (c : BitVec 3) (f : BitVec 14) : wOp (packJ op a c f) = op := by
  apply BitVec.eq_of_getLsbD_eq
  intro k hk
  simp only [wOp, packJ, BitVec.getLsbD_extractLsb', BitVec.getLsbD_append, hk, decide_true, Bool.true_and]
  repeat rw [if_neg (by omega)]
  first | rfl | (congr 1; omega)
theorem packJ_a (op : BitVec 8) (a : Reg) (c : BitVec 3) (f : BitVec 14) : wD (packJ op a c f) = a := by
  apply BitVec.eq_of_getLsbD_eq
  intro k hk
  simp only [wD, packJ, BitVec.getLsbD_extractLsb', BitVec.getLsbD_append, hk, decide_true, Bool.true_and]
  repeat (first | rw [if_neg (by omega)] | rw [if_pos (by omega)])
  first | rfl | (congr 1; omega)
theorem packJ_c (op : BitVec 8) (a : Reg) (c : BitVec 3) (f : BitVec 14) : wC (packJ op a c f) = c := by
  apply BitVec.eq_of_getLsbD_eq
  intro k hk
  simp only [wC, packJ, BitVec.getLsbD_extractLsb', BitVec.getLsbD_append, hk, decide_true, Bool.true_and]
  repeat (first | rw [if_neg (by omega)] | rw [if_pos (by omega)])
  first | rfl | (congr 1; omega)
theorem packJ_f (op : BitVec 8) (a : Reg) (c : BitVec 3) (f : BitVec 14) : wF (packJ op a c f) = f := by
  apply BitVec.eq_of_getLsbD_eq
  intro k hk
  simp only [wF, packJ, BitVec.getLsbD_extractLsb', BitVec.getLsbD_append, hk, decide_true, Bool.true_and]
  repeat (first | rw [if_neg (by omega)] | rw [if_pos (by omega)])
  first | rfl | (congr 1; omega)

end Sys2Proof
end

