-- ==== Sys2Proof/Laws/PerInstr.lean ====
section
/-! SUPPORT. Statements about every instruction as syntax. `RoundTrip`: the word that a well-formed instruction encodes to decodes
to that instruction (R29-R36), one lemma per constructor. -/

set_option Elab.async false

namespace Sys2Proof

/-- What is left to show of a decoding once the word is known to be an encoding. -/
theorem decode_of_fields {i : Instr} {w : Word} (he : encode i = some w) (hw : i.wf = true) (ho : wOp w ≠ 0)
    (hf : decodeFields w = some i) : decode w = .ok i := by
  simp only [decode, if_neg ho, hf]
  exact if_pos ⟨he, hw⟩

/-- What a decoded word says: its instruction is well formed, and the word is its encoding. -/
theorem decode_sound {i : Instr} {w : Word} (h : decode w = .ok i) : encode i = some w ∧ i.wf = true := by
  unfold decode at h
  split at h
  · cases h
  · split at h
    · cases h
    · next j _ =>
      split at h
      · next hj => cases h; exact hj
      · cases h

end Sys2Proof

namespace Sys2Proof.Laws

/-- The word of a well-formed instruction decodes to it. -/
def RoundTrip.Statement (i : Instr) : Prop := ∀ w, encode i = some w → i.wf = true → decode w = .ok i

theorem RoundTrip.add (d a b : Reg) (m : BitVec 3) : RoundTrip.Statement (.add d a b m) := by
  intro w h hw
  cases h
  refine decode_of_fields rfl hw (by rw [packR_op]; decide) ?_
  rw [decodeFields, packR_op]
  show some (Instr.add (wD _) (wA _) (wB _) (wM _)) = _
  rw [packR_d, packR_a, packR_b, packR_m]

theorem RoundTrip.sub (d a b : Reg) (m : BitVec 3) : RoundTrip.Statement (.sub d a b m) := by
  intro w h hw
  cases h
  refine decode_of_fields rfl hw (by rw [packR_op]; decide) ?_
  rw [decodeFields, packR_op]
  show some (Instr.sub (wD _) (wA _) (wB _) (wM _)) = _
  rw [packR_d, packR_a, packR_b, packR_m]

theorem RoundTrip.mul (d a b : Reg) (m : BitVec 3) : RoundTrip.Statement (.mul d a b m) := by
  intro w h hw
  cases h
  refine decode_of_fields rfl hw (by rw [packR_op]; decide) ?_
  rw [decodeFields, packR_op]
  show some (Instr.mul (wD _) (wA _) (wB _) (wM _)) = _
  rw [packR_d, packR_a, packR_b, packR_m]

theorem RoundTrip.mad (d a b : Reg) (m : BitVec 3) : RoundTrip.Statement (.mad d a b m) := by
  intro w h hw
  cases h
  refine decode_of_fields rfl hw (by rw [packR_op]; decide) ?_
  rw [decodeFields, packR_op]
  show some (Instr.mad (wD _) (wA _) (wB _) (wM _)) = _
  rw [packR_d, packR_a, packR_b, packR_m]

theorem RoundTrip.min (d a b : Reg) (m : BitVec 3) : RoundTrip.Statement (.min d a b m) := by
  intro w h hw
  cases h
  refine decode_of_fields rfl hw (by rw [packR_op]; decide) ?_
  rw [decodeFields, packR_op]
  show some (Instr.min (wD _) (wA _) (wB _) (wM _)) = _
  rw [packR_d, packR_a, packR_b, packR_m]

theorem RoundTrip.max (d a b : Reg) (m : BitVec 3) : RoundTrip.Statement (.max d a b m) := by
  intro w h hw
  cases h
  refine decode_of_fields rfl hw (by rw [packR_op]; decide) ?_
  rw [decodeFields, packR_op]
  show some (Instr.max (wD _) (wA _) (wB _) (wM _)) = _
  rw [packR_d, packR_a, packR_b, packR_m]

theorem RoundTrip.and (d a b : Reg) : RoundTrip.Statement (.and d a b) := by
  intro w h hw
  cases h
  refine decode_of_fields rfl hw (by rw [packR_op]; decide) ?_
  rw [decodeFields, packR_op]
  show some (Instr.and (wD _) (wA _) (wB _)) = _
  rw [packR_d, packR_a, packR_b]

theorem RoundTrip.or (d a b : Reg) : RoundTrip.Statement (.or d a b) := by
  intro w h hw
  cases h
  refine decode_of_fields rfl hw (by rw [packR_op]; decide) ?_
  rw [decodeFields, packR_op]
  show some (Instr.or (wD _) (wA _) (wB _)) = _
  rw [packR_d, packR_a, packR_b]

theorem RoundTrip.xor (d a b : Reg) : RoundTrip.Statement (.xor d a b) := by
  intro w h hw
  cases h
  refine decode_of_fields rfl hw (by rw [packR_op]; decide) ?_
  rw [decodeFields, packR_op]
  show some (Instr.xor (wD _) (wA _) (wB _)) = _
  rw [packR_d, packR_a, packR_b]

theorem RoundTrip.andn (d a b : Reg) : RoundTrip.Statement (.andn d a b) := by
  intro w h hw
  cases h
  refine decode_of_fields rfl hw (by rw [packR_op]; decide) ?_
  rw [decodeFields, packR_op]
  show some (Instr.andn (wD _) (wA _) (wB _)) = _
  rw [packR_d, packR_a, packR_b]

theorem RoundTrip.shl (d a b : Reg) : RoundTrip.Statement (.shl d a b) := by
  intro w h hw
  cases h
  refine decode_of_fields rfl hw (by rw [packR_op]; decide) ?_
  rw [decodeFields, packR_op]
  show some (Instr.shl (wD _) (wA _) (wB _)) = _
  rw [packR_d, packR_a, packR_b]

theorem RoundTrip.shr (d a b : Reg) (m : BitVec 3) : RoundTrip.Statement (.shr d a b m) := by
  intro w h hw
  cases h
  refine decode_of_fields rfl hw (by rw [packR_op]; decide) ?_
  rw [decodeFields, packR_op]
  show some (Instr.shr (wD _) (wA _) (wB _) (wM _)) = _
  rw [packR_d, packR_a, packR_b, packR_m]

theorem RoundTrip.rot (d a b : Reg) (m : BitVec 3) : RoundTrip.Statement (.rot d a b m) := by
  intro w h hw
  cases h
  refine decode_of_fields rfl hw (by rw [packR_op]; decide) ?_
  rw [decodeFields, packR_op]
  show some (Instr.rot (wD _) (wA _) (wB _) (wM _)) = _
  rw [packR_d, packR_a, packR_b, packR_m]

theorem RoundTrip.bfe (d a b : Reg) (m : BitVec 3) : RoundTrip.Statement (.bfe d a b m) := by
  intro w h hw
  cases h
  refine decode_of_fields rfl hw (by rw [packR_op]; decide) ?_
  rw [decodeFields, packR_op]
  show some (Instr.bfe (wD _) (wA _) (wB _) (wM _)) = _
  rw [packR_d, packR_a, packR_b, packR_m]

theorem RoundTrip.bfi (d a b : Reg) : RoundTrip.Statement (.bfi d a b) := by
  intro w h hw
  cases h
  refine decode_of_fields rfl hw (by rw [packR_op]; decide) ?_
  rw [decodeFields, packR_op]
  show some (Instr.bfi (wD _) (wA _) (wB _)) = _
  rw [packR_d, packR_a, packR_b]

theorem RoundTrip.bitc (d a : Reg) (m : BitVec 3) : RoundTrip.Statement (.bitc d a m) := by
  intro w h hw
  cases h
  refine decode_of_fields rfl hw (by rw [packR_op]; decide) ?_
  rw [decodeFields, packR_op]
  show some (Instr.bitc (wD _) (wA _) (wM _)) = _
  rw [packR_d, packR_a, packR_m]

theorem RoundTrip.sel (d a b : Reg) : RoundTrip.Statement (.sel d a b) := by
  intro w h hw
  cases h
  refine decode_of_fields rfl hw (by rw [packR_op]; decide) ?_
  rw [decodeFields, packR_op]
  show some (Instr.sel (wD _) (wA _) (wB _)) = _
  rw [packR_d, packR_a, packR_b]

theorem RoundTrip.cmp (d a b : Reg) (m : BitVec 3) : RoundTrip.Statement (.cmp d a b m) := by
  intro w h hw
  cases h
  refine decode_of_fields rfl hw (by rw [packR_op]; decide) ?_
  rw [decodeFields, packR_op]
  show some (Instr.cmp (wD _) (wA _) (wB _) (wM _)) = _
  rw [packR_d, packR_a, packR_b, packR_m]

theorem RoundTrip.addi (d a : Reg) (i : BitVec 10) : RoundTrip.Statement (.addi d a i) := by
  intro w h hw
  cases h
  refine decode_of_fields rfl hw (by rw [packI_op]; decide) ?_
  rw [decodeFields, packI_op]
  show some (Instr.addi (wD _) (wA _) (wI _)) = _
  rw [packI_d, packI_a, packI_i]

theorem RoundTrip.andi (d a : Reg) (i : BitVec 10) : RoundTrip.Statement (.andi d a i) := by
  intro w h hw
  cases h
  refine decode_of_fields rfl hw (by rw [packI_op]; decide) ?_
  rw [decodeFields, packI_op]
  show some (Instr.andi (wD _) (wA _) (wI _)) = _
  rw [packI_d, packI_a, packI_i]

theorem RoundTrip.ori (d a : Reg) (i : BitVec 10) : RoundTrip.Statement (.ori d a i) := by
  intro w h hw
  cases h
  refine decode_of_fields rfl hw (by rw [packI_op]; decide) ?_
  rw [decodeFields, packI_op]
  show some (Instr.ori (wD _) (wA _) (wI _)) = _
  rw [packI_d, packI_a, packI_i]

theorem RoundTrip.xori (d a : Reg) (i : BitVec 10) : RoundTrip.Statement (.xori d a i) := by
  intro w h hw
  cases h
  refine decode_of_fields rfl hw (by rw [packI_op]; decide) ?_
  rw [decodeFields, packI_op]
  show some (Instr.xori (wD _) (wA _) (wI _)) = _
  rw [packI_d, packI_a, packI_i]

theorem RoundTrip.shli (d a : Reg) (i : BitVec 10) : RoundTrip.Statement (.shli d a i) := by
  intro w h hw
  cases h
  refine decode_of_fields rfl hw (by rw [packI_op]; decide) ?_
  rw [decodeFields, packI_op]
  show some (Instr.shli (wD _) (wA _) (wI _)) = _
  rw [packI_d, packI_a, packI_i]

theorem RoundTrip.shri (d a : Reg) (i : BitVec 10) : RoundTrip.Statement (.shri d a i) := by
  intro w h hw
  cases h
  refine decode_of_fields rfl hw (by rw [packI_op]; decide) ?_
  rw [decodeFields, packI_op]
  show some (Instr.shri (wD _) (wA _) (wI _)) = _
  rw [packI_d, packI_a, packI_i]

theorem RoundTrip.cmpi (d a : Reg) (i : BitVec 10) : RoundTrip.Statement (.cmpi d a i) := by
  intro w h hw
  cases h
  refine decode_of_fields rfl hw (by rw [packI_op]; decide) ?_
  rw [decodeFields, packI_op]
  show some (Instr.cmpi (wD _) (wA _) (wI _)) = _
  rw [packI_d, packI_a, packI_i]

theorem RoundTrip.movi (d : Reg) (i : BitVec 10) : RoundTrip.Statement (.movi d i) := by
  intro w h hw
  cases h
  refine decode_of_fields rfl hw (by rw [packI_op]; decide) ?_
  rw [decodeFields, packI_op]
  show some (Instr.movi (wD _) (wI _)) = _
  rw [packI_d, packI_i]

theorem RoundTrip.lid (d : Reg) (m : BitVec 3) : RoundTrip.Statement (.lid d m) := by
  intro w h hw
  cases h
  refine decode_of_fields rfl hw (by rw [packR_op]; decide) ?_
  rw [decodeFields, packR_op]
  show some (Instr.lid (wD _) (wM _)) = _
  rw [packR_d, packR_m]

theorem RoundTrip.mov (d a : Reg) : RoundTrip.Statement (.mov d a) := by
  intro w h hw
  cases h
  refine decode_of_fields rfl hw (by rw [packR_op]; decide) ?_
  rw [decodeFields, packR_op]
  show some (Instr.mov (wD _) (wA _)) = _
  rw [packR_d, packR_a]

theorem RoundTrip.lea (d : Reg) (h : BitVec 5) (a : Reg) (o : BitVec 5) : RoundTrip.Statement (.lea d h a o) := by
  intro w h hw
  cases h
  refine decode_of_fields rfl hw (by rw [packM_op]; decide) ?_
  rw [decodeFields, packM_op]
  show some (Instr.lea (wD _) (wH _) (wMA _) (wO _)) = _
  rw [packM_d, packM_h, packM_a, packM_o]

theorem RoundTrip.laneIf (a : Reg) (m : BitVec 3) : RoundTrip.Statement (.laneIf a m) := by
  intro w h hw
  cases h
  refine decode_of_fields rfl hw (by rw [packR_op]; decide) ?_
  rw [decodeFields, packR_op]
  show some (Instr.laneIf (wA _) (wM _)) = _
  rw [packR_a, packR_m]

theorem RoundTrip.laneIfi (a : Reg) (i : BitVec 10) : RoundTrip.Statement (.laneIfi a i) := by
  intro w h hw
  cases h
  refine decode_of_fields rfl hw (by rw [packI_op]; decide) ?_
  rw [decodeFields, packI_op]
  show some (Instr.laneIfi (wA _) (wI _)) = _
  rw [packI_a, packI_i]

theorem RoundTrip.laneElse : RoundTrip.Statement (.laneElse) := by
  intro w h hw
  cases h
  refine decode_of_fields rfl hw (by rw [packR_op]; decide) ?_
  rw [decodeFields, packR_op]
  rfl

theorem RoundTrip.endif : RoundTrip.Statement (.endif) := by
  intro w h hw
  cases h
  refine decode_of_fields rfl hw (by rw [packR_op]; decide) ?_
  rw [decodeFields, packR_op]
  rfl

theorem RoundTrip.lbeg : RoundTrip.Statement (.lbeg) := by
  intro w h hw
  cases h
  refine decode_of_fields rfl hw (by rw [packR_op]; decide) ?_
  rw [decodeFields, packR_op]
  rfl

theorem RoundTrip.brk (a : Reg) (i : BitVec 10) : RoundTrip.Statement (.brk a i) := by
  intro w h hw
  cases h
  refine decode_of_fields rfl hw (by rw [packI_op]; decide) ?_
  rw [decodeFields, packI_op]
  show some (Instr.brk (wA _) (wI _)) = _
  rw [packI_a, packI_i]

theorem RoundTrip.cont (a : Reg) (i : BitVec 10) : RoundTrip.Statement (.cont a i) := by
  intro w h hw
  cases h
  refine decode_of_fields rfl hw (by rw [packI_op]; decide) ?_
  rw [decodeFields, packI_op]
  show some (Instr.cont (wA _) (wI _)) = _
  rw [packI_a, packI_i]

theorem RoundTrip.lnext : RoundTrip.Statement (.lnext) := by
  intro w h hw
  cases h
  refine decode_of_fields rfl hw (by rw [packR_op]; decide) ?_
  rw [decodeFields, packR_op]
  rfl

theorem RoundTrip.lend : RoundTrip.Statement (.lend) := by
  intro w h hw
  cases h
  refine decode_of_fields rfl hw (by rw [packR_op]; decide) ?_
  rw [decodeFields, packR_op]
  rfl

theorem RoundTrip.lexit (a : Reg) (m : BitVec 3) : RoundTrip.Statement (.lexit a m) := by
  intro w h hw
  cases h
  refine decode_of_fields rfl hw (by rw [packR_op]; decide) ?_
  rw [decodeFields, packR_op]
  show some (Instr.lexit (wA _) (wM _)) = _
  rw [packR_a, packR_m]

theorem RoundTrip.fadd (d a b : Reg) (m : BitVec 3) : RoundTrip.Statement (.fadd d a b m) := by
  intro w h hw
  cases h
  refine decode_of_fields rfl hw (by rw [packR_op]; decide) ?_
  rw [decodeFields, packR_op]
  show some (Instr.fadd (wD _) (wA _) (wB _) (wM _)) = _
  rw [packR_d, packR_a, packR_b, packR_m]

theorem RoundTrip.fsub (d a b : Reg) (m : BitVec 3) : RoundTrip.Statement (.fsub d a b m) := by
  intro w h hw
  cases h
  refine decode_of_fields rfl hw (by rw [packR_op]; decide) ?_
  rw [decodeFields, packR_op]
  show some (Instr.fsub (wD _) (wA _) (wB _) (wM _)) = _
  rw [packR_d, packR_a, packR_b, packR_m]

theorem RoundTrip.fmul (d a b : Reg) (m : BitVec 3) : RoundTrip.Statement (.fmul d a b m) := by
  intro w h hw
  cases h
  refine decode_of_fields rfl hw (by rw [packR_op]; decide) ?_
  rw [decodeFields, packR_op]
  show some (Instr.fmul (wD _) (wA _) (wB _) (wM _)) = _
  rw [packR_d, packR_a, packR_b, packR_m]

theorem RoundTrip.ffma (d a b : Reg) (m : BitVec 3) : RoundTrip.Statement (.ffma d a b m) := by
  intro w h hw
  cases h
  refine decode_of_fields rfl hw (by rw [packR_op]; decide) ?_
  rw [decodeFields, packR_op]
  show some (Instr.ffma (wD _) (wA _) (wB _) (wM _)) = _
  rw [packR_d, packR_a, packR_b, packR_m]

theorem RoundTrip.fmin (d a b : Reg) : RoundTrip.Statement (.fmin d a b) := by
  intro w h hw
  cases h
  refine decode_of_fields rfl hw (by rw [packR_op]; decide) ?_
  rw [decodeFields, packR_op]
  show some (Instr.fmin (wD _) (wA _) (wB _)) = _
  rw [packR_d, packR_a, packR_b]

theorem RoundTrip.fmax (d a b : Reg) : RoundTrip.Statement (.fmax d a b) := by
  intro w h hw
  cases h
  refine decode_of_fields rfl hw (by rw [packR_op]; decide) ?_
  rw [decodeFields, packR_op]
  show some (Instr.fmax (wD _) (wA _) (wB _)) = _
  rw [packR_d, packR_a, packR_b]

theorem RoundTrip.fcmp (d a b : Reg) (m : BitVec 3) : RoundTrip.Statement (.fcmp d a b m) := by
  intro w h hw
  cases h
  refine decode_of_fields rfl hw (by rw [packR_op]; decide) ?_
  rw [decodeFields, packR_op]
  show some (Instr.fcmp (wD _) (wA _) (wB _) (wM _)) = _
  rw [packR_d, packR_a, packR_b, packR_m]

theorem RoundTrip.frcp (d a : Reg) (m : BitVec 3) : RoundTrip.Statement (.frcp d a m) := by
  intro w h hw
  cases h
  refine decode_of_fields rfl hw (by rw [packR_op]; decide) ?_
  rw [decodeFields, packR_op]
  show some (Instr.frcp (wD _) (wA _) (wM _)) = _
  rw [packR_d, packR_a, packR_m]

theorem RoundTrip.frsq (d a : Reg) : RoundTrip.Statement (.frsq d a) := by
  intro w h hw
  cases h
  refine decode_of_fields rfl hw (by rw [packR_op]; decide) ?_
  rw [decodeFields, packR_op]
  show some (Instr.frsq (wD _) (wA _)) = _
  rw [packR_d, packR_a]

theorem RoundTrip.fsqrt (d a : Reg) (m : BitVec 3) : RoundTrip.Statement (.fsqrt d a m) := by
  intro w h hw
  cases h
  refine decode_of_fields rfl hw (by rw [packR_op]; decide) ?_
  rw [decodeFields, packR_op]
  show some (Instr.fsqrt (wD _) (wA _) (wM _)) = _
  rw [packR_d, packR_a, packR_m]

theorem RoundTrip.fexp2 (d a : Reg) : RoundTrip.Statement (.fexp2 d a) := by
  intro w h hw
  cases h
  refine decode_of_fields rfl hw (by rw [packR_op]; decide) ?_
  rw [decodeFields, packR_op]
  show some (Instr.fexp2 (wD _) (wA _)) = _
  rw [packR_d, packR_a]

theorem RoundTrip.flog2 (d a : Reg) : RoundTrip.Statement (.flog2 d a) := by
  intro w h hw
  cases h
  refine decode_of_fields rfl hw (by rw [packR_op]; decide) ?_
  rw [decodeFields, packR_op]
  show some (Instr.flog2 (wD _) (wA _)) = _
  rw [packR_d, packR_a]

theorem RoundTrip.fsinpi (d a : Reg) : RoundTrip.Statement (.fsinpi d a) := by
  intro w h hw
  cases h
  refine decode_of_fields rfl hw (by rw [packR_op]; decide) ?_
  rw [decodeFields, packR_op]
  show some (Instr.fsinpi (wD _) (wA _)) = _
  rw [packR_d, packR_a]

theorem RoundTrip.fsgn (d a b : Reg) (m : BitVec 3) : RoundTrip.Statement (.fsgn d a b m) := by
  intro w h hw
  cases h
  refine decode_of_fields rfl hw (by rw [packR_op]; decide) ?_
  rw [decodeFields, packR_op]
  show some (Instr.fsgn (wD _) (wA _) (wB _) (wM _)) = _
  rw [packR_d, packR_a, packR_b, packR_m]

theorem RoundTrip.fclass (d a : Reg) : RoundTrip.Statement (.fclass d a) := by
  intro w h hw
  cases h
  refine decode_of_fields rfl hw (by rw [packR_op]; decide) ?_
  rw [decodeFields, packR_op]
  show some (Instr.fclass (wD _) (wA _)) = _
  rw [packR_d, packR_a]

theorem RoundTrip.frnd (d a : Reg) (m : BitVec 3) : RoundTrip.Statement (.frnd d a m) := by
  intro w h hw
  cases h
  refine decode_of_fields rfl hw (by rw [packR_op]; decide) ?_
  rw [decodeFields, packR_op]
  show some (Instr.frnd (wD _) (wA _) (wM _)) = _
  rw [packR_d, packR_a, packR_m]

theorem RoundTrip.i2f (d a b : Reg) (m : BitVec 3) : RoundTrip.Statement (.i2f d a b m) := by
  intro w h hw
  cases h
  refine decode_of_fields rfl hw (by rw [packR_op]; decide) ?_
  rw [decodeFields, packR_op]
  show some (Instr.i2f (wD _) (wA _) (wB _) (wM _)) = _
  rw [packR_d, packR_a, packR_b, packR_m]

theorem RoundTrip.f2i (d a b : Reg) (m : BitVec 3) : RoundTrip.Statement (.f2i d a b m) := by
  intro w h hw
  cases h
  refine decode_of_fields rfl hw (by rw [packR_op]; decide) ?_
  rw [decodeFields, packR_op]
  show some (Instr.f2i (wD _) (wA _) (wB _) (wM _)) = _
  rw [packR_d, packR_a, packR_b, packR_m]

theorem RoundTrip.pkh (d a b : Reg) (m : BitVec 3) : RoundTrip.Statement (.pkh d a b m) := by
  intro w h hw
  cases h
  refine decode_of_fields rfl hw (by rw [packR_op]; decide) ?_
  rw [decodeFields, packR_op]
  show some (Instr.pkh (wD _) (wA _) (wB _) (wM _)) = _
  rw [packR_d, packR_a, packR_b, packR_m]

theorem RoundTrip.pkb (d a b : Reg) (m : BitVec 3) : RoundTrip.Statement (.pkb d a b m) := by
  intro w h hw
  cases h
  refine decode_of_fields rfl hw (by rw [packR_op]; decide) ?_
  rw [decodeFields, packR_op]
  show some (Instr.pkb (wD _) (wA _) (wB _) (wM _)) = _
  rw [packR_d, packR_a, packR_b, packR_m]

theorem RoundTrip.pk8 (d a b : Reg) (m : BitVec 3) : RoundTrip.Statement (.pk8 d a b m) := by
  intro w h hw
  cases h
  refine decode_of_fields rfl hw (by rw [packR_op]; decide) ?_
  rw [decodeFields, packR_op]
  show some (Instr.pk8 (wD _) (wA _) (wB _) (wM _)) = _
  rw [packR_d, packR_a, packR_b, packR_m]

theorem RoundTrip.unpk (d a b : Reg) : RoundTrip.Statement (.unpk d a b) := by
  intro w h hw
  cases h
  refine decode_of_fields rfl hw (by rw [packR_op]; decide) ?_
  rw [decodeFields, packR_op]
  show some (Instr.unpk (wD _) (wA _) (wB _)) = _
  rw [packR_d, packR_a, packR_b]

theorem RoundTrip.hfma2 (d a b : Reg) (m : BitVec 3) : RoundTrip.Statement (.hfma2 d a b m) := by
  intro w h hw
  cases h
  refine decode_of_fields rfl hw (by rw [packR_op]; decide) ?_
  rw [decodeFields, packR_op]
  show some (Instr.hfma2 (wD _) (wA _) (wB _) (wM _)) = _
  rw [packR_d, packR_a, packR_b, packR_m]

theorem RoundTrip.hadd2 (d a b : Reg) (m : BitVec 3) : RoundTrip.Statement (.hadd2 d a b m) := by
  intro w h hw
  cases h
  refine decode_of_fields rfl hw (by rw [packR_op]; decide) ?_
  rw [decodeFields, packR_op]
  show some (Instr.hadd2 (wD _) (wA _) (wB _) (wM _)) = _
  rw [packR_d, packR_a, packR_b, packR_m]

theorem RoundTrip.hmul2 (d a b : Reg) (m : BitVec 3) : RoundTrip.Statement (.hmul2 d a b m) := by
  intro w h hw
  cases h
  refine decode_of_fields rfl hw (by rw [packR_op]; decide) ?_
  rw [decodeFields, packR_op]
  show some (Instr.hmul2 (wD _) (wA _) (wB _) (wM _)) = _
  rw [packR_d, packR_a, packR_b, packR_m]

theorem RoundTrip.rnd (d : Reg) (m : BitVec 3) : RoundTrip.Statement (.rnd d m) := by
  intro w h hw
  cases h
  refine decode_of_fields rfl hw (by rw [packR_op]; decide) ?_
  rw [decodeFields, packR_op]
  show some (Instr.rnd (wD _) (wM _)) = _
  rw [packR_d, packR_m]

theorem RoundTrip.hcmp2 (d a b : Reg) (m : BitVec 3) : RoundTrip.Statement (.hcmp2 d a b m) := by
  intro w h hw
  cases h
  refine decode_of_fields rfl hw (by rw [packR_op]; decide) ?_
  rw [decodeFields, packR_op]
  show some (Instr.hcmp2 (wD _) (wA _) (wB _) (wM _)) = _
  rw [packR_d, packR_a, packR_b, packR_m]

theorem RoundTrip.shfl (d a b : Reg) (m : BitVec 3) : RoundTrip.Statement (.shfl d a b m) := by
  intro w h hw
  cases h
  refine decode_of_fields rfl hw (by rw [packR_op]; decide) ?_
  rw [decodeFields, packR_op]
  show some (Instr.shfl (wD _) (wA _) (wB _) (wM _)) = _
  rw [packR_d, packR_a, packR_b, packR_m]

theorem RoundTrip.shfli (d a : Reg) (i : BitVec 10) : RoundTrip.Statement (.shfli d a i) := by
  intro w h hw
  cases h
  refine decode_of_fields rfl hw (by rw [packI_op]; decide) ?_
  rw [decodeFields, packI_op]
  show some (Instr.shfli (wD _) (wA _) (wI _)) = _
  rw [packI_d, packI_a, packI_i]

theorem RoundTrip.vote (d a : Reg) (m : BitVec 3) : RoundTrip.Statement (.vote d a m) := by
  intro w h hw
  cases h
  refine decode_of_fields rfl hw (by rw [packR_op]; decide) ?_
  rw [decodeFields, packR_op]
  show some (Instr.vote (wD _) (wA _) (wM _)) = _
  rw [packR_d, packR_a, packR_m]

theorem RoundTrip.scan (d a b : Reg) (m : BitVec 3) : RoundTrip.Statement (.scan d a b m) := by
  intro w h hw
  cases h
  refine decode_of_fields rfl hw (by rw [packR_op]; decide) ?_
  rw [decodeFields, packR_op]
  show some (Instr.scan (wD _) (wA _) (wB _) (wM _)) = _
  rw [packR_d, packR_a, packR_b, packR_m]

theorem RoundTrip.red (d a b : Reg) : RoundTrip.Statement (.red d a b) := by
  intro w h hw
  cases h
  refine decode_of_fields rfl hw (by rw [packR_op]; decide) ?_
  rw [decodeFields, packR_op]
  show some (Instr.red (wD _) (wA _) (wB _)) = _
  rw [packR_d, packR_a, packR_b]

theorem RoundTrip.topk (d a b : Reg) (m : BitVec 3) : RoundTrip.Statement (.topk d a b m) := by
  intro w h hw
  cases h
  refine decode_of_fields rfl hw (by rw [packR_op]; decide) ?_
  rw [decodeFields, packR_op]
  show some (Instr.topk (wD _) (wA _) (wB _) (wM _)) = _
  rw [packR_d, packR_a, packR_b, packR_m]

theorem RoundTrip.sort (d a b : Reg) (m : BitVec 3) : RoundTrip.Statement (.sort d a b m) := by
  intro w h hw
  cases h
  refine decode_of_fields rfl hw (by rw [packR_op]; decide) ?_
  rw [decodeFields, packR_op]
  show some (Instr.sort (wD _) (wA _) (wB _) (wM _)) = _
  rw [packR_d, packR_a, packR_b, packR_m]

theorem RoundTrip.matchLanes (d a : Reg) (m : BitVec 3) : RoundTrip.Statement (.matchLanes d a m) := by
  intro w h hw
  cases h
  refine decode_of_fields rfl hw (by rw [packR_op]; decide) ?_
  rw [decodeFields, packR_op]
  show some (Instr.matchLanes (wD _) (wA _) (wM _)) = _
  rw [packR_d, packR_a, packR_m]

theorem RoundTrip.ldN8 (d : Reg) (h : BitVec 5) (a : Reg) (o : BitVec 5) : RoundTrip.Statement (.ldN8 d h a o) := by
  intro w h hw
  cases h
  refine decode_of_fields rfl hw (by rw [packM_op]; decide) ?_
  rw [decodeFields, packM_op]
  show some (Instr.ldN8 (wD _) (wH _) (wMA _) (wO _)) = _
  rw [packM_d, packM_h, packM_a, packM_o]

theorem RoundTrip.ldI8 (d : Reg) (h : BitVec 5) (a : Reg) (o : BitVec 5) : RoundTrip.Statement (.ldI8 d h a o) := by
  intro w h hw
  cases h
  refine decode_of_fields rfl hw (by rw [packM_op]; decide) ?_
  rw [decodeFields, packM_op]
  show some (Instr.ldI8 (wD _) (wH _) (wMA _) (wO _)) = _
  rw [packM_d, packM_h, packM_a, packM_o]

theorem RoundTrip.ldN16 (d : Reg) (h : BitVec 5) (a : Reg) (o : BitVec 5) : RoundTrip.Statement (.ldN16 d h a o) := by
  intro w h hw
  cases h
  refine decode_of_fields rfl hw (by rw [packM_op]; decide) ?_
  rw [decodeFields, packM_op]
  show some (Instr.ldN16 (wD _) (wH _) (wMA _) (wO _)) = _
  rw [packM_d, packM_h, packM_a, packM_o]

theorem RoundTrip.ldI16 (d : Reg) (h : BitVec 5) (a : Reg) (o : BitVec 5) : RoundTrip.Statement (.ldI16 d h a o) := by
  intro w h hw
  cases h
  refine decode_of_fields rfl hw (by rw [packM_op]; decide) ?_
  rw [decodeFields, packM_op]
  show some (Instr.ldI16 (wD _) (wH _) (wMA _) (wO _)) = _
  rw [packM_d, packM_h, packM_a, packM_o]

theorem RoundTrip.ldB32 (d : Reg) (h : BitVec 5) (a : Reg) (o : BitVec 5) : RoundTrip.Statement (.ldB32 d h a o) := by
  intro w h hw
  cases h
  refine decode_of_fields rfl hw (by rw [packM_op]; decide) ?_
  rw [decodeFields, packM_op]
  show some (Instr.ldB32 (wD _) (wH _) (wMA _) (wO _)) = _
  rw [packM_d, packM_h, packM_a, packM_o]

theorem RoundTrip.ldB64 (d : Reg) (h : BitVec 5) (a : Reg) (o : BitVec 5) : RoundTrip.Statement (.ldB64 d h a o) := by
  intro w h hw
  cases h
  refine decode_of_fields rfl hw (by rw [packM_op]; decide) ?_
  rw [decodeFields, packM_op]
  show some (Instr.ldB64 (wD _) (wH _) (wMA _) (wO _)) = _
  rw [packM_d, packM_h, packM_a, packM_o]

theorem RoundTrip.ldB128 (d : Reg) (h : BitVec 5) (a : Reg) (o : BitVec 5) : RoundTrip.Statement (.ldB128 d h a o) := by
  intro w h hw
  cases h
  refine decode_of_fields rfl hw (by rw [packM_op]; decide) ?_
  rw [decodeFields, packM_op]
  show some (Instr.ldB128 (wD _) (wH _) (wMA _) (wO _)) = _
  rw [packM_d, packM_h, packM_a, packM_o]

theorem RoundTrip.ldsB32 (d : Reg) (h : BitVec 5) (a : Reg) (o : BitVec 5) : RoundTrip.Statement (.ldsB32 d h a o) := by
  intro w h hw
  cases h
  refine decode_of_fields rfl hw (by rw [packM_op]; decide) ?_
  rw [decodeFields, packM_op]
  show some (Instr.ldsB32 (wD _) (wH _) (wMA _) (wO _)) = _
  rw [packM_d, packM_h, packM_a, packM_o]

theorem RoundTrip.ldsB64 (d : Reg) (h : BitVec 5) (a : Reg) (o : BitVec 5) : RoundTrip.Statement (.ldsB64 d h a o) := by
  intro w h hw
  cases h
  refine decode_of_fields rfl hw (by rw [packM_op]; decide) ?_
  rw [decodeFields, packM_op]
  show some (Instr.ldsB64 (wD _) (wH _) (wMA _) (wO _)) = _
  rw [packM_d, packM_h, packM_a, packM_o]

theorem RoundTrip.stB8 (d : Reg) (h : BitVec 5) (a : Reg) (o : BitVec 5) : RoundTrip.Statement (.stB8 d h a o) := by
  intro w h hw
  cases h
  refine decode_of_fields rfl hw (by rw [packM_op]; decide) ?_
  rw [decodeFields, packM_op]
  show some (Instr.stB8 (wD _) (wH _) (wMA _) (wO _)) = _
  rw [packM_d, packM_h, packM_a, packM_o]

theorem RoundTrip.stB16 (d : Reg) (h : BitVec 5) (a : Reg) (o : BitVec 5) : RoundTrip.Statement (.stB16 d h a o) := by
  intro w h hw
  cases h
  refine decode_of_fields rfl hw (by rw [packM_op]; decide) ?_
  rw [decodeFields, packM_op]
  show some (Instr.stB16 (wD _) (wH _) (wMA _) (wO _)) = _
  rw [packM_d, packM_h, packM_a, packM_o]

theorem RoundTrip.stB32 (d : Reg) (h : BitVec 5) (a : Reg) (o : BitVec 5) : RoundTrip.Statement (.stB32 d h a o) := by
  intro w h hw
  cases h
  refine decode_of_fields rfl hw (by rw [packM_op]; decide) ?_
  rw [decodeFields, packM_op]
  show some (Instr.stB32 (wD _) (wH _) (wMA _) (wO _)) = _
  rw [packM_d, packM_h, packM_a, packM_o]

theorem RoundTrip.stB64 (d : Reg) (h : BitVec 5) (a : Reg) (o : BitVec 5) : RoundTrip.Statement (.stB64 d h a o) := by
  intro w h hw
  cases h
  refine decode_of_fields rfl hw (by rw [packM_op]; decide) ?_
  rw [decodeFields, packM_op]
  show some (Instr.stB64 (wD _) (wH _) (wMA _) (wO _)) = _
  rw [packM_d, packM_h, packM_a, packM_o]

theorem RoundTrip.stB128 (d : Reg) (h : BitVec 5) (a : Reg) (o : BitVec 5) : RoundTrip.Statement (.stB128 d h a o) := by
  intro w h hw
  cases h
  refine decode_of_fields rfl hw (by rw [packM_op]; decide) ?_
  rw [decodeFields, packM_op]
  show some (Instr.stB128 (wD _) (wH _) (wMA _) (wO _)) = _
  rw [packM_d, packM_h, packM_a, packM_o]

theorem RoundTrip.stsB32 (d : Reg) (h : BitVec 5) (a : Reg) (o : BitVec 5) : RoundTrip.Statement (.stsB32 d h a o) := by
  intro w h hw
  cases h
  refine decode_of_fields rfl hw (by rw [packM_op]; decide) ?_
  rw [decodeFields, packM_op]
  show some (Instr.stsB32 (wD _) (wH _) (wMA _) (wO _)) = _
  rw [packM_d, packM_h, packM_a, packM_o]

theorem RoundTrip.stsB64 (d : Reg) (h : BitVec 5) (a : Reg) (o : BitVec 5) : RoundTrip.Statement (.stsB64 d h a o) := by
  intro w h hw
  cases h
  refine decode_of_fields rfl hw (by rw [packM_op]; decide) ?_
  rw [decodeFields, packM_op]
  show some (Instr.stsB64 (wD _) (wH _) (wMA _) (wO _)) = _
  rw [packM_d, packM_h, packM_a, packM_o]

theorem RoundTrip.aadd (d : Reg) (h : BitVec 5) (a : Reg) (o : BitVec 5) : RoundTrip.Statement (.aadd d h a o) := by
  intro w h hw
  cases h
  refine decode_of_fields rfl hw (by rw [packM_op]; decide) ?_
  rw [decodeFields, packM_op]
  show some (Instr.aadd (wD _) (wH _) (wMA _) (wO _)) = _
  rw [packM_d, packM_h, packM_a, packM_o]

theorem RoundTrip.afadd (d : Reg) (h : BitVec 5) (a : Reg) (o : BitVec 5) : RoundTrip.Statement (.afadd d h a o) := by
  intro w h hw
  cases h
  refine decode_of_fields rfl hw (by rw [packM_op]; decide) ?_
  rw [decodeFields, packM_op]
  show some (Instr.afadd (wD _) (wH _) (wMA _) (wO _)) = _
  rw [packM_d, packM_h, packM_a, packM_o]

theorem RoundTrip.amin (d : Reg) (h : BitVec 5) (a : Reg) (o : BitVec 5) : RoundTrip.Statement (.amin d h a o) := by
  intro w h hw
  cases h
  refine decode_of_fields rfl hw (by rw [packM_op]; decide) ?_
  rw [decodeFields, packM_op]
  show some (Instr.amin (wD _) (wH _) (wMA _) (wO _)) = _
  rw [packM_d, packM_h, packM_a, packM_o]

theorem RoundTrip.amax (d : Reg) (h : BitVec 5) (a : Reg) (o : BitVec 5) : RoundTrip.Statement (.amax d h a o) := by
  intro w h hw
  cases h
  refine decode_of_fields rfl hw (by rw [packM_op]; decide) ?_
  rw [decodeFields, packM_op]
  show some (Instr.amax (wD _) (wH _) (wMA _) (wO _)) = _
  rw [packM_d, packM_h, packM_a, packM_o]

theorem RoundTrip.aand (d : Reg) (h : BitVec 5) (a : Reg) (o : BitVec 5) : RoundTrip.Statement (.aand d h a o) := by
  intro w h hw
  cases h
  refine decode_of_fields rfl hw (by rw [packM_op]; decide) ?_
  rw [decodeFields, packM_op]
  show some (Instr.aand (wD _) (wH _) (wMA _) (wO _)) = _
  rw [packM_d, packM_h, packM_a, packM_o]

theorem RoundTrip.aor (d : Reg) (h : BitVec 5) (a : Reg) (o : BitVec 5) : RoundTrip.Statement (.aor d h a o) := by
  intro w h hw
  cases h
  refine decode_of_fields rfl hw (by rw [packM_op]; decide) ?_
  rw [decodeFields, packM_op]
  show some (Instr.aor (wD _) (wH _) (wMA _) (wO _)) = _
  rw [packM_d, packM_h, packM_a, packM_o]

theorem RoundTrip.axor (d : Reg) (h : BitVec 5) (a : Reg) (o : BitVec 5) : RoundTrip.Statement (.axor d h a o) := by
  intro w h hw
  cases h
  refine decode_of_fields rfl hw (by rw [packM_op]; decide) ?_
  rw [decodeFields, packM_op]
  show some (Instr.axor (wD _) (wH _) (wMA _) (wO _)) = _
  rw [packM_d, packM_h, packM_a, packM_o]

theorem RoundTrip.axch (d : Reg) (h : BitVec 5) (a : Reg) (o : BitVec 5) : RoundTrip.Statement (.axch d h a o) := by
  intro w h hw
  cases h
  refine decode_of_fields rfl hw (by rw [packM_op]; decide) ?_
  rw [decodeFields, packM_op]
  show some (Instr.axch (wD _) (wH _) (wMA _) (wO _)) = _
  rw [packM_d, packM_h, packM_a, packM_o]

theorem RoundTrip.acas (d : Reg) (h : BitVec 5) (a : Reg) (o : BitVec 5) : RoundTrip.Statement (.acas d h a o) := by
  intro w h hw
  cases h
  refine decode_of_fields rfl hw (by rw [packM_op]; decide) ?_
  rw [decodeFields, packM_op]
  show some (Instr.acas (wD _) (wH _) (wMA _) (wO _)) = _
  rw [packM_d, packM_h, packM_a, packM_o]

theorem RoundTrip.aadd64 (d : Reg) (h : BitVec 5) (a : Reg) (o : BitVec 5) : RoundTrip.Statement (.aadd64 d h a o) := by
  intro w h hw
  cases h
  refine decode_of_fields rfl hw (by rw [packM_op]; decide) ?_
  rw [decodeFields, packM_op]
  show some (Instr.aadd64 (wD _) (wH _) (wMA _) (wO _)) = _
  rw [packM_d, packM_h, packM_a, packM_o]

theorem RoundTrip.gnop : RoundTrip.Statement (.gnop) := by
  intro w h hw
  cases h
  refine decode_of_fields rfl hw (by rw [packR_op]; decide) ?_
  rw [decodeFields, packR_op]
  rfl

theorem RoundTrip.gadd (d a b : Reg) (m : BitVec 3) : RoundTrip.Statement (.gadd d a b m) := by
  intro w h hw
  cases h
  refine decode_of_fields rfl hw (by rw [packR_op]; decide) ?_
  rw [decodeFields, packR_op]
  show some (Instr.gadd (wD _) (wA _) (wB _) (wM _)) = _
  rw [packR_d, packR_a, packR_b, packR_m]

theorem RoundTrip.gsub (d a b : Reg) (m : BitVec 3) : RoundTrip.Statement (.gsub d a b m) := by
  intro w h hw
  cases h
  refine decode_of_fields rfl hw (by rw [packR_op]; decide) ?_
  rw [decodeFields, packR_op]
  show some (Instr.gsub (wD _) (wA _) (wB _) (wM _)) = _
  rw [packR_d, packR_a, packR_b, packR_m]

theorem RoundTrip.gmul (d a b : Reg) (m : BitVec 3) : RoundTrip.Statement (.gmul d a b m) := by
  intro w h hw
  cases h
  refine decode_of_fields rfl hw (by rw [packR_op]; decide) ?_
  rw [decodeFields, packR_op]
  show some (Instr.gmul (wD _) (wA _) (wB _) (wM _)) = _
  rw [packR_d, packR_a, packR_b, packR_m]

theorem RoundTrip.gand (d a b : Reg) : RoundTrip.Statement (.gand d a b) := by
  intro w h hw
  cases h
  refine decode_of_fields rfl hw (by rw [packR_op]; decide) ?_
  rw [decodeFields, packR_op]
  show some (Instr.gand (wD _) (wA _) (wB _)) = _
  rw [packR_d, packR_a, packR_b]

theorem RoundTrip.gor (d a b : Reg) : RoundTrip.Statement (.gor d a b) := by
  intro w h hw
  cases h
  refine decode_of_fields rfl hw (by rw [packR_op]; decide) ?_
  rw [decodeFields, packR_op]
  show some (Instr.gor (wD _) (wA _) (wB _)) = _
  rw [packR_d, packR_a, packR_b]

theorem RoundTrip.gxor (d a b : Reg) : RoundTrip.Statement (.gxor d a b) := by
  intro w h hw
  cases h
  refine decode_of_fields rfl hw (by rw [packR_op]; decide) ?_
  rw [decodeFields, packR_op]
  show some (Instr.gxor (wD _) (wA _) (wB _)) = _
  rw [packR_d, packR_a, packR_b]

theorem RoundTrip.gshl (d a b : Reg) : RoundTrip.Statement (.gshl d a b) := by
  intro w h hw
  cases h
  refine decode_of_fields rfl hw (by rw [packR_op]; decide) ?_
  rw [decodeFields, packR_op]
  show some (Instr.gshl (wD _) (wA _) (wB _)) = _
  rw [packR_d, packR_a, packR_b]

theorem RoundTrip.gshr (d a b : Reg) (m : BitVec 3) : RoundTrip.Statement (.gshr d a b m) := by
  intro w h hw
  cases h
  refine decode_of_fields rfl hw (by rw [packR_op]; decide) ?_
  rw [decodeFields, packR_op]
  show some (Instr.gshr (wD _) (wA _) (wB _) (wM _)) = _
  rw [packR_d, packR_a, packR_b, packR_m]

theorem RoundTrip.gmin (d a b : Reg) (m : BitVec 3) : RoundTrip.Statement (.gmin d a b m) := by
  intro w h hw
  cases h
  refine decode_of_fields rfl hw (by rw [packR_op]; decide) ?_
  rw [decodeFields, packR_op]
  show some (Instr.gmin (wD _) (wA _) (wB _) (wM _)) = _
  rw [packR_d, packR_a, packR_b, packR_m]

theorem RoundTrip.gmax (d a b : Reg) (m : BitVec 3) : RoundTrip.Statement (.gmax d a b m) := by
  intro w h hw
  cases h
  refine decode_of_fields rfl hw (by rw [packR_op]; decide) ?_
  rw [decodeFields, packR_op]
  show some (Instr.gmax (wD _) (wA _) (wB _) (wM _)) = _
  rw [packR_d, packR_a, packR_b, packR_m]

theorem RoundTrip.gcmp (d a b : Reg) (m : BitVec 3) : RoundTrip.Statement (.gcmp d a b m) := by
  intro w h hw
  cases h
  refine decode_of_fields rfl hw (by rw [packR_op]; decide) ?_
  rw [decodeFields, packR_op]
  show some (Instr.gcmp (wD _) (wA _) (wB _) (wM _)) = _
  rw [packR_d, packR_a, packR_b, packR_m]

theorem RoundTrip.gsel (d a b : Reg) : RoundTrip.Statement (.gsel d a b) := by
  intro w h hw
  cases h
  refine decode_of_fields rfl hw (by rw [packR_op]; decide) ?_
  rw [decodeFields, packR_op]
  show some (Instr.gsel (wD _) (wA _) (wB _)) = _
  rw [packR_d, packR_a, packR_b]

theorem RoundTrip.gaddi (d a : Reg) (i : BitVec 10) : RoundTrip.Statement (.gaddi d a i) := by
  intro w h hw
  cases h
  refine decode_of_fields rfl hw (by rw [packI_op]; decide) ?_
  rw [decodeFields, packI_op]
  show some (Instr.gaddi (wD _) (wA _) (wI _)) = _
  rw [packI_d, packI_a, packI_i]

theorem RoundTrip.gandi (d a : Reg) (i : BitVec 10) : RoundTrip.Statement (.gandi d a i) := by
  intro w h hw
  cases h
  refine decode_of_fields rfl hw (by rw [packI_op]; decide) ?_
  rw [decodeFields, packI_op]
  show some (Instr.gandi (wD _) (wA _) (wI _)) = _
  rw [packI_d, packI_a, packI_i]

theorem RoundTrip.gori (d a : Reg) (i : BitVec 10) : RoundTrip.Statement (.gori d a i) := by
  intro w h hw
  cases h
  refine decode_of_fields rfl hw (by rw [packI_op]; decide) ?_
  rw [decodeFields, packI_op]
  show some (Instr.gori (wD _) (wA _) (wI _)) = _
  rw [packI_d, packI_a, packI_i]

theorem RoundTrip.gcmpi (d a : Reg) (i : BitVec 10) : RoundTrip.Statement (.gcmpi d a i) := by
  intro w h hw
  cases h
  refine decode_of_fields rfl hw (by rw [packI_op]; decide) ?_
  rw [decodeFields, packI_op]
  show some (Instr.gcmpi (wD _) (wA _) (wI _)) = _
  rw [packI_d, packI_a, packI_i]

theorem RoundTrip.gset (d : Reg) (j : BitVec 17) : RoundTrip.Statement (.gset d j) := by
  intro w h hw
  cases h
  refine decode_of_fields rfl hw (by rw [packW_op]; decide) ?_
  rw [decodeFields, packW_op]
  show some (Instr.gset (wD _) (wJ _)) = _
  rw [packW_d, packW_j]

theorem RoundTrip.gseth (d : Reg) (j : BitVec 17) : RoundTrip.Statement (.gseth d j) := by
  intro w h hw
  cases h
  refine decode_of_fields rfl hw (by rw [packW_op]; decide) ?_
  rw [decodeFields, packW_op]
  show some (Instr.gseth (wD _) (wJ _)) = _
  rw [packW_d, packW_j]

theorem RoundTrip.gmov (d a : Reg) : RoundTrip.Statement (.gmov d a) := by
  intro w h hw
  cases h
  refine decode_of_fields rfl hw (by rw [packR_op]; decide) ?_
  rw [decodeFields, packR_op]
  show some (Instr.gmov (wD _) (wA _)) = _
  rw [packR_d, packR_a]

theorem RoundTrip.grdc (d : Reg) (i : BitVec 10) : RoundTrip.Statement (.grdc d i) := by
  intro w h hw
  cases h
  refine decode_of_fields rfl hw (by rw [packI_op]; decide) ?_
  rw [decodeFields, packI_op]
  show some (Instr.grdc (wD _) (wI _)) = _
  rw [packI_d, packI_i]

theorem RoundTrip.gwrc (a : Reg) (i : BitVec 10) : RoundTrip.Statement (.gwrc a i) := by
  intro w h hw
  cases h
  refine decode_of_fields rfl hw (by rw [packI_op]; decide) ?_
  rw [decodeFields, packI_op]
  show some (Instr.gwrc (wA _) (wI _)) = _
  rw [packI_a, packI_i]

theorem RoundTrip.glea (d a b : Reg) (m : BitVec 3) : RoundTrip.Statement (.glea d a b m) := by
  intro w h hw
  cases h
  refine decode_of_fields rfl hw (by rw [packR_op]; decide) ?_
  rw [decodeFields, packR_op]
  show some (Instr.glea (wD _) (wA _) (wB _) (wM _)) = _
  rw [packR_d, packR_a, packR_b, packR_m]

theorem RoundTrip.gclock (d : Reg) (m : BitVec 3) : RoundTrip.Statement (.gclock d m) := by
  intro w h hw
  cases h
  refine decode_of_fields rfl hw (by rw [packR_op]; decide) ?_
  rw [decodeFields, packR_op]
  show some (Instr.gclock (wD _) (wM _)) = _
  rw [packR_d, packR_m]

theorem RoundTrip.gbitc (d a : Reg) (m : BitVec 3) : RoundTrip.Statement (.gbitc d a m) := by
  intro w h hw
  cases h
  refine decode_of_fields rfl hw (by rw [packR_op]; decide) ?_
  rw [decodeFields, packR_op]
  show some (Instr.gbitc (wD _) (wA _) (wM _)) = _
  rw [packR_d, packR_a, packR_m]

theorem RoundTrip.gid (d : Reg) (m : BitVec 3) : RoundTrip.Statement (.gid d m) := by
  intro w h hw
  cases h
  refine decode_of_fields rfl hw (by rw [packR_op]; decide) ?_
  rw [decodeFields, packR_op]
  show some (Instr.gid (wD _) (wM _)) = _
  rw [packR_d, packR_m]

theorem RoundTrip.gbfe (d a b : Reg) (m : BitVec 3) : RoundTrip.Statement (.gbfe d a b m) := by
  intro w h hw
  cases h
  refine decode_of_fields rfl hw (by rw [packR_op]; decide) ?_
  rw [decodeFields, packR_op]
  show some (Instr.gbfe (wD _) (wA _) (wB _) (wM _)) = _
  rw [packR_d, packR_a, packR_b, packR_m]

theorem RoundTrip.gmad (d a b : Reg) : RoundTrip.Statement (.gmad d a b) := by
  intro w h hw
  cases h
  refine decode_of_fields rfl hw (by rw [packR_op]; decide) ?_
  rw [decodeFields, packR_op]
  show some (Instr.gmad (wD _) (wA _) (wB _)) = _
  rw [packR_d, packR_a, packR_b]

theorem RoundTrip.gbr (f : BitVec 14) : RoundTrip.Statement (.gbr f) := by
  intro w h hw
  cases h
  refine decode_of_fields rfl hw (by rw [packJ_op]; decide) ?_
  rw [decodeFields, packJ_op]
  show some (Instr.gbr (wF _)) = _
  rw [packJ_f]

theorem RoundTrip.gbc (a : Reg) (c : BitVec 3) (f : BitVec 14) : RoundTrip.Statement (.gbc a c f) := by
  intro w h hw
  cases h
  refine decode_of_fields rfl hw (by rw [packJ_op]; decide) ?_
  rw [decodeFields, packJ_op]
  show some (Instr.gbc (wD _) (wC _) (wF _)) = _
  rw [packJ_a, packJ_c, packJ_f]

theorem RoundTrip.gbrd (a : Reg) (c : BitVec 3) (f : BitVec 14) : RoundTrip.Statement (.gbrd a c f) := by
  intro w h hw
  cases h
  refine decode_of_fields rfl hw (by rw [packJ_op]; decide) ?_
  rw [decodeFields, packJ_op]
  show some (Instr.gbrd (wD _) (wC _) (wF _)) = _
  rw [packJ_a, packJ_c, packJ_f]

theorem RoundTrip.gjoin (m : BitVec 3) : RoundTrip.Statement (.gjoin m) := by
  intro w h hw
  cases h
  refine decode_of_fields rfl hw (by rw [packR_op]; decide) ?_
  rw [decodeFields, packR_op]
  show some (Instr.gjoin (wM _)) = _
  rw [packR_m]

theorem RoundTrip.gcall (a : Reg) (f : BitVec 14) : RoundTrip.Statement (.gcall a f) := by
  intro w h hw
  cases h
  refine decode_of_fields rfl hw (by rw [packJ_op]; decide) ?_
  rw [decodeFields, packJ_op]
  show some (Instr.gcall (wD _) (wF _)) = _
  rw [packJ_a, packJ_f]

theorem RoundTrip.gret (a : Reg) : RoundTrip.Statement (.gret a) := by
  intro w h hw
  cases h
  refine decode_of_fields rfl hw (by rw [packR_op]; decide) ?_
  rw [decodeFields, packR_op]
  show some (Instr.gret (wA _)) = _
  rw [packR_a]

theorem RoundTrip.gjr (a : Reg) : RoundTrip.Statement (.gjr a) := by
  intro w h hw
  cases h
  refine decode_of_fields rfl hw (by rw [packR_op]; decide) ?_
  rw [decodeFields, packR_op]
  show some (Instr.gjr (wA _)) = _
  rw [packR_a]

theorem RoundTrip.gregion : RoundTrip.Statement (.gregion) := by
  intro w h hw
  cases h
  refine decode_of_fields rfl hw (by rw [packR_op]; decide) ?_
  rw [decodeFields, packR_op]
  rfl

theorem RoundTrip.gexit : RoundTrip.Statement (.gexit) := by
  intro w h hw
  cases h
  refine decode_of_fields rfl hw (by rw [packR_op]; decide) ?_
  rw [decodeFields, packR_op]
  rfl

theorem RoundTrip.gtrap (j : BitVec 17) : RoundTrip.Statement (.gtrap j) := by
  intro w h hw
  cases h
  refine decode_of_fields rfl hw (by rw [packW_op]; decide) ?_
  rw [decodeFields, packW_op]
  show some (Instr.gtrap (wJ _)) = _
  rw [packW_j]

theorem RoundTrip.gresume (m : BitVec 3) : RoundTrip.Statement (.gresume m) := by
  intro w h hw
  cases h
  refine decode_of_fields rfl hw (by rw [packR_op]; decide) ?_
  rw [decodeFields, packR_op]
  show some (Instr.gresume (wM _)) = _
  rw [packR_m]

theorem RoundTrip.gpark (d a b : Reg) (m : BitVec 3) : RoundTrip.Statement (.gpark d a b m) := by
  intro w h hw
  cases h
  refine decode_of_fields rfl hw (by rw [packR_op]; decide) ?_
  rw [decodeFields, packR_op]
  show some (Instr.gpark (wD _) (wA _) (wB _) (wM _)) = _
  rw [packR_d, packR_a, packR_b, packR_m]

theorem RoundTrip.gmap (d a b : Reg) (m : BitVec 3) : RoundTrip.Statement (.gmap d a b m) := by
  intro w h hw
  cases h
  refine decode_of_fields rfl hw (by rw [packR_op]; decide) ?_
  rw [decodeFields, packR_op]
  show some (Instr.gmap (wD _) (wA _) (wB _) (wM _)) = _
  rw [packR_d, packR_a, packR_b, packR_m]

theorem RoundTrip.gsplinter (d a : Reg) (m : BitVec 3) : RoundTrip.Statement (.gsplinter d a m) := by
  intro w h hw
  cases h
  refine decode_of_fields rfl hw (by rw [packR_op]; decide) ?_
  rw [decodeFields, packR_op]
  show some (Instr.gsplinter (wD _) (wA _) (wM _)) = _
  rw [packR_d, packR_a, packR_m]

theorem RoundTrip.ginvalPg (d a b : Reg) : RoundTrip.Statement (.ginvalPg d a b) := by
  intro w h hw
  cases h
  refine decode_of_fields rfl hw (by rw [packR_op]; decide) ?_
  rw [decodeFields, packR_op]
  show ginvalOf (wM _) (wD _) (wA _) (wB _) = _
  rw [packR_m, packR_d, packR_a, packR_b]
  rfl

theorem RoundTrip.ginvalHnd (d a b : Reg) : RoundTrip.Statement (.ginvalHnd d a b) := by
  intro w h hw
  cases h
  refine decode_of_fields rfl hw (by rw [packR_op]; decide) ?_
  rw [decodeFields, packR_op]
  show ginvalOf (wM _) (wD _) (wA _) (wB _) = _
  rw [packR_m, packR_d, packR_a, packR_b]
  rfl

theorem RoundTrip.ginvalXon (d a b : Reg) : RoundTrip.Statement (.ginvalXon d a b) := by
  intro w h hw
  cases h
  refine decode_of_fields rfl hw (by rw [packR_op]; decide) ?_
  rw [decodeFields, packR_op]
  show ginvalOf (wM _) (wD _) (wA _) (wB _) = _
  rw [packR_m, packR_d, packR_a, packR_b]
  rfl

theorem RoundTrip.ginvalXoff (d a b : Reg) : RoundTrip.Statement (.ginvalXoff d a b) := by
  intro w h hw
  cases h
  refine decode_of_fields rfl hw (by rw [packR_op]; decide) ?_
  rw [decodeFields, packR_op]
  show ginvalOf (wM _) (wD _) (wA _) (wB _) = _
  rw [packR_m, packR_d, packR_a, packR_b]
  rfl

theorem RoundTrip.ginvalRvk (d a b : Reg) : RoundTrip.Statement (.ginvalRvk d a b) := by
  intro w h hw
  cases h
  refine decode_of_fields rfl hw (by rw [packR_op]; decide) ?_
  rw [decodeFields, packR_op]
  show ginvalOf (wM _) (wD _) (wA _) (wB _) = _
  rw [packR_m, packR_d, packR_a, packR_b]
  rfl

theorem RoundTrip.gfence (m : BitVec 3) : RoundTrip.Statement (.gfence m) := by
  intro w h hw
  cases h
  refine decode_of_fields rfl hw (by rw [packR_op]; decide) ?_
  rw [decodeFields, packR_op]
  show some (Instr.gfence (wM _)) = _
  rw [packR_m]

theorem RoundTrip.gbar (i : BitVec 10) : RoundTrip.Statement (.gbar i) := by
  intro w h hw
  cases h
  refine decode_of_fields rfl hw (by rw [packI_op]; decide) ?_
  rw [decodeFields, packI_op]
  show some (Instr.gbar (wI _)) = _
  rw [packI_i]

theorem RoundTrip.gpbar (i : BitVec 10) : RoundTrip.Statement (.gpbar i) := by
  intro w h hw
  cases h
  refine decode_of_fields rfl hw (by rw [packI_op]; decide) ?_
  rw [decodeFields, packI_op]
  show some (Instr.gpbar (wI _)) = _
  rw [packI_i]

theorem RoundTrip.garrive (d a b : Reg) : RoundTrip.Statement (.garrive d a b) := by
  intro w h hw
  cases h
  refine decode_of_fields rfl hw (by rw [packR_op]; decide) ?_
  rw [decodeFields, packR_op]
  show some (Instr.garrive (wD _) (wA _) (wB _)) = _
  rw [packR_d, packR_a, packR_b]

theorem RoundTrip.gwaitu (d a b : Reg) (m : BitVec 3) : RoundTrip.Statement (.gwaitu d a b m) := by
  intro w h hw
  cases h
  refine decode_of_fields rfl hw (by rw [packR_op]; decide) ?_
  rw [decodeFields, packR_op]
  show some (Instr.gwaitu (wD _) (wA _) (wB _) (wM _)) = _
  rw [packR_d, packR_a, packR_b, packR_m]

theorem RoundTrip.gwaitc (j : BitVec 17) : RoundTrip.Statement (.gwaitc j) := by
  intro w h hw
  cases h
  refine decode_of_fields rfl hw (by rw [packW_op]; decide) ?_
  rw [decodeFields, packW_op]
  show some (Instr.gwaitc (wJ _)) = _
  rw [packW_j]

theorem RoundTrip.gyield : RoundTrip.Statement (.gyield) := by
  intro w h hw
  cases h
  refine decode_of_fields rfl hw (by rw [packR_op]; decide) ?_
  rw [decodeFields, packR_op]
  rfl

theorem RoundTrip.gcopy (d a b : Reg) (m : BitVec 3) : RoundTrip.Statement (.gcopy d a b m) := by
  intro w h hw
  cases h
  refine decode_of_fields rfl hw (by rw [packR_op]; decide) ?_
  rw [decodeFields, packR_op]
  show some (Instr.gcopy (wD _) (wA _) (wB _) (wM _)) = _
  rw [packR_d, packR_a, packR_b, packR_m]

theorem RoundTrip.ggather (d a b : Reg) (m : BitVec 3) : RoundTrip.Statement (.ggather d a b m) := by
  intro w h hw
  cases h
  refine decode_of_fields rfl hw (by rw [packR_op]; decide) ?_
  rw [decodeFields, packR_op]
  show some (Instr.ggather (wD _) (wA _) (wB _) (wM _)) = _
  rw [packR_d, packR_a, packR_b, packR_m]

theorem RoundTrip.gscadd (d a b : Reg) (m : BitVec 3) : RoundTrip.Statement (.gscadd d a b m) := by
  intro w h hw
  cases h
  refine decode_of_fields rfl hw (by rw [packR_op]; decide) ?_
  rw [decodeFields, packR_op]
  show some (Instr.gscadd (wD _) (wA _) (wB _) (wM _)) = _
  rw [packR_d, packR_a, packR_b, packR_m]

theorem RoundTrip.groute (d a b : Reg) (m : BitVec 3) : RoundTrip.Statement (.groute d a b m) := by
  intro w h hw
  cases h
  refine decode_of_fields rfl hw (by rw [packR_op]; decide) ?_
  rw [decodeFields, packR_op]
  show some (Instr.groute (wD _) (wA _) (wB _) (wM _)) = _
  rw [packR_d, packR_a, packR_b, packR_m]

theorem RoundTrip.grsel (d a b : Reg) (m : BitVec 3) : RoundTrip.Statement (.grsel d a b m) := by
  intro w h hw
  cases h
  refine decode_of_fields rfl hw (by rw [packR_op]; decide) ?_
  rw [decodeFields, packR_op]
  show some (Instr.grsel (wD _) (wA _) (wB _) (wM _)) = _
  rw [packR_d, packR_a, packR_b, packR_m]

theorem RoundTrip.grretry (d a b : Reg) (m : BitVec 3) : RoundTrip.Statement (.grretry d a b m) := by
  intro w h hw
  cases h
  refine decode_of_fields rfl hw (by rw [packR_op]; decide) ?_
  rw [decodeFields, packR_op]
  show some (Instr.grretry (wD _) (wA _) (wB _) (wM _)) = _
  rw [packR_d, packR_a, packR_b, packR_m]

theorem RoundTrip.gpref (a b : Reg) (m : BitVec 3) : RoundTrip.Statement (.gpref a b m) := by
  intro w h hw
  cases h
  refine decode_of_fields rfl hw (by rw [packR_op]; decide) ?_
  rw [decodeFields, packR_op]
  show some (Instr.gpref (wA _) (wB _) (wM _)) = _
  rw [packR_a, packR_b, packR_m]

theorem RoundTrip.gbdecl (d a b : Reg) : RoundTrip.Statement (.gbdecl d a b) := by
  intro w h hw
  cases h
  refine decode_of_fields rfl hw (by rw [packR_op]; decide) ?_
  rw [decodeFields, packR_op]
  show some (Instr.gbdecl (wD _) (wA _) (wB _)) = _
  rw [packR_d, packR_a, packR_b]

theorem RoundTrip.gbenter (d a : Reg) : RoundTrip.Statement (.gbenter d a) := by
  intro w h hw
  cases h
  refine decode_of_fields rfl hw (by rw [packR_op]; decide) ?_
  rw [decodeFields, packR_op]
  show some (Instr.gbenter (wD _) (wA _)) = _
  rw [packR_d, packR_a]

theorem RoundTrip.gbleave (d a : Reg) : RoundTrip.Statement (.gbleave d a) := by
  intro w h hw
  cases h
  refine decode_of_fields rfl hw (by rw [packR_op]; decide) ?_
  rw [decodeFields, packR_op]
  show some (Instr.gbleave (wD _) (wA _)) = _
  rw [packR_d, packR_a]

theorem RoundTrip.gbquery (d a : Reg) (m : BitVec 3) : RoundTrip.Statement (.gbquery d a m) := by
  intro w h hw
  cases h
  refine decode_of_fields rfl hw (by rw [packR_op]; decide) ?_
  rw [decodeFields, packR_op]
  show some (Instr.gbquery (wD _) (wA _) (wM _)) = _
  rw [packR_d, packR_a, packR_m]

theorem RoundTrip.gbdrop (d a : Reg) : RoundTrip.Statement (.gbdrop d a) := by
  intro w h hw
  cases h
  refine decode_of_fields rfl hw (by rw [packR_op]; decide) ?_
  rw [decodeFields, packR_op]
  show some (Instr.gbdrop (wD _) (wA _)) = _
  rw [packR_d, packR_a]

theorem RoundTrip.gtile (d a : Reg) (i : BitVec 10) : RoundTrip.Statement (.gtile d a i) := by
  intro w h hw
  cases h
  refine decode_of_fields rfl hw (by rw [packI_op]; decide) ?_
  rw [decodeFields, packI_op]
  show some (Instr.gtile (wD _) (wA _) (wI _)) = _
  rw [packI_d, packI_a, packI_i]

theorem RoundTrip.gtileg (d a : Reg) (i : BitVec 10) : RoundTrip.Statement (.gtileg d a i) := by
  intro w h hw
  cases h
  refine decode_of_fields rfl hw (by rw [packI_op]; decide) ?_
  rw [decodeFields, packI_op]
  show some (Instr.gtileg (wD _) (wA _) (wI _)) = _
  rw [packI_d, packI_a, packI_i]

theorem RoundTrip.mma (d a b : Reg) (m : BitVec 3) : RoundTrip.Statement (.mma d a b m) := by
  intro w h hw
  cases h
  refine decode_of_fields rfl hw (by rw [packR_op]; decide) ?_
  rw [decodeFields, packR_op]
  show some (Instr.mma (wD _) (wA _) (wB _) (wM _)) = _
  rw [packR_d, packR_a, packR_b, packR_m]

theorem RoundTrip.mchain (d : Reg) (m : BitVec 3) : RoundTrip.Statement (.mchain d m) := by
  intro w h hw
  cases h
  refine decode_of_fields rfl hw (by rw [packR_op]; decide) ?_
  rw [decodeFields, packR_op]
  show some (Instr.mchain (wD _) (wM _)) = _
  rw [packR_d, packR_m]

theorem RoundTrip.mend (d a : Reg) (m : BitVec 3) : RoundTrip.Statement (.mend d a m) := by
  intro w h hw
  cases h
  refine decode_of_fields rfl hw (by rw [packR_op]; decide) ?_
  rw [decodeFields, packR_op]
  show some (Instr.mend (wD _) (wA _) (wM _)) = _
  rw [packR_d, packR_a, packR_m]

theorem RoundTrip.msacc (d a b : Reg) (m : BitVec 3) : RoundTrip.Statement (.msacc d a b m) := by
  intro w h hw
  cases h
  refine decode_of_fields rfl hw (by rw [packR_op]; decide) ?_
  rw [decodeFields, packR_op]
  show some (Instr.msacc (wD _) (wA _) (wB _) (wM _)) = _
  rw [packR_d, packR_a, packR_b, packR_m]

theorem RoundTrip.tcvt (d a : Reg) (m : BitVec 3) : RoundTrip.Statement (.tcvt d a m) := by
  intro w h hw
  cases h
  refine decode_of_fields rfl hw (by rw [packR_op]; decide) ?_
  rw [decodeFields, packR_op]
  show some (Instr.tcvt (wD _) (wA _) (wM _)) = _
  rw [packR_d, packR_a, packR_m]

theorem RoundTrip.tfill (d a : Reg) (m : BitVec 3) : RoundTrip.Statement (.tfill d a m) := by
  intro w h hw
  cases h
  refine decode_of_fields rfl hw (by rw [packR_op]; decide) ?_
  rw [decodeFields, packR_op]
  show some (Instr.tfill (wD _) (wA _) (wM _)) = _
  rw [packR_d, packR_a, packR_m]

theorem RoundTrip.glaunch (d a : Reg) : RoundTrip.Statement (.glaunch d a) := by
  intro w h hw
  cases h
  refine decode_of_fields rfl hw (by rw [packR_op]; decide) ?_
  rw [decodeFields, packR_op]
  show some (Instr.glaunch (wD _) (wA _)) = _
  rw [packR_d, packR_a]

theorem RoundTrip.gqend (d a : Reg) : RoundTrip.Statement (.gqend d a) := by
  intro w h hw
  cases h
  refine decode_of_fields rfl hw (by rw [packR_op]; decide) ?_
  rw [decodeFields, packR_op]
  show some (Instr.gqend (wD _) (wA _)) = _
  rw [packR_d, packR_a]

theorem RoundTrip.galloc (d a : Reg) (i : BitVec 10) : RoundTrip.Statement (.galloc d a i) := by
  intro w h hw
  cases h
  refine decode_of_fields rfl hw (by rw [packI_op]; decide) ?_
  rw [decodeFields, packI_op]
  show some (Instr.galloc (wD _) (wA _) (wI _)) = _
  rw [packI_d, packI_a, packI_i]

theorem RoundTrip.gdrainWait (d a : Reg) : RoundTrip.Statement (.gdrainWait d a) := by
  intro w h hw
  cases h
  refine decode_of_fields rfl hw (by rw [packR_op]; decide) ?_
  rw [decodeFields, packR_op]
  show gdrainOf (wM _) (wD _) (wA _) = _
  rw [packR_m, packR_d, packR_a]
  rfl

theorem RoundTrip.gdrainStop (d a : Reg) : RoundTrip.Statement (.gdrainStop d a) := by
  intro w h hw
  cases h
  refine decode_of_fields rfl hw (by rw [packR_op]; decide) ?_
  rw [decodeFields, packR_op]
  show gdrainOf (wM _) (wD _) (wA _) = _
  rw [packR_m, packR_d, packR_a]
  rfl

theorem RoundTrip.gdrainRun (d a : Reg) : RoundTrip.Statement (.gdrainRun d a) := by
  intro w h hw
  cases h
  refine decode_of_fields rfl hw (by rw [packR_op]; decide) ?_
  rw [decodeFields, packR_op]
  show gdrainOf (wM _) (wD _) (wA _) = _
  rw [packR_m, packR_d, packR_a]
  rfl

theorem RoundTrip.gsvc (j : BitVec 17) : RoundTrip.Statement (.gsvc j) := by
  intro w h hw
  cases h
  refine decode_of_fields rfl hw (by rw [packW_op]; decide) ?_
  rw [decodeFields, packW_op]
  show some (Instr.gsvc (wJ _)) = _
  rw [packW_j]

theorem RoundTrip.gqcfg (d a b : Reg) (m : BitVec 3) : RoundTrip.Statement (.gqcfg d a b m) := by
  intro w h hw
  cases h
  refine decode_of_fields rfl hw (by rw [packR_op]; decide) ?_
  rw [decodeFields, packR_op]
  show some (Instr.gqcfg (wD _) (wA _) (wB _) (wM _)) = _
  rw [packR_d, packR_a, packR_b, packR_m]

theorem RoundTrip.kBcapWrite (ctx : Nat) (v : BitVec 32) : RoundTrip.Statement (.kBcapWrite ctx v) := by
  intro w h _
  exact absurd h (by simp [encode])

theorem RoundTrip.loadDataReturn (g : Nat) (id : Nat) : RoundTrip.Statement (.loadDataReturn g id) := by
  intro w h _
  exact absurd h (by simp [encode])

theorem RoundTrip.storeAck (g : Nat) (id : Nat) : RoundTrip.Statement (.storeAck g id) := by
  intro w h _
  exact absurd h (by simp [encode])

theorem RoundTrip.windowMissFill (g : Nat) (n : Nat) : RoundTrip.Statement (.windowMissFill g n) := by
  intro w h _
  exact absurd h (by simp [encode])

theorem RoundTrip.compactorStep (core : Nat) : RoundTrip.Statement (.compactorStep core) := by
  intro w h _
  exact absurd h (by simp [encode])

theorem RoundTrip.bankStarvePromote (core : Nat) (bank : Nat) (who : BankReq) : RoundTrip.Statement (.bankStarvePromote core bank who) := by
  intro w h _
  exact absurd h (by simp [encode])

theorem RoundTrip.engineCommandStart (core : Nat) (e : DataEngine) : RoundTrip.Statement (.engineCommandStart core e) := by
  intro w h _
  exact absurd h (by simp [encode])

theorem RoundTrip.engineCommandComplete (core : Nat) (id : Nat) : RoundTrip.Statement (.engineCommandComplete core id) := by
  intro w h _
  exact absurd h (by simp [encode])

theorem RoundTrip.tileCommandStart (core : Nat) : RoundTrip.Statement (.tileCommandStart core) := by
  intro w h _
  exact absurd h (by simp [encode])

theorem RoundTrip.tileCommandComplete (core : Nat) (id : Nat) : RoundTrip.Statement (.tileCommandComplete core id) := by
  intro w h _
  exact absurd h (by simp [encode])

theorem RoundTrip.sluiceCommandStart (cl : Nat) : RoundTrip.Statement (.sluiceCommandStart cl) := by
  intro w h _
  exact absurd h (by simp [encode])

theorem RoundTrip.routeRowsSent (cl : Nat) (id : Nat) : RoundTrip.Statement (.routeRowsSent cl id) := by
  intro w h _
  exact absurd h (by simp [encode])

theorem RoundTrip.sluiceCommandComplete (cl : Nat) (id : Nat) : RoundTrip.Statement (.sluiceCommandComplete cl id) := by
  intro w h _
  exact absurd h (by simp [encode])

theorem RoundTrip.rowRetransmit (cl : Nat) (id : Nat) (t : Nat) (slot : Nat) : RoundTrip.Statement (.rowRetransmit cl id t slot) := by
  intro w h _
  exact absurd h (by simp [encode])

theorem RoundTrip.rowArrival (row : VrelRow) : RoundTrip.Statement (.rowArrival row) := by
  intro w h _
  exact absurd h (by simp [encode])

theorem RoundTrip.rowAckArrival (tag : VrelTag) : RoundTrip.Statement (.rowAckArrival tag) := by
  intro w h _
  exact absurd h (by simp [encode])

theorem RoundTrip.routeCloseNotice (dev : Nat) (ctx : Nat) (rid : Nat) : RoundTrip.Statement (.routeCloseNotice dev ctx rid) := by
  intro w h _
  exact absurd h (by simp [encode])

theorem RoundTrip.filterEntryExpire (dev : Nat) (ctx : Nat) (rid : Nat) : RoundTrip.Statement (.filterEntryExpire dev ctx rid) := by
  intro w h _
  exact absurd h (by simp [encode])

theorem RoundTrip.deviceUnreachable (dev : Nat) : RoundTrip.Statement (.deviceUnreachable dev) := by
  intro w h _
  exact absurd h (by simp [encode])

theorem RoundTrip.bundleFillComplete (core : Nat) (id : Nat) : RoundTrip.Statement (.bundleFillComplete core id) := by
  intro w h _
  exact absurd h (by simp [encode])

theorem RoundTrip.bundleQueueGrant (core : Nat) : RoundTrip.Statement (.bundleQueueGrant core) := by
  intro w h _
  exact absurd h (by simp [encode])

theorem RoundTrip.gbdeclDone (g : Nat) (id : Nat) : RoundTrip.Statement (.gbdeclDone g id) := by
  intro w h _
  exact absurd h (by simp [encode])

theorem RoundTrip.waitWake (g : Nat) : RoundTrip.Statement (.waitWake g) := by
  intro w h _
  exact absurd h (by simp [encode])

theorem RoundTrip.waitTimeout (g : Nat) : RoundTrip.Statement (.waitTimeout g) := by
  intro w h _
  exact absurd h (by simp [encode])

theorem RoundTrip.gbarRelease (blk : Nat) (id : Nat) : RoundTrip.Statement (.gbarRelease blk id) := by
  intro w h _
  exact absurd h (by simp [encode])

theorem RoundTrip.gpbarRelease (blk : Nat) (id : Nat) : RoundTrip.Statement (.gpbarRelease blk id) := by
  intro w h _
  exact absurd h (by simp [encode])

theorem RoundTrip.yieldExpire (g : Nat) (sp : Nat) : RoundTrip.Statement (.yieldExpire g sp) := by
  intro w h _
  exact absurd h (by simp [encode])

theorem RoundTrip.invalidationComplete (g : Nat) (sp : Nat) : RoundTrip.Statement (.invalidationComplete g sp) := by
  intro w h _
  exact absurd h (by simp [encode])

theorem RoundTrip.gmapDone (g : Nat) (id : Nat) : RoundTrip.Statement (.gmapDone g id) := by
  intro w h _
  exact absurd h (by simp [encode])

theorem RoundTrip.gsplinterDone (g : Nat) (sp : Nat) : RoundTrip.Statement (.gsplinterDone g sp) := by
  intro w h _
  exact absurd h (by simp [encode])

theorem RoundTrip.glaunchDone (g : Nat) (sp : Nat) : RoundTrip.Statement (.glaunchDone g sp) := by
  intro w h _
  exact absurd h (by simp [encode])

theorem RoundTrip.retirementDrain (g : Nat) : RoundTrip.Statement (.retirementDrain g) := by
  intro w h _
  exact absurd h (by simp [encode])

theorem RoundTrip.launchFinish (lid : Nat) : RoundTrip.Statement (.launchFinish lid) := by
  intro w h _
  exact absurd h (by simp [encode])

theorem RoundTrip.admissionPass : RoundTrip.Statement (.admissionPass) := by
  intro w h _
  exact absurd h (by simp [encode])

theorem RoundTrip.parkTrigger (blk : Nat) : RoundTrip.Statement (.parkTrigger blk) := by
  intro w h _
  exact absurd h (by simp [encode])

theorem RoundTrip.parkTimeExpire (g : Nat) : RoundTrip.Statement (.parkTimeExpire g) := by
  intro w h _
  exact absurd h (by simp [encode])

theorem RoundTrip.blockDrainComplete (blk : Nat) : RoundTrip.Statement (.blockDrainComplete blk) := by
  intro w h _
  exact absurd h (by simp [encode])

theorem RoundTrip.blockSaveComplete (blk : Nat) : RoundTrip.Statement (.blockSaveComplete blk) := by
  intro w h _
  exact absurd h (by simp [encode])

theorem RoundTrip.blockRestoreComplete (blk : Nat) : RoundTrip.Statement (.blockRestoreComplete blk) := by
  intro w h _
  exact absurd h (by simp [encode])

theorem RoundTrip.preemptStopRequest (ctx : Nat) : RoundTrip.Statement (.preemptStopRequest ctx) := by
  intro w h _
  exact absurd h (by simp [encode])

theorem RoundTrip.quantumEnd (lid : Nat) : RoundTrip.Statement (.quantumEnd lid) := by
  intro w h _
  exact absurd h (by simp [encode])

theorem RoundTrip.powerAllowanceCycle (cl : Nat) : RoundTrip.Statement (.powerAllowanceCycle cl) := by
  intro w h _
  exact absurd h (by simp [encode])

theorem RoundTrip.sensorSample (codes : List (Nat × Nat)) : RoundTrip.Statement (.sensorSample codes) := by
  intro w h _
  exact absurd h (by simp [encode])

theorem RoundTrip.powerGateBegin (cl : Nat) : RoundTrip.Statement (.powerGateBegin cl) := by
  intro w h _
  exact absurd h (by simp [encode])

theorem RoundTrip.powerGateCommit (cl : Nat) : RoundTrip.Statement (.powerGateCommit cl) := by
  intro w h _
  exact absurd h (by simp [encode])

theorem RoundTrip.clusterWakeComplete (cl : Nat) : RoundTrip.Statement (.clusterWakeComplete cl) := by
  intro w h _
  exact absurd h (by simp [encode])

theorem RoundTrip.storageErrorDetected (e : StorageError) : RoundTrip.Statement (.storageErrorDetected e) := by
  intro w h _
  exact absurd h (by simp [encode])

theorem RoundTrip.marchTestComplete (u : StorageUnit) (ok : Bool) : RoundTrip.Statement (.marchTestComplete u ok) := by
  intro w h _
  exact absurd h (by simp [encode])

theorem RoundTrip.deviceReset : RoundTrip.Statement (.deviceReset) := by
  intro w h _
  exact absurd h (by simp [encode])

theorem RoundTrip.imageVerify (img : ImageCheck) : RoundTrip.Statement (.imageVerify img) := by
  intro w h _
  exact absurd h (by simp [encode])

theorem RoundTrip.pcieLinkChange (up : Bool) : RoundTrip.Statement (.pcieLinkChange up) := by
  intro w h _
  exact absurd h (by simp [encode])

theorem RoundTrip.ethPortChange (p : Nat) (up : Bool) : RoundTrip.Statement (.ethPortChange p up) := by
  intro w h _
  exact absurd h (by simp [encode])

theorem RoundTrip.hbmTrainingDone (k : Nat) (ok : Bool) : RoundTrip.Statement (.hbmTrainingDone k ok) := by
  intro w h _
  exact absurd h (by simp [encode])

theorem RoundTrip.hostBar0Read (a : Nat) (n : Nat) : RoundTrip.Statement (.hostBar0Read a n) := by
  intro w h _
  exact absurd h (by simp [encode])

theorem RoundTrip.hostBar0Write (a : Nat) (bs : List (BitVec 8)) : RoundTrip.Statement (.hostBar0Write a bs) := by
  intro w h _
  exact absurd h (by simp [encode])

theorem RoundTrip.hostBar2Read (o : Nat) : RoundTrip.Statement (.hostBar2Read o) := by
  intro w h _
  exact absurd h (by simp [encode])

theorem RoundTrip.hostMailboxWrite (n : Nat) (v : BitVec 32) : RoundTrip.Statement (.hostMailboxWrite n v) := by
  intro w h _
  exact absurd h (by simp [encode])

theorem RoundTrip.hostUnsupportedRequest (r : HostRequest) : RoundTrip.Statement (.hostUnsupportedRequest r) := by
  intro w h _
  exact absurd h (by simp [encode])

theorem RoundTrip.attestationRequest (nonce : BitVec 256) : RoundTrip.Statement (.attestationRequest nonce) := by
  intro w h _
  exact absurd h (by simp [encode])

theorem RoundTrip.checkpointStart : RoundTrip.Statement (.checkpointStart) := by
  intro w h _
  exact absurd h (by simp [encode])

theorem RoundTrip.checkpointRegionAck (r : Nat) : RoundTrip.Statement (.checkpointRegionAck r) := by
  intro w h _
  exact absurd h (by simp [encode])

theorem RoundTrip.completionTimeReached (g : Nat) : RoundTrip.Statement (.completionTimeReached g) := by
  intro w h _
  exact absurd h (by simp [encode])

theorem RoundTrip.pcieReadCompletion (page : Nat) : RoundTrip.Statement (.pcieReadCompletion page) := by
  intro w h _
  exact absurd h (by simp [encode])

theorem RoundTrip.sliceTrainingDone (c : Nat) : RoundTrip.Statement (.sliceTrainingDone c) := by
  intro w h _
  exact absurd h (by simp [encode])

end Sys2Proof.Laws
end

