-- ==== Sys2Proof/Tests/Slice0.lean ====
section
/-! SUPPORT. Tests: ill-formed instructions are refused, words of the encoding tables decode, small steps give the results of the
manual, and each obligation's hypotheses are met by a small machine. Expected values are those of the rules named beside them. -/
namespace Sys2Proof.Test
open Sys2Proof Sys2Proof.Machine

set_option Elab.async false
set_option maxRecDepth 20000

/-! ### A small machine -/

/-- Registers that hold one value in lanes 0-3. -/
def regs (vs : List (Nat × Nat)) : SMap Word :=
  vs.flatMap fun v => ((seqFrom 0 4).map fun l => (32 * v.1 + l, BitVec.ofNat 32 v.2)).filter fun e => decide (e.2 ≠ 0)

/-- A handle entry (R138): its space, its limit, its base, and read, write and atomic permission. -/
def handle (space limit base : Nat) (perm : Nat := 7) : BitVec 128 :=
  BitVec.ofNat 128 (2 ^ 127 + space * 2 ^ 125 + perm * 2 ^ 122 + 2 ^ 120 + 2 ^ 116 + limit * 2 ^ 64 + base)

/-- The handles of the small machine: 1 scratchpad, 2 global, 3 host, 4 peer, 5 scratchpad without permission, 6 unusable,
7 global and unmapped. -/
def handles (sup : Bool) : List HandleEnt :=
  [{ sup := sup, ctx := 1, idx := 1, val := handle 1 4096 0 }, { sup := sup, ctx := 1, idx := 2, val := handle 0 65536 0x100000 },
   { sup := sup, ctx := 1, idx := 3, val := handle 3 65536 0 }, { sup := sup, ctx := 1, idx := 4, val := handle 2 4096 0 },
   { sup := sup, ctx := 1, idx := 5, val := handle 1 4096 0 0 }, { sup := sup, ctx := 1, idx := 6, val := 0 },
   { sup := sup, ctx := 1, idx := 7, val := handle 0 65536 0x900000 }]

/-- A group of four lanes with one split. -/
def group (vs : List (Nat × Nat)) : Group :=
  { Group.empty with
    blk := 1, live := true, launched := 0xF, alloc := 64, regs := regs vs, retired := 7, nextId := 5
    splits := [(0, { Split.none with pc := 0x10000, members := 0xF, region := 0xF000 })] }

/-- A leaf of R297: a readable, writable and executable page. -/
def leaf (pa : Nat) : Dword := BitVec.ofNat 64 (2 ^ 63 + 2 ^ 62 + 2 ^ 61 + 2 ^ 60 + 2 ^ 59 + pa)

/-- One group of one block of context 1 on core 0, at time 1000: VA 0x10000 is code at PA 0x30000, VA 0x100000 is data at PA 0x200000. -/
def machine (g : Group) : State :=
  { State.reset with
    cg := 32, now := 1000, groups := [(32, g)]
    blocks := [(1, { Block.empty with lid := 1, ctx := 1, ngroups := 1, scratch := 4096 })]
    launches := [(1, { Launch.empty with ctx := 1, gx := 1, gy := 1, gz := 1, st := .running, next := 1 })]
    contexts := [(1, { Context.empty with live := true, htLen := 16, shtLen := 16, fvec := 0x8000 })]
    cores := [(0, { Core.empty with inService := true, hcache := handles false ++ handles true })]
    clusters := [(0, { Cluster.empty with tlb := [{ ctx := 1, vpn := 1, pages := 1, leaf := leaf 0x30000 },
                                                  { ctx := 1, vpn := 16, pages := 1, leaf := leaf 0x200000 }] })]
    xcount := [(3, 1)], nextBlk := 2, nextLid := 2, fw := true }

/-- The small machine in user mode with these registers. -/
def user (vs : List (Nat × Nat)) : State := machine (group vs)

/-- The same in its fault handler (R270). -/
def handler (vs : List (Nat × Nat)) : State :=
  machine { group vs with
    frame := some { pc := 0x10010, kix := 3, cnt := [(1, 2)], since := 900 }
    splits := [(0, { Split.none with pc := 0x8000, members := 0xF, region := 0x10000, sup := true })] }

/-- The request for a line that has been sent beyond its core (R144). -/
def far (line time : Nat) : LineReq := { line := line, far := true, time := time }

/-- The same in ordered mode (R172). -/
def ordered (s : State) : State := { s with launches := s.launches.map fun (e : Nat × Launch) => (e.1, { e.2 with q := 100 }) }

/-- The state after an instruction; a state that no test can take for one where it stops. -/
def after (i : Instr) (s : State) : State :=
  match exec i s with
  | .next t => t
  | _ => { State.reset with now := 987654321 }

/-! ### Well-formedness and decoding -/

/-- Ill-formed lane instructions: a reserved m, bits that the card leaves unread, an operand of a form that reads none, or a span that
leaves its range (R46 reasons 5 to 7, R38). -/
def illLane : List Instr :=
  [.add 1 2 3 3, .sub 1 2 3 3, .mul 1 2 3 3, .mad 1 2 3 3, .min 1 2 3 2, .max 1 2 3 2, .shr 1 2 3 2, .rot 1 2 3 2, .bfe 1 2 3 2, .bitc 1 2 4,
   .cmp 1 2 3 6, .lid 1 3, .laneIf 1 4, .brk 1 0x200, .cont 1 0x300, .lexit 1 3, .lexit 1 0, .fadd 1 2 3 5, .fsub 1 2 3 5, .fmul 1 2 3 5,
   .ffma 1 2 3 5, .frcp 1 2 5, .fsqrt 1 2 5, .fsgn 1 2 3 4, .fsgn 1 2 3 1, .fsgn 1 2 3 2, .frnd 1 2 5, .i2f 1 2 0 5, .i2f 1 2 4 0,
   .f2i 1 2 0 5, .f2i 1 2 8 0, .pkh 1 2 3 5, .pkb 1 2 3 5, .pk8 1 2 3 4, .pk8 1 2 3 5, .unpk 1 2 32, .unpk 1 2 16, .hfma2 1 2 3 6,
   .hadd2 1 2 3 6, .hmul2 1 2 3 6, .rnd 1 2, .shfl 1 2 3 4, .shfl 1 2 3 7, .vote 1 2 7, .scan 1 2 0 2, .scan 1 2 8 0, .red 1 2 8,
   .topk 1 2 3 3, .topk 1 2 0 7, .topk 1 2 3 4, .sort 1 2 0 4, .sort 1 2 3 0, .matchLanes 1 2 6, .ldB64 95 0 2 0, .ldB128 93 0 2 0,
   .ldsB64 127 0 2 0, .stB64 95 0 2 0, .stB128 125 0 2 0, .stsB64 95 0 2 0, .acas 95 0 2 0, .aadd64 127 0 2 0]

/-- The same of group instructions. -/
def illGroup : List Instr :=
  [.gadd 1 2 3 3, .gsub 1 2 3 3, .gmul 1 2 3 3, .gshr 1 2 3 2, .gmin 1 2 3 2, .gmax 1 2 3 2, .gcmp 1 2 3 6, .gseth 1 0x8000, .grdc 1 7,
   .grdc 95 0x20, .gwrc 1 0x21, .gwrc 95 0x20, .glea 1 2 3 5, .glea 1 95 3 0, .gclock 1 2, .gbitc 1 2 3, .gid 1 5, .gbfe 1 2 3 2,
   .gbc 1 0 4, .gbc 1 7 4, .gbc 1 5 4, .gbrd 1 0 4, .gbrd 1 5 4, .gjoin 2, .gresume 3, .gpark 95 2 4 0, .gpark 1 95 4 0, .gpark 1 2 127 0,
   .gmap 1 2 3 3, .gsplinter 1 2 2, .gfence 5, .gbar 16, .gpbar 4, .garrive 1 95 3, .gwaitu 95 2 4 0, .gwaitu 1 95 4 0, .gwaitu 1 2 95 0,
   .gwaitc 0x10000, .gcopy 1 2 4 4, .gcopy 1 95 0 0, .gcopy 1 2 4 0, .gcopy 1 2 95 1, .gcopy 1 2 0 2, .ggather 1 2 4 4, .gscadd 1 2 4 0,
   .groute 1 2 0 2, .grsel 1 2 4 4, .grretry 1 2 4 4, .gpref 1 2 2, .gpref 95 2 0, .gbdecl 1 95 2, .gbquery 1 2 6, .gbquery 1 2 0,
   .gtile 16 2 0, .gtileg 1 16 0, .mma 16 1 2 0, .mma 0 16 2 0, .mma 0 1 16 0, .mma 0 1 2 4, .mchain 16 0, .mchain 0 4, .mend 1 16 0,
   .mend 1 2 2, .msacc 16 1 2 0, .msacc 0 16 2 0, .msacc 0 1 16 0, .msacc 0 1 2 2, .tcvt 16 1 0, .tcvt 0 16 0, .tfill 16 1 0, .tfill 0 1 2,
   .glaunch 1 95, .galloc 1 2 3, .gqcfg 1 2 3 3]

theorem test_wf_refuses_lane : illLane.all (fun i => !i.wf) = true := by decide +kernel
theorem test_wf_refuses_group : illGroup.all (fun i => !i.wf) = true := by decide +kernel

/-- Each word decodes to the instruction beside it. -/
def decodes (l : List (Word × Instr)) : Bool := l.all fun e => decide ((decode e.1).toOption = some e.2)

/-- A marker, an opcode without a row, a bit set in a field that the card keeps 0, a reserved m: R46. -/
theorem test_decode_refuses :
    (([0x00000000, 0x7A000000, 0xFF000000, 0x22000001, 0xA8000001, 0x1B000400, 0x01040803, 0xE0200000, 0xA2040000, 0xB6000001, 0xB0000005] :
      List Word).all fun w => (decode w).toOption.isNone) = true := by decide +kernel

theorem test_decode_lane_integer : decodes [
    (0x01145961, .add 10 22 44 1), (0x02145961, .sub 10 22 44 1), (0x03145961, .mul 10 22 44 1), (0x04145961, .mad 10 22 44 1),
    (0x05145961, .min 10 22 44 1), (0x06145961, .max 10 22 44 1), (0x07145960, .and 10 22 44), (0x08145960, .or 10 22 44),
    (0x09145960, .xor 10 22 44), (0x0A145960, .andn 10 22 44), (0x0B145960, .shl 10 22 44), (0x0C145961, .shr 10 22 44 1),
    (0x0D145961, .rot 10 22 44 1), (0x0E145961, .bfe 10 22 44 1), (0x0F145960, .bfi 10 22 44), (0x10145801, .bitc 10 22 1),
    (0x11145960, .sel 10 22 44), (0x12145965, .cmp 10 22 44 5), (0x13145955, .addi 10 22 341), (0x14145955, .andi 10 22 341),
    (0x15145955, .ori 10 22 341), (0x16145955, .xori 10 22 341), (0x17145955, .shli 10 22 341), (0x18145955, .shri 10 22 341),
    (0x19145955, .cmpi 10 22 341), (0x1A140155, .movi 10 341), (0x1B140001, .lid 10 1), (0x1E145800, .mov 10 22),
    (0x1F1532C9, .lea 10 19 22 9), (0x20005801, .laneIf 22 1), (0x21005955, .laneIfi 22 341), (0x22000000, .laneElse),
    (0x23000000, .endif), (0x24000000, .lbeg), (0x25005955, .brk 22 341), (0x26005955, .cont 22 341), (0x27000000, .lnext),
    (0x28000000, .lend), (0x29005801, .lexit 22 1)] = true := by decide +kernel

theorem test_decode_lane_float : decodes [
    (0x30145961, .fadd 10 22 44 1), (0x31145961, .fsub 10 22 44 1), (0x32145961, .fmul 10 22 44 1), (0x33145961, .ffma 10 22 44 1),
    (0x34145960, .fmin 10 22 44), (0x35145960, .fmax 10 22 44), (0x36145967, .fcmp 10 22 44 7), (0x37145801, .frcp 10 22 1),
    (0x38145800, .frsq 10 22), (0x39145801, .fsqrt 10 22 1), (0x3A145800, .fexp2 10 22), (0x3B145800, .flog2 10 22),
    (0x3C145800, .fsinpi 10 22), (0x3D145963, .fsgn 10 22 44 3), (0x3E145800, .fclass 10 22), (0x3F145801, .frnd 10 22 1)] = true := by decide +kernel

theorem test_decode_lane_conversion : decodes [
    (0x40145819, .i2f 10 22 3 1), (0x41145829, .f2i 10 22 5 1), (0x42145961, .pkh 10 22 44 1), (0x43145961, .pkb 10 22 44 1),
    (0x44145967, .pk8 10 22 44 7), (0x45145898, .unpk 10 22 19), (0x46145965, .hfma2 10 22 44 5), (0x47145961, .hadd2 10 22 44 1),
    (0x48145961, .hmul2 10 22 44 1), (0x49140001, .rnd 10 1), (0x4A145966, .hcmp2 10 22 44 6)] = true := by decide +kernel

theorem test_decode_cross_lane : decodes [
    (0x50145961, .shfl 10 22 44 1), (0x51145955, .shfli 10 22 341), (0x52145806, .vote 10 22 6), (0x53145829, .scan 10 22 5 1),
    (0x54145830, .red 10 22 6), (0x55145961, .topk 10 22 44 1), (0x56145811, .sort 10 22 2 1), (0x57145805, .matchLanes 10 22 5)] = true := by decide +kernel

theorem test_decode_lane_memory : decodes [
    (0x601532C9, .ldN8 10 19 22 9), (0x611532C9, .ldI8 10 19 22 9), (0x621532C9, .ldN16 10 19 22 9), (0x631532C9, .ldI16 10 19 22 9),
    (0x641532C9, .ldB32 10 19 22 9), (0x651532C9, .ldB64 10 19 22 9), (0x661532C9, .ldB128 10 19 22 9), (0x671532C9, .ldsB32 10 19 22 9),
    (0x681532C9, .ldsB64 10 19 22 9), (0x691532C9, .stB8 10 19 22 9), (0x6A1532C9, .stB16 10 19 22 9), (0x6B1532C9, .stB32 10 19 22 9),
    (0x6C1532C9, .stB64 10 19 22 9), (0x6D1532C9, .stB128 10 19 22 9), (0x6E1532C9, .stsB32 10 19 22 9), (0x6F1532C9, .stsB64 10 19 22 9),
    (0x701532C9, .aadd 10 19 22 9), (0x711532C9, .afadd 10 19 22 9), (0x721532C9, .amin 10 19 22 9), (0x731532C9, .amax 10 19 22 9),
    (0x741532C9, .aand 10 19 22 9), (0x751532C9, .aor 10 19 22 9), (0x761532C9, .axor 10 19 22 9), (0x771532C9, .axch 10 19 22 9),
    (0x781532C9, .acas 10 19 22 9), (0x791532C9, .aadd64 10 19 22 9)] = true := by decide +kernel

theorem test_decode_group_alu : decodes [
    (0x80000000, .gnop), (0x97140001, .gclock 10 1), (0x99140004, .gid 10 4), (0x81145961, .gadd 10 22 44 1),
    (0x82145961, .gsub 10 22 44 1), (0x83145961, .gmul 10 22 44 1), (0x84145960, .gand 10 22 44), (0x85145960, .gor 10 22 44),
    (0x86145960, .gxor 10 22 44), (0x87145960, .gshl 10 22 44), (0x88145961, .gshr 10 22 44 1), (0x89145961, .gmin 10 22 44 1),
    (0x8A145961, .gmax 10 22 44 1), (0x8B145964, .gcmp 10 22 44 4), (0x8C145960, .gsel 10 22 44), (0x93145800, .gmov 10 22),
    (0x98145801, .gbitc 10 22 1), (0x9A145961, .gbfe 10 22 44 1), (0x9B145960, .gmad 10 22 44), (0x8D145955, .gaddi 10 22 341),
    (0x8E145955, .gandi 10 22 341), (0x8F145955, .gori 10 22 341), (0x90145955, .gcmpi 10 22 341), (0x9114A5A5, .gset 10 42405),
    (0x921425A5, .gseth 10 9637), (0x94140024, .grdc 10 36), (0x95005820, .gwrc 22 32), (0x96145963, .glea 10 22 44 3)] = true := by decide +kernel

theorem test_decode_control_flow : decodes [
    (0xA0001234, .gbr 4660), (0xA12D1234, .gbc 22 4 4660), (0xA42C1234, .gcall 22 4660), (0xA22C9234, .gbrd 22 2 4660),
    (0xA3000001, .gjoin 1), (0xA5005800, .gret 22), (0xA6005800, .gjr 22), (0xA7000000, .gregion), (0xA8000000, .gexit)] = true := by decide +kernel

theorem test_decode_system : decodes [
    (0xA900A5A5, .gtrap 42405), (0xAA000001, .gresume 1), (0xAB145961, .gpark 10 22 44 1), (0xAC145961, .gmap 10 22 44 1),
    (0xAD145801, .gsplinter 10 22 1), (0xAE145960, .ginvalPg 10 22 44), (0xAE145961, .ginvalHnd 10 22 44),
    (0xAE145962, .ginvalXon 10 22 44), (0xAE145963, .ginvalXoff 10 22 44), (0xAE145964, .ginvalRvk 10 22 44), (0xF400A5A5, .gsvc 42405),
    (0xF0145800, .glaunch 10 22), (0xF1145800, .gqend 10 22), (0xF3145800, .gdrainWait 10 22), (0xF3145801, .gdrainStop 10 22),
    (0xF3145802, .gdrainRun 10 22), (0xF2145800, .galloc 10 22 0), (0xF5145961, .gqcfg 10 22 44 1)] = true := by decide +kernel

theorem test_decode_waiting : decodes [
    (0xB0000004, .gfence 4), (0xB1000005, .gbar 5), (0xB2000001, .gpbar 1), (0xB3145960, .garrive 10 22 44),
    (0xB4145961, .gwaitu 10 22 44 1), (0xB500A5A5, .gwaitc 42405), (0xB6000000, .gyield)] = true := by decide +kernel

theorem test_decode_engines : decodes [
    (0xC0005963, .gcopy 0 22 44 3), (0xC1145961, .ggather 10 22 44 1), (0xC2145961, .gscadd 10 22 44 1), (0xC3005802, .groute 0 22 0 2),
    (0xC4145961, .grsel 10 22 44 1), (0xC5145961, .grretry 10 22 44 1), (0xC6005961, .gpref 22 44 1)] = true := by decide +kernel

theorem test_decode_bundles : decodes [
    (0xD0145960, .gbdecl 10 22 44), (0xD1145800, .gbenter 10 22), (0xD2145800, .gbleave 10 22), (0xD3145802, .gbquery 10 22 2),
    (0xD4145800, .gbdrop 10 22)] = true := by decide +kernel

theorem test_decode_tiles : decodes [
    (0xE0145955, .gtile 10 22 341), (0xE1141955, .gtileg 10 6 341), (0xE2141861, .mma 10 6 12 1), (0xE3140001, .mchain 10 1),
    (0xE4141801, .mend 10 6 1), (0xE5141861, .msacc 10 6 12 1), (0xE6141801, .tcvt 10 6 1), (0xE7145801, .tfill 10 22 1)] = true := by decide +kernel

/-! ### Results of single instructions

Expected values are those of the case tables and examples of the rules named, or follow from them by hand. -/

/-- Lane 0 of a register after one instruction on the small machine. -/
def result (vs : List (Nat × Nat)) (d : Nat) (i : Instr) : Word := ((after i (user vs)).group 32).rd (.reg d) 0
/-- Rows of an instruction that writes v4, its registers and the result. -/
def gives (l : List (Instr × List (Nat × Nat) × Word)) : Bool := l.all fun e => decide (result e.2.1 4 e.1 = e.2.2)

/-- R93, R94. -/
theorem test_lane_integer : gives [
    (.add 4 1 2 0, [(1, 0xFFFFFFFF), (2, 2)], 1), (.add 4 1 2 1, [(1, 0x7FFFFFFF), (2, 1)], 0x7FFFFFFF), (.sub 4 1 2 2, [(1, 3), (2, 5)], 0),
    (.mul 4 1 2 1, [(1, 0x80000000), (2, 0x80000000)], 0x40000000), (.mul 4 1 2 2, [(1, 0xFFFFFFFF), (2, 2)], 1),
    (.mad 4 1 2 1, [(1, 0x10000), (2, 0x7FFF), (4, 0x10000)], 0x7FFFFFFF), (.min 4 1 2 0, [(1, 0xFFFFFFFF), (2, 1)], 0xFFFFFFFF),
    (.max 4 1 2 1, [(1, 0xFFFFFFFF), (2, 1)], 0xFFFFFFFF), (.andn 4 1 2, [(1, 0xFF), (2, 0x0F)], 0xF0),
    (.shl 4 1 2, [(1, 1), (2, 0x80000020)], 0), (.shr 4 1 2 1, [(1, 0x80000000), (2, 0x80000020)], 0xFFFFFFFF),
    (.rot 4 1 2 0, [(1, 0x80000001), (2, 33)], 3), (.rot 4 1 2 1, [(1, 3), (2, 1)], 0x80000001),
    (.bfe 4 1 2 0, [(1, 0xF0000000), (2, 0xFC)], 0xF), (.bfe 4 1 2 1, [(1, 0x80), (2, 0xE0)], 0xFFFFFF80),
    (.bfi 4 1 2, [(1, 0xAB), (2, 0xFC), (4, 0x01234567)], 0xB1234567), (.bitc 4 1 1, [], 32), (.bitc 4 1 3, [(1, 1)], 0x80000000),
    (.sel 4 4 2, [(4, 7), (2, 9)], 7), (.cmp 4 1 2 2, [(1, 0xFFFFFFFF), (2, 1)], 1), (.cmp 4 1 2 4, [(1, 0xFFFFFFFF), (2, 1)], 0),
    (.addi 4 1 0x3FF, [(1, 5)], 4), (.ori 4 1 0x3FF, [], 1023), (.xori 4 1 0x3FF, [], 0xFFFFFFFF),
    (.shri 4 1 0x220, [(1, 0x80000000)], 0xFFFFFFFF), (.cmpi 4 1 0x3FF, [(1, 0x80000000)], 0xFFFFFFFF), (.movi 4 0x200, [], 0xFFFFFE00)] = true := by
  decide +kernel

/-- R106-R111. -/
theorem test_lane_float : gives [
    (.fadd 4 1 2 0, [(1, 0x3F800000), (2, 0xBF800000)], 0), (.fadd 4 1 2 3, [(1, 0x3F800000), (2, 0xBF800000)], 0x80000000),
    (.fsub 4 1 2 0, [(1, 0x80000000)], 0x80000000), (.fmul 4 1 2 0, [(1, 0x7F800000)], 0x7FC00000),
    (.ffma 4 1 2 0, [(1, 0x40000000), (2, 0x40400000), (4, 0x3F800000)], 0x40E00000), (.fmul 4 1 2 1, [(1, 0x7F7FFFFF), (2, 0x40000000)], 0x7F7FFFFF),
    (.fmin 4 1 2, [(1, 0x80000000)], 0x80000000), (.fmax 4 1 2, [(1, 0x7FC00001), (2, 5)], 5), (.fcmp 4 1 2 1, [(1, 0x7FC00000)], 1),
    (.fcmp 4 1 2 0, [(1, 0x80000000)], 1), (.frcp 4 1 0, [(1, 0x40000000)], 0x3F000000), (.frsq 4 1, [(1, 0x80000000)], 0xFF800000),
    (.fsqrt 4 1 0, [(1, 0x40800000)], 0x40000000), (.fexp2 4 1, [(1, 0x40400000)], 0x41000000), (.flog2 4 1, [(1, 0x41000000)], 0x40400000),
    (.fsinpi 4 1, [(1, 0x3F000000)], 0x3F800000), (.fsgn 4 1 0 2, [(1, 0xFF800000)], 0x7F800000), (.fclass 4 1, [(1, 0x80000001)], 8),
    (.frnd 4 1 3, [(1, 0xC0200000)], 0xC0400000), (.frnd 4 1 0, [(1, 0xBF000000)], 0x80000000)] = true := by decide +kernel

/-- R113-R119. -/
theorem test_lane_conversion : gives [
    (.i2f 4 1 3 0, [(1, 0x18000)], 0x3FC00000), (.i2f 4 1 0 0, [(1, 0xFFFFFFFF)], 0xBF800000), (.f2i 4 1 4 0, [(1, 0xC0400000)], 0xFFFFFFFD),
    (.f2i 4 1 1 0, [(1, 0xBF333333)], 0), (.f2i 4 1 0 0, [(1, 0x4F000000)], 0x7FFFFFFF), (.pkh 4 1 2 0, [(1, 0x4788B800)], 0x7C00),
    (.pkh 4 1 2 1, [(1, 0x4788B800)], 0x7BFF), (.pkb 4 1 2 0, [(1, 0x7F800001), (2, 0x3F800000)], 0x3F807FC0),
    (.pk8 4 1 2 0, [(1, 0x7F800000), (2, 0xFF800000)], 0xFE7E), (.unpk 4 1 0x13, [(1, 0x7C0000)], 0x7F800000),
    (.unpk 4 1 0xC, [(1, 0xFE00)], 0xC0000000), (.hadd2 4 1 2 0, [(1, 0x3C003C00), (2, 0x3C00)], 0x3C004000),
    (.hmul2 4 1 2 2, [(1, 0x3F804000), (2, 0x40004000)], 0x40004080), (.hfma2 4 1 2 0, [(1, 0x4000), (2, 0x4000), (4, 0x3C00)], 0x4500),
    (.hcmp2 4 1 2 1, [(1, 0x3C00), (2, 0x4000)], 0xFFFF)] = true := by decide +kernel

/-- R83-R88: the group forms take the leader's values. -/
theorem test_group_alu : gives [
    (.gadd 4 1 2 1, [(1, 0x7FFFFFFF), (2, 1)], 0x7FFFFFFF), (.gsub 4 1 2 2, [(2, 1)], 0), (.gmul 4 1 2 0, [(1, 3), (2, 5)], 15),
    (.gshl 4 1 2, [(1, 1), (2, 0x80000001)], 0), (.gshr 4 1 2 1, [(1, 0x80000000), (2, 40)], 0xFFFFFFFF), (.gmin 4 1 2 1, [(1, 0xFFFFFFFF), (2, 1)], 1),
    (.gcmp 4 1 2 3, [(1, 1), (2, 0xFFFFFFFF)], 1), (.gsel 4 1 2, [(1, 5), (2, 6)], 6), (.gmov 4 1, [(1, 8)], 8), (.gbitc 4 1 0, [(1, 0xFF)], 8),
    (.gbfe 4 1 2 1, [(1, 0x80000000), (2, 0x3E1)], 0x40000000), (.gmad 4 1 2, [(1, 3), (2, 5), (4, 1)], 16), (.gaddi 4 1 0x3FF, [(1, 5)], 4),
    (.gori 4 1 0x200, [], 0x200), (.gcmpi 4 1 0, [(1, 0x80000000)], 0xFFFFFFFF), (.gset 4 0x1FFFF, [], 0xFFFFFFFF),
    (.gseth 4 0x91A, [(4, 0x5678)], 0x12345678), (.glea 4 1 2 2, [(1, 1), (2, 4)], 20), (.gclock 4 0, [], 1000), (.gid 4 0, [], 0xF)] = true := by
  decide +kernel

/-- Lane 1 after a cross-lane instruction on four lanes that hold 8, 1, 0xFFFFFFFF and 3 in v1, and the lane number in v2. -/
def crossed (i : Instr) : Word :=
  let m : SMap Word := [(32, 8), (33, 1), (34, 0xFFFFFFFF), (35, 3), (65, 1), (66, 2), (67, 3)]
  ((after i (machine { group [] with regs := m })).group 32).rd (.reg 4) 1
/-- R127-R137. -/
theorem test_cross_lane : ([
    (.shfl 4 1 2 0, 1), (.shfl 4 1 2 2, 0xFFFFFFFF), (.shfl 4 1 2 3, 8), (.vote 4 2 2, 0xE), (.red 4 1 0, 11), (.scan 4 1 0 0, 9),
    (.sort 4 1 0 0, 1), (.sort 4 1 1 3, 0), (.topk 4 1 0 4, 2), (.topk 4 1 2 0, 0), (.matchLanes 4 1 0, 2)] : List (Instr × Word)).all
      (fun e => decide (crossed e.1 = e.2)) = true := by decide +kernel

/-- R149-R154: a load sign-extends, a store writes little-endian bytes, and an atomic updates the word and returns what it held. -/
theorem test_memory :
    (let s := { user [(1, 16), (2, 0x11223344)] with mem := [(0x200010, 0x80)] }
     (match ((after (.ldI8 4 2 1 0) s).group 32).ploads with
      | [p] => p.writes.all fun w => decide (w.val = 0xFFFFFF80)
      | _ => false) = true ∧
     (after (.stB16 2 2 1 0) s).mem = [(0x200010, 0x44), (0x200011, 0x33)] ∧
     (after (.aadd 2 2 1 0) (user [(1, 16), (2, 1)])).mem = [(0x200010, 4)]) := by decide +kernel

/-- R77, R79: after `gbrd.z` the lanes whose v2 is 0 branch, and the others become split 1. -/
theorem test_split :
    (let g := (after (.gbrd 2 1 3) (machine { group [] with regs := [(64 + 2, 1), (64 + 3, 1)] })).group 32
     (g.split 0).members = 0x3 ∧ (g.split 0).pc = 0x1000C ∧ (g.split 1).members = 0xC ∧ (g.split 1).pc = 0x10004) := by decide +kernel

/-- R273, R280: `gtrap` saves the PC in the frame and enters the handler at `K_FVEC` in supervisor mode. -/
theorem test_trap :
    (let g := (after (.gtrap 5) (user [])).group 32
     g.fcode = 0x50B ∧ (g.split 0).pc = 0x8000 ∧ (g.split 0).sup = true ∧ (g.frame.map (·.pc)) = some 0x10000) := by decide +kernel

/-- R279: `gresume` returns to the PC of the frame, in user mode. -/
theorem test_resume :
    (let g := (after (.gresume 1) (handler [])).group 32
     (g.split 0).pc = 0x10014 ∧ (g.split 0).sup = false ∧ g.frame = none) := by decide +kernel
/-! ### The hypotheses of the statements are met -/

/-- The instruction is of a table of register results, and its registers are ready. -/
def ready (tab : State → Instr → Option Rule.Result) (s : State) (i : Instr) : Bool :=
  match tab s i with
  | some r => s.regsReady [r.dest] r.reads
  | none => false

def readyR (s : State) (i : Instr) : Bool :=
  match Rule.laneRounded s i with
  | some r => s.regsReady [r.dest] r.reads
  | none => false

/-- The machine of the witnesses about registers. -/
def small : State := user [(1, 5), (2, 0xFFFFFFFF)]

theorem witness_DecodeEncode : encode (.gbrd 127 4 0x3FFF) = some 0xA2FF3FFF ∧ (Instr.gbrd 127 4 0x3FFF).wf = true := by decide

theorem witness_LaneIntegerWrites :
    ([.add 3 1 2 0, .sub 3 1 2 1, .mul 3 1 2 2, .mad 3 1 2 2, .min 3 1 2 0, .max 3 1 2 1, .and 3 1 2, .or 3 1 2, .xor 3 1 2, .andn 3 1 2,
      .shl 3 1 2, .shr 3 1 2 1, .rot 3 1 2 0, .bfe 3 1 2 1, .bfi 3 1 2, .bitc 3 1 3, .sel 3 1 2, .cmp 3 1 2 5, .addi 3 1 512, .andi 3 1 511,
      .ori 3 1 1023, .xori 3 1 1, .shli 3 1 31, .shri 3 1 513, .cmpi 3 1 5, .movi 3 512, .mov 3 1, .lid 3 2, .mov 1 1] : List Instr).all
      (ready Rule.laneInteger small) = true := by decide +kernel

theorem witness_GroupIntegerWrites :
    ([.gadd 3 1 2 2, .gsub 3 1 2 1, .gmul 3 1 2 2, .gand 3 1 2, .gor 3 1 2, .gxor 3 1 2, .gshl 3 1 2, .gshr 3 1 2 1, .gmin 3 1 2 1,
      .gmax 3 1 2 0, .gcmp 3 1 2 5, .gsel 3 1 2, .gmov 3 1, .gbitc 3 1 2, .gbfe 3 1 2 1, .gmad 3 1 2, .gaddi 3 1 512, .gandi 3 1 1,
      .gori 3 1 1, .gcmpi 3 1 5, .gset 3 0x1FFFF, .gseth 3 0x7FFF, .gclock 3 1, .gid 3 4] : List Instr).all
      (ready Rule.groupInteger small) = true := by decide +kernel

theorem witness_LaneFloatWrites :
    ([.fmin 3 1 2, .fmax 3 1 2, .fcmp 3 1 2 7, .frsq 3 1, .fexp2 3 1, .flog2 3 1, .fsinpi 3 1, .unpk 3 1 19, .hcmp2 3 1 2 6] : List Instr).all
      (ready Rule.laneFloat small) = true := by decide +kernel

theorem witness_LaneRoundedWrites :
    ([.fadd 3 1 2 4, .fsub 3 1 2 3, .fmul 3 1 2 0, .ffma 3 1 2 3, .frcp 3 1 4, .fsqrt 3 1 0, .frnd 3 1 4, .i2f 3 1 3 4, .f2i 3 1 7 4,
      .pkh 3 1 2 4, .pkb 3 1 2 0, .pk8 3 1 2 7, .hadd2 3 1 2 5, .hmul2 3 1 2 1, .hfma2 3 1 2 4, .rnd 3 1] : List Instr).all (readyR small) = true := by
  decide +kernel

theorem witness_IntegerResults : ∃ n : Nat, n < 32 ∧ 31 ≤ n := ⟨31, by decide⟩
theorem witness_FloatResults_compares : ∃ m : Nat, m < 8 ∧ 7 ≤ m := ⟨7, by decide⟩

theorem witness_FloatSignsAndClasses :
    small.regsReady [3] [1, 2] = true ∧ small.regsReady [3] [1] = true ∧ (3 : BitVec 3).toNat < 4 ∧ small.active = 0xF := by decide +kernel

theorem witness_CrossLane :
    (([.shfl 3 1 2 6, .shfli 3 1 0x3A1, .vote 3 1 6, .scan 3 1 7 1, .red 3 1 0, .matchLanes 3 1 5] : List Instr).all
      (ready Rule.crossLane small) = true) ∧ small.othersBusy = false ∧ small.regsReady [3] [1, 2] = true ∧
      (lanesOf small.active)[Rule.rank small 1 2 true 3]? = some 3 := by decide +kernel

/-- The small machine with lane 1 at a counter. -/
def nested (c : BitVec 8) : State := machine { group [(1, 0)] with cnt := [(1, c)] }

theorem witness_NestingCounters :
    (([.laneIf 1 3, .laneIfi 1 1023, .laneElse, .endif, .lbeg, .brk 0 765, .cont 0 766, .lnext, .lend] : List Instr).all fun i =>
      match Rule.nesting (nested 2) i with
      | some (reads, next) => (nested 2).regsReady [] reads && (lanesOf 0xF).all fun l => decide (next l ((nested 2).cur.counter l) < 256)
      | none => false) = true ∧
    (([.laneIf 1 0, .laneIfi 1 1, .lbeg] : List Instr).all fun i =>
      match Rule.nesting (nested 255) i with
      | some (reads, next) => (nested 255).regsReady [] reads && decide (256 ≤ next 1 ((nested 255).cur.counter 1))
      | none => false) = true := by decide +kernel

theorem witness_Branches :
    small.regsReady [] [1] = true ∧ small.regsReady [3] [] = true ∧ (small.u 1).toNat % 4 ≠ 0 ∧ (user [(1, 0x10000)]).regsReady [] [1] = true ∧
      ((user [(1, 0x10000)]).u 1).toNat % 4 = 0 ∧ Rule.branchTest 3 (small.u 2) = true ∧ small.active ≠ 0 := by decide +kernel

/-- Lanes 0 and 2 hold 1. -/
def mixed : State :=
  machine { group [] with
    regs := [(32, 1), (34, 1)]
    splits := [(0, { Split.none with pc := 0x10000, members := 0x7 }), (1, { Split.none with pc := 0x10020, members := 0x8 })] }

/-- All four split indices are in use. -/
def crowded : State :=
  machine { group [] with
    regs := [(32, 1)]
    splits := [(0, { Split.none with members := 3 }), (1, { Split.none with members := 4 }), (2, { Split.none with members := 8 }),
      (3, { Split.none with members := 16 })] }

theorem witness_SplitsAndJoins :
    (mixed.regsReady [] [1] = true ∧ mapFind mixed.cur.splits mixed.cs = some mixed.csp ∧ freeIndex mixed.cur.splits = some 2 ∧
      maskOf ((lanesOf mixed.active).filter fun l => Rule.branchTest 2 (mixed.x l 1)) = 5) ∧
    (crowded.regsReady [] [1] = true ∧ freeIndex crowded.cur.splits = none ∧
      maskOf ((lanesOf crowded.active).filter fun l => Rule.branchTest 1 (crowded.x l 1)) = 2) ∧
    (small.cur.splits = [(small.cs, small.csp)] ∧ small.cur.stack = []) ∧
    (mixed.cur.stack = [] ∧ 1 < mixed.cur.splits.length ∧ ∀ e ∈ mixed.cur.splits, e.2.st ≠ .atJoin) := by decide +kernel

theorem witness_RegionEntry : small.csp.sup = false ∧ (handler []).csp.sup = true := by decide +kernel

theorem witness_ControlRegisters :
    small.regsReady [2, 3] [] = true ∧ small.regsReady [] [1, 2] = true ∧ wideReg 0x020 = true ∧ supReg 0x010 = false ∧
      supReg 0x020 = true ∧ small.privileged = false ∧ (handler []).privileged = true ∧ (handler []).regsReady [] [2, 3] = true := by
  decide +kernel

theorem witness_Allocation :
    (small.regsReady [] [1] = true ∧ small.curBlock.regsLog2 ≤ 5 ∧ (small.u 1).toNat = 5 ∧
      (small.putCur (small.cur.setAlloc 5)).regsReady [3] [] = true) ∧
    (10 : BitVec 10).toNat > 9 ∧ (2 : BitVec 10).toNat < small.curBlock.regsLog2 := by decide +kernel

/-- No lane is active: each counts one level of nesting. -/
def idle (vs : List (Nat × Nat)) : State := machine { group vs with cnt := [(0, 1), (1, 1), (2, 1), (3, 1)] }

theorem witness_HandleOffsets :
    (idle []).active = 0 ∧ (idle []).regsReady [3] [1] = true ∧
    (let s := user [(1, 4088)]
     s.regsReady [3] [1] = true ∧ (s.curHandle 1).2.usable = true ∧ withinFault (s.curHandle 1).2 s.curBlock 4096 = none ∧
       withinFault (s.curHandle 1).2 s.curBlock 4100 = some 2) ∧
    (small.curHandle 6).2.usable = false ∧
    (let s := user [(1, 1), (2, 4096), (3, 0)]
     s.regsReady [4] [1, 2, 3] = true ∧ (s.curHandle (s.u 1).toNat).2.usable = true ∧
       withinFault (s.curHandle (s.u 1).toNat).2 s.curBlock ((s.u 2).toNat + (s.u 3).toNat * 4) = none) ∧
    (let s := user [(1, 1), (2, 4096), (3, 1)]
     s.regsReady [4] [1, 2, 3] = true ∧ withinFault (s.curHandle 1).2 s.curBlock ((s.u 2).toNat + (s.u 3).toNat * 4) = some 2) ∧
    (let s := user [(1, 6)]
     s.regsReady [4] [1, 2, 3] = true ∧ (s.curHandle (s.u 1).toNat).2.usable = false) := by decide +kernel

/-- 16 other groups of the core drain. -/
def drainFull : State :=
  let s := machine { group [(1, 1)] with nst := 1, pstores := [{ id := 1, lanes := 0xF, unsent := [], flying := [far 0x8000 2000], pages := [], buffered := false, due := 2000 }] }
  { s with groups := s.groups ++ (seqFrom 64 16).map fun k => (k, { Group.empty with blk := 1, draining := true, ct := 5000 }) }

theorem witness_Exits :
    (mapFind small.groups small.cg = some small.cur ∧ mapFind small.cur.splits small.cs = some small.csp ∧
      small.exitBlocked small.csp.members = false ∧ small.exitBlocked 0 = false ∧ small.regsReady [] [1] = true) ∧
    (mixed.exitBlocked 5 = false ∧ mixed.csp.members &&& ~~~ (5 : Word) ≠ 0 ∧ mixed.regsReady [] [1] = true) ∧
    (mapFind drainFull.groups drainFull.cg = some drainFull.cur ∧ mapFind drainFull.cur.splits drainFull.cs = some drainFull.csp ∧
      drainFull.exitBlocked drainFull.csp.members = true ∧ drainFull.regsReady [] [1] = true) := by decide +kernel

/-- A second split is in its handler. -/
def occupied : State :=
  machine { group [] with splits := [(0, { Split.none with members := 1 }), (1, { Split.none with members := 2, sup := true })] }

/-- The block has been saved. -/
def away (s : State) : State := { s with blocks := s.blocks.map fun (e : Nat × Block) => (e.1, { e.2 with st := .absent }) }

/-- The same block on control core 0 (R20, R354). -/
def control (s : State) : State :=
  { s with blocks := s.blocks.map fun (e : Nat × Block) => (e.1, { e.2 with core := 192, control := true })
           cores := (192, { Core.empty with inService := true, hcache := handles false ++ handles true }) :: s.cores }

theorem witness_FaultsTaken_enters :
    Rule.entersHandler small 32 0 ∧ (0 : Nat) < 4 ∧ (255 : Nat) < 256 := by
  exact ⟨⟨by decide +kernel, by decide +kernel, by decide +kernel⟩, by decide, by decide⟩

theorem witness_FaultsTaken :
    (((occupied.group 32).split 0).sup = false ∧ (occupied.group 32).otherSup 0 = true) ∧
    ((((away small).group 32).split 0).sup = false ∧ ((away small).block 1).st ≠ .resident) ∧
    (((handler []).group 32).split 0).sup = true ∧ ((handler []).block 1).core < 192 ∧
    ((((control (handler [])).group 32).split 0).sup = true ∧ 192 ≤ ((control (handler [])).block 1).core) := by decide +kernel

theorem witness_DeliberateTrap : (Rule.entersHandler small small.cg small.cs ∧ small.svcWait = []) ∧ (handler []).csp.sup = true :=
  ⟨⟨⟨by decide +kernel, by decide +kernel, by decide +kernel⟩, rfl⟩, by decide +kernel⟩

theorem witness_Privilege : small.privileged = false ∧ small.csp.sup = false ∧ (control small).csp.sup = false := by decide +kernel

theorem witness_Resume :
    ((handler []).csp.sup = true ∧ (handler []).cur.frame = some { pc := 0x10010, kix := 3, cnt := [(1, 2)], since := 900 } ∧
      (handler []).cur.held = [] ∧ (handler []).exitBlocked (handler []).csp.members = false) ∧
    ((after (.gresume 0) (handler [])).cur.splits.all fun e => !e.2.sup) = true ∧
    ((after (.gresume 0) (handler [])).cur.stack.all fun r => !r.sp.sup) = true := by decide +kernel

/-- The service queue holds 2048 records. -/
def svcFull : State := { handler [] with svcTail := 0x1000, mem := [(0x1001, 8)] }

theorem witness_Services :
    ((handler []).privileged = true ∧ ((handler []).physNum 0 4 + 2 ^ 32 - (handler []).physNum 0 4) % 2 ^ 32 < 2048 ∧
      (handler []).cur.wait = none) ∧
    (svcFull.privileged = true ∧ 2048 ≤ (svcFull.physNum svcFull.svcTail 4 + 2 ^ 32 - svcFull.physNum svcFull.svcHead 4) % 2 ^ 32) ∧
    (handler [(1, 3), (2, 8)]).regsReady [3] [1, 2] = true ∧ (handler [(1, 3), (2, 65537)]).regsReady [3] [1, 2] = true := by
  decide +kernel

/-! #### Memory -/

def isOk {α : Type} (r : Except Stop α) : Bool :=
  match r with
  | .ok _ => true
  | .error _ => false

def isTrap {α : Type} (r : Except Stop α) : Bool :=
  match r with
  | .error (.trap _) => true
  | _ => false

/-- What follows a check that passed holds. -/
def passes {α : Type} (r : State × Except Stop α) (p : State → α → Bool) : Bool :=
  match r with
  | (s, .ok x) => p s x
  | _ => false

/-- A load meets every hypothesis of LoadsComplete. -/
def loadRuns (s : State) (i : Instr) : Bool :=
  match Rule.load i with
  | none => false
  | some (x, _) =>
    s.regsReady x.regs [x.a] && decide (s.active ≠ 0) && !s.acquireOut &&
      passes (Rule.checked s x (if x.strong then .load else .weakLoad)) fun s1 y =>
        isOk (s1.accessReady x.size y.2 (if x.strong then 0 else s.cur.nld)) && (s1.loadLanes y.1 x.strong x.size y.2).2.all fun z => z.2.isSome

/-- A store passes its checks, and its release is met, or not, as `met` says. -/
def storeRuns (met : Bool) (s : State) (i : Instr) : Bool :=
  match Rule.store i with
  | none => false
  | some x =>
    s.regsReady [] (x.regs ++ [x.a]) && decide (s.active ≠ 0) && !s.acquireOut && s.cur.wait.isNone &&
      passes (Rule.checked s x .store) fun s1 y =>
        isOk (s1.accessReady x.size y.2 s.cur.nst) && (if x.strong then s1.releaseMet s1.cur y.1.scope s.cur.nextId == met else met)

/-- An atomic outside ordered mode passes its checks, with its release met and no poison. -/
def atomRuns (s : State) (i : Instr) : Bool :=
  match Rule.atomic i with
  | none => false
  | some (d, op, x, ds) =>
    s.regsReady ds (x.regs ++ [x.a]) && decide (s.active ≠ 0) && !s.acquireOut && s.cur.wait.isNone &&
      passes (Rule.checked s x .atomic) fun s1 y =>
        s1.releaseMet s1.cur y.1.scope s.orderBound && isOk (s1.accessReady x.size y.2 0) &&
          (s1.atomLanes s1.cg op (y.2.map fun a => (a, s.x a.lane d, s.x a.lane (d + 1)))).2.all fun z => z.2.isSome

/-- An access is checked, and the check fails. -/
def accessTraps (s : State) (i : Instr) : Bool :=
  decide (s.active ≠ 0) && !s.acquireOut &&
    match Rule.load i, Rule.store i, Rule.atomic i with
    | some (x, _), _, _ => s.regsReady x.regs [x.a] && isTrap (Rule.checked s x (if x.strong then .load else .weakLoad)).2
    | _, some x, _ => s.regsReady [] (x.regs ++ [x.a]) && isTrap (Rule.checked s x .store).2
    | _, _, some (_, _, x, ds) => s.regsReady ds (x.regs ++ [x.a]) && isTrap (Rule.checked s x .atomic).2
    | _, _, _ => false

def loads (h : BitVec 5) : List Instr :=
  [.ldN8 4 h 1 31, .ldI8 4 h 1 0, .ldN16 4 h 1 1, .ldI16 4 h 1 0, .ldB32 4 h 1 1, .ldB64 4 h 1 1, .ldB128 4 h 1 1, .ldsB32 4 h 1 0, .ldsB64 4 h 1 1]
def stores (h : BitVec 5) : List Instr :=
  [.stB8 2 h 1 31, .stB16 2 h 1 1, .stB32 2 h 1 1, .stB64 2 h 1 1, .stB128 2 h 1 1, .stsB32 2 h 1 0, .stsB64 2 h 1 1]
def atoms (h : BitVec 5) : List Instr :=
  [.aadd 2 h 1 1, .afadd 2 h 1 1, .amin 2 h 1 1, .amax 2 h 1 1, .aand 2 h 1 1, .aor 2 h 1 1, .axor 2 h 1 1, .axch 2 h 1 1, .acas 2 h 1 1,
    .aadd64 2 h 1 1]

/-- v1 is an offset. -/
def at16 : State := user [(1, 16), (2, 77), (3, 5)]
/-- A store of the group is not yet acknowledged. -/
def busy : State :=
  machine { (group [(1, 16), (2, 77), (3, 5)]) with nst := 1, pstores := [{ id := 1, lanes := 0xF, unsent := [], flying := [far 0x8000 2000], pages := [], buffered := false, due := 2000 }] }

theorem witness_AccessProcedure :
    (at16.curHandle 6).2.usable = false ∧
    ((at16.curHandle 1).2.usable = true ∧ boundFault (at16.curHandle 1).2 at16.curBlock 4096 4 = some 2 ∧
      boundFault (at16.curHandle 1).2 at16.curBlock 4092 4 = none ∧ (4092 : Nat) % 4 = 0 ∧ permitted (at16.curHandle 1).2 .atomic = true ∧
      (at16.curHandle 1).2.space ≠ 0) ∧
    ((at16.curHandle 5).2.usable = true ∧ permitted (at16.curHandle 5).2 .store = false ∧ boundFault (at16.curHandle 5).2 at16.curBlock 0 4 = none) ∧
    ((at16.curHandle 4).2.space = 2 ∧ boundFault (at16.curHandle 4).2 at16.curBlock 0 4 = none ∧ permitted (at16.curHandle 4).2 .load = true ∧
      (away at16).peerGone 0 = false ∧ at16.peerGone 0 = false) ∧
    (boundFault (at16.curHandle 1).2 at16.curBlock 18 4 = none ∧ (18 : Nat) % 4 ≠ 0) ∧
    ({ at16 with blocks := at16.blocks.map fun (e : Nat × Block) => (e.1, { e.2 with exited := true }) } : State).peerGone 0 = true ∧
    passes (accessCheck at16 2 .weakLoad 4 [(0, 65532)]) (fun _ y => decide (y.2.length = 1)) = true := by decide +kernel

theorem witness_AccessesWithoutEffect :
    ((loads 6 ++ stores 6 ++ atoms 6).all (accessTraps at16) = true) ∧
    ((idle [(1, 16), (2, 77)]).active = 0 ∧ (idle [(1, 16), (2, 77)]).regsReady [4, 5, 6, 7, 2, 3] [2, 3, 4, 5, 1] = true) := by decide +kernel

theorem witness_LoadsComplete :
    (loads 1).all (loadRuns at16) = true ∧ (loads 2).all (loadRuns at16) = true ∧ (loads 3).all (loadRuns at16) = true ∧
      (loads 2).all (loadRuns (ordered at16)) = true := by decide +kernel

/-- The L1 of core 0 holds the line of VA 0x100000. -/
def cached : State :=
  { at16 with cores := at16.cores.map fun (e : Nat × Core) =>
      (e.1, { e.2 with l1 := [{ ctx := 1, vl := 0x2000, pl := 0x4000, expiry := 5000, data := [(16, 9)], bad := [] }] }) }

theorem witness_MemoryValues :
    (at16.curLaunch.q = 0 ∧ (at16.core at16.curCore).pins.all (fun x => x.pl ≠ 0x4000) = true ∧
      l1Hit (at16.core at16.curCore) at16.now at16.curCtx 0x2000 = none) ∧
    ((cached.curHandle 2).2.bypass = false ∧ (l1Hit (cached.core cached.curCore) cached.now cached.curCtx 0x2000).isSome = true ∧
      (cached.core cached.curCore).pins.all (fun x => x.pl ≠ 0x4000) = true) ∧
    ((ordered at16).curLaunch.q ≠ 0 ∧ (ordered at16).poisoned (.glob 0x200010 0x100010) 4 = false) := by decide +kernel

/-- A load and a store of the group are under way. -/
def flying : State :=
  machine { (group [(1, 16)]) with
    nld := 1, nst := 1, hpages := [{ page := 4, store := 1, due := none }], ct := 900
    ploads := [{ id := 2, lanes := 0xF, locs := [.reg 4], writes := [{ lane := 0, loc := .reg 4, val := 9 }, { lane := 3, loc := .reg 4, val := 8 }]
                 counted := true, strong := false, unsent := [], flying := [far 0x8000 1100], pages := [16], due := 1100 }]
    pstores := [{ id := 1, lanes := 0xF, unsent := [], flying := [far 0x8000 2000], pages := [], buffered := false, due := 2000 }] }

/-- A strong store of the group is held. -/
def holding : State :=
  machine { (group []) with
    ct := 900, nst := 1
    hsts := [{ id := 3, lanes := 0xF, after := [], scope := 1, writes := [{ place := .glob 0x200000 0x100000, bytes := leBytes 4 7 }] }] }

theorem witness_ReturnsAndAcknowledgements :
    (((flying.group 32).ploads.find? fun q => decide (q.id = 2)).isSome = true ∧ (flying.group 32).exited.getLsbD 3 = false) ∧
    (((flying.group 32).pstores.find? fun q => decide (q.id = 1) && !q.buffered).isSome = true ∧ (flying.group 32).hsts = [] ∧
      ∀ e ∈ flying.groups, e.2.hsts = []) ∧
    ((holding.group 32).ct < holding.now ∧ (holding.group 32).hsts.length = 1 ∧ (holding.group 32).wait = none ∧
      holding.releaseMet { (holding.group 32) with hsts := [] } 1 3 = true) := by decide +kernel

theorem witness_StoresComplete :
    (stores 1).all (storeRuns true at16) = true ∧ (stores 2).all (storeRuns true at16) = true ∧ (stores 3).all (storeRuns true at16) = true ∧
      at16.curLaunch.q = 0 := by decide +kernel

theorem witness_DelayedStores :
    (([.stsB32 2 2 1 0, .stsB64 2 1 1 1] : List Instr).all (storeRuns false busy) = true ∧ busy.curLaunch.q = 0) ∧
    ((stores 2).all (storeRuns true (ordered at16)) = true ∧ (stores 3).all (storeRuns true (ordered at16)) = true ∧
      (ordered at16).curLaunch.q ≠ 0 ∧ (ordered at16).cur.qbuf = []) := by decide +kernel

theorem witness_MemoryValues_atomic :
    ((2 ^ 32 - 1 : Nat) < 2 ^ 32) ∧ at16.poisoned (.glob 0x200010 0) 8 = false ∧
      ({ at16 with poison := [{ base := 0x200000, size := 32, left := 2 ^ 32 - 1 }] } : State).poisoned (.glob 0x200010 0) 4 = true := by decide +kernel

theorem witness_Atomics :
    ((atoms 1).all (atomRuns at16) = true ∧ (atoms 2).all (atomRuns at16) = true ∧ at16.curLaunch.q = 0) ∧
    ((atoms 2).all (atomRuns (ordered at16)) = true ∧ (ordered at16).curLaunch.q ≠ 0 ∧ (at16.curHandle 2).2.space = 0) := by decide +kernel

/-! #### Fences, waits and barriers -/

/-- Its stores complete at time 2000. -/
def later : State := machine { group [] with ct := 2000, hpages := [{ page := 4, store := 1, due := none }] }

theorem witness_FencesAndYields :
    (small.curLaunch.q = 0 ∧ small.cur.ploads = [] ∧ small.cur.pstores = [] ∧ small.cur.hsts = [] ∧ small.cur.ct < small.now) ∧
    (∃ p ∈ busy.cur.pstores, p.buffered = false ∧ p.id < busy.orderBound) ∧
    (later.now ≤ later.cur.ct ∧ later.cur.hpages ≠ []) ∧
    ((ordered flying).curLaunch.q ≠ 0 ∧ (∀ p ∈ (ordered flying).cur.ploads, p.flying ≠ []) ∧ ∀ p ∈ (ordered flying).cur.pstores, p.flying ≠ []) ∧
    (flying.cur.nld = 1 ∧ (0xFFF0 : BitVec 17).toNat % 16 < 1 ∧ (0xFF11 : BitVec 17).toNat / 16 % 16 = 1) ∧
    (mapFind (small.group 32).splits 0).isSome = true := by decide +kernel

/-- A wait on the word at offset 16 of handle 2, for v6 under the mask v7. -/
def watcher : State := user [(1, 2), (2, 16), (6, 9), (7, 0xFFFFFFFF)]
/-- The word holds 9. -/
def nine (s : State) : State := { s with mem := [(0x200010, 9)] }

/-- A wait passes its checks. -/
def waitRuns (holds : Bool) (s : State) : Bool :=
  s.regsReady [4, 5] [1, 2, 6, 7] && s.cur.wait.isNone && !s.acquireOut &&
    passes (accessCheck s.openRegion (s.u 1).toNat .wait 4 [(s.leader, (s.u 2).toNat)]) fun s1 y =>
      match y.2 with
      | [x] => isOk (s1.accessReady 4 [x] 0) && !s.poisoned x.place 4 && (decide (s.numAt x.place 4 = (s.u 6).toNat) == holds)
      | _ => false

/-- The word of the wait's record, with the end and the deadline that are given. -/
def waitRec (ended : Option (Word × Word)) (deadline : Option Nat) : WaitRec :=
  { sp := 0, park := false, hnum := 2, off := 16, place := .glob 0x200010 0x100010, m := 0, y := 9, mask := 0xFFFFFFFF
    deadline := deadline, dl := .reg 4, dh := .reg 5, spilled := false, ended := ended, since := 900 }
def waiter (ended : Option (Word × Word)) (deadline : Option Nat) : State :=
  machine { (group []) with
    wait := some (waitRec ended deadline)
    splits := [(0, { Split.none with pc := 0x10000, members := 0xF, region := 0x10000, st := .waiting })] }

theorem witness_WaitsRegister :
    waitRuns true (nine watcher) = true ∧ waitRuns false watcher = true ∧ waitRuns true (ordered (nine watcher)) = true ∧
      (waiter none none).cur.wait ≠ none ∧ (waiter none none).regsReady [4, 5] [1, 2, 6, 7] = true := by decide +kernel

theorem witness_WaitsEnd :
    (((waiter (some (9, 1)) none).group 32).wait = some (waitRec (some (9, 1)) none) ∧ ((waiter (some (9, 1)) none).block 1).st = .resident) ∧
    (let s := waiter none (some 1000)
     (s.group 32).wait = some (waitRec none (some 1000)) ∧ s.ordQ 32 = 0 ∧ 1000 ≤ s.now ∧ s.poisoned (.glob 0x200010 0x100010) 4 = false ∧
       s.waitWord 32 (.glob 0x200010 0x100010) = 0 ∧ (nine s).waitWord 32 (.glob 0x200010 0x100010) = 9) ∧
    (let s := waiter none none
     s.watched 32 (.glob 0x200010 0x100010) = true ∧
       placesMeet (.glob 0x200010 0x100010) 4 (.glob 0x200013 0) 1 = true) := by decide +kernel

/-- Every group of the block stands at barrier 3. -/
def atBarrier (st : SplitState) : State :=
  machine { (group []) with splits := [(0, { Split.none with pc := 0x10000, members := 0xF, region := 0xF000, st := st })] }

theorem witness_HardwareBarriers :
    (∀ r ∈ small.cur.stack, r.barrier = true) ∧
    (let s := atBarrier (.atBar 3)
     (s.launch (s.block 1).lid).q = 0 ∧ s.liveOf [1] = [32] ∧ (s.block 1).st = .resident ∧ (∀ e ∈ (s.group 32).splits, e.2.st = .atBar 3) ∧
       (s.group 32).ct < s.now ∧ (s.liveOf [1]).count 32 = 1 ∧ (s.group 32).splits.filter (fun e => decide (e.1 = 0)) = (s.group 32).splits) ∧
    (let s := atBarrier (.atPbar 2)
     s.partyOf 1 = [1] ∧ s.liveOf (s.partyOf 1) = [32] ∧ ∀ e ∈ (s.group 32).splits, e.2.st = .atPbar 2) ∧
    (small.liveOf [1] = [32] ∧ ∃ e ∈ (small.group 32).splits, e.2.st ≠ .atBar 3) := by decide +kernel

/-- An arrival passes its checks. -/
def arriveRuns (bad : Bool) (s : State) : Bool :=
  s.regsReady [4] [1, 2, 6] && !s.acquireOut && s.cur.wait.isNone &&
    passes (accessCheck s.openRegion (s.u 1).toNat .atomic 8 [(s.leader, (s.u 2).toNat)]) fun s1 y =>
      match y.2 with
      | [x] => s1.releaseMet s1.cur y.1.scope s.orderBound && isOk (s1.accessReady 8 [x] 0) && (s.poisoned x.place 8 == bad)
      | _ => false

theorem witness_Arrivals :
    arriveRuns false watcher = true ∧ arriveRuns true { watcher with poison := [{ base := 0x200000, size := 32, left := 2 ^ 32 - 1 }] } = true ∧
      arriveRuns false (ordered watcher) = true ∧ watcher.curLaunch.q = 0 ∧ (ordered watcher).curLaunch.q ≠ 0 ∧
      arriveRuns false (user [(1, 1), (2, 4088), (6, 0)]) = true := by decide +kernel

/-! #### Bundles -/

/-- The launch has declared bundle 3, of the lines at VA 0x100000. -/
def declared (s : State) : State :=
  { s with launches := s.launches.map fun (e : Nat × Launch) => (e.1, { e.2 with bundles := [(3, { ext := [(0x2000, 2)], dropping := false })] }) }
/-- Offset 0 of handle 2 holds a bundle descriptor of one extent of two lines (R180). -/
def declarer (count : Nat) : State :=
  { user [(1, 2), (2, 0), (6, 3)] with mem := [(0x200000, BitVec.ofNat 8 count), (0x200008, 2), (0x20000A, 0x20)] }
/-- v1 is the mask of bundle 3. -/
def enterer : State := declared (user [(1, 8)])
/-- The group is inside bundle 3, which is entered on core 0. -/
def inside : State :=
  let s := declared (machine { group [(1, 8)] with entered := 8 })
  { s with cores := s.cores.map fun (e : Nat × Core) =>
      (e.1, { e.2 with bundles := [{ lid := 1, id := 3, ctx := 1, st := .entered, leave := 0, pls := [0x4000, 0x4001] }] }) }
/-- Bundle 3 is resident, with nobody inside. -/
def resident : State :=
  { enterer with cores := enterer.cores.map fun (e : Nat × Core) =>
      (e.1, { e.2 with bundles := [{ lid := 1, id := 3, ctx := 1, st := .resident, leave := 0, pls := [0x4000, 0x4001] }] }) }
/-- The fill of bundle 3 is under way. -/
def filling : State := after (.gbenter 4 1) enterer
/-- The context's line budget. -/
def budget (n : Word) (s : State) : State :=
  { s with contexts := s.contexts.map fun (e : Nat × Context) => (e.1, { e.2 with bcap := n }) }
/-- Bundle 4 of another launch holds every line of the core's pins. -/
def crowdedPins (s : State) : State :=
  { s with cores := s.cores.map fun (e : Nat × Core) =>
      (e.1, { e.2 with bundles := [{ lid := 7, id := 4, ctx := 1, st := .entered, leave := 0, pls := [0x4000] }] }) }
/-- The split waits in the bundle queue. -/
def queued : State := after (.gbenter 4 1) (crowdedPins enterer)

def declRuns (s : State) (st : Word) : Bool :=
  s.regsReady [4] [1, 2, 6] && !s.acquireOut && decide ((s.u 6).toNat ≤ 31) &&
    passes (s.openRegion.descRead (s.u 1).toNat (s.u 2).toNat 8 8) fun s1 y =>
      let count := leNat y.2.2 % 8
      decide (1 ≤ count) && decide (count ≤ 4) && passes (s1.readExtents (s.u 1).toNat ((s.u 2).toNat + 8) count) fun s2 xs =>
        passes (s2.declare (s.u 6).toNat xs) fun _ r => decide (r = st)

theorem witness_BundleDeclarations :
    declRuns (declarer 1) 1 = true ∧ declRuns (declared (declarer 1)) 2 = true ∧
    (let s := user [(1, 2), (2, 0), (6, 32)]; s.regsReady [4] [1, 2, 6] = true ∧ 31 < (s.u 6).toNat) ∧
    passes ((declarer 0).openRegion.descRead 2 0 8 8) (fun _ y => decide (leNat y.2.2 % 8 = 0)) = true ∧
    passes ((declarer 4).openRegion.descRead 2 0 8 8) (fun s1 y => decide (leNat y.2.2 % 8 = 4) &&
      passes (s1.readExtents 2 8 4) fun s2 xs => !isOk (s2.declare 3 xs).2) = true ∧
    (match ((after (.gbdecl 4 1 6) (declarer 1)).group 32).pendOf 5 with
      | some p => decide (p.op = .decl 1)
      | none => false) = true := by decide +kernel

/-- A request of `gbenter`, with the answer of the fit test. -/
def enters (fit : Bool) (s : State) : Bool :=
  s.regsReady [4] [1] && decide (s.u 1 ≠ 0) && !s.undeclared s.curBlock.lid (s.u 1) &&
    decide (s.maskLines s.curBlock.lid (s.u 1) ≤ (s.context s.curCtx).bcap.toNat) && !s.fillingOf s.cg &&
    decide (s.u 1 &&& ~~~ s.cur.entered ≠ 0) &&
    (let r := s.openRegion.request s.cg (s.u 1)
     (r.1.fits s.cg r.2 == fit) && (reqFault r.2).isNone && !r.1.headAhead)

theorem witness_BundleEntry :
    enters true enterer = true ∧ enters false (crowdedPins enterer) = true ∧
    enters false (crowdedPins { enterer with groups := [(32, { (group [(1, 8)]) with entered := 16 })] }) = true ∧
    (let s := user [(1, 8)]; s.u 1 ≠ 0 ∧ s.undeclared s.curBlock.lid (s.u 1) = true) ∧
    ((budget 1 enterer).undeclared 1 8 = false ∧ ((budget 1 enterer).context 1).bcap.toNat < (budget 1 enterer).maskLines 1 8) ∧
    (inside.u 1 &&& ~~~ inside.cur.entered = 0 ∧ inside.undeclared 1 8 = false ∧ inside.fillingOf 32 = false ∧ (user []).u 1 = 0) ∧
    (filling.fillingOf 32 = true ∧ filling.regsReady [6] [1] = true ∧ filling.undeclared 1 8 = false) := by decide +kernel

theorem witness_BundleLeaving :
    (inside.regsReady [4] [1] = true ∧ inside.fillingOf 32 = false ∧ inside.cur.ploads = []) ∧
    (filling.regsReady [6] [1] = true ∧ filling.fillingOf 32 = true) ∧
    (let s := declared flying; s.regsReady [6] [1] = true ∧ s.fillingOf 32 = false ∧ ∃ p ∈ s.cur.ploads, p.id < s.orderBound) ∧
    ((lanesOf (resident.u 1)).filter fun i => (resident.bundleOf 1 i).isSome) = [3] ∧
    ((resident.core 0).bundle 1 3).isSome = true := by decide +kernel

theorem witness_BundleEvents :
    (small.context 1).live = true ∧
    (match (filling.core 0).fills with
      | [f] => decide (f.id = 5) && (filling.group f.g).live && decide (f.fills = [3]) && decide (f.mask = 8)
      | _ => false) = true ∧
    (match (queued.core 0).bqueue with
      | [h] => !queued.undeclared (queued.block (queued.group h.g).blk).lid h.mask && decide ((queued.block (queued.group h.g).blk).core = 0)
      | _ => false) = true ∧
    (let s := queued.putCore 0 { queued.core 0 with bqueue := [], bundles := [] }
     let r := s.request 32 8
     r.1.fits 32 r.2 = true ∧ (reqFault r.2).isNone = true) ∧
    (let s := queued.putCore 0 { queued.core 0 with bqueue := [] }
     let r := s.request 32 8
     r.1.fits 32 r.2 = false) := by decide +kernel

/-! #### Translation and launches -/

/-- The bytes of a number from an address on. -/
def bytesAt (a n v : Nat) : SMap Byte :=
  ((seqFrom 0 n).map fun i => (a + i, BitVec.ofNat 8 (v / 256 ^ i))).filter fun e => decide (e.2 ≠ 0)
/-- Words from an address on. -/
def wordsAt (a : Nat) (ws : List Nat) : SMap Byte := ((seqFrom 0 ws.length).zip ws).flatMap fun x => bytesAt (a + 4 * x.1) 4 x.2

/-- A page table (R296) at PA 0x40000 for the pages 0x30 (PA 0x210000, data), 0x31 (first touch), 0x32 (PA 0x30000, code) and
0x38 to 0x3E (data). -/
def table : SMap Byte :=
  bytesAt 0x40000 8 (2 ^ 63 + 0x41000) ++ bytesAt 0x41000 8 (2 ^ 63 + 0x42000) ++ bytesAt 0x42008 8 (2 ^ 63 + 0x43000) ++
    bytesAt 0x43080 8 (2 ^ 63 + 2 ^ 62 + 2 ^ 61 + 2 ^ 60 + 0x210000) ++ bytesAt 0x43088 8 (2 ^ 58) ++
    bytesAt 0x43090 8 (2 ^ 63 + 2 ^ 62 + 2 ^ 61 + 2 ^ 59 + 0x30000) ++
    (seqFrom 24 7).flatMap fun i => bytesAt (0x43000 + 8 * i) 8 (2 ^ 63 + 2 ^ 62 + 2 ^ 61 + 2 ^ 60 + 0x300000 + i * 0x10000)
/-- The machine with this table, and a pool of 64 KiB pages at PA 0x50000 that holds one page. -/
def paged (s : State) : State :=
  { s with
    mem := table ++ bytesAt 0x50000 8 1 ++ bytesAt 0x50008 8 0x220000
    contexts := s.contexts.map fun (e : Nat × Context) => (e.1, { e.2 with root := 0x40000, pools := [(0, 0x50000)] }) }
/-- An operation of the group is pending, with its status for v4; `hold` says that its split waits. -/
def pending (op : PendOp) (hold : Bool) : State :=
  paged (machine { (group []) with
    pends := [{ id := 2, sp := 0, op := op, loc := .reg 4, lanes := 0xF, due := 1200 }]
    splits := [(0, { Split.none with pc := 0x10000, members := 0xF, region := 0xF000, st := if hold then .awaiting else .running })] })

theorem witness_TranslationOperations :
    ((handler [(1, 0x310000), (2, 0)]).privileged = true ∧ (handler [(1, 0x310000), (2, 0)]).regsReady [4] [1, 2] = true) ∧
    (let s := handler []
     s.cur.ct < s.now ∧ s.cur.pstores = [] ∧ s.cur.hsts = [] ∧ s.u 2 = 0) ∧
    (let s := control busy
     s.privileged = true ∧ s.regsReady [4] [1, 2] = true ∧ ∃ p ∈ s.cur.pstores, p.buffered = false ∧ p.id < s.orderBound) ∧
    ((control later).privileged = true ∧ (control later).now ≤ (control later).cur.ct) ∧
    (let s := handler [(1, 0xFFFFFFFF), (2, 2)]
     s.u 2 ≠ 0 ∧ 2 ^ 32 < (s.u 1).toNat + (s.u 2).toNat) ∧
    (let s := handler [(1, 0x30), (2, 65)]
     (s.u 1).toNat + (s.u 2).toNat ≤ 2 ^ 32 ∧ 64 < (s.u 2).toNat) ∧
    (paged (handler [(1, 0x32), (2, 1)])).invalStatus 2 1 0x32 1 = none := by decide +kernel

theorem witness_TranslationEvents :
    (((pending (.map 0x310000 4) false).group 32).pendOf 2).isSome = true ∧
    (walk (pending (.map 0x300000 4) false) 0x300000 levels 0x40000).isSome = true ∧
    (((pending (.splinter 0x200000 3) true).group 32).heldPend 0).isSome = true ∧
    (((pending (.inval 0 0x30 1 [] none) true).group 32).heldPend 0).isSome = true ∧
    ((pending (.inval 0 0x30 1 [] none) true).groups.all fun e => e.2.wait.isNone) = true ∧
    ((pending (.inval 2 0x32 1 [3] none) true).execPages 1 0x32 1) = [3] ∧ ((pending (.inval 2 0x32 1 [3] none) true).scanPages 1 [3]).isSome = true ∧
    (pending (.inval 2 0x32 0 [] none) true).scanPages 1 [] = none := by decide +kernel

/-- Code page 3 holds an object of one instruction for blocks of one group (R41), and page 0x30 its launch record (R309). -/
def launcher (gz : Nat) : State :=
  let s := paged (handler [(1, 2), (2, 0)])
  { s with
    mem := wordsAt 0x30000 [0x00474B48, 0, 3 * 2 ^ 18 + 2 ^ 15 + 32, 0, 0, 0, 0, 0, 0xA8000000] ++ s.mem ++
      wordsAt 0x200000 [0x320000, 0, 2 ^ 16 + 1, gz * 2 ^ 16 + 2 ^ 10, 2 ^ 16, 0, 0, 0, 0, 8 * 2 ^ 20, 0x40, 0, 0, 8 * 2 ^ 20, 0x80000, 2 ^ 22]
    cores := s.cores.map fun (e : Nat × Core) =>
      (e.1, { e.2 with hcache := { sup := true, ctx := 1, idx := 8, val := handle 0 0x100000 0x300000 } :: e.2.hcache }) }

def launchRuns (reason : Nat) (s : State) : Bool :=
  s.privileged && s.regsReady [4] [1, 2] && !s.acquireOut &&
    passes (s.descRead (s.u 1).toNat (s.u 2).toNat 64 64) fun s1 y => decide (s1.launchReason (recWords y.2.2) = reason)

theorem witness_Launches :
    launchRuns 3 (launcher 0) = true ∧ launchRuns 0 (launcher 1) = true ∧
    (((pending (.launch 9) true).group 32).heldPend 0).isSome = true ∧
    ((small.context 1).live = true ∧ (small.context 1).stopped = false ∧ (small.block 1).control = false ∧ (small.block 1).st = .resident) ∧
    (let s := { small with launches := [(1, { Launch.empty with ctx := 1, st := .finishing, comp := 0x200040, ct := 999 })] }
     (s.launch 1).st = .finishing ∧ (s.launch 1).ct < s.now) := by decide +kernel

/-- A context that has been stopped, with its drain still going on or ended. -/
def stopped (drain : Bool) (s : State) : State :=
  { s with contexts := s.contexts.map fun (e : Nat × Context) => (e.1, { e.2 with stopped := true, stopPending := drain }) }

theorem witness_QueueControl :
    (let s := handler [(1, 2 ^ 16 * 9)]
     s.privileged = true ∧ s.regsReady [4] [1] = true ∧ (s.context ((s.u 1).toNat / 2 ^ 16)).live = false) ∧
    (let s := handler [(1, 2 ^ 16 + 0xFF)]
     s.regsReady [4] [1] = true ∧ (s.context ((s.u 1).toNat / 2 ^ 16)).live = true ∧ (s.u 1).toNat % 2 ^ 8 = 0xFF ∧
       (s.groups.all fun e => e.2.wait.isNone && e.2.pends.isEmpty) = true ∧ (s.context 1).stopped = false ∧
       (s.launches.filter fun e => decide (e.2.ctx = 1)).length = 1) ∧
    (let s := handler [(1, 2 ^ 16 + 5)]
     (s.launches.filter fun e => decide (e.2.ctx = 1 ∧ e.2.queue = 5)) = []) ∧
    ((stopped false (handler [])).context 1).stopPending = false ∧
    (let s := stopped true (handler [(1, 2 ^ 16)])
     (s.context 1).stopped = true ∧ s.ctxBusy 1 = true ∧ (∀ e ∈ s.contexts, e.2.stopPending = true → s.ctxBusy e.1 = true) ∧
       ∀ e ∈ s.groups, e.2.pends = []) ∧
    ((away (control (handler [(1, 2 ^ 16)]))).blocks.filter fun e => decide (e.2.control = false)) = [] ∧
    ((away (handler [(1, 2 ^ 16)])).blocks.filter fun e => decide (e.2.control = false ∧ e.2.ctx = 1 ∧ e.2.st = .absent)).length = 1 := by
  decide +kernel

/-! #### Commands -/

/-- Words in the scratchpad of core 0. -/
def withScratch (m : SMap Byte) (s : State) : State :=
  { s with cores := s.cores.map fun (e : Nat × Core) => (e.1, { e.2 with scratch := m }) }
/-- v1 and v2 name the descriptor at byte 0x100 of the scratchpad, v5 and v6 a barrier object at byte 0xF00. -/
def described (ws : List Nat) : State :=
  withScratch (wordsAt 0x100 ws ++ wordsAt 0x300 [1, 0] ++ wordsAt 0x340 [7, 8] ++ wordsAt 0x380 [0x400, 4, 2, 0x80, 0x440, 4, 2, 0x80] ++ wordsAt 0xF00 [1, 1])
    (user [(1, 1), (2, 0x100), (5, 1), (6, 0xF00)])

/-- A copy of two rows of two words from handle 2 to byte 0x200 of handle 1 (R215, R218). -/
def copies : State := described [2 * 2 ^ 12 + 1, 0, 0x200, 8, 8, 2 * 2 ^ 16 + 2]
/-- A gather of two rows of one word, by the indices at byte 0x300 (R219). -/
def gathers : State := described [2 ^ 28 + 2 ^ 12 + 1, 0x340, 0x200, 4, 4, 2 ^ 16 + 2, 2 ^ 20, 0x300, 0, 0, 0, 0, 2]
/-- A scatter-add of two rows of one word (R220). -/
def scatters : State := described [2 * 2 ^ 28 + 2 ^ 26 + 2 ^ 12 + 1, 0x340, 0x200, 4, 4, 2 ^ 16 + 2, 2 ^ 20, 0x300, 0, 0, 0, 0, 2]
/-- A route of two tokens to two local destinations (R252). -/
def routes : State :=
  described ([10 * 2 ^ 28 + 2 ^ 24 + 1, 0x300, 2 * 2 ^ 16 + 2, 0, 0, 2 ^ 20 + 1, 0x340, 4, 2 ^ 20, 0x380, 0, 0, 0, 2 ^ 20, 0x500] ++ List.replicate 17 0)
/-- A selection of one token for each of two columns (R262). -/
def selects : State := described [11 * 2 ^ 28 + 1, 0x300, 8, 2 ^ 16 + 2, 2 ^ 16, 2 ^ 20, 0x500]
/-- A retry of route 5, which has one unacknowledged row (R266). -/
def retries : State :=
  { described ([10 * 2 ^ 28, 0, 0, 0, 0, 2 ^ 20 + 1, 0x340, 4, 2 ^ 20, 0x380, 0, 0, 0, 2 ^ 20, 0x500] ++ List.replicate 5 0 ++ [2 ^ 20, 0x600, 2, 5 * 2 ^ 16] ++ List.replicate 8 0) with
    openRoutes := [{ ctx := 1, rid := 5, inst := 4, ntok := 2, k := 1, nexp := 2, devs := [3], busy := none
                     rows := [{ t := 0, slot := 0, e := 0, row := 0, dev := 3, buf := 1, idx := 0, sends := 1, at' := 900 }] }] }

/-- The checks of a command that passes them. -/
def engineRuns (s : State) (kind : Nat) (m : BitVec 3) : Bool :=
  let f := fun (y : Nat × List Byte) => recWord (recWords y.2)
  let glob := fun (as : List SideAt) (i : Nat) => match as[i]? with
    | some x => decide (x.space = 0 ∨ x.space = 3)
    | none => false
  let hull := fun (as : List SideAt) (i : Nat) => ((as[i]?).map (·.hull)).getD []
  s.regsReady [4] [1, 2, 5, 6] && !s.acquireOut && decide (s.cur.neng < 2064) && decide (((s.core s.curCore).queue kind).length < 16) &&
    passes (s.openRegion.cmdDesc 0x0D 2 (s.u 1).toNat (s.u 2).toNat 64 64) fun s1 y =>
      decide (descReason kind (f y) = 0) &&
        passes (s1.sideChecks (.stall .queue) (dataSides kind (f y))) fun s2 as =>
          !(kind = 0 && glob as 0 && glob as 1) && !(kind = 0 && anyConflict (hull as 0) (hull as 1)) &&
            passes (s2.arrCheck (m.getLsbD 0) 5) fun s3 _ =>
              let lens := (dataSides kind (f y)).map (·.len)
              let dc := dataCmdOf kind (f y) as
              kind != 0 || passes (s3.transSide dc.a ((lens[0]?).getD 0) true false) fun s4 _ =>
                isOk (s4.transSide dc.b ((lens[1]?).getD 0) false true).2

/-- 16 commands fill a queue. -/
def fullQueue : State :=
  let c := (((after (.gcopy 4 1 5 0) copies).core 0).copyq.headD (copies.newCmd (.mchain false) none [] [] [] none))
  { copies with cores := copies.cores.map fun (e : Nat × Core) => (e.1, { e.2 with copyq := List.replicate 16 c }) }

theorem witness_EngineCommands :
    (engineRuns copies 0 0 = true ∧ engineRuns gathers 1 1 = true ∧ engineRuns scatters 2 3 = true ∧
      engineRuns (ordered copies) 0 1 = true) ∧
    ((∃ p ∈ busy.cur.pstores, p.buffered = false ∧ p.id < busy.orderBound) ∧ busy.regsReady [4] [1, 2, 5, 6] = true) ∧
    (16 ≤ ((fullQueue.core fullQueue.curCore).queue 0).length ∧ fullQueue.cur.pstores = [] ∧ fullQueue.cur.ploads = []) ∧
    (user [(1, 2), (3, 300)]).regsReady [] [1, 2, 3] = true := by decide +kernel

/-- A tile descriptor (R231). -/
def tile (base fmt rows cols stride : Nat) : Dword :=
  BitVec.ofNat 64 (stride * 2 ^ 48 + fmt * 2 ^ 44 + (rows - 1) * 2 ^ 36 + (cols - 1) * 2 ^ 28 + base)
/-- Tiles 1 (2 by 4) and 2 (4 by 2) of `f16`, 3 to 6 (2 by 2) of `f32`. -/
def tiled : State :=
  machine { group [(1, 16), (2, 3)] with
    tiles := [(1, tile 0 1 2 4 2), (2, tile 0x40 1 4 2 1), (3, tile 0x80 0 2 2 2), (4, tile 0xC0 0 2 2 2), (5, tile 0x100 0 2 2 2),
      (6, tile 0x84 0 2 2 2)] }
/-- Tile 3 is the head of the group's open chain (R238). -/
def chained : State := after (.mchain 3 1) tiled

def tileRuns (ok : Bool) (s : State) (i : Instr) : Bool :=
  match Rule.tileForm s i with
  | none => false
  | some f =>
    s.regsReady f.regs [] && !s.acquireOut && decide (s.cur.ploads.length = 0) && decide (s.cur.pstores.length = 0) &&
      decide ((s.core s.curCore).matq.length < 16) && decide (s.cur.ntile < 2064) &&
      (match exec i s with
        | .next t => decide ((t.core t.curCore).matq.length = (s.core s.curCore).matq.length + (if ok then 1 else 0))
        | _ => false)

theorem witness_TilesAndMatrices :
    (Rule.tileField (tiled.cur.tile 3) 0 (tiled.u 1).toNat).isSome = true ∧ Rule.tileField (tiled.cur.tile 3) 0 (tiled.u 2).toNat = none ∧
    Rule.tileField (tiled.cur.tile 3) 3 256 ≠ none ∧ Rule.tileField (tiled.cur.tile 3) 3 257 = none ∧
    Rule.tileRead (tiled.cur.tile 3) 7 = some 16 ∧ Rule.tileRead (tiled.cur.tile 3) 8 = none ∧
    tiled.regsReady [] [1] = true ∧ tiled.regsReady [4] [] = true := by decide +kernel

theorem witness_MatrixCommands :
    (([.mma 3 1 2 0, .mchain 3 3, .msacc 3 4 5 1, .tcvt 3 4 7, .tfill 3 1 0] : List Instr).all (tileRuns true tiled) = true) ∧
    (([.mma 3 1 2 0, .mend 4 3 1] : List Instr).all (tileRuns true chained) = true) ∧
    (([.mma 3 1 1 0, .mend 4 3 0, .tcvt 3 6 0, .msacc 3 4 6 0, .mchain 1 0] : List Instr).all (tileRuns false tiled) = true) := by
  decide +kernel

/-- A Sluice command passes its checks: it forks. -/
def sluiceRuns (s : State) (i : Instr) : Bool :=
  s.regsReady [4] [1, 2, 5, 6] && !s.acquireOut && decide (s.cur.ploads.length = 0) && decide (s.cur.pstores.length = 0) &&
    decide ((s.cluster 0).sluice.length < 16) && decide (s.cur.neng < 2064) &&
    passes (s.openRegion.cmdDesc 0x0E 2 (s.u 1).toNat (s.u 2).toNat 64 64) (fun _ _ => true) &&
    decide (((after i s).cluster 0).sluice.length = 1)

theorem witness_RoutingCommands :
    sluiceRuns routes (.groute 4 1 5 0) = true ∧ sluiceRuns (ordered routes) (.groute 4 1 5 1) = true ∧
    sluiceRuns selects (.grsel 4 1 5 3) = true ∧ sluiceRuns retries (.grretry 4 1 5 4) = true := by decide +kernel

/-! #### Events of commands and routes -/

/-- After the fork of a command. -/
def copying : State := after (.gcopy 4 1 5 0) copies
def routing : State := after (.groute 4 1 5 0) routes
/-- The table's first entry names row 0 of buffer 1 of device 3 (R254). -/
def farTable (s : State) : State :=
  (s.pokeBytes (.scr 0 0x380) ([0, 0, 2, 2 ^ 31 + 3 * 2 ^ 19 + 2 ^ 7].flatMap fun w => leBytes 4 w)).pokeBytes (.scr 0 0x150)
    ([2 ^ 20, 0x600, 2, 5 * 2 ^ 16].flatMap fun w => leBytes 4 w)
def farRoute : State := after (.groute 4 1 5 0) (farTable routes)
def farRetry : State := after (.grretry 4 1 5 0) (farTable retries)
def selecting : State := after (.grsel 4 1 5 0) selects
def retrying : State := after (.grretry 4 1 5 0) retries
/-- The head of a queue. -/
def headOf (s : State) (k : Nat) : Option Cmd := ((s.core 0).queue k).head?
def sluiceHead (s : State) : Option Cmd := (s.cluster 0).sluice.head?

/-- A completed copy whose arrival, at scope `.pty`, waits for the completion time of its writes (R226). -/
def lateArrival : State :=
  let s := after (.engineCommandStart 0 .copy) (after (.gcopy 4 1 5 1) copies)
  { s with cores := s.cores.map fun (e : Nat × Core) =>
      (e.1, { e.2 with copyq := e.2.copyq.map fun c => { c with arr := c.arr.map fun a => (a.1, 2), ct := s.now } }) }

theorem witness_CommandEvents :
    ((headOf copying 0).any fun c => !c.started && !c.waitCommit && !copying.cmdBlocked c && c.arr.isNone) = true ∧
    ((headOf (after (.gcopy 4 1 5 0) (ordered copies)) 0).any fun c => c.waitCommit) = true ∧
    (let s := after (.engineCommandStart 0 .copy) copying;
      (headOf s 0).any fun c => c.started && s.arrReady c && c.arr.isNone && decide (c.token ≠ 0)) = true ∧
    (let s := after (.engineCommandStart 0 .rill) (after (.ggather 4 1 5 1) gathers);
      (headOf s 1).any fun c => c.started && s.arrReady c && (match c.arr with
        | some (p, _) => !s.poisoned p 8
        | none => false)) = true ∧
    ((headOf lateArrival 0).any fun c => c.started && !lateArrival.arrReady c) = true ∧
    (let s := after (.tfill 3 1 0) tiled;
      (headOf s 3).any fun c => !c.started && !c.waitCommit && !s.cmdBlocked c) = true ∧
    (let s := after (.tileCommandStart 0) (after (.mma 3 1 2 0) tiled);
      (headOf s 3).any fun c => c.started && decide (c.token = 1)) = true := by decide +kernel

/-- A route with one row to device 3 that has been sent once, at time 900. -/
def sentRow : SentRow := { t := 0, slot := 0, e := 0, row := 0, dev := 3, buf := 1, idx := 0, sends := 1, at' := 900 }
def awaitingAck (x : SentRow) (s : State) : State :=
  { s with clusters := s.clusters.map fun (e : Nat × Cluster) =>
      (e.1, { e.2 with sluice := e.2.sluice.map fun c => { c with started := true, sent := true, rows := [x] } }) }
/-- A receive buffer of four rows (R264). -/
def receiving : State := { user [] with rx := [(1, { base := 0x400000, stride := 64, count := 4, ctr := 0x500000 })] }
def tagOf (t : Nat) : VrelTag := { dev := 3, ctx := 1, rid := 5, t := t, slot := 0 }
def rowOf (t : Nat) (idx : Nat) : VrelRow := { tag := tagOf t, buf := 1, idx := idx, words := [1, 2], bad := [] }

theorem witness_RoutingEvents :
    ([routing, farRoute, selecting, retrying, farRetry].all fun s => (sluiceHead s).any fun c => !c.started && s.sluiceFree 0 c) = true ∧
    (let s := after (.groute 4 1 5 0) (ordered routes);
      (sluiceHead s).any fun c => !c.started && !s.sluiceFree 0 c) = true ∧
    ([routing, farRoute, retrying, farRetry].all fun s =>
      let t := after (.sluiceCommandStart 0) s;
      (sluiceHead t).any fun c => c.started && !c.sent) = true ∧
    ([after (.routeRowsSent 0 1) (after (.sluiceCommandStart 0) routing), after (.sluiceCommandStart 0) selecting].all fun s =>
      (sluiceHead s).any fun c => c.resolved && c.arr.isNone) = true ∧
    ([sentRow, { sentRow with sends := 4 }].all fun x =>
      let s := awaitingAck x retrying;
      (sluiceHead s).any fun c => c.sent && decide (c.rows = [x]) && decide (s.now < x.at' + 38400 ∧ x.at' + 38400 ≤ 39300)) = true ∧
    (mapFind receiving.rx 1).isSome = true ∧ mapFind receiving.rx 2 = none ∧ receiving.filter.length < 65536 ∧
    (after (.rowArrival (rowOf 0 3)) receiving).filter = [(tagOf 0, none)] := by decide +kernel

/-! #### Blocks, power, storage and the host -/

/-- The small machine's block in another state of R286. -/
def blockIn (st : BlockState) (s : State) : State :=
  { s with blocks := s.blocks.map fun (e : Nat × Block) => (e.1, { e.2 with st := st }) }
/-- The group of block 1, which is not the lowest of its launch, is parked, and a block waits to be placed. -/
def parked : State :=
  let s := waiter none none
  { s with
    groups := s.groups.map fun (e : Nat × Group) => (e.1, { e.2 with wait := e.2.wait.map fun r => { r with park := true } })
    blocks := [(1, { (s.block 1) with bid := 1 }), (2, { (s.block 1) with bid := 0, core := 4, scratch := 0 })], nextBlk := 3
    launches := [(1, { Launch.empty with ctx := 1, gx := 3, gy := 1, gz := 1, st := .running, next := 2, live := 3 })] }
/-- Launch 1 offers its first block, and its context may use core 0. -/
def offering : State :=
  { small with
    groups := [], blocks := [], launches := [(1, { Launch.empty with ctx := 1, gx := 2, gy := 1, gz := 1, st := .queued, live := 2 })]
    contexts := [(1, { small.context 1 with part := 1 })] }

theorem witness_SchedulingEvents :
    ((small.group 32).live = true ∧ 5 < (small.group 32).alloc ∧ (small.block (small.group 32).blk).onCore = true ∧ (small.block 1).control = false ∧ ∀ e ∈ small.groups, e.2.wait = none) ∧
    (small.parkTriggered 1 = false ∧ parked.parkTriggered 1 = true ∧ parked.parkAllowed 1 = true ∧ parked.partyOf 1 = [1] ∧
      (parked.group 32).blk = 1 ∧ (parked.block 1).st = .resident) ∧
    (let s := blockIn .stopping small
     s.partyOf 1 = [1] ∧ (s.block 1).st = .stopping ∧ s.blockDrained 1 = true) ∧
    ((blockIn .saving small).partyOf 1 = [1] ∧ ((blockIn .restoring small).context 1).stopped = false) ∧
    (small.readyParties = [] ∧ (∀ e ∈ small.launches, small.offers e.1 = false ∧ small.quantumReady e.1 = false) ∧
      (∀ e ∈ small.contexts, e.2.stopPending = false) ∧ ∀ e ∈ small.groups, e.2.pends = []) ∧
    (offering.readyParties = [] ∧ offering.offers 1 = true ∧ (offering.launch 1).party ≤ 1 ∧ 0 < (offering.launch 1).groups ∧
      offering.chooseCores 1 1 [(offering.launch 1).need] = some [0] ∧ (offering.cluster (clusterOf 0)).gate = .on) := by decide +kernel

/-- The group has ended its quantum with two buffered stores to one byte. -/
def quantumDone : State :=
  let s := ordered (machine { (group []) with
    qended := true
    qbuf := [{ place := .glob 0x200000 0x100000, bytes := [1, 2] }, { place := .glob 0x200001 0x100001, bytes := [9] }]
    qrel := [(0, 0), (1, 0)]
    pstores := [{ id := 2, lanes := 0xF, unsent := [], flying := [far 0x8000 0], pages := [16], buffered := true, due := 0 },
                { id := 3, lanes := 0xF, unsent := [], flying := [far 0x8000 0], pages := [16], buffered := true, due := 0 }], nst := 2 })
  { s with launches := s.launches.map fun (e : Nat × Launch) => (e.1, { e.2 with boundary := false, width := 1 }) }

theorem witness_QuantumEnds :
    small.quantumOver 1 = false ∧ quantumDone.quantumOver 1 = true ∧ quantumDone.commitOrder 1 = [32] ∧
      (quantumDone.group 32).closing = none := by decide +kernel

/-- Cluster 0 without blocks, its gate in this state since time 1000, at this time. -/
def gated (g : Gate) (now : Nat) : State :=
  { user [] with blocks := [], groups := [], now := now, critical := 500, shutdown := 600, clusters := [(0, { Cluster.empty with gate := g, idleSince := 1000 })] }

theorem witness_PowerAndStorage :
    (let s := gated .on 13000
     s.clusterBusy 0 = false ∧ (s.cluster 0).gate = .on ∧ (s.cluster 0).idleSince + 12000 ≤ s.now ∧ (s.cluster 0).low ≤ 9 ∧ 0 ≤ (s.cluster 0).high) ∧
    ((gated (.gating 1000) 1064).cluster 0).gate = .gating 1000 ∧ ((gated (.waking 1000) 7000).cluster 0).gate = .waking 1000 ∧
    ((gated .on 0).critical ≤ (hottestOf [(4, 500)]).2 ∧ (hottestOf [(4, 460)]).2 + 40 ≤ (gated .on 0).critical ∧
      (hottestOf [(4, 480)]).2 < (gated .on 0).critical ∧ (gated .on 0).shutdown ≤ (hottestOf [(4, 600)]).2) ∧
    (parityUnit (.sliceClean 5) = true ∧ parityUnit (.hbm 0x200000) = false ∧ parityUnit (.scratch 0 4) = false) ∧
    (3 ∉ (small.coresOut) ∧ ((after (.marchTestComplete (.coreUnit 3) true) small).core 3).inService = true) := by decide +kernel

/-- What IMAGE_VERIFY finds on a good image (R335). -/
def goodImage : ImageCheck :=
  { headerOk := true, bytes := 4096, keyHashOk := true, version := 2, minVersion := 1, ecdsaOk := true, lmsOk := true, ctx := 0, entry := 0x1000, digest := 0x77 }
/-- The small machine with these bits of `D_READY`. -/
def readyBits (w : Word) : State := { small with dready := w, lms := 3 }

theorem witness_BootAndLinks :
    (({ small with fw := false } : State).fw = false ∧ (after (.imageVerify goodImage) { small with fw := false }).fw = true ∧ ({ goodImage with version := 0 } : ImageCheck).version < 1) ∧
    (Rule.bitUp (readyBits 0x200001) 0 ∧ Rule.bitUp (readyBits 0x200001) (21 + 0) ∧ ¬ Rule.bitUp (readyBits 0) 0 ∧ ¬ Rule.bitUp (readyBits 0) (21 + 0)) := by
  unfold Rule.bitUp
  decide +kernel

/-- Two regions of a checkpoint are on their way over ports 0 and 1. -/
def checkpointing (sent : List (Nat × Nat)) (next : Nat) : State :=
  { readyBits 0x4600001 with ckpt := some { sent := sent, acked := [], next := next, since := 0 } }
/-- Device memory and the mailbox are up, and an earlier host write completes at this time. -/
def mailing (ct : Nat) : State := { readyBits 0x1FE007 with hostCt := ct, mbase := 0x40000 }

theorem witness_HostInterface :
    (Rule.bar0 (mailing 0) 0x200000 4 ∧ Rule.codePage (mailing 0) 0x30000 ∧ Rule.bar0 (mailing 0) 0x30000 4 ∧
      ¬ Rule.codePage (mailing 0) 0x200000 ∧ ¬ Rule.bar0 (mailing 0) 0x20007F 4) ∧
    (Rule.bitUp (mailing 0) 0 ∧ Rule.bitUp (mailing 0) 2 ∧ ¬ Rule.bitUp small 0 ∧ (mailing 0).hostq = []) ∧
    ((mailing 2000).now ≤ (mailing 2000).hostCt ∧ (mailing 0).hostCt < (mailing 0).now) ∧
    (¬ Rule.bitUp small 27 ∧ Rule.bitUp (readyBits 0x8000000) 27 ∧ (readyBits 0x8000000).lms < 2 ^ 20 ∧
      2 ^ 20 ≤ ({ readyBits 0x8000000 with lms := 2 ^ 20 } : State).lms) ∧
    (let s := stopped false (readyBits 0x4600001)
     Rule.bitUp s 26 ∧ s.ckpt = none ∧ ∀ e ∈ s.contexts, e.2.live = true → e.2.stopped = true) ∧
    ([(0, 0), (1, 1)].filter (fun e : Nat × Nat => decide (e.1 = 0)) = [(0, 0)] ∧ Rule.bitUp (checkpointing [(0, 0), (1, 1)] 2) (21 + 0) ∧
      (checkpointing [(0, 0), (1, 1)] 2).ckpt.isSome = true ∧ (checkpointing [(0, 0)] 8192).ckpt.isSome = true) := by
  unfold Rule.bar0 Rule.codePage Rule.bitUp
  decide +kernel

/-- The split of the small machine is next to issue, with this word at its PC. -/
def fetching (w : Nat) : State :=
  { user [(1, 5), (2, 7)] with agenda := [.issue 32 0, .tick], mem := bytesAt 0x30000 4 w }
/-- Its PC lies elsewhere. -/
def fetchingAt (pc : Dword) : State :=
  let s := fetching 0
  { s with groups := s.groups.map fun (e : Nat × Group) => (e.1, e.2.putSplit 0 { e.2.split 0 with pc := pc }) }

theorem witness_Steps :
    (({ fetching 0x01040808 with agenda := [.tick] } : State).mayIssue 32 0 = true ∧ (fetching 0x01040808).mayIssue 40 0 = false) ∧
    ((let s : State := { fetching 0x01040808 with agenda := [.tick], cg := 32, cs := 0 }
      let r := s.translate s.curCore s.curCtx s.csp.pc.toNat
      r.2 = some (0x30000, (leaf 0x30000).toNat) ∧ (leaf 0x30000).toNat.testBit 59 = true ∧ mapGet 0 s.xcount 3 ≠ 0 ∧
        r.1.poisoned (.glob 0x30000 0) 4 = false ∧ s.bytesAt (.glob 0x30000 0) 4 = leBytes 4 0x01040808 ∧
        (decode (s.patched 0x01040808)).toOption = some (.add 2 2 1 0)) ∧
      (let s : State := { fetching 0 with agenda := [.tick], poison := [{ base := 0x30000, size := 32, left := 1 }] }
       s.poisoned (.glob 0x30000 0) 4 = true ∧ s.bytesAt (.glob 0x30000 0) 4 = leBytes 4 0)) ∧
    ((fetchingAt 0x700000).translate 0 1 0x700000).2 = none ∧ mapGet 0 (fetchingAt 0x100000).xcount 0x20 = 0 ∧
    ((match step (fetching 0x01040808) with
      | .next t => (t.group 32).rd (.reg 1) 0
      | _ => 99) = 5 ∧
     (match step (fetching 0x01040808) with
      | .next t => (t.group 32).rd (.reg 2) 3
      | _ => 99) = 12) := by decide +kernel

theorem witness_RegisterNumbers :
    badReg small.cur small.csp [100, 1] = some 100 ∧ (idle [(1, 16)]).regsReady [1] [] = true ∧ (idle [(1, 16)]).active = 0 := by decide +kernel

theorem witness_MemoryStaysCanonical :
    State.reset.memWf = true ∧ (quantumDone.memWf = true ∧ (match step { quantumDone with agenda := [.event (.quantumEnd 1)] } with
      | .next t => decide (t.mem.length = 2)
      | _ => false) = true) := by decide +kernel

/-! #### Further clauses of the statements -/

def upContexts (f : Context → Context) (s : State) : State := { s with contexts := s.contexts.map fun (e : Nat × Context) => (e.1, f e.2) }
def upGroups (f : Group → Group) (s : State) : State := { s with groups := s.groups.map fun (e : Nat × Group) => (e.1, f e.2) }
def upCores (f : Core → Core) (s : State) : State := { s with cores := s.cores.map fun (e : Nat × Core) => (e.1, f e.2) }
def upClusters (f : Cluster → Cluster) (s : State) : State := { s with clusters := s.clusters.map fun (e : Nat × Cluster) => (e.1, f e.2) }
def upLaunches (f : Launch → Launch) (s : State) : State := { s with launches := s.launches.map fun (e : Nat × Launch) => (e.1, f e.2) }
/-- The 32-byte unit at PA 0x200000 is poisoned. -/
def poisoned (s : State) : State := { s with poison := [{ base := 0x200000, size := 32, left := 0xFFFFFFFF }] }

/-- A load of the group that will write one register. -/
def loadTo (loc : RegLoc) (strong : Bool) (s : State) : State :=
  upGroups (fun g => { g with ploads :=
    [{ id := 2, lanes := 0xF, locs := [loc], writes := [], counted := true, strong := strong, unsent := [], flying := [far 0x8000 1100], pages := [16], due := 1100 }] }) s

/-- Split 1 has entered its handler in this cycle (R274). -/
def entered1 : State := takeFault mixed 32 1 (mkTrap 4 1 77 3)

theorem witness_FaultsTaken_order :
    (((entered1.group 32).split 0).sup = false ∧ (entered1.group 32).youngFrame 0 entered1.now = some 1 ∧
      (entered1.group 32).frame.isSome = true ∧ (entered1.block (entered1.group 32).blk).st = .resident) ∧
    (occupied.group 32).youngFrame 0 occupied.now = none ∧
    (((away small).group 32).otherSup 0 = false ∧ ((away small).group 32).framed = none) := by decide +kernel

/-- The handler of split 0, with a fault of split 1 held. -/
def heldOther : State := upGroups (fun g => { g with held := [{ sp := 1, trap := mkTrap 4 1 0 8, since := 950 }] }) (handler [])

theorem witness_Resume_held :
    heldOther.csp.sup = true ∧ heldOther.cur.held ≠ [] ∧ (∀ h ∈ heldOther.cur.held, h.sp ≠ heldOther.cs) ∧ heldOther.cur.framed = none ∧
      (handler []).cur.framed = none := by decide +kernel

theorem witness_Services_ready :
    (∀ n, n < 3 → (handler []).cur.busy (handler []).csp.members (.hreg n) = false) ∧
    (loadTo (.hreg 0) false (handler [])).cur.busy 0xF (.hreg 0) = true ∧
    (∀ n, n < 3 → svcFull.cur.busy svcFull.csp.members (.hreg n) = false) ∧
    ((handler []).execPage ((handler []).svcBase + 0) = false ∧ (handler []).execPage (handler []).svcTail = false) := by decide +kernel

theorem witness_AccessProcedure_released : at16.curHandleTested 4 = false ∧ ((at16.curHandle 4).2.usable = true ∧ (0 : Nat) % 4 = 0) := by decide +kernel

/-- The line at PA 0x200000 is pinned on core 0. -/
def pinned (bad : List PoisonUnit) (s : State) : State :=
  upCores (fun c => { c with pins := [{ ctx := 1, vl := 0x2000, tagged := true, pl := 0x4000, data := [(16, 5)], bad := bad }] }) s

theorem witness_MemoryValues_pinned :
    (((pinned [] at16).core 0).pins.find? fun x => decide (x.pl = 0x200010 / 128)).isSome = true ∧ (pinned [] at16).curLaunch.q = 0 ∧
    meetsUnit (poisoned at16).poison 0x200010 4 = true ∧ meetsUnit (poisoned at16).poison 0x200020 4 = false ∧
    ((ordered (poisoned at16)).poisoned (.glob 0x200010 0) 4 = true ∧ byteAfter (ordered at16).cur.qbuf (.glob 0x200010 0) = none) ∧
    ((cached.core 0).pins.find? fun x => decide (x.pl = 0x4000)) = none := by decide +kernel

theorem witness_Atomics_scratchpad :
    (atoms 1).all (atomRuns (ordered at16)) = true ∧ (at16.curHandle 1).2.space ≠ 0 := by decide +kernel

/-- The split has yielded at time 1000. -/
def yielded (s : State) : State := after .gyield s

theorem witness_FencesAndYields_expire :
    (mapFind ((yielded mixed).group 32).splits 0).isSome = true ∧ (yielded mixed).now < (((yielded mixed).group 32).split 0).notBefore ∧
    ((yielded mixed).mayIssue 32 1 = true ∧ (yielded mixed).isWithheld 32 = false ∧ (((yielded mixed).group 32).split 1).st = .running ∧
      ¬ (((yielded mixed).group 32).split 0).notBefore - 64 < (((yielded mixed).group 32).split 1).issued) ∧
    ((yielded small).group 32).splits.length = 1 ∧ ({ yielded mixed with now := 1064 } : State).now = (((yielded mixed).group 32).split 0).notBefore ∧
    ((ordered holding).curLaunch.q ≠ 0 ∧ ∃ h ∈ (ordered holding).cur.hsts, h.id < (ordered holding).orderBound) := by decide +kernel

theorem witness_WaitsEnd_absent :
    (let s := away (waiter none (some 1000))
     (s.block 1).st = .absent ∧ s.waitPoisoned 32 (.glob 0x200010 0x100010) = false ∧ s.ordQ 32 = 0) ∧
    (waiter none (some 1000)).waitPoisoned 32 (.glob 0x200010 0x100010) = false := by decide +kernel

/-- A group before this one waits at the head of the bundle queue. -/
def headed : State :=
  let s := upCores (fun c => { c with bqueue := [{ g := 1, sp := 0, mask := 1, loc := .reg 4, lanes := 0xF }] }) enterer
  { s with groups := s.groups ++ [(1, { (group []) with blk := 3 })], blocks := s.blocks ++ [(3, { (s.block 1) with lid := 0 })] }
/-- Bundle 3 lies at VA 0x900000, which no page maps, or at VA 0x100000 whose page may not be read. -/
def declaredAt (vl : Nat) (s : State) : State := upLaunches (fun l => { l with bundles := [(3, { ext := [(vl, 2)], dropping := false })] }) s
def unreadable (s : State) : State :=
  upClusters (fun c => { c with tlb := [{ ctx := 1, vpn := 16, pages := 1, leaf := BitVec.ofNat 64 (2 ^ 63 + 2 ^ 62 + 2 ^ 60 + 0x200000) }] }) s

def entryOf (s : State) : State × List ReqBundle := s.openRegion.request s.cg (s.u 1)

theorem witness_BundleEntry_queue :
    (let r := entryOf headed
     r.1.fits 32 r.2 = true ∧ r.1.headAhead = true ∧ headed.cur.entered = 0 ∧ headed.undeclared 1 8 = false ∧ headed.fillingOf 32 = false ∧
       (r.2.all fun q => q.lines.all fun x => !((r.1.core 0).bundles.flatMap (·.pls)).contains (lineId x)) = true ∧ r.2.length = 1) ∧
    (let r := entryOf (declaredAt 0x12000 enterer)
     r.1.fits 32 r.2 = true ∧ r.1.headAhead = false ∧ (match reqFault r.2 with
       | some (vl, .page) => decide (vl = 0x12000)
       | _ => false) = true) ∧
    (let r := entryOf (unreadable enterer)
     r.1.fits 32 r.2 = true ∧ (match reqFault r.2 with
       | some (vl, .prot _) => decide (vl = 0x2000)
       | _ => false) = true) := by decide +kernel

theorem witness_BundleEvents_cases :
    (let s := upGroups (fun g => { g with live := false }) filling
     ((s.core 0).fills.find? fun f => decide (f.id = 5)).isSome = true ∧ (s.group 32).live = false) ∧
    (let s := upLaunches (fun l => { l with bundles := [] }) queued
     s.undeclared 1 8 = true ∧ (s.core 0).bqueue.length = 1) ∧
    (let s := upCores (fun c => { c with bqueue := (queued.core 0).bqueue }) filling
     s.undeclared 1 8 = false ∧ s.fillingOf 32 = true ∧ (s.core 0).bqueue.length = 1) ∧
    (let s := upGroups (fun g => { g with entered := 16 }) queued
     let r := ({ s.putCore 0 { s.core 0 with bqueue := [] } with cg := 32, cs := 0 } : State).request 32 8
     r.1.fits 32 r.2 = false ∧ (s.group 32).entered ≠ 0) := by decide +kernel

theorem witness_TranslationOperations_ranges :
    (let s := paged (handler [(1, 0x30), (2, 2)])
     s.u 2 ≠ 0 ∧ (s.u 1).toNat + (s.u 2).toNat ≤ 2 ^ 32 ∧ (s.execPages 1 0x30 2).length ≠ 2 ∧ s.cur.ct < s.now ∧ s.cur.pstores = [] ∧ s.cur.hsts = []) ∧
    ((paged (handler [(1, 0x32), (2, 1)])).execPages 1 0x32 1).length = 1 := by decide +kernel

/-- Page-table entries for the splinter: a 2 MiB leaf for VA 0x200000, and a table pool with this many tables. -/
def bigLeaf (n : Nat) (s : State) : State :=
  upContexts (fun c => { c with pools := [(0, 0x50000), (3, 0x60000)] })
    { s with mem := bytesAt 0x40000 8 (2 ^ 63 + 0x41000) ++ bytesAt 0x41000 8 (2 ^ 63 + 0x42000) ++
      bytesAt 0x42008 8 (2 ^ 63 + 2 ^ 62 + 2 ^ 61 + 2 ^ 60 + 0x400000) ++ bytesAt 0x60000 8 n ++ bytesAt 0x60008 8 0x61000 }
def poolsEmpty (s : State) : State := { s with mem := table }
def descentOf (s : State) (va n : Nat) : Option Descent := s.descend va levels n 0x40000

theorem witness_TranslationEvents_map :
    (2 ^ 48 : Nat) ≤ 2 ^ 48 ∧ (((pending (.map (2 ^ 48) 4) false).group 32).pendOf 2).isSome = true ∧
    (let s := pending (.map 0x300000 3) false
     (walk s 0x300000 levels 0x40000).map (·.2) = some 16 ∧ ¬ 21 ≤ 16) ∧
    ((descentOf (pending (.map 0x330000 4) false) 0x330000 3).any fun d => !d.entry.testBit 63 && !d.entry.testBit 58) = true ∧
    (let s := poolsEmpty (pending (.map 0x310000 4) false)
     (descentOf s 0x310000 3).any (fun d => !d.entry.testBit 63 && d.entry.testBit 58 && decide (d.left = 0)) = true ∧ s.poolCount 1 0 = 0) ∧
    (let s := pending (.map 0x310000 4) false
     (descentOf s 0x310000 3).any (fun d => !d.entry.testBit 63 && d.entry.testBit 58 && decide (d.left = 0)) = true ∧
       mapFind (s.context 1).pools 0 = some 0x50000 ∧ s.physNum 0x50000 8 = 1) := by decide +kernel

theorem witness_TranslationEvents_splinter :
    ((descentOf (pending (.splinter 0x200000 3) true) 0x200000 2).any fun d => decide (d.left = 0) && leafAt d.level d.entry) = false ∧
    (let s := bigLeaf 0 (pending (.splinter 0x200000 3) true)
     (descentOf s 0x200000 2).any (fun d => decide (d.left = 0) && leafAt d.level d.entry) = true ∧ s.poolCount 1 3 = 0) ∧
    (let s := bigLeaf 1 (pending (.splinter 0x200000 3) true)
     (descentOf s 0x200000 2).any (fun d => decide (d.left = 0) && leafAt d.level d.entry) = true ∧
       mapFind (s.context 1).pools 3 = some 0x60000 ∧ s.physNum 0x60000 8 ≠ 0) := by decide +kernel

/-- What an invalidation waits for: nothing, or the group's load. -/
def doneDrain (revoked : Bool) : Drain := { accs := [], cmds := [], fills := [], revoked := revoked }
def openDrain : Drain := { accs := [(32, 2)], cmds := [], fills := [], revoked := false }

theorem witness_TranslationEvents_invalidation :
    (let s := pending (.inval 0 0x10 1 [] none) true
     Drain.over (s.drainLeft (s.openAccs 1 0x10 1)) = true ∧ s.bundleOpen 1 0x10 1 = false) ∧
    (((pending (.inval 1 1 3 [] none) true).group 32).heldPend 0).isSome = true ∧
    (let s := pending (.inval 4 0x10 1 [] (some (doneDrain false))) true
     Drain.over (s.drainLeft (doneDrain false)) = true ∧ Drain.over (s.drainLeft (doneDrain true)) = true ∧ s.openFills 1 0x10 1 = []) ∧
    (let s := loadTo (.reg 9) false (pending (.inval 2 0x32 1 [3] (some openDrain)) true)
     Drain.over (s.drainLeft openDrain) = false) ∧
    (let s := pending (.inval 2 0x32 0 [] (some (doneDrain false))) true
     s.scanPages 1 [] = none ∧ Drain.over (s.openAccs 1 0x32 0) = true ∧ s.openFills 1 0x32 0 = []) := by decide +kernel

/-- Launch 1 finishes. -/
def finishing : State := { small with launches := [(1, { Launch.empty with ctx := 1, st := .finishing, comp := 0x200040, ct := 999 })] }

theorem witness_Launches_finish :
    ((∀ e ∈ finishing.groups, e.2.pends = []) ∧ finishing.execPage (finishing.launch 1).comp = false ∧
      (poisoned { finishing with launches := [(1, { (finishing.launch 1) with comp := 0x200000 })] }).poisoned (.glob 0x200000 0) 4 = true) ∧
    (small.blocks.filter (fun e => decide (e.1 = 1))).length = 1 ∧ (small.launch (small.block 1).lid).q = 0 ∧
    (∀ e ∈ small.blocks, e.2.st ≠ .absent ∧ e.2.st ≠ .ready) := by decide +kernel

/-- The matrix queue is full, or the tile counter is. -/
def matFull : State :=
  upCores (fun c => { c with matq := List.replicate 16 (c.matq.headD (tiled.newCmd (.mchain false) none [] [] [] none)) }) (after (.mma 3 1 2 0) tiled)
def tilesFull : State := upGroups (fun g => { g with ntile := 2064 }) tiled
/-- The split waits to fork, with the descriptors of tiles 3, 1 and 2 captured. -/
def heldFork : State := after (.mma 3 1 2 0) (loadTo (.reg 9) false tiled)

theorem witness_MatrixCommands_waits :
    ((loadTo (.reg 9) true tiled).acquireOut = true ∧ (loadTo (.reg 9) true tiled).regsReady [] [] = true) ∧
    (let s := loadTo (.reg 9) false tiled
     s.acquireOut = false ∧ (∃ p ∈ s.cur.ploads, p.id < s.orderBound)) ∧
    (16 ≤ (matFull.core matFull.curCore).matq.length ∧ matFull.acquireOut = false ∧ matFull.cur.ploads = []) ∧
    (tilesFull.acquireOut = false ∧ tilesFull.cur.pstores = [] ∧ 2064 ≤ tilesFull.cur.ntile) ∧
    (Rule.descriptors heldFork [3, 1, 2] = [3, 1, 2].map heldFork.cur.tile ∧ heldFork.csp.st = .stalled (.order 5)) := by
  decide +kernel

/-- The rows at PA 0x200000 and in the scratchpad of core 0 are under test. -/
def testing (s : State) : State :=
  { s with march := [{ unit := .hbm 0x200000, since := 900, no := 0 }, { unit := .scratch 0 32, since := 900, no := 0 }] }

theorem witness_CommandEvents_tested :
    ((headOf (testing copying) 0).any fun c => (testing copying).rangesTested (c.rd ++ c.wr) [] && !(testing copying).cmdBlocked c) = true ∧
    ((headOf copying 0).any fun c => !copying.rangesTested (c.rd ++ c.wr) []) = true ∧
    (let s := testing (after (.mma 3 1 2 0) tiled);
      (headOf s 3).any fun c => s.rangesTested (c.rd ++ c.wr) []) = true := by decide +kernel

/-- Eight routes of cluster 0 have rows out. -/
def eightRoutes : State :=
  let s := after (.sluiceCommandStart 0) farRoute
  upClusters (fun c => { c with sluice := (List.replicate 8 (c.sluice.map fun x => { x with id := 90, sent := true, rows := [sentRow] })).flatten ++ c.sluice }) s

theorem witness_RoutingEvents_cases :
    ((eightRoutes.cluster 0).sluice.any fun c => c.started && !c.sent && !eightRoutes.pass2Free 0 c) = true ∧
    (let s := after (.sluiceCommandStart 0) farRoute;
      (s.cluster 0).sluice.any fun c => c.started && !c.sent && s.pass2Free 0 c) = true ∧
    (let s := { awaitingAck sentRow retrying with now := 39300 };
      (sluiceHead s).any fun c => c.sent && decide (sentRow.at' + 38400 ≤ s.now)) = true ∧
    (tagOf 0).dev = 3 ∧ ({ retrying with vrelnum := 3 } : State).vrelnum.toNat % 4096 = 3 ∧
    (let s := after (.rowArrival (rowOf 0 3)) receiving
     (∃ e ∈ s.filter, e.1 = (rowOf 0 3).tag) ∧ (rowOf 0 3).idx < 4 ∧ 4 ≤ (rowOf 0 4).idx ∧ s.execPage (0x400000 + 3 * 64) = false) := by
  decide +kernel

/-- Registers 1, 2, 3 and 5 are written; their lines 1, 2 and 11, 13 of a window of 8 lines. -/
def windowed (dirty cold : List Nat) (s : State) : State :=
  upGroups (fun g => { g with dirty := dirty, cold := cold, written := [1, 2, 3, 5], win := { base := 0, log2 := 3, lines := [(1, 1), (2, 2), (3, 11), (5, 13)] } }) s
/-- The context's first 512 MiB page, which holds its images, lies at PA 0x20000000. -/
def imaged (s : State) : State :=
  upContexts (fun c => { c with root := 0x40000 }) { s with
    mem := bytesAt 0x40000 8 (2 ^ 63 + 0x41000) ++ bytesAt 0x41000 8 (2 ^ 63 + 0x42000) ++
      bytesAt 0x42000 8 (2 ^ 63 + 2 ^ 62 + 2 ^ 61 + 2 ^ 60 + 0x20000000) }

theorem witness_SchedulingEvents_window :
    (let s := imaged (windowed [] [3] small)
     let h := s.group 32
     let base := s.imageBase 32
     3 ∈ h.cold ∧ mapFind h.win.lines (3 % 2 ^ h.win.log2) = some 11 ∧ 11 ∉ h.dirty ∧ s.virtNum 1 (base + 0x40 + 3) 1 = some 0 ∧
       (s.virtPa 1 (base + 0x40 + 3)).isSome = true ∧ (s.virtPa 1 (base + 0x400 + 128 * 3)).isSome = true ∧
       h.launched.getLsbD 0 = true ∧ h.exited.getLsbD 0 = false) ∧
    (let s := imaged (windowed [13] [5, 3] small)
     let h := s.group 32
     mapFind h.win.lines (5 % 2 ^ h.win.log2) = some 13 ∧ 13 ∈ h.dirty ∧ s.lineMapped 1 (s.imageBase 32) 13 = true) := by decide +kernel

/-- A group's window may double. -/
def doubles (s : State) : Bool :=
  (s.slotHolders 0).any fun e =>
    let n := 2 ^ (e.2.win.log2 + 1)
    decide (n ≤ e.2.alloc) && (s.windows 0 [e.1]).all fun o => decide (o.1 + o.2 ≤ e.2.win.base / n * n) || decide (e.2.win.base / n * n + n ≤ o.1)

theorem witness_SchedulingEvents_core :
    doubles (windowed [] [] small) = true ∧ doubles (upGroups (fun g => { g with alloc := 1 }) small) = false ∧
    (let w := ((windowed [] [] small).group 32).win
     (w.lines.all fun e => decide (e.1 = e.2 % 2 ^ w.log2) && decide (mapFind w.lines e.1 = some e.2)) = true) ∧
    (let s := upGroups (fun g => { g with draining := true }) small
     (s.group 32).draining = true ∧ (s.group 32).outstanding = false) ∧ (384 : Nat) ≤ 384 ∧ (383 : Nat) < 384 := by decide +kernel

theorem witness_SchedulingEvents_blocks :
    (blockIn .stopping flying).blockDrained 1 = false ∧
    (let s := blockIn .restoring filling
     let t := upGroups (fun g => { g with entered := 8 }) s
     t.entersFilling 1 = true ∧ t.partyOf 1 = [1] ∧ s.entersFilling 1 = false) ∧
    (let s := imaged (blockIn .restoring small)
     (s.virtPa 1 (s.slotBase 1 + 0x1000)).isSome = true ∧ 0 < (s.block 1).scratch ∧ ∀ k ∈ s.groupsOf 1, (s.group k).wait = none) ∧
    (let s := blockIn .saving (waiter none none)
     (s.block 1).st = .saving ∧ ∃ k ∈ s.groupsOf 1, s.waitRegistered k = true) := by decide +kernel

theorem witness_QuantumEnds_pause :
    (let s := upLaunches (fun l => { l with ending := some { rest := [32], closed := [], bars := false } }) quantumDone
     (s.launch 1).ending ≠ none) ∧
    (let l := ((quantumDone.commitOrder 1).eraseDups)
     (l.all fun k => (quantumDone.group k).closing.isNone && (quantumDone.group k).wait.isNone &&
       ((quantumDone.group k).qrel.all fun r => decide (r.2 < 2)) && !(quantumDone.group k).splits.isEmpty) = true ∧ (quantumDone.launch 1).ending = none ∧
       ∀ c ∈ quantumDone.commands, c.waitCommit = false) := by decide +kernel

/-- A copy engine draws on an allowance of `n` units. -/
def drawing (n : Nat) : State :=
  upClusters (fun c => { c with allow := n, refill := 1, low := 0, high := 2, draw := 0 }) (after (.engineCommandStart 0 .copy) copying)

theorem witness_PowerAndStorage_cases :
    (0 < (drawing 0).engineDraw 0 ∧ ¬ (drawing 0).engineDraw 0 ≤ ((drawing 0).cluster 0).allow ∧ (drawing 300).engineDraw 0 ≤ ((drawing 300).cluster 0).allow) ∧
    (let s := testing small
     let m := s.marchOf (.scratch 0 32)
     m ∈ s.march ∧ s.now < m.since + marchTicks (.scratch 0 32) ∧ m.since + marchTicks (.hbm 0x200000) ≤ s.now) ∧
    (small.marchOf (.coreUnit 3) ∉ small.march ∧ 3 ∉ small.coresOut) := by decide +kernel

theorem witness_BootAndLinks_images :
    ({ goodImage with headerOk := false } : ImageCheck).headerOk = false ∧ (2 ^ 26 : Nat) < ({ goodImage with bytes := 2 ^ 26 + 1 } : ImageCheck).bytes ∧
    ({ small with fw := true } : State).fw = true := by decide +kernel

theorem witness_HostInterface_code :
    Rule.codePage ({ mailing 0 with xcount := [(3, 1), (4, 1)] } : State) 0x40000 ∧ ¬ Rule.codePage (mailing 0) 0x40000 ∧
      Rule.codePage ({ mailing 0 with frozen := [4] } : State) 0x40004 := by
  unfold Rule.codePage
  decide +kernel

theorem witness_Steps_access :
    ((windowed [] [] small).group 32).live = true ∧ mapFind ((windowed [] [] small).group 32).win.lines (1 % 8) = some 1 ∧
    3 < ((windowed [] [3] small).group 32).alloc ∧ ((windowed [] [3] small).block 1).onCore = true ∧
    (let s := { small with agenda := [.probe 32 0, .tick] }
     ({ s with agenda := [.tick] } : State).stallOf 32 0 = none) ∧
    (let s := { loadTo (.reg 2) false (fetching 0x01040808) with agenda := [.tick] }
     s.stallOf 32 0 ≠ none) ∧
    (let s := after (.ldB32 4 2 1 0) (loadTo (.reg 4) false at16)
     ((s.group 32).split 0).st = .stalled .scoreboard ∧ (mapFind s.groups 32).isSome = true) ∧
    (({ small with agenda := [.event (.loadDataReturn 32 2), .tick] } : State).lands (.loadDataReturn 32 2)) = [] := by decide +kernel

/-! #### Clauses on traps, poison, held requests and joins -/

/-- The line of register 1 is poisoned. -/
def badLine (s : State) : State := upGroups (fun g => { g with rpoison := [(1, 0xF)] }) s

theorem witness_RegisterTraps :
    badReg small.cur small.csp [3, 100, 1] = some 100 ∧
    (let s := badLine small
     badReg s.cur s.csp [3, 1, 2] = none ∧ poisonedReg s.cur s.csp [1, 2] = some 1 ∧ s.active ≠ 0 ∧ s.leaderMask ≠ 0 ∧
       (([3, 1, 2] : List Reg).all fun r => !s.cur.busy s.csp.members (s.cur.loc s.csp r) && !s.rowTested (s.cur.loc s.csp r)) = true) ∧
    (let s := badLine (idle [(1, 5)])
     s.active = 0 ∧ s.regsReady [1] [] = true ∧ s.regsReady [] [1] = false) := by decide +kernel

/-- Split 1 of the group has a load outstanding, or waits for a word, in ordered mode. -/
def othersLoad : State :=
  upGroups (fun g => { g with ploads :=
    [{ id := 2, lanes := 8, locs := [.reg 9], writes := [], counted := true, strong := false, unsent := [], flying := [far 0x8000 1100], pages := [16], due := 1100 }] })
    (ordered mixed)
def othersWord : State := upGroups (fun g => { g with wait := some { waitRec none none with sp := 1 } }) (ordered mixed)

theorem witness_CrossLane_others :
    othersLoad.othersBusy = true ∧ othersWord.othersBusy = false ∧ othersWord.othersWait = true ∧ small.othersWait = false := by decide +kernel

/-- The frame holds a fault of split 0 whose block is away; split 1 faults then. -/
def framedAway : State := takeFault (away mixed) 32 0 (mkTrap 4 1 77 1)

theorem witness_FaultsTaken_framed :
    (framedAway.group 32).framed = some 0 ∧ ((framedAway.group 32).split 1).sup = false ∧ (framedAway.group 32).youngFrame 1 framedAway.now = none := by
  decide +kernel

/-- A record waits for its tail increment, or could have had it. -/
def posted (due : Nat) : State := { handler [] with svcPosts := [{ g := 32, upto := 5, due := due, ct := 900 }], svcTail := 0x1000 }

theorem witness_Services_tail :
    (let s := posted 990
     (990 : Nat) ≤ s.now ∧ (900 : Nat) < s.now ∧ s.releaseMet (s.group 32) 4 5 = true ∧ s.execPage s.svcTail = false) ∧
    ¬ (1010 : Nat) ≤ (posted 1010).now := by decide +kernel

/-- VA 0x100000 lies in the code page, or in a page that may not be read. -/
def overCode : State := upClusters (fun c => { c with tlb := [{ ctx := 1, vpn := 16, pages := 1, leaf := leaf 0x30000 }] }) at16
def noRead : State :=
  upClusters (fun c => { c with tlb := [{ ctx := 1, vpn := 16, pages := 1, leaf := BitVec.ofNat 64 (2 ^ 63 + 2 ^ 62 + 2 ^ 60 + 0x200000) }] }) at16
/-- The group is marked for bundle 3, which covers VA 0x100000 (R192). -/
def marked : State := upGroups (fun g => { g with revoked := 8, marks := [(3, [(0x2000, 2)])] }) at16
def transOf (s : State) (k : AccKind) (offs : List (Nat × Nat)) : State × List LaneTrans := transLanes (s.curHandle 2).1 (s.curHandle 2).2 k offs

theorem witness_AccessProcedure_translation :
    ((at16.translate 0 1 0x900000).2 = none ∧ (overCode.translate 0 1 0x100010).2 = some (0x30010, (leaf 0x30000).toNat) ∧
      mapGet 0 overCode.xcount 3 ≠ 0 ∧ ((noRead.translate 0 1 0x100010).2.any fun x => !x.2.testBit 61) = true ∧
      (at16.translate 0 1 0x100010).2 = some (0x200010, (leaf 0x200000).toNat) ∧ mapGet 0 at16.xcount 0x20 = 0 ∧ 0x20 ∉ at16.frozen ∧
      (noRead.curHandle 2).1.virtHit false 0x100010 = none) ∧
    ((at16.curHandle 2).2.usable = true ∧ (at16.curHandle 2).2.space = 0 ∧ permitted (at16.curHandle 2).2 .load = true ∧
      boundFault (at16.curHandle 2).2 at16.curBlock 16 4 = none) ∧
    ((failedTrans (transOf (upClusters (fun c => { c with tlb := [] }) at16) .load [(0, 16), (1, 20)]).2).map (·.1) = [0, 1]) ∧
    ((failedTrans (transOf overCode .store [(2, 16)]).2).map (·.1) = [2]) ∧
    (let r := transOf marked .load [(0, 16)]
     failedTrans r.2 = [] ∧ revokedAt r.1.cur r.1.curLaunch.bundles (goodTrans r.2) = some 3) ∧
    (let r := transOf at16 .load [(0, 16)]
     failedTrans r.2 = [] ∧ revokedAt r.1.cur r.1.curLaunch.bundles (goodTrans r.2) = none) := by decide +kernel

/-- An atomic passes its checks, and some of its words are poisoned. -/
def atomFails (s : State) (i : Instr) : Bool :=
  match Rule.atomic i with
  | none => false
  | some (d, op, x, ds) =>
    s.regsReady ds (x.regs ++ [x.a]) && decide (s.active ≠ 0) && !s.acquireOut && s.cur.wait.isNone &&
      passes (Rule.checked s x .atomic) fun s1 y =>
        s1.releaseMet s1.cur y.1.scope s.orderBound && isOk (s1.accessReady x.size y.2 0) &&
          (s1.atomLanes s1.cg op (y.2.map fun a => (a, s.x a.lane d, s.x a.lane (d + 1)))).2.any fun z => z.2.isNone

/-- A load passes its checks and reads poison. -/
def loadFails (s : State) (i : Instr) : Bool :=
  match Rule.load i with
  | none => false
  | some (x, _) =>
    s.regsReady x.regs [x.a] && decide (s.active ≠ 0) && !s.acquireOut &&
      passes (Rule.checked s x (if x.strong then .load else .weakLoad)) fun s1 y =>
        isOk (s1.accessReady x.size y.2 (if x.strong then 0 else s.cur.nld)) && (s1.loadLanes y.1 x.strong x.size y.2).2.any fun z => z.2.isNone

theorem witness_LoadsComplete_poison : (loads 2).all (loadFails { at16 with poison := [{ base := 0x200000, size := 128, left := 2 ^ 128 - 1 }] }) = true := by decide +kernel

theorem witness_Atomics_poison : (atoms 2).all (atomFails (poisoned at16)) = true := by decide +kernel

/-- The quantum buffer holds 256 other lines. -/
def fullBuffer : State :=
  upGroups (fun g => { g with qbuf := (seqFrom 0 256).map fun i => { place := .glob (0x600000 + 128 * i) (0x700000 + 128 * i), bytes := [1] } }) (ordered at16)

theorem witness_Atomics_full :
    (atoms 2).all (fun i => match Rule.atomic i with
      | none => false
      | some (_, _, x, ds) => fullBuffer.regsReady ds (x.regs ++ [x.a]) &&
        passes (Rule.checked fullBuffer x .atomic) fun _ y =>
          decide (256 < (bufferLines (fullBuffer.cur.qbuf ++ y.2.map fun a => { place := a.place, bytes := [] })).length)) = true := by decide +kernel

/-- A request of the group's load and of its store is still held back. -/
def heldBack : State :=
  upGroups (fun g => { g with ploads := g.ploads.map fun p => { p with unsent := [far 0x8000 1100] }, pstores := g.pstores.map fun p => { p with unsent := [far 0x8000 1100] } }) flying

theorem witness_ReturnsAndAcknowledgements_held :
    ((heldBack.group 32).ploads.all fun q => decide (q.id = 2) && !q.unsent.isEmpty) = true ∧ (heldBack.group 32).ploads ≠ [] ∧
    ((heldBack.group 32).pstores.all fun q => decide (q.id = 1) && !q.buffered && !q.unsent.isEmpty) = true ∧ (heldBack.group 32).pstores ≠ [] ∧
    ((flying.group 32).ploads.all fun q => q.unsent.isEmpty) = true ∧
    holding.writesTested 0 [{ place := .glob 0x200000 0x100000, bytes := leBytes 4 7 }] = false := by decide +kernel

/-- A strong store of a scratchpad is held in ordered mode, and one of the host is outstanding (R166). -/
theorem witness_FencesAndYields_spaces :
    (∃ h ∈ (ordered holding).cur.hsts, h.id < (ordered holding).orderBound) ∧ (∃ p ∈ later.cur.hpages, p.store < later.orderBound) ∧
    ¬ (∃ p ∈ later.cur.hpages, p.store < 1) := by decide +kernel

/-- A command has written the watched word and another line, under a completion time that is not yet past (R168). -/
def joinable (s : State) : State :=
  { s with joins := [{ cmd := 3, ct := 4000, writes := [{ place := .glob 0x200010 0x100010, bytes := leBytes 4 9 }, { place := .glob 0x200200 0x100200, bytes := [1] }] }] }

theorem witness_Waits_joined :
    (((joinable (nine watcher)).joined (.glob 0x200010 0x100010)).map (·.ct) = [4000]) ∧ waitRuns true (joinable (nine watcher)) = true ∧
    (((joinable (waiter (some (9, 1)) none)).joined (.glob 0x200010 0x100010)).map (·.cmd) = [3]) := by decide +kernel

/-- The group holds a strong store to a line of the bundle that is filled. -/
def heldFill : State :=
  upGroups (fun g => { g with hsts := [{ id := 3, lanes := 0xF, after := [], scope := 1, writes := [{ place := .glob 0x200000 0x100000, bytes := leBytes 4 7 }] }] }) filling

theorem witness_BundleEvents_held :
    (match (heldFill.core 0).fills with
      | [f] => heldFill.heldAtPlaces 0 (f.lines.map fun x => .glob (x.2 * 128) 0) 4 && decide (f.lines.map (·.2) = [0x4000, 0x4001])
      | _ => false) = true ∧
    (match (filling.core 0).fills with
      | [f] => !filling.heldAtPlaces 0 (f.lines.map fun x => .glob (x.2 * 128) 0) 4
      | _ => false) = true ∧
    ((filling.core 0).bundles.all fun x => decide (x.st ≠ .entered)) = true ∧ (small.core 0).bqueue = [] := by decide +kernel

/-- Launches 2 and 3 of queue 5 have no started block; the completion words lie apart, or are one word. -/
def twoQueued (c2 c3 : Nat) : State :=
  let s := handler [(1, 2 ^ 16 + 5)]
  let l : Launch := { Launch.empty with ctx := 1, queue := 5, st := .queued, live := 1 }
  { s with launches := s.launches ++ [(2, { l with comp := c2 }), (3, { l with comp := c3 })] }
def queueOut (s : State) : List (Nat × Launch) := s.launches.filter fun e => decide (e.2.ctx = 1 ∧ e.2.queue = 5 ∧ e.2.next = 0)

theorem witness_QueueControl_completions :
    ((queueOut (twoQueued 0x200040 0x200080)).map (·.1) = [2, 3] ∧ Rule.onePlace (twoQueued 0x200040 0x200080) (queueOut (twoQueued 0x200040 0x200080)) ∧
      Rule.completions (twoQueued 0x200040 0x200080) (queueOut (twoQueued 0x200040 0x200080)) [] =
        [{ place := .glob 0x200040 0, bytes := [0, 0, 1, 0] }, { place := .glob 0x200080 0, bytes := [0, 0, 1, 0] }]) ∧
    Rule.completions (twoQueued 0x200040 0x200040) (queueOut (twoQueued 0x200040 0x200040)) [] =
      [{ place := .glob 0x200040 0, bytes := [0, 0, 1, 0] }, { place := .glob 0x200040 0, bytes := [0, 0, 2, 0] }] ∧
    ((twoQueued 0x200040 0x200080).groups.all fun e => e.2.wait.isNone && e.2.pends.isEmpty) = true ∧
    (let s := handler [(1, 2 ^ 16)]
     (s.context 1).stopped = false ∧ s.ctxBusy 1 = true ∧ ∀ e ∈ s.groups, e.2.pends = []) := by
  unfold Rule.onePlace
  decide +kernel

theorem witness_Launches_words :
    (finishing.compAt (finishing.launch 1) = some 0x200040) ∧
    (let s := { finishing with launches := [(1, { (finishing.launch 1) with compLost := true, compVa := 0x900000 })] }
     s.compAt (s.launch 1) = none) ∧
    Rule.noneAway small 1 := by
  unfold Rule.noneAway
  decide +kernel

/-- The head of the matrix queue is the `mend` of the chain, or its `mchain`, or an `mma` inside it. -/
def mending : State := upCores (fun c => { c with matq := c.matq.drop 2 }) (after (.mend 4 3 0) (after (.tileCommandStart 0) (after (.mma 3 1 2 0) chained)))

theorem witness_CommandEvents_chains :
    ((headOf chained 3).any fun c => !c.started && !c.waitCommit && !chained.cmdBlocked c && (match c.op with
      | .mchain _ => true
      | _ => false) && ((chained.group 32).chainOf c.id).any fun ch => ch.resident || decide ((chained.residentChains 0).length < 4)) = true ∧
    (let s := upCores (fun c => { c with matq := c.matq.drop 1 }) (after (.mma 3 1 2 0) chained)
     (headOf s 3).any fun c => !c.started && !c.waitCommit && !s.cmdBlocked c && (match c.op with
      | .mma _ _ (some _) _ _ _ => true
      | _ => false)) = true ∧
    ((headOf mending 3).any fun c => !c.started && !c.waitCommit && !mending.cmdBlocked c && !mending.rangesTested (c.rd ++ c.wr) [] && (match c.op with
      | .mend false num => ((mending.group 32).chainOf num).any fun ch => ch.resident || decide ((mending.residentChains 0).length < 4)
      | _ => false)) = true := by decide +kernel

theorem witness_RoutingEvents_heard :
    retrying.now < mapGet 0 ({ retrying with heard := [(3, 900)] } : State).heard 3 + 120000 ∧
    mapGet 0 ({ retrying with now := 200000 } : State).heard 3 + 120000 ≤ ({ retrying with now := 200000 } : State).now ∧
    (let s := { receiving with xcount := [(0x40, 1)] }
     s.execPage (0x400000 + 3 * 64) = true ∧ receiving.execPage (0x400000 + 3 * 64) = false) ∧
    ({ rowOf 0 3 with bad := [1] } : VrelRow).bad = [1] := by decide +kernel

theorem witness_PowerAndStorage_tests :
    (State.reset.coreTests.getLsbD 5 = true ∧ State.reset.marchOf (.coreUnit 5) ∉ State.reset.march ∧ 5 ∉ State.reset.coresOut) ∧
    (State.reset.sliceTests.getLsbD 7 = true ∧ State.reset.marchOf (.sliceUnit 7) ∉ State.reset.march ∧ 7 ∉ State.reset.sliceOut) ∧
    (small.coreTests.getLsbD 3 = true ∧ ({ small with coreTests := 0 } : State).coreTests.getLsbD 3 = false) := by decide +kernel

theorem witness_BootAndLinks_again :
    ((control small).blocks.any fun e => e.2.control) = true ∧ (small.blocks.all fun e => !e.2.control) = true ∧
    (Rule.bitUp (readyBits 0x6200000) 21 ∧ (∀ p, p < 4 → p ≠ 0 → ¬ Rule.bitUp (readyBits 0x6200000) (21 + p))) ∧
    (Rule.bitUp (readyBits 0x600000) 21 ∧ Rule.bitUp (readyBits 0x600000) (21 + 1)) := by
  unfold Rule.bitUp
  decide +kernel

theorem witness_HostInterface_mailbox :
    (Rule.codePage ({ mailing 0 with xcount := [(4, 1)] } : State) (0x40000 + 4 * 2) ∧ ¬ Rule.codePage (mailing 0) (0x40000 + 4 * 2)) ∧
    ({ mailing 0 with poison := [{ base := 0x40000, size := 32, left := 0xFFFFFFFF }] } : State).poisoned (.glob (0x40000 + 4) 0) 4 = true ∧
    ((seqFrom 0 4).filter fun p => (checkpointing [(0, 0), (1, 1)] 2).dready.getLsbD (21 + p)) = [0, 1] ∧
    ((seqFrom 0 4).filter fun p => (readyBits 0x4000001).dready.getLsbD (21 + p)) = [] := by
  unfold Rule.codePage
  decide +kernel

theorem witness_Steps_registers :
    (let s := windowed [] [] small
     (∀ m, mapFind (s.group 32).win.lines (1 % 8) = some m → m = 1) ∧ 1 ∉ (s.group 32).cold) ∧
    mapFind (small.group 32).win.lines (7 % 8) = none ∧
    (({ small with agenda := [.picks, .tick] } : State).agenda.head? = some .picks) := by decide +kernel

/-! #### Values, rows under test and passed accesses -/

theorem witness_FloatRounding :
    ((e4m3F, 0x7E, 0x7E, 0x7F) ∈ Rule.formats ∧ (0xFE : Nat) < 2 ^ (1 + e4m3F.e + e4m3F.f) ∧ (4 : Nat) < 5 ∧ (0x80 : Nat) ≠ 0) ∧
    Rule.Near (.num false 3 (-1) false) false (3 / 2) ∧ Rule.Near (.num true (2 ^ 64) 0 true) true (2 ^ 64 + 1 / 2) ∧
    Rule.Is (fval e4m3F 0x7E) false 448 ∧ Rule.Is (.num true 5 (-1) false) true (-1 * (5 / 2)) :=
  ⟨by decide, ⟨3, -1, .inl ⟨rfl, by norm_num⟩⟩, ⟨2 ^ 64, 0, .inr ⟨rfl, by norm_num, by norm_num, by norm_num⟩⟩,
    ⟨14, 5, by decide +kernel, by norm_num⟩, ⟨5, -1, rfl, by norm_num⟩⟩

theorem reads32_of {w : Word} (neg : Bool) (man : Nat) (exp : Int) {x : ℝ} (h : f32v w = .num neg man exp false ∧ w.getLsbD 31 = neg)
    (hx : (if neg = true then -1 else 1) * (man : ℝ) * 2 ^ exp = x) : Rule.Reads32 w x :=
  ⟨man, exp, by rw [h.2]; exact h.1, by rw [h.2]; exact hx⟩

theorem witness_FloatResults :
    (Rule.Is (.num true 0 7 false) true 0 ∧ Rule.Is (.num false 3 (-1) false) false (3 / 2)) ∧
    (FVal.nan ∈ [FVal.nan, .inf true] ∧ FVal.inf true ∈ [FVal.inf true, .inf false] ∧ FVal.nan ∉ [FVal.inf true] ∧
      FVal.inf (!true) ∉ [FVal.inf true]) ∧
    List.Forall₂ (fun v (x : Bool × ℝ) => Rule.Is v x.1 x.2) [.num false 3 (-1) false, .num true 0 7 false] [(false, 3 / 2), (true, 0)] ∧
    (Rule.isNan32 0x7FC00000 = true ∧ (0x80000000, [0xFF800000, 0xFF800000, 0x80000000, 0x3F800000, 0xFF800000, 0x80000000]) ∈ Rule.functionTable) ∧
    (Rule.Reads32 0xC3150000 (-149) ∧ Rule.Reads32 0x42FE0000 127 ∧ Rule.Reads32 0x43000000 128 ∧ Rule.Reads32 0xC3160000 (-150)) ∧
    (Rule.Reads32 0x3F800000 (2 ^ (0 : Int)) ∧ Rule.Reads32 0x00000001 (2 ^ (-149 : Int)) ∧ Rule.Reads32 0x3FC00000 ((1 : Int) + 1 / 2)) ∧
    (Rule.isNan32 0x4B000000 = false ∧ (0x3FC00000 : Nat) < 0x4B000000 ∧ Rule.Reads32 0xBFC00000 (-1 * (3 / 2))) :=
  ⟨⟨⟨0, 7, rfl, by norm_num⟩, ⟨3, -1, rfl, by norm_num⟩⟩, by decide,
    .cons ⟨3, -1, rfl, by norm_num⟩ (.cons ⟨0, 7, rfl, by norm_num⟩ .nil), by decide +kernel,
    ⟨reads32_of true (149 * 2 ^ 16) (-16) (by decide +kernel) (by norm_num), reads32_of false (127 * 2 ^ 17) (-17) (by decide +kernel) (by norm_num),
      reads32_of false (2 ^ 23) (-16) (by decide +kernel) (by norm_num), reads32_of true (150 * 2 ^ 16) (-16) (by decide +kernel) (by norm_num)⟩,
    ⟨reads32_of false (2 ^ 23) (-23) (by decide +kernel) (by norm_num), reads32_of false 1 (-149) (by decide +kernel) (by norm_num),
      reads32_of false (3 * 2 ^ 22) (-23) (by decide +kernel) (by norm_num)⟩,
    by decide +kernel, by decide, reads32_of true (3 * 2 ^ 22) (-23) (by decide +kernel) (by norm_num)⟩

/-- The row at this physical address is under test (R159). -/
def testedAt (pa : Nat) (s : State) : State := { s with march := [{ unit := .hbm pa, since := 900, no := 0 }] }
/-- An atomic of the group's split to a peer's scratchpad has passed its checks and waits (R323). -/
def passedPeer (lanes : List (Nat × Nat × Place)) (s : State) : State :=
  upGroups (fun g => g.putSplit 0 { g.split 0 with st := .stalled (.passed 5 (some { scope := 1, lanes := lanes })) }) s
/-- The core's cached handle 8 covers the pages of the page table. -/
def over30 (s : State) : State :=
  paged (upCores (fun c => { c with hcache := { sup := false, ctx := 1, idx := 8, val := handle 0 0x100000 0x300000 } :: c.hcache }) s)

theorem witness_AccessProcedure_tested :
    (testedAt 128 at16).curHandleTested 8 = true ∧ (testedAt 0x43080 (paged at16)).walkTested 0 1 0x300000 = true ∧
    (let s := testedAt 0x43080 (over30 at16)
     let e := (s.curHandle 8).2
     s.curHandleTested 8 = false ∧ e.usable = true ∧ e.space = 0 ∧ permitted e .load = true ∧ boundFault e s.curBlock 16 4 = none ∧
       (failedTrans (transLanes (s.curHandle 8).1 e .load [(0, 16)]).2).map (fun x => x.2.2 == TransFault.busy) = [true]) := by decide +kernel

theorem witness_HandleOffsets_tested :
    (testedAt 128 at16).active ≠ 0 ∧ (testedAt 128 (user [(1, 8)])).curHandleTested ((testedAt 128 (user [(1, 8)])).u 1).toNat = true ∧
      at16.curHandleTested 1 = false := by decide +kernel

theorem witness_MemoryValues_misses :
    l1Hit (at16.core 0) at16.now 1 0x2000 = none ∧ (((at16.core 0).bundles.flatMap (·.pls)).eraseDups).length < 2048 := by decide +kernel

/-- The lanes of an atomic of handle 4 that passed at byte 16 of member 0. -/
def peerLanes : List (Nat × Nat × Place) := (seqFrom 0 4).map fun l => (l, 16, .scr 0 16)

theorem witness_Atomics_passed :
    ((atoms 4).all fun i => match Rule.atomic i with
      | none => false
      | some (d, op, x, ds) =>
        let s := passedPeer peerLanes at16
        let as := peerLanes.map fun y => ({ lane := y.1, off := y.2.1, place := y.2.2 } : LaneAddr)
        s.regsReady ds (x.regs ++ [x.a]) && !s.acquireOut && s.cur.wait.isNone && (Rule.opened s x).heldAcc.isSome &&
          (Rule.opened s x).releaseMet s.cur 1 s.orderBound && isOk ((Rule.opened s x).accessReady x.size as 0) &&
          ((Rule.opened s x).atomLanes s.cg op (as.map fun a => (a, s.x a.lane d, s.x a.lane (d + 1)))).2.all fun z => z.2.isSome) = true := by
  decide +kernel

theorem witness_Arrivals_passed :
    (let s := passedPeer [(0, 16, .scr 0 16)] (user [(1, 4), (2, 16), (6, 1)])
     s.regsReady [4] [1, 2, 6] = true ∧ s.acquireOut = false ∧ (s.openRegion.heldAcc.map (·.lanes)) = some [(0, 16, .scr 0 16)] ∧
       s.openRegion.releaseMet s.openRegion.cur 1 s.orderBound = true ∧ s.poisoned (.scr 0 16) 8 = false ∧ s.cur.wait = none) := by decide +kernel

theorem witness_BundleEntry_busy :
    (let r := entryOf (testedAt 0x43080 (paged (declaredAt 0x6000 enterer)))
     reqBusy r.2 = true) ∧ reqBusy (entryOf enterer).2 = false := by decide +kernel

theorem witness_BundleEvents_busy :
    (let s := testedAt 0x200000 filling
     s.underTest 0 ((filling.core 0).fills.flatMap fun f => f.lines.map fun x => .glob (x.2 * 128) (x.1 * 128)) = true) ∧
    (((upCores (fun c => { c with fills := c.fills.map fun f => { f with unsent := [0x4000] } }) filling).core 0).fills.all fun f =>
      !f.unsent.isEmpty && decide (f.id = 5)) = true ∧
    (let s := testedAt 0x43080 (paged (declaredAt 0x6000 queued))
     reqBusy (({ s.putCore 0 { s.core 0 with bqueue := [] } with cg := 32, cs := 0 } : State).request 32 8).2 = true ∧
       s.undeclared 1 8 = false ∧ s.fillingOf 32 = false) := by decide +kernel

theorem witness_TranslationOperations_busy :
    (testedAt 0x43080 (paged (handler [(1, 0x30), (2, 1)]))).rangeBusy 1 0x30 1 = true ∧ (paged (handler [])).rangeBusy 1 0x30 1 = false := by
  decide +kernel

/-- The cluster's TLB and the chiplet's hold nothing. -/
def untranslated (s : State) : State := upClusters (fun c => { c with tlb := [] }) s

theorem witness_TranslationEvents_busy :
    ((testedAt 0x43080 (pending (.map 0x300000 4) false)).mapBusy 1 0x300000 = true ∧ (pending (.map 0x300000 4) false).mapBusy 1 0x300000 = false) ∧
    (testedAt 0x40000 (pending (.splinter 0x200000 3) true)).mapBusy 1 0x200000 = true ∧
    (let s := untranslated (pending (.inval 4 0x10 1 [] (some (doneDrain false))) true)
     s.rangeBusy 1 0x10 1 = false ∧ s.rangeStale 1 0x10 1 = false ∧ Drain.over (s.drainLeft (doneDrain false)) = true) ∧
    (testedAt 0x30000 (pending (.inval 2 0x32 1 [3] (some (doneDrain false))) true)).rangesTested [] [3] = true := by decide +kernel

/-- The launch unit is up (R333). -/
def launchUp (s : State) : State := { s with dready := 0x10 }

theorem witness_Launches_waits :
    (small.dready.getLsbD 4 = false ∧ (launchUp (launcher 1)).dready.getLsbD 4 = true) ∧
    passes ((launchUp (launcher 1)).descRead 2 0 64 64) (fun s1 y => !s1.launchWaits (recWords y.2.2)) = true ∧
    passes ((testedAt 0x30000 (launchUp (launcher 1))).descRead 2 0 64 64) (fun s1 y => s1.launchWaits (recWords y.2.2)) = true := by decide +kernel

theorem witness_QueueControl_others :
    (mapFind (twoQueued 0x200040 0x200080).launches 1 ≠ none ∧ ∀ e ∈ queueOut (twoQueued 0x200040 0x200080), 1 ≠ e.1) ∧
    (let s := { twoQueued 0x200040 0x200080 with launches := [(2, { Launch.empty with ctx := 1, queue := 5, comp := 0x200040 })]
                                                 poison := [{ base := 0x200040, size := 32, left := 0xFFFFFFFF }] }
     Rule.completions s (queueOut s) [] = [{ place := .glob 0x200040 0, bytes := [1, 0, 0, 0] }]) := by decide +kernel

/-- What a command's checks find behind its descriptor. -/
def sidesOf (s : State) : State × Except Stop (List SideAt) :=
  match s.openRegion.cmdDesc 0x0D 2 (s.u 1).toNat (s.u 2).toNat 64 64 with
  | (s1, .ok y) => s1.sideChecks (.stall .queue) (dataSides 0 (recWord (recWords y.2)))
  | (s1, .error e) => (s1, .error e)
/-- Copies from byte 0 of a handle, or byte 0x200 of another, to byte 0x200 of a third. -/
def copyFrom (a b aoff : Nat) : State := described [a * 2 ^ 12 + b, aoff, 0x200, 8, 8, 2 * 2 ^ 16 + 2]
def wordsOf (l : List Nat) : Nat → Nat := recWord l

theorem witness_EngineCommands_faults :
    (let s := user [(1, 1), (2, 0x104)]
     isTrap (s.openRegion.cmdDesc 0x0D 2 (s.u 1).toNat (s.u 2).toNat 64 64).2 = true) ∧
    Rule.malformed 0 (wordsOf []) ∧ Rule.misplaced 0 (wordsOf [2 ^ 12 + 1, 2, 0, 8, 8, 2 * 2 ^ 16 + 2]) ∧
    (¬ Rule.malformed 0 (wordsOf [2 * 2 ^ 12 + 1, 0, 0x200, 8, 8, 2 * 2 ^ 16 + 2]) ∧
      ¬ Rule.misplaced 0 (wordsOf [2 * 2 ^ 12 + 1, 0, 0x200, 8, 8, 2 * 2 ^ 16 + 2])) ∧
    isTrap (sidesOf (copyFrom 6 1 0)).2 = true ∧
    passes (sidesOf (copyFrom 2 2 0)) (fun _ xs => xs.all fun x => decide (x.space = 0)) = true ∧
    passes (sidesOf (copyFrom 1 1 0x200)) (fun _ xs => anyConflict ((xs.take 1).flatMap (·.hull)) ((xs.drop 1).flatMap (·.hull))) = true ∧
    passes (sidesOf (upGroups (fun g => { g with regs := regs [(1, 1), (2, 0x100), (5, 6)] }) copies)) (fun s1 _ => isTrap (s1.arrCheck true 5).2) = true ∧
    passes (sidesOf (copyFrom 7 1 0)) (fun s1 xs => match xs.map (·.base) with
      | [x, _] => isTrap (s1.transSide x 16 true false).2
      | _ => false) = true ∧
    passes (sidesOf (copyFrom 1 7 0x400)) (fun s1 xs => match xs.map (·.base) with
      | [x, y] => passes (s1.transSide x 16 true false) fun s2 _ => isTrap (s2.transSide y 16 false true).2
      | _ => false) = true := by
  unfold Rule.malformed Rule.misplaced
  decide +kernel

/-- One side of a command's descriptor. -/
def sideOf (hnum off : Nat) (w : Bool) (spaces : List Nat) : Side :=
  { hnum := hnum, off := off, n := 2, stride := 8, rwords := 2, r := true, w := w, a := false, spaces := spaces }
def sideEntry (s : State) (x : Side) : Entry := (s.curHandle x.hnum).2

theorem witness_EngineCommands_sides :
    (testedAt 128 small).curHandleTested 8 = true ∧ (sideEntry small (sideOf 6 0 false [0])).usable = false ∧
    ((sideEntry small (sideOf 1 0 false [0])).usable = true ∧ (sideEntry small (sideOf 1 0 false [0])).space ∉ ([0] : List Nat)) ∧
    boundFault (sideEntry small (sideOf 1 4088 false [1])) small.curBlock 4088 (sideOf 1 4088 false [1]).len = some 2 ∧
    (boundFault (sideEntry small (sideOf 5 0 true [1])) small.curBlock 0 16 = none ∧ (sideEntry small (sideOf 5 0 true [1])).pw = false) ∧
    (let s := { small with blocks := small.blocks.map fun (e : Nat × Block) => (e.1, { e.2 with exited := true }) }
     let e := sideEntry s (sideOf 4 0 true [2])
     e.space = 2 ∧ boundFault e s.curBlock 0 16 = none ∧ e.pr = true ∧ e.pw = true ∧ s.peerGone 0 = true ∧ small.peerGone 0 = false) := by
  decide +kernel

theorem witness_EngineCommands_descriptor :
    passes (accessCheck copies.openRegion 1 .desc 64 [(0, 0x100)]) (fun s1 y => decide (y.1.space < 2) &&
      (y.2.all fun a => (s1.ownReadWaits a.place 64).isNone && !s1.poisoned a.place 64)) = true ∧
    passes (accessCheck copies.openRegion 3 .desc 64 [(0, 0)]) (fun _ y => decide (2 ≤ y.1.space)) = true ∧
    (let s : State := { copies with march := [{ unit := .scratch 0 0x40, since := 900, no := 0 }] }
     passes (accessCheck s.openRegion 1 .desc 64 [(0, 0x100)]) (fun s1 y => y.2.all fun a => (s1.ownReadWaits a.place 64).isSome) = true) ∧
    passes (accessCheck (poisoned copies).openRegion 2 .desc 64 [(0, 0)]) (fun s1 y => y.2.all fun a =>
      (s1.ownReadWaits a.place 64).isNone && s1.poisoned a.place 64) = true := by decide +kernel

/-- The data command at the head of a queue. -/
def dataOf (s : State) (k : Nat) (p : Cmd → DataCmd → Bool) : Bool :=
  match headOf s k with
  | some c => match c.op with
    | .data d => p c d
    | _ => false
  | none => false
def gathering (bound a : Nat) : State :=
  after (.ggather 4 1 5 0) (described [2 ^ 28 + a * 2 ^ 12 + 1, if a = 1 then 0x340 else 0, 0x200, 4, 4, 2 ^ 16 + 2, 2 ^ 20, 0x300, 0, 0, 0, 0, bound])
def scattering (bound : Nat) (ix : List Nat) : State :=
  let s := described [2 * 2 ^ 28 + 2 ^ 26 + 2 ^ 12 + 1, 0x340, 0x200, 4, 4, 2 ^ 16 + 2, 2 ^ 20, 0x300, 0, 0, 0, 0, bound]
  after (.gscadd 4 1 5 0) (s.pokeBytes (.scr 0 0x300) (ix.flatMap fun w => leBytes 4 w))
def badScratch (a : Nat) (s : State) : State := upCores (fun c => { c with spoison := [(a / 4, 0xF)] }) s

theorem witness_CommandValues_rows :
    dataOf copying 0 (fun c d => decide (d.kind = 0) && (Rule.known c d.a 0).isSome && (Rule.known c d.b 12).isSome) = true ∧
    dataOf (gathering 2 1) 1 (fun c d => match Rule.known c (d.idx.getD d.a) 0 with
      | some p => !(gathering 2 1).poisoned p 4 && decide ((gathering 2 1).numAt p 4 < d.bound) &&
        ((gathering 2 1).sideRow c false d.a ((gathering 2 1).numAt p 4 * d.astride) d.rwords).2.isSome
      | none => false) = true ∧
    dataOf (gathering 1 1) 1 (fun c d => (Rule.known c (d.idx.getD d.a) 0).any fun p => decide (d.bound ≤ (gathering 1 1).numAt p 4)) = true ∧
    dataOf (gathering 2 7) 1 (fun c d => (Rule.known c (d.idx.getD d.a) 4).any fun p =>
      ((gathering 2 7).sideRow c false d.a ((gathering 2 7).numAt p 4 * d.astride) d.rwords).2.isNone) = true ∧
    (let s := badScratch 0x300 (gathering 2 1)
     dataOf s 1 (fun c d => (Rule.known c (d.idx.getD d.a) 0).any fun p => s.poisoned p 4) = true) ∧
    dataOf (gathering 2 7) 1 (fun c d => match d.a with
      | .glob ctx va => c.xl.all (fun p => decide (p.1 ≠ va / 65536)) && (match ((gathering 2 7).transCheck c.core ctx va true false).2 with
        | .error _ => true
        | .ok _ => false)
      | _ => false) = true := by decide +kernel

theorem witness_CommandValues_sums :
    dataOf (scattering 2 [1, 0]) 2 (fun c d => decide (2 ≤ d.kind) && (Rule.known c (d.idx.getD d.a) 0).any fun p =>
      let s := scattering 2 [1, 0]
      !s.poisoned p 4 && decide (s.numAt p 4 < d.bound) && (Rule.known c d.a 0).isSome &&
        (match s.sideRow c true d.b (s.numAt p 4 * d.bstride) d.rwords with
          | (_, some ps) => decide ((ps.map placeKey).Nodup) && decide (ps.length = d.rwords)
          | _ => false)) = true ∧
    dataOf (scattering 2 [0xFFFFFFFF, 2]) 2 (fun c d =>
      (Rule.known c (d.idx.getD d.a) 0).any (fun p => decide ((scattering 2 [0xFFFFFFFF, 2]).numAt p 4 = 0xFFFFFFFF)) &&
        (Rule.known c (d.idx.getD d.a) 4).any (fun p => decide (d.bound ≤ (scattering 2 [0xFFFFFFFF, 2]).numAt p 4))) = true ∧
    (let s := badScratch 0x300 (scattering 2 [1, 0])
     dataOf s 2 (fun c d => (Rule.known c (d.idx.getD d.a) 0).any fun p => s.poisoned p 4) = true) ∧
    (∀ n, ({ CmdRun.start with first := some 65535 } : CmdRun).first = some n → n < 2 ^ 16) := by
  refine ⟨by decide +kernel, by decide +kernel, by decide +kernel, ?_⟩
  intro n h
  cases h
  decide

theorem witness_CommandValues_tiles :
    ([(.mma 3 1 2 0 : Instr), .msacc 3 4 5 1, .tcvt 3 4 7, .tfill 3 1 0].all fun i => match headOf (after i tiled) 3 with
      | some c => (match c.op with
        | .mma _ _ none _ _ _ => true
        | .msacc _ _ _ _ => true
        | .tcvt m _ _ => decide (m < 8)
        | .tfill _ _ _ _ => true
        | _ => false)
      | none => false) = true ∧
    ((tiled.cur.tile 3).extractLsb' 44 4).toNat ≤ 7 ∧
    ((headOf mending 3).any fun c => match c.op with
      | .mend false num => (((mending.flushChains c.g).group c.g).chainOf num).any fun ch => decide ((ch.sums.map (·.1)).Nodup)
      | _ => false) = true := by decide +kernel

/-- The route at the head of cluster 0's queue. -/
def routeOf (s : State) (p : Cmd → RouteCmd → Bool) : Bool :=
  match sluiceHead s with
  | some c => match c.op with
    | .route r => p c r
    | .retry _ r => p c r
    | _ => false
  | none => false

theorem witness_RoutingValues :
    routeOf routing (fun c r => (Rule.known c r.choices 0).isSome && decide (0 < r.k ∧ r.k ≤ 8 ∧ r.ntok < 2 ^ 16 ∧ 0 < r.rwords) && !r.wt) = true ∧
    (match sluiceHead selecting with
      | some c => (match c.op with
        | .sel d => decide (d.c ≤ d.ntok)
        | _ => false)
      | none => false) = true ∧
    ([routing, retrying].all fun s => routeOf s fun c _ => decide (c.flags = 0) && decide (c.lost = [])) = true ∧
    (let s := after (.sluiceCommandStart 0) retrying
     routeOf s fun c _ => decide (c.lost.length < 2 ^ 24) &&
       c.lost.all fun x => decide (x.t < 2 ^ 16 ∧ x.slot < 16 ∧ x.e < 2 ^ 12 ∧ x.row < 2 ^ 20)) = true := by decide +kernel

def routeBase : List Nat :=
  [10 * 2 ^ 28 + 2 ^ 24 + 1, 0x300, 2 * 2 ^ 16 + 2, 0, 0, 2 ^ 20 + 1, 0x340, 4, 2 ^ 20, 0x380, 0, 0, 0, 2 ^ 20, 0x500] ++ List.replicate 17 0
/-- The route with other words in its descriptor. -/
def routed (es : List (Nat × Nat)) : State := described (es.foldl (fun l e => l.set e.1 e.2) routeBase)
/-- The fault of `checkRoute`: its code and its detail; 0 where it passes. -/
def routeVerdict (s : State) : Option (Nat × Nat) :=
  match s.openRegion.cmdDesc 0x0E 2 (s.u 1).toNat (s.u 2).toNat 128 128 with
  | (s1, .ok y) =>
    let f := recWord (Machine.routeWords y.2)
    match (s1.checkRoute (routeFault s1 y.1) (routeHead f) f false).2 with
    | .ok _ => some (0, 0)
    | .error (.trap g) => some (g.code, g.detail)
    | .error (.stall _) => some (1, 0)
    | .error _ => none
  | _ => none
/-- The route's table has other bytes from an offset on. -/
def tabled (off : Nat) (ws : List Nat) (s : State) : State := s.pokeBytes (.scr 0 (0x380 + off)) (ws.flatMap fun w => leBytes 4 w)
def opened5 (n : Nat) (s : State) : State :=
  { s with openRoutes := (seqFrom n 256).map fun i => { ctx := 1, rid := i, inst := 4, ntok := 2, k := 1, nexp := 2, devs := [3], busy := none, rows := [] } }

theorem witness_RoutingCommands_checks :
    [routes, routed [(1, 0x4000)], routed [(8, 7 * 2 ^ 20), (9, 0)], routed [(14, 0x4000)], routed [(14, 0x300)]].map routeVerdict =
      [some (0, 0), some (4, 2), some (6, 5), some (4, 2), some (14, 5)] ∧
    routeVerdict (tabled 0 [2] routes) = some (14, 3) ∧ routeVerdict (tabled 12 [0x300] routes) = some (4, 1) ∧
    [farTable routes, { farTable routes with vrelnum := 3 }, opened5 5 (farTable routes), opened5 6 (farTable routes)].map routeVerdict =
      [some (0, 0), some (14, 4), some (14, 6), some (14, 7)] ∧
    routeVerdict { routed [(9, 0x600)] with march := [{ unit := .scratch 0 0x180, since := 900, no := 0 }] } = some (1, 0) := by decide +kernel

/-- What a command's object test and pages find behind its other checks. -/
def routeArr (s : State) (p : State → RouteChecked → RouteHead → (Nat → Nat) → Bool) : Bool :=
  passes (s.openRegion.cmdDesc 0x0E 2 (s.u 1).toNat (s.u 2).toNat 128 128) fun s1 y =>
    let f := recWord (Machine.routeWords y.2)
    passes (s1.checkRoute (routeFault s1 y.1) (routeHead f) f false) fun s2 rc => p s2 rc (routeHead f) f
def withObject (h : Nat) (s : State) : State := upGroups (fun g => { g with regs := regs [(1, 1), (2, 0x100), (5, h), (6, 0xF00)] }) s

theorem witness_RoutingCommands_faults :
    (isTrap ((user [(1, 1), (2, 0x104)]).openRegion.cmdDesc 0x0E 2 1 0x104 128 128).2 = true) ∧
    ((user []).openRoute 1 5 = none ∧ (retries.openRoute 1 5).any (fun r => r.busy.isNone) = true) ∧
    (let h := routeHead (wordsOf routeBase)
     (wordsOf routeBase 0 / 2 ^ 28 = 0xA ∧ wordsOf [] 0 / 2 ^ 28 ≠ 0xA) ∧ routeReason h (wordsOf routeBase) false = 0 ∧
       wordsOf routeBase 21 % 4 = 0 ∧ ∃ x ∈ routeReads h (wordsOf (routeBase.set 6 0x341)) false, x.off % 4 ≠ 0) ∧
    routeArr (withObject 6 routes) (fun s _ _ _ => isTrap (s.arrCheck true 5).2) = true ∧
    routeArr (routed [(5, 7 * 2 ^ 20 + 1), (6, 0)]) (fun s rc h f => isTrap (s.routePages h f false rc).2) = true := by decide +kernel

/-- The descriptor of a selection with other words. -/
def selected (es : List (Nat × Nat)) : State :=
  described (es.foldl (fun l e => l.set e.1 e.2) [11 * 2 ^ 28 + 1, 0x300, 8, 2 ^ 16 + 2, 2 ^ 16, 2 ^ 20, 0x500])
def selArr (s : State) (p : State → List SideAt → Bool) : Bool :=
  passes (s.openRegion.cmdDesc 0x0E 2 (s.u 1).toNat (s.u 2).toNat 64 64) fun s1 y =>
    passes (s1.sideChecks (routeFault s1 y.1 2) (selSides (recWord (recWords y.2)))) p
def sidesClash (xs : List SideAt) : Bool := hullsClash ((xs.take 1).flatMap (·.hull)) ((xs.drop 1).flatMap (·.hull))

theorem witness_RoutingCommands_selections :
    (selReason (wordsOf [11 * 2 ^ 28 + 1, 0x300, 8, 2 ^ 16 + 2, 2 ^ 16]) = 0 ∧ selReason (wordsOf [11 * 2 ^ 28 + 1, 0x300, 4, 2 ^ 16 + 2, 2 ^ 16]) = 3 ∧
      selReason (wordsOf [0xC0000001, 0x300, 8, 2 ^ 16 + 2, 2 ^ 16]) = 1) ∧
    selArr selects (fun _ xs => !sidesClash xs) = true ∧ selArr (selected [(6, 0x300)]) (fun _ xs => sidesClash xs) = true ∧
    selArr (withObject 6 selects) (fun s _ => isTrap (s.arrCheck true 5).2) = true := by decide +kernel

/-! #### Waits, merges, exits and the host -/

theorem witness_SchedulingEvents_tested :
    (let s := testedAt 0x20000000 (imaged (blockIn .saving small))
     s.partyOf 1 = [1] ∧ s.imageTested 1 = true ∧ (imaged (blockIn .saving small)).imageTested 1 = false) ∧
    (testedAt 0x20000000 (imaged (blockIn .restoring small))).imageTested 1 = true ∧
    (let s := upGroups (fun g => { g with entered := 8 }) (blockIn .restoring (declaredAt 0x2000 enterer))
     s.entersFilling 1 = false ∧ s.entersBusy 1 = false ∧ (testedAt 0x200000 s).entersBusy 1 = true) := by decide +kernel

theorem witness_QuantumEnds_waits :
    (quantumDone.march = [] ∧ ∀ k ∈ (quantumDone.commitOrder 1).eraseDups,
      (quantumDone.tracker ((quantumDone.block (quantumDone.group k).blk).core)).length +
        (quantumDone.bankUse ((quantumDone.block (quantumDone.group k).blk).core)).length + 2 ≤ 64) ∧
    (let s := testedAt 0x200000 quantumDone
     s.quantumOver 1 = true ∧ s.commitOrder 1 = [32] ∧ (s.group 32).qrel = [(0, 0), (1, 0)] ∧
       s.writesTested 0 ((s.group 32).qbuf.take 1) = true) ∧
    (let s := upCores (fun c => { c with commits := List.replicate 64 (0x4000, 2000) }) quantumDone
     s.quantumOver 1 = true ∧ s.writesTested 0 ((s.group 32).qbuf.take 1) = false ∧
       s.commitRoom 0 (writeAddrs ((s.group 32).qbuf.take 1)) = false) := by decide +kernel

theorem witness_HostInterface_held :
    ((testedAt 0x200000 (mailing 0)).hostHeld [] (.read 0x200000 4) = true ∧ (mailing 0).hostHeld [] (.read 0x200000 4) = false) ∧
    ((mailing 0).hostHeld [.read 0x200010 4] (.write 0x200000 [1, 2, 3, 4]) = true ∧ (mailing 0).hostHeld [] (.write 0x200000 [1, 2, 3, 4]) = false ∧
      (mailing 0).hostHeld [] (.write 0x30000 [1, 2, 3, 4]) = false ∧ Rule.bar0 (mailing 0) 0x200000 4) ∧
    (let s := testedAt 0x40008 (mailing 0)
     Rule.bitUp s 0 ∧ Rule.bitUp s 2 ∧ s.hostq = [] ∧ s.hostCt < s.now ∧ s.underTest noCore [.glob (s.mbase + 4 * 2) 0] = true) := by
  unfold Rule.bar0 Rule.bitUp
  decide +kernel

theorem witness_BootAndLinks_raised :
    (Rule.unfailed small ∧ ¬ Rule.unfailed { small with fw := false, bootcode := 3 }) ∧
    (let s : State := { readyBits 0x200001 with hwready := 0x600000 }
     Rule.hwUp s 21 ∧ ∃ p, p < 4 ∧ p ≠ 0 ∧ Rule.hwUp s (21 + p)) ∧
    (let s : State := { readyBits 0x200001 with hwready := 0x200000 }
     Rule.hwUp s 21 ∧ ∀ p, p < 4 → p ≠ 0 → ¬ Rule.hwUp s (21 + p)) := by
  unfold Rule.unfailed Rule.hwUp
  refine ⟨by decide +kernel, ⟨by decide +kernel, 1, by decide +kernel⟩, by decide +kernel⟩

/-- Three lanes reach the `gjoin` at which a part of the group with this state waits, over these pending records. -/
def meeting (other : List (Nat × Split)) (stack : List SplitRec) : State :=
  machine { group [] with
    stack := stack
    splits := other.foldl (fun m e => mapPut m e.1 e.2) [(1, { Split.none with pc := 0x10000, members := 0x7, kix := 4 })] }
/-- The group's part with lane 3 waits at this PC. -/
def partAt (pc : Dword) : Split := { Split.none with pc := pc, members := 8, kix := 9, st := .atJoin }
def second (s : State) : State := { s with cs := 1 }
def pendingPart : SplitRec := { sp := { Split.none with pc := 0x10040, members := 16, kix := 2 }, barrier := false }

theorem witness_SplitsAndJoins_merges :
    (let s := second (meeting [(0, partAt 0x10000)] [])
     mapFind s.cur.splits s.cs = some s.csp ∧ mapSortedFrom 0 s.cur.splits = true ∧ mapFind s.cur.splits 0 = some (partAt 0x10000) ∧
       s.cur.splits.length = 2 ∧ takePending s.cur.stack = none ∧
       (let x := (after (.gjoin 0) s).group 32
        x.split 0 = { x.split 0 with pc := 0x10004, members := 15, kix := 4, st := .running } ∧ mapFind x.splits 1 = none)) ∧
    (let s := second (meeting [(0, partAt 0x10000), (2, { partAt 0x10080 with members := 32, st := .running })] [pendingPart])
     mapFind s.cur.splits s.cs = some s.csp ∧ mapSortedFrom 0 s.cur.splits = true ∧ takePending s.cur.stack = some (pendingPart.sp, []) ∧
       freeIndex (mapDel s.cur.splits 1) = some 1 ∧ ∃ e ∈ s.cur.splits, e.1 ≠ s.cs ∧ e.2.st ≠ .atJoin) ∧
    (∃ r ∈ (second (meeting [(0, partAt 0x10000)] [{ pendingPart with barrier := true }])).cur.stack, r.barrier = true) ∧
    (let s := second (meeting [(0, partAt 0x10080)] [])
     s.cur.stack = [] ∧ (∀ e ∈ s.cur.splits, e.1 ≠ s.cs → e.2.st = .atJoin ∧ e.2.pc ≠ s.csp.pc) ∧ 1 < s.cur.splits.length ∧
       mapFind s.cur.splits 1 = some s.csp ∧ ∀ e ∈ s.cur.splits, e.1 ≠ 1 → s.csp.pc.toNat < e.2.pc.toNat) := by decide +kernel

theorem witness_Exits_parts :
    (let s := second (meeting [(0, partAt 0x10000)] [pendingPart])
     mapFind s.groups s.cg = some s.cur ∧ mapFind s.cur.splits s.cs = some s.csp ∧ s.exitBlocked s.csp.members = false ∧
       takePending s.cur.stack = some (pendingPart.sp, []) ∧ freeIndex (mapDel s.cur.splits s.cs) = some 1 ∧
       (s.cur.stack.all fun r => decide (r.sp.members &&& s.csp.members = 0)) = true ∧
       (s.cur.splits.all fun e => decide (e.1 = s.cs) || decide (e.2.members &&& s.csp.members = 0)) = true) ∧
    takePending (second (meeting [(0, partAt 0x10000)] [])).cur.stack = none ∧
    (small.cur.splits = [(small.cs, small.csp)] ∧ small.cur.stack = []) := by decide +kernel

theorem witness_Allocation_shrink :
    (let s := loadTo (.reg 40) true small
     s.regsReady [] [1] = true ∧ 2 ^ 5 < s.cur.alloc ∧ s.curBlock.regsLog2 ≤ 5 ∧ (s.putCur (s.cur.setAlloc 5)).regsReady [3] [] = true ∧
       (∃ p ∈ s.cur.ploads, .reg 40 ∈ p.locs) ∧
       ((after (.galloc 3 1 5) s).cur.ploads.all fun p => !p.locs.contains (.reg 40)) = true) := by decide +kernel

theorem witness_FaultsTaken_recorded :
    (let s := away small
     ((s.group 32).split 0).sup = false ∧ (s.group 32).otherSup 0 = false ∧ (s.group 32).framed = none ∧ (s.block (s.group 32).blk).st ≠ .resident) := by
  decide +kernel

end Sys2Proof.Test
end

/-! SUPPORT. The structured opcodes (spec/05_lane_integer.md R97-R100): their register tests, the counters that they leave, the rows of
R100 against the model's, and the obligation O11. -/
namespace Sys2Proof.Machine
open Sys2Proof

/-! ### Registers that no lane reads -/

/-- With no lane that reads, the poison of a source does not matter (R276): numbers, scoreboard and rows under test decide alone. -/
theorem operands_ok_of_no_lane {s : State} {ws rs : List Reg} (h : s.regsReady (ws ++ rs) [] = true) :
    s.operands 0 ws rs = .ok () := by
  have hw := operands_ok h 0
  simp only [State.operands, List.append_nil, poisonedReg] at hw ⊢
  cases hb : badReg s.cur s.csp (ws ++ rs) with
  | some e => simp only [hb] at hw; cases hw
  | none =>
    simp only [hb] at hw ⊢
    split at hw
    · cases hw
    · next hs =>
      rw [if_neg hs]
      cases poisonedReg s.cur s.csp rs <;> rfl

/-- The sources of a lane-form instruction that writes no register pass their tests: they are ready to be read, or no lane is active and
they are ready but for poison. -/
theorem laneRegs_ok_of_ready {s : State} {reads : List Reg}
    (h : s.regsReady [] reads = true ∨ s.regsReady reads [] = true ∧ s.active = 0) : s.laneRegs [] reads = .ok () := by
  rcases h with hr | ⟨hr, ha⟩
  · exact operands_ok hr _
  · rw [State.laneRegs, ha]
    exact operands_ok_of_no_lane hr

/-! ### Setting the counters of the members -/

/-- The counters of the lanes `m` become `f` of them. -/
def Group.setCounters (g : Group) (m : LaneMask) (f : Nat → Nat) : Group :=
  { g with cnt := (lanesOf m).foldl (fun c l => mapSet 0 c l (BitVec.ofNat 8 (f l))) g.cnt }

@[simp] theorem Group.setCounters_split (g : Group) (m : LaneMask) (f : Nat → Nat) (i : Nat) :
    (g.setCounters m f).split i = g.split i := rfl
@[simp] theorem Group.setCounters_retired (g : Group) (m : LaneMask) (f : Nat → Nat) :
    (g.setCounters m f).retired = g.retired := rfl

theorem Group.counter_setCounters (g : Group) (m : LaneMask) (f : Nat → Nat) (lane : Nat) :
    (g.setCounters m f).counter lane = if m.getLsbD lane = true then f lane % 256 else g.counter lane := by
  simp only [Group.setCounters, Group.counter, mapGet_foldl_lanes 0 (fun l => BitVec.ofNat 8 (f l)), mem_lanesOf]
  split <;> simp

/-- Every member lane's counter of the current split becomes `f` of it. -/
def State.setCounters (s : State) (f : Nat → Nat) : State := s.putCur (s.cur.setCounters s.csp.members f)

theorem State.counter_setCounters (s : State) (f : Nat → Nat) (lane : Nat) :
    (s.setCounters f).cur.counter lane = if s.csp.members.getLsbD lane = true then f lane % 256 else s.cur.counter lane := by
  rw [State.setCounters, State.cur_putCur, Group.counter_setCounters]

@[simp] theorem Group.counter_retire (g : Group) (sp : Split) (q lane : Nat) : (g.retire sp q).counter lane = g.counter lane := by
  rw [Group.retire_frame]; rfl
@[simp] theorem Group.counter_putSplit (g : Group) (i : Nat) (sp : Split) (lane : Nat) :
    (g.putSplit i sp).counter lane = g.counter lane := rfl
@[simp] theorem State.counter_advance (s : State) (lane : Nat) : s.advance.cur.counter lane = s.cur.counter lane := by
  simp [State.advance, State.jump]

/-- Setting the members' counters and going on behind the instruction changes nothing else. -/
theorem counterStep_setCounters_advance (s : State) (f : Nat → Nat) :
    CounterStep s (s.setCounters f).advance (s.csp.pc + 4) := by
  refine ⟨⟨rfl, fun k hk => ?_⟩, fun q => ?_, ?_, ?_, ?_, fun i hi => ?_, fun lane hl => ?_⟩
  · simp only [State.advance, State.jump, State.setCounters]
    rw [State.group_putCur_ne _ _ (by simpa using hk), State.group_putCur_ne _ _ hk]
  · cases q <;> rfl
  · simp [Retired, State.advance, State.jump, State.setCounters, Group.retire_retired]
  · simp only [State.advance, State.jump, State.setCounters, State.cur_putCur]
    rw [Group.retire_frame]
    rfl
  · simp [State.advance, State.jump, State.setCounters]
  · simp only [State.advance, State.jump, State.setCounters, State.cur_putCur, State.putCur_cs]
    rw [Group.split_putSplit_ne _ _ hi]
    simp
  · rw [State.counter_advance, State.counter_setCounters, hl]
    rfl

/-! ### What a structured opcode does -/

section
variable {s : State} {op : NestOp} {cond : Nat → Bool}

theorem nest_ok (h : ∀ l, s.csp.members.getLsbD l = true → nestNext op (s.cur.counter l) (cond l) < 256) :
    s.nest op cond = .ok (s.setCounters fun l => nestNext op (s.cur.counter l) (cond l)) := by
  have hbad : ((lanesOf s.csp.members).filter fun l => decide (256 ≤ nestNext op (s.cur.counter l) (cond l))) = [] := by
    rw [List.filter_eq_nil_iff]
    intro l hl
    have := h l (mem_lanesOf.mp hl)
    simpa using this
  simp only [State.nest, hbad]
  rfl

theorem nest_trap (h : ∃ l, s.csp.members.getLsbD l = true ∧ 256 ≤ nestNext op (s.cur.counter l) (cond l)) :
    s.nest op cond = .error (.trap (mkTrap fNest 0 0
      (maskOf ((lanesOf s.csp.members).filter fun l => decide (256 ≤ nestNext op (s.cur.counter l) (cond l)))))) := by
  obtain ⟨l, hl, hn⟩ := h
  have hbad : l ∈ (lanesOf s.csp.members).filter fun l => decide (256 ≤ nestNext op (s.cur.counter l) (cond l)) :=
    List.mem_filter.mpr ⟨mem_lanesOf.mpr hl, decide_eq_true hn⟩
  simp only [State.nest, List.isEmpty_eq_false_iff_exists_mem.mpr ⟨l, hbad⟩]
  rfl

/-- Registers that pass their tests and counters that stay below 256: every member lane gets its new counter. -/
theorem nestOp_next {reads : List Reg} (hr : s.laneRegs [] reads = .ok ())
    (h : ∀ l, s.csp.members.getLsbD l = true → nestNext op (s.cur.counter l) (cond l) < 256) :
    ∃ t, nestOp s reads op cond = .next t ∧ CounterStep s t (s.csp.pc + 4) ∧
      ∀ l, s.csp.members.getLsbD l = true → t.cur.counter l = nestNext op (s.cur.counter l) (cond l) := by
  refine ⟨_, ?_, counterStep_setCounters_advance s fun l => nestNext op (s.cur.counter l) (cond l), fun l hl => ?_⟩
  · simp only [nestOp, hr, nest_ok h]
  · rw [State.counter_advance, State.counter_setCounters, if_pos hl, Nat.mod_eq_of_lt (h l hl)]

/-- A counter that would reach 256 raises `F_NEST` on its lanes. -/
theorem nestOp_trap {reads : List Reg} (hr : s.laneRegs [] reads = .ok ())
    (h : ∃ l, s.csp.members.getLsbD l = true ∧ 256 ≤ nestNext op (s.cur.counter l) (cond l)) :
    nestOp s reads op cond = .next (s.trapCur (mkTrap fNest 0 0
      (maskOf ((lanesOf s.csp.members).filter fun l => decide (256 ≤ nestNext op (s.cur.counter l) (cond l)))))) := by
  simp only [nestOp, hr, nest_trap h, settle_trap]

end

/-! ### The rows of R99 and R100 -/

theorem ifCond_eq (m : Nat) (x : Word) :
    ifCond m x = match m with
      | 0 => decide (x ≠ 0)
      | 1 => decide (x = 0)
      | 2 => decide (x.toInt < 0)
      | _ => decide (0 ≤ x.toInt) :=
  match m with
  | 0 => rfl
  | 1 => rfl
  | 2 => BitVec.slt_eq_decide
  | _ + 3 => BitVec.sle_eq_not_slt.symm.trans BitVec.sle_eq_decide

theorem loopMode_eq (i : BitVec 10) : loopMode i = (i.extractLsb' 8 2).toNat := by
  have := i.isLt
  simp only [loopMode, BitVec.extractLsb'_toNat, Nat.shiftRight_eq_div_pow]
  omega

theorem loopDepth_eq (i : BitVec 10) : loopDepth i = (i.extractLsb' 0 8).toNat := by
  simp [loopDepth, BitVec.extractLsb'_toNat]

theorem loopReads_eq (a : Reg) (i : BitVec 10) : (if loopMode i < 2 then [a] else []) = Rule.loopReads a i := by
  rw [loopMode_eq, Rule.loopReads]

theorem loopCond_eq (i : BitVec 10) (x : Word) : loopCond (loopMode i) x = Rule.loopTest i x := by
  rw [loopMode_eq]
  rfl

theorem nestNext_ifOp (c : Nat) (b : Bool) :
    nestNext .ifOp c b = if 0 < c then c + 1 else if b = true then 0 else 1 := by
  cases c <;> simp [nestNext]

theorem nestNext_lbegOp (c : Nat) (b : Bool) : nestNext .lbegOp c b = if 0 < c then c + 2 else 0 := by
  cases c <;> simp [nestNext]

/-- The model runs each row of R100 as its own structured opcode: with the row's sources and the row's c′. -/
theorem exec_eq_nestOp_of_nesting {i : Instr} {s : State} {reads : List Reg} {next : Nat → Nat → Nat}
    (h : Rule.nesting s i = some (reads, next)) :
    ∃ op cond, exec i s = nestOp s reads op cond ∧ ∀ l c, nestNext op c (cond l) = next l c := by
  cases i with
  | laneIf a m =>
    cases h
    refine ⟨.ifOp, fun l => ifCond m.toNat (s.x l a), rfl, fun l c => (nestNext_ifOp c _).trans ?_⟩
    exact congrArg (fun b => if 0 < c then c + 1 else if b = true then 0 else 1) (ifCond_eq m.toNat (s.x l a))
  | laneIfi a i =>
    cases h
    exact ⟨.ifOp, fun l => decide (s.x l a &&& zimm i ≠ 0), rfl, fun l c => nestNext_ifOp c _⟩
  | laneElse => cases h; exact ⟨.elseOp, fun _ => false, rfl, fun _ _ => rfl⟩
  | endif => cases h; exact ⟨.endifOp, fun _ => false, rfl, fun _ _ => rfl⟩
  | lbeg => cases h; exact ⟨.lbegOp, fun _ => false, rfl, fun _ c => nestNext_lbegOp c _⟩
  | brk a i =>
    cases h
    refine ⟨.brkOp (loopDepth i), fun l => loopCond (loopMode i) (s.x l a), ?_, fun l c => ?_⟩
    · rw [← loopReads_eq]; rfl
    · simp only [nestNext, loopCond_eq, loopDepth_eq]
  | cont a i =>
    cases h
    refine ⟨.contOp (loopDepth i), fun l => loopCond (loopMode i) (s.x l a), ?_, fun l c => ?_⟩
    · rw [← loopReads_eq]; rfl
    · simp only [nestNext, loopCond_eq, loopDepth_eq]
  | lnext => cases h; exact ⟨.lnextOp, fun _ => false, rfl, fun _ _ => rfl⟩
  | lend => cases h; exact ⟨.lendOp, fun _ => false, rfl, fun _ _ => rfl⟩
  | _ => cases h

/-- Settles O11: each row of R100 is a structured opcode of the model (`exec_eq_nestOp_of_nesting`), which sets the members' counters
(`nestOp_next`) or raises `F_NEST` (`nestOp_trap`). -/
theorem nestingCounters : Obligations.NestingCounters := by
  intro i s reads next hrow hready
  obtain ⟨op, cond, hexec, hnext⟩ := exec_eq_nestOp_of_nesting hrow
  have hregs := laneRegs_ok_of_ready hready
  simp only [hexec, ← hnext]
  exact ⟨nestOp_next hregs, nestOp_trap hregs⟩

end Sys2Proof.Machine

/-! SUPPORT. The entry into a handler (spec/17_system.md R271-R274): when a fault enters its handler at once, the parts of the fault
register, and the group that the entry leaves. On it the obligation O20 about `gtrap` (R280). -/
namespace Sys2Proof.Machine
open Sys2Proof

/-! ### A fault that enters its handler at once -/

theorem mem_of_mapFind_eq_some {α : Type} {m : SMap α} {k : Nat} {v : α} (h : mapFind m k = some v) : (k, v) ∈ m := by
  induction m with
  | nil => cases h
  | cons e r ih =>
    obtain ⟨j, w⟩ := e
    rw [mapFind] at h
    split at h
    · next hj =>
      cases h
      rw [hj]
      exact List.mem_cons_self
    · exact List.mem_cons_of_mem _ (ih h)

/-- A split other than `i` that is in its handler is listed among the group's splits. -/
theorem Group.otherSup_of_sup {g : Group} {i j : Nat} (hne : j ≠ i) (hsup : (g.split j).sup = true) : g.otherSup i = true := by
  unfold Group.split at hsup
  cases hf : mapFind g.splits j with
  | none => rw [hf] at hsup; cases hsup
  | some sp =>
    rw [hf] at hsup
    have hany : g.splits.any (fun e => decide (e.1 ≠ i) && e.2.sup) = true :=
      List.any_eq_true.mpr ⟨(j, sp), mem_of_mapFind_eq_some hf, by simpa using ⟨hne, hsup⟩⟩
    rw [Group.otherSup, hany, Bool.true_or]

/-- With no other split in its handler and no fault still to enter, R274 gives no fault the precedence. -/
theorem Group.youngFrame_eq_none {g : Group} {i now : Nat} (hother : g.otherSup i = false) (hframed : g.framed = none) :
    g.youngFrame i now = none := by
  simp only [Group.youngFrame]
  split
  · refine if_neg ?_
    rintro ⟨-, hlt, hsup | hfr⟩
    · rw [Group.otherSup_of_sup hlt.ne' hsup] at hother
      cases hother
    · rw [hframed] at hfr
      cases hfr
  · rfl

theorem takeFault_of_entersHandler {s : State} {k i : Nat} (t : Trap) (h : Rule.entersHandler s k i) :
    takeFault s k i t = enterHandler s k i t s.now := by
  obtain ⟨hsup, hother, hframed, hres⟩ := h
  simp [takeFault, hsup, Group.youngFrame_eq_none hother hframed, hother, hframed, takeFrame, hres]

theorem takeFault_of_sup {s : State} {k i : Nat} (t : Trap) (h : ((s.group k).split i).sup = true) :
    takeFault s k i t = doubleFault s k i := by
  simp [takeFault, h]

theorem State.flushSvc_of_svcWait_nil {s : State} (h : s.svcWait = []) : s.flushSvc = s := by
  rw [State.flushSvc, h]

/-! ### The fault register -/

theorem fcodeWord_code (i : Nat) (t : Trap) : (fcodeWord i t).extractLsb' 0 8 = BitVec.ofNat 8 t.code := by
  apply BitVec.eq_of_toNat_eq
  simp only [fcodeWord, BitVec.extractLsb'_toNat, BitVec.toNat_ofNat, Nat.shiftRight_zero]
  split <;> omega

theorem fcodeWord_detail (i : Nat) (t : Trap) : (fcodeWord i t).extractLsb' 8 8 = BitVec.ofNat 8 t.detail := by
  apply BitVec.eq_of_toNat_eq
  simp only [fcodeWord, BitVec.extractLsb'_toNat, BitVec.toNat_ofNat, Nat.shiftRight_eq_div_pow]
  split <;> omega

/-! ### The group after the entry -/

section
variable (s : State) (k i : Nat) (t : Trap) (since : Nat)

@[simp] theorem enterHandler_cg : (enterHandler s k i t since).cg = s.cg := rfl
@[simp] theorem enterHandler_cs : (enterHandler s k i t since).cs = s.cs := rfl

theorem fvecOf_recordFault : (recordFault s k i t since).fvecOf k = s.fvecOf k := by
  simp [State.fvecOf, recordFault]

@[simp] theorem enterHandler_fcode : ((enterHandler s k i t since).group k).fcode = fcodeWord i t := by
  simp [enterHandler, beginHandler, recordFault]

@[simp] theorem enterHandler_faddr : ((enterHandler s k i t since).group k).faddr = t.addr := by
  simp [enterHandler, beginHandler, recordFault]

@[simp] theorem enterHandler_fmask : ((enterHandler s k i t since).group k).fmask = t.mask := by
  simp [enterHandler, beginHandler, recordFault]

@[simp] theorem enterHandler_fregion : ((enterHandler s k i t since).group k).fregion =
    (((enterHandler s k i t since).group k).split i).region := by
  simp [enterHandler, beginHandler, recordFault]

@[simp] theorem enterHandler_split_sup : (((enterHandler s k i t since).group k).split i).sup = true := by
  simp [enterHandler, beginHandler]

@[simp] theorem enterHandler_split_pc : (((enterHandler s k i t since).group k).split i).pc = s.fvecOf k := by
  simp [enterHandler, beginHandler, fvecOf_recordFault]

/-- R273: a fault in part, or `F_TRAP`, moves the region entry behind the instruction. -/
theorem enterHandler_split_region : (((enterHandler s k i t since).group k).split i).region =
    if t.part = true ∨ t.code = fTrap then ((s.group k).split i).pc + 4 else ((s.group k).split i).region := by
  simp only [enterHandler, beginHandler, recordFault, State.group_putGroup_same, Group.split_putSplit_same, Bool.or_eq_true,
    decide_eq_true_eq]
  split <;> rfl

end

/-! ### `gtrap` -/

/-- The opcode 0xA9 over a field of 17 bits, with no carry between them. -/
theorem encode_gtrap (j : BitVec 17) : encode (.gtrap j) = some (0xA9000000 + j.setWidth 32) := by
  refine congrArg some (BitVec.eq_of_toNat_eq ?_)
  have hlt := j.isLt
  calc (packW 0xA9 0 j).toNat
      = 0xA9000000 + j.toNat := by
        rw [packW, BitVec.toNat_append, ← Nat.shiftLeft_add_eq_or_of_lt hlt]
        rfl
    _ = (0xA9000000 + j.setWidth 32 : Word).toNat := by
        simp only [BitVec.toNat_add, BitVec.toNat_setWidth, BitVec.ofNat_eq_ofNat, BitVec.toNat_ofNat]
        omega

/-- The trap of a `gtrap` (R271): code `F_TRAP`, detail imm17[7:0], address imm17, the leader's bit as mask. -/
def gtrapFault (s : State) (j : BitVec 17) : Trap := Rule.leaderTrap s 0x0B (j.toNat % 256) j.toNat

theorem gtrapFault_addr (s : State) (j : BitVec 17) : (gtrapFault s j).addr = j.setWidth 64 := BitVec.ofNat_toNat 64 j

theorem gtrapFault_detail (s : State) (j : BitVec 17) : BitVec.ofNat 8 (gtrapFault s j).detail = j.setWidth 8 := by
  apply BitVec.eq_of_toNat_eq
  simp [gtrapFault, Rule.leaderTrap]

theorem exec_gtrap (j : BitVec 17) (s : State) :
    exec (.gtrap j) s = .next (s.trapCur (gtrapFault s j)) :=
  settle_trap s _

theorem exec_gtrap_of_sup (j : BitVec 17) {s : State} (h : s.csp.sup = true) :
    exec (.gtrap j) s = .next (doubleFault s s.cg s.cs).flushSvc := by
  rw [exec_gtrap, State.trapCur, takeFault_of_sup _ h]

/-- With no record waiting, a `gtrap` whose split may enter its handler does nothing but enter it. -/
theorem exec_gtrap_of_entersHandler (j : BitVec 17) {s : State} (h : Rule.entersHandler s s.cg s.cs) (hw : s.svcWait = []) :
    exec (.gtrap j) s = .next (enterHandler s s.cg s.cs (gtrapFault s j) s.now) := by
  rw [exec_gtrap, State.trapCur, takeFault_of_entersHandler _ h, State.flushSvc_of_svcWait_nil (s := enterHandler ..) hw]

/-- Settles O20: a `gtrap` whose split may enter its handler does only that (`exec_gtrap_of_entersHandler`), and the laws of
`enterHandler` give the fields of R271; in the handler its fault is a double fault (`exec_gtrap_of_sup`). -/
theorem deliberateTrap : Obligations.DeliberateTrap := by
  intro s j
  refine ⟨encode_gtrap j, exec_gtrap j s, exec_gtrap_of_sup j, fun henter hwait =>
    ⟨_, exec_gtrap_of_entersHandler j henter hwait, ?_⟩⟩
  have hregion := enterHandler_split_region s s.cg s.cs (gtrapFault s j) s.now
  rw [if_pos (.inr rfl)] at hregion
  simp only [State.csp, State.cur, enterHandler_cg, enterHandler_cs, enterHandler_split_sup, enterHandler_split_pc,
    enterHandler_fregion, enterHandler_faddr, enterHandler_fmask, enterHandler_fcode, hregion, fcodeWord_code, fcodeWord_detail]
  exact ⟨trivial, trivial, trivial, trivial, gtrapFault_addr s j, rfl, rfl, gtrapFault_detail s j⟩

end Sys2Proof.Machine
